-- ==== Sys2Proof/Word.lean ====
section
/-! DEFINITION. The words the commands of the DT-26 carry, and the structures that group them. -/

namespace Sys2Proof

/-- A byte of the tally line. -/
abbrev Byte := BitVec 8

/-- A 16-bit value: a key, a sequence, a word of the configuration image. -/
abbrev Half := BitVec 16

/-- A data word of the descriptor bus. -/
abbrev Word := BitVec 32

/-- A tick count value: a 32-bit modulo time (02 R30). -/
abbrev Tick := BitVec 32

/-- One word of a bus transfer with its four byte parity bits (01 R1, R7; 10 section 10.4, S_DATA and S_PAR). -/
structure BusWord where
  data : BitVec 32
  par  : BitVec 4
  deriving DecidableEq, Repr, Inhabited

/-- The levels of the strap pins (10 section 10.4). -/
structure Straps where
  addr  : BitVec 4
  baud  : BitVec 2
  par   : Bool
  bdiv  : BitVec 2
  chord : Bool
  deriving DecidableEq, Repr

/-- The input levels a tick samples, true for high: the panel inputs (08 R143), TL_RX (09 R149), CFG_MISO (10 R165) and the strap pins
as they then stand (09 R148 samples three of them again at a RESTART). -/
structure Pins where
  clrA    : Bool
  clrB    : Bool
  ack     : Bool
  tlRx    : Bool
  cfgMiso : Bool
  straps  : Straps
  deriving DecidableEq, Repr

/-- The three panel inputs (08 R143). -/
inductive PanelInput where
  | clrA
  | clrB
  | ack
  deriving DecidableEq, Repr

/-- The values of DEFINE FLOW after the key pair, in the widths of the request payload (10 R169). -/
structure FlowArgs where
  period        : BitVec 32
  early         : BitVec 32
  late          : BitVec 32
  budget        : BitVec 32
  missLimit     : BitVec 32
  lateLimit     : BitVec 32
  lossLimit     : BitVec 32
  disorderLimit : BitVec 32
  deriving DecidableEq, Repr

end Sys2Proof
end

