-- ==== Sys2Proof/Syntax.lean ====
section
/-! DEFINITION. The commands of the DT-26: one constructor per row of spec/opcode_table.json, in the table's order.
The table gives no operands; those below are the values the spec's rules say the step takes. A request carries the address of
its address character (09 R150), then its payload fields in the widths of 10 R169. -/

namespace Sys2Proof

inductive Instr where
  /-- POWER_ON (R164), with the levels of the strap pins. -/
  | powerOn (straps : Straps)
  /-- BUS_TRANSFER (R3): direction, start word address, S_LEN (0 to 3 for 1 to 4 words), the data words of a write. -/
  | busTransfer (write : Bool) (addr : BitVec 22) (slen : BitVec 2) (data : List BusWord)
  /-- READ_DATA_CHECK (R1, R19): the words of read data the memory returns for one read. -/
  | readDataCheck (data : List BusWord)
  /-- BUS_RESET (R25): assertion of SW_RST_N. -/
  | busReset
  /-- TICK (R30), with the input levels sampled at it. -/
  | tick (pins : Pins)
  /-- REF_LOSS (R35). -/
  | refLoss
  /-- MEASUREMENT_COMPLETION (R36). -/
  | measurementCompletion
  /-- MILLISECOND_STROBE (R107). -/
  | millisecondStrobe
  /-- SECONDS_STROBE (R39). -/
  | secondsStrobe
  /-- SWEEP_PACE (R104). -/
  | sweepPace
  /-- SILENCE_TICK (R24). -/
  | silenceTick
  /-- BOUNDARY (R110). -/
  | boundary
  /-- DEBOUNCED_STATE_CHANGE (R143) of one panel input. -/
  | debouncedStateChange (input : PanelInput)
  /-- ADDRESS_CHARACTER (R150): the data of a character with mark bit 1, and whether it was received with an error. -/
  | addressCharacter (data : Byte) (error : Bool)
  /-- DATA_CHARACTER (R151): the data of a character with mark bit 0, and whether it was received with an error. -/
  | dataCharacter (data : Byte) (error : Bool)
  /-- GAP_LIMIT_EXPIRY (R151). -/
  | gapLimitExpiry
  /-- QUIET_LIMIT_EXPIRY (R152). -/
  | quietLimitExpiry
  /-- REPLY_START (R155). -/
  | replyStart
  /-- REPLY_END (R155). -/
  | replyEnd
  /-- LOAD_END (R166): the bytes the configuration memory gives after those that the loader has clocked in (R165). -/
  | loadEnd (image : List Byte)
  /-- STATUS (R157). -/
  | status (addr : Byte)
  /-- READ FLOW (R158): entry index, part. -/
  | readFlow (addr : Byte) (index part : Byte)
  /-- FIND FLOW (R58): ring index, key. -/
  | findFlow (addr : Byte) (ring : Byte) (key : Half)
  /-- DEFINE FLOW (R54): ring index, key, values. -/
  | defineFlow (addr : Byte) (ring : Byte) (key : Half) (args : FlowArgs)
  /-- REMOVE FLOW (R57): entry index. -/
  | removeFlow (addr : Byte) (index : Byte)
  /-- SET PERIOD (R82): entry index, period. -/
  | setPeriod (addr : Byte) (index : Byte) (period : BitVec 32)
  /-- READ RING (R159): ring index, part. -/
  | readRing (addr : Byte) (ring part : Byte)
  /-- DEFINE RING (R26): ring index, base field, slot count, options. -/
  | defineRing (addr : Byte) (ring : Byte) (base : BitVec 24) (slots : Half) (options : Byte)
  /-- RING OFF (R27): ring index. -/
  | ringOff (addr : Byte) (ring : Byte)
  /-- READ SUMMARY (R160): period number, part. -/
  | readSummary (addr : Byte) (number : Half) (part : Byte)
  /-- TAKE INCIDENTS (R128): count. -/
  | takeIncidents (addr : Byte) (count : Byte)
  /-- ACKNOWLEDGE (R139): class set, bit c for class c. -/
  | acknowledge (addr : Byte) (classes : Byte)
  /-- SET ALARM MAP (R140): a class per kind, mask, priority word, clear modes. -/
  | setAlarmMap (addr : Byte) (classes : Vector Byte 14) (mask priority modes : Byte)
  /-- SET TALLY PERIOD (R108): code. -/
  | setTallyPeriod (addr : Byte) (code : Byte)
  /-- CLEAR TALLIES (R118). -/
  | clearTallies (addr : Byte)
  /-- RESTART (R163). -/
  | restart (addr : Byte)
  /-- START (R162). -/
  | start (addr : Byte)
  /-- SEEN_RISING_EDGE (R34). -/
  | seenRisingEdge
  /-- BUS_CLOCK (R33), with the REF level sampled at it. -/
  | busClock (ref : Bool)
  /-- SW_RST_N_RELEASE (R25). -/
  | swRstNRelease
  deriving DecidableEq, Repr

end Sys2Proof
end

