-- ==== Sys2Proof/Decode.lean ====
section
/-! DEFINITION. Reading a command from the bits of an opcode-table row: spec/opcode_table.json gives no row any bits, so no word
spells a command (log entry 27). -/

namespace Sys2Proof

/-- The command a word spells by the table's bits: none, for every width and word. -/
def decodeTableWord (_nbits _w : Nat) : Option Instr := none

end Sys2Proof
end

