-- ==== Sys2Proof/Config.lean ====
section
/-! DEFINITION. The sizes the part fixes. No rule of the spec leaves the result of a command open, so there is no free value here;
INVENTORY.md, "What the manual leaves open", lists the choices of the model. -/

namespace Sys2Proof.Config

/-- Record places of the slot store (01 R8). -/
abbrev slotStoreSize : Nat := 2048

/-- Records the incident log holds (07 R122). -/
abbrev logSize : Nat := 64

/-- Summaries the history holds (06 R116). -/
abbrev historySize : Nat := 16

/-- Ticks a panel input must hold a level (02 R42, 08 R143). -/
abbrev debounceTicks : Nat := 40000

/-- Bus clocks without a seen edge that declare a REF loss (02 R35). -/
abbrev lossClocks : Nat := 256

/-- Idle periods after which a learned flow is retired (03 R59). -/
abbrev idleLimit : Nat := 16

end Sys2Proof.Config
end

