-- ==== Sys2Proof/Machine/State.lean ====
section
/-! DEFINITION. The state of the DT-26 as plain data, the reasons a step can stop, and the state after reset. INVENTORY.md,
"State", gives the rule and the reset value of every field. -/

namespace Sys2Proof.Machine

/-- Why a command would stop the part. No rule of the spec stops it, so there is no reason, and no command answers with a fault. -/
inductive Fault where
  deriving DecidableEq, Repr

/-- Why a command has no meaning. -/
inductive Refusal where
  /-- A command not modelled yet, by its name in spec/opcode_table.json. Only an arm of exec may answer so (safe: the run ends);
  no arm does. -/
  | notModelled (mnemonic : String)
  deriving DecidableEq, Repr

/-- A ring index, 0 to 15 (01 section 1.2). -/
abbrev RingIx := Fin 16

/-- A flow directory index, 0 to 255 (03 R45). -/
abbrev FlowIx := Fin 256

/-! ## Rings and slots -/

/-- Silence state of a ring (01 R21). -/
inductive SilenceState where
  | active
  | silent
  deriving DecidableEq, Repr

/-- The flow a pending record was credited to at arrival, with the generation of its entry then (01 R8). -/
structure FlowRef where
  index : FlowIx
  gen   : BitVec 4
  deriving DecidableEq, Repr

/-- A pending record (01 R8). -/
structure PendingRecord where
  flow  : Option FlowRef
  key   : Half
  seq   : BitVec 16
  stamp : Tick
  deriving DecidableEq, Repr

/-- A ring record (01 R21) with the pending records of its HELD slots, keyed by slot index (R8). -/
structure RingRecord where
  enabled             : Bool
  base                : BitVec 22
  slotCount           : Nat
  stampOn             : Bool
  autoEnrol           : Bool
  silence             : SilenceState
  silenceCounter      : Nat
  held                : Nat
  highWater           : Nat
  enqueued            : BitVec 32
  departed            : BitVec 32
  withdrawn           : BitVec 32
  overwritten         : BitVec 32
  flushed             : BitVec 32
  untrackedArrivals   : Nat
  untrackedDepartures : Nat
  phantomReads        : Nat
  strayAccesses       : Nat
  parityFaults        : Nat
  stampMismatches     : Nat
  histogram           : Vector Nat 8
  slots               : List (Nat × PendingRecord)
  deriving DecidableEq, Repr

/-- A ring record after power-on and after RESTART (01 R21, R29). -/
def RingRecord.init : RingRecord where
  enabled := false
  base := 0
  slotCount := 8
  stampOn := false
  autoEnrol := false
  silence := .active
  silenceCounter := 0
  held := 0
  highWater := 0
  enqueued := 0
  departed := 0
  withdrawn := 0
  overwritten := 0
  flushed := 0
  untrackedArrivals := 0
  untrackedDepartures := 0
  phantomReads := 0
  strayAccesses := 0
  parityFaults := 0
  stampMismatches := 0
  histogram := Vector.replicate 8 0
  slots := []

/-! ## Path stage -/

/-- A transfer on one of the two buses (01 R1). -/
structure Transfer where
  write : Bool
  addr  : BitVec 22
  slen  : BitVec 2
  data  : List BusWord
  deriving DecidableEq, Repr

/-- The path stage (01 R1): what is on its way with the bus clocks it still has to go, and what left at the latest bus clock. -/
structure PathStage where
  toMemory   : List (Nat × Transfer)
  memorySide : List Transfer
  toSwitch   : List (Nat × List BusWord)
  switchSide : List (List BusWord)
  deriving DecidableEq, Repr

def PathStage.init : PathStage := ⟨[], [], [], []⟩

/-- The checks of a descriptor read whose data have not yet passed (01 R3, R17): its ring and slot, and the arrival stamp of the
record the departure removed (absent for a phantom read, R20). -/
structure ReadCheck where
  ring  : RingIx
  slot  : Nat
  stamp : Option Tick
  deriving DecidableEq, Repr

/-! ## Values of the configuration image -/

/-- The descriptor profile (01 section 1.3). -/
structure Profile where
  keyWord    : Fin 4
  keyUpper   : Bool
  seqWord    : Fin 4
  seqUpper   : Bool
  dispWord   : Fin 4
  dispNibble : Fin 8
  voidCode   : BitVec 4
  stampWord  : Option (Fin 4)
  deriving DecidableEq, Repr

/-- The default profile (01 section 1.3). -/
def Profile.default : Profile where
  keyWord := 2
  keyUpper := true
  seqWord := 2
  seqUpper := false
  dispWord := 1
  dispNibble := 7
  voidCode := 15
  stampWord := some 3

/-- Tolerances, residence budget and limits of a flow (03 R48). -/
structure FlowParams where
  early         : Nat
  late          : Nat
  budget        : Nat
  missLimit     : Nat
  lateLimit     : Nat
  lossLimit     : Nat
  disorderLimit : Nat
  deriving DecidableEq, Repr

/-- The learned-flow defaults without a used image (03 R48). -/
def FlowParams.learnedDefault : FlowParams := ⟨1000, 1000, 0, 0, 0, 0, 0⟩

/-- The device-wide values a load sets (01 section 1.3; 03 R46, R48; 04 R68; 05 R92). -/
structure DeviceValues where
  profile       : Profile
  keyMask       : Half
  silenceCount  : Nat
  resync        : Nat
  learnedParams : FlowParams
  deriving DecidableEq, Repr

/-- The pre-load values (10 R166 step 1). -/
def DeviceValues.preload : DeviceValues := ⟨Profile.default, 0xFFFF, 8, 1024, FlowParams.learnedDefault⟩

/-! ## Flows -/

/-- Origin of a flow (03 R47). -/
inductive Origin where
  | static
  | learned
  deriving DecidableEq, Repr

/-- The learning context (03 R48, 04 R62). -/
structure LearningContext where
  lastTime  : Option Tick
  lastSeq   : BitVec 16
  intervals : List Nat
  sum       : Nat
  attempt   : Nat
  deriving DecidableEq, Repr

/-- A fresh learning context (03 R48). -/
def LearningContext.fresh : LearningContext := ⟨none, 0, [], 0, 1⟩

/-- State of a non-vacant entry with the parts of the flow record that are present in it (03 R47). -/
inductive Cycle where
  | learning (ctx : LearningContext)
  | waiting  (period : Nat)
  | tracking (period : Nat) (pendingPeriod : Option Nat) (anchor : Tick)
  | silent   (period : Nat) (pendingPeriod : Option Nat) (anchor : Tick)
  | acyclic
  deriving DecidableEq, Repr

/-- The order window (05 R91); bit i of the departed set stands for position top - 32 + i (10 section 10.5). -/
structure OrderWindow where
  synced   : Bool
  top      : BitVec 16
  departed : BitVec 32
  deriving DecidableEq, Repr

/-- The order window of an entry leaving VACANT (05 R91). -/
def OrderWindow.unsynced : OrderWindow := ⟨false, 0, BitVec.allOnes 32⟩

/-- The fifteen running tallies (03 R48). -/
structure RunningTallies where
  arrivals       : Nat
  departures     : Nat
  onTime         : Nat
  early          : Nat
  lateArrivals   : Nat
  missed         : Nat
  surplus        : Nat
  relocks        : Nat
  lateDepartures : Nat
  reordered      : Nat
  stragglers     : Nat
  duplicates     : Nat
  lost           : Nat
  switchDrops    : Nat
  resyncs        : Nat
  deriving DecidableEq, Repr

def RunningTallies.zero : RunningTallies := ⟨0, 0, 0, 0, 0, 0, 0, 0, 0, 0, 0, 0, 0, 0, 0⟩

/-- The twelve tallies kept per flow and period (03 R48) and totalled per summary (06 R112). -/
structure Tallies where
  arrivals       : Nat
  departures     : Nat
  missed         : Nat
  early          : Nat
  lateArrivals   : Nat
  surplus        : Nat
  lateDepartures : Nat
  reordered      : Nat
  stragglers     : Nat
  duplicates     : Nat
  lost           : Nat
  switchDrops    : Nat
  deriving DecidableEq, Repr

def Tallies.zero : Tallies := ⟨0, 0, 0, 0, 0, 0, 0, 0, 0, 0, 0, 0⟩

/-- A flow record (03 R48). -/
structure FlowRecord where
  origin          : Origin
  ring            : RingIx
  key             : Half
  cycle           : Cycle
  params          : FlowParams
  misses          : Nat
  window          : OrderWindow
  running         : RunningTallies
  worstEarly      : Option Int
  worstLate       : Option Int
  worstResidence  : Option Nat
  period          : Tallies
  periodWorst     : Option Nat
  tag             : BitVec 16
  idle            : Nat
  deriving DecidableEq, Repr

/-- A flow directory entry (03 R45, R48): a VACANT entry keeps its generation and holds no value in any other field. -/
structure FlowEntry where
  gen  : BitVec 4
  flow : Option FlowRecord
  deriving DecidableEq, Repr

/-- An entry at power-on and at RESTART (03 R60). -/
def FlowEntry.init : FlowEntry := ⟨0, none⟩

/-! ## Time base -/

/-- Source state of the time base (02 R31). -/
inductive SourceState where
  | nominal
  | locked
  | holdover
  deriving DecidableEq, Repr

/-- Measurement context of the ratio meter (02 R34). -/
inductive Meter where
  | waiting
  | counting (clocks periods blocks : Nat)
  deriving DecidableEq, Repr

/-- The time base (02 R31, R39, R40). -/
structure TimeBase where
  tickCount      : Tick
  source         : SourceState
  strapRatio     : Nat
  ratio          : Nat
  acc            : Nat
  loss           : Nat
  meter          : Meter
  refLast        : Bool
  msCounter      : Nat
  secondsCounter : Nat
  sweepCounter   : Nat
  silenceCounter : Nat
  silenceCode    : BitVec 2
  deriving DecidableEq, Repr

/-- The strap ratio of the BDIV straps (02 R31). -/
def strapRatioOf (bdiv : BitVec 2) : Nat :=
  if bdiv = 0 then 2048 else if bdiv = 1 then 3200 else if bdiv = 2 then 4000 else 6400

/-- The time base after power-on (02 R31, R39, R40). The REF sample before the first is taken high, so that the first sample is no
edge. DEDUCED, log entry 5. -/
def TimeBase.init (bdiv : BitVec 2) : TimeBase where
  tickCount := 0
  source := .nominal
  strapRatio := strapRatioOf bdiv
  ratio := strapRatioOf bdiv
  acc := 0
  loss := 0
  meter := .waiting
  refLast := true
  msCounter := 0
  secondsCounter := 0
  sweepCounter := 0
  silenceCounter := 0
  silenceCode := 1

/-- Events the time base has made and that no command has taken yet (02 R32 to R36, R39, R40). DESIGN CHOICE, log entry 1. -/
structure Due where
  seenEdge      : Bool
  tick          : Bool
  refLoss       : Bool
  measurement   : Option Nat
  msStrobe      : Bool
  secondsStrobe : Bool
  sweepPace     : Bool
  silenceTick   : Bool
  deriving DecidableEq, Repr

def Due.none : Due := ⟨false, false, false, Option.none, false, false, false, false⟩

/-! ## Sweep, tally timer and history -/

/-- State of a summary; the pass marker is present while CLOSING (06 R112, R116). -/
inductive SummaryPhase where
  | opened
  | closing (marker : FlowIx)
  | final
  deriving DecidableEq, Repr

/-- Time quality of a summary (02 R43). -/
inductive Quality where
  | locked
  | degraded
  deriving DecidableEq, Repr

/-- A summary (06 R112). -/
structure Summary where
  number              : BitVec 16
  startTime           : Tick
  endTime             : Option Tick
  lengthCode          : Nat
  phase               : SummaryPhase
  quality             : Quality
  totals              : Tallies
  untrackedArrivals   : Nat
  untrackedDepartures : Nat
  flowsOver           : Nat
  worst               : Option (Nat × FlowIx)
  peakHeld            : Nat
  deriving DecidableEq, Repr

/-- The period number, the tally timer, its codes and the history (06 R106, R107, R108, R116). -/
structure TallyState where
  periodNumber : BitVec 16
  timer        : Nat
  code         : Nat
  pendingCode  : Option Nat
  history      : List Summary
  deriving DecidableEq, Repr

/-- The tally side at power-on and at RESTART (06 R120). -/
def TallyState.init : TallyState := ⟨0, 0, 1, none, []⟩

/-! ## Incident log and alarm resolver -/

/-- The fourteen incident kinds (07 section 7.1). -/
inductive IncidentKind where
  | flowMiss
  | flowLate
  | flowLoss
  | flowDisorder
  | flowSilent
  | flowAcyclic
  | flowRetired
  | directoryFull
  | ringSilent
  | ringParity
  | ringStamp
  | ringFlush
  | timeHoldover
  | configFault
  deriving DecidableEq, Repr

/-- The subject of an incident (07 section 7.1). -/
inductive Subject where
  | device
  | ring (r : RingIx)
  | flow (i : FlowIx)
  deriving DecidableEq, Repr

/-- An alarm class, 0 to 6; class 0 means no alarm. -/
abbrev AlarmClass := Fin 7

/-- An incident record (07 R122). -/
structure Incident where
  kind      : IncidentKind
  subject   : Subject
  cls       : AlarmClass
  firstTime : Tick
  lastTime  : Tick
  repeats   : Nat
  value     : BitVec 32
  deriving DecidableEq, Repr

/-- The incident log, oldest record first (07 R122). -/
structure IncidentLog where
  records  : List Incident
  overflow : Nat
  deriving DecidableEq, Repr

def IncidentLog.init : IncidentLog := ⟨[], 0⟩

/-- A set of alarm classes 1 to 6: bit c for class c, as 10 section 10.5 lays it out; the other bits are 0. -/
abbrev ClassSet := BitVec 8

/-- The priority word (08 R133, R136). -/
structure Priority where
  lowerFirst : Bool
  upper      : BitVec 2
  lower      : BitVec 2
  deriving DecidableEq, Repr

/-- The alarm settings (08 R133); a clear mode is 1 for ACK. -/
structure AlarmSettings where
  classMap : Vector AlarmClass 14
  modes    : ClassSet
  mask     : ClassSet
  priority : Priority
  deriving DecidableEq, Repr

/-- The alarm state (08 R133). -/
structure AlarmState where
  settings : AlarmSettings
  pendingSet : ClassSet
  stack    : AlarmClass
  alert    : Bool
  deriving DecidableEq, Repr

/-- The default classes (07 section 7.1), clear modes, mask and priority word (08 R133). -/
def AlarmSettings.default : AlarmSettings where
  classMap := #v[3, 4, 2, 5, 2, 6, 0, 6, 1, 1, 1, 3, 4, 1]
  modes := 0b00001110
  mask := 0
  priority := ⟨false, 0, 0⟩

/-- The alarm state at power-on and at RESTART (08 R133). -/
def AlarmState.init : AlarmState := ⟨AlarmSettings.default, 0, 0, false⟩

/-! ## Panel inputs -/

/-- Debounced state and change count of a panel input (08 R143). -/
structure InputState where
  pressed : Bool
  count   : Nat
  deriving DecidableEq, Repr

/-- The chord state (08 R145). -/
inductive Chord where
  | idle
  | timing (strobes : Nat)
  | spent
  deriving DecidableEq, Repr

/-- The panel inputs and the chord (08 R143, R145). -/
structure Panel where
  clrA  : InputState
  clrB  : InputState
  ack   : InputState
  chord : Chord
  deriving DecidableEq, Repr

/-- The panel at power-on and at RESTART (08 R143, R145). -/
def Panel.init (chordEnabled : Bool) : Panel :=
  ⟨⟨false, 0⟩, ⟨false, 0⟩, ⟨false, 0⟩, if chordEnabled then .spent else .idle⟩

/-! ## Tally line -/

/-- Receive state (09 R150): COLLECTING holds whether the request is direct and the characters after the address character;
OVERLONG holds the command byte. -/
inductive RxState where
  | waiting
  | collecting (direct : Bool) (chars : List Byte)
  | overlong (direct : Bool) (command : Byte)
  deriving DecidableEq, Repr

/-- The character receiver (09 R149): looking for a start edge, waiting for the start check, or sampling bits; ticks since the
edge or the last sample. -/
inductive BitReceiver where
  | idle
  | startCheck (ticks : Nat)
  | sampling (ticks : Nat) (bits : List Bool)
  deriving DecidableEq, Repr

/-- A received character (09 R148, R149). -/
structure RxChar where
  data  : Byte
  mark  : Bool
  error : Bool
  deriving DecidableEq, Repr

/-- A reply (09 R155, R156, R163): its characters, the lead first; whether it is being sent or still in the reply delay; ticks in
that phase; how many characters are sent before it ends; whether the restart of R163 is made at its end. -/
structure Reply where
  chars     : List Byte
  sending   : Bool
  ticks     : Nat
  stopAfter : Nat
  restart   : Bool
  deriving DecidableEq, Repr

/-- The tally line interface (09). -/
structure TallyLine where
  rx           : RxState
  gapTicks     : Nat
  receiver     : BitReceiver
  rxLast       : Bool
  received     : Option RxChar
  reply        : Option Reply
  lineErrors   : Nat
  deriving DecidableEq, Repr

/-- The tally line interface at power-on (09 R150, R151). The TL_RX sample before the first is taken low, so that the first sample
is no edge. DEDUCED, log entry 5. -/
def TallyLine.init : TallyLine := ⟨.waiting, 0, .idle, false, none, none, 0⟩

/-! ## Device -/

/-- Device state (10 R164). -/
inductive DeviceState where
  | loading
  | unconfigured
  | monitoring
  deriving DecidableEq, Repr

/-- Cause of the start record (10 R168). -/
inductive Cause where
  | powerOn
  | restart
  deriving DecidableEq, Repr

/-- Configuration result (10 R168). -/
inductive ConfigResult where
  | good
  | partly
  | absent
  | badMark
  | badSum
  | badContent
  | none
  deriving DecidableEq, Repr

/-- The start record (10 R168). -/
structure StartRecord where
  cause     : Cause
  result    : ConfigResult
  busResets : Nat
  deriving DecidableEq, Repr

/-- The read of the configuration memory (10 R165): its ticks so far, the bits clocked in of the byte that is coming, first bit first,
and the bytes clocked in from address 0. -/
structure LoadRead where
  ticks : Nat
  bits  : List Bool
  bytes : List Byte
  deriving DecidableEq, Repr

/-- The read just begun (10 R165). -/
def LoadRead.init : LoadRead := ⟨0, [], []⟩

/-- The whole state of the part, and the queue of commands waiting for it. `reads` has one entry for each read whose data have not yet
passed, oldest first (01 R1): its checks, or none where it was no descriptor read or its checks have been done away with (R17). -/
structure State where
  pending    : List Instr
  device     : DeviceState
  rstAsserted : Bool
  pins       : Pins
  straps     : Straps
  startRec   : StartRecord
  load       : LoadRead
  path       : PathStage
  reads      : List (Option ReadCheck)
  values     : DeviceValues
  rings      : Vector RingRecord 16
  flows      : Vector FlowEntry 256
  time       : TimeBase
  due        : Due
  sweepNext  : FlowIx
  tally      : TallyState
  log        : IncidentLog
  alarm      : AlarmState
  panel      : Panel
  line       : TallyLine
  deriving DecidableEq, Repr

/-- Strap levels at reset: all 0. DESIGN CHOICE, log entry 4: POWER_ON gives the levels the pins have. -/
def Straps.zero : Straps := ⟨0, 0, false, 0, false⟩

/-- The part right after power-on (10 R164 and the start-up rules R21, R29, R31, R60, R106, R120, R122, R133, R143, R145, R150, R151,
R168), with the strap and input levels of log entry 4. -/
def State.reset : State where
  pending := []
  device := .loading
  rstAsserted := false
  pins := ⟨true, true, true, true, true, Straps.zero⟩
  straps := Straps.zero
  startRec := ⟨.powerOn, .none, 0⟩
  load := LoadRead.init
  path := PathStage.init
  reads := []
  values := DeviceValues.preload
  rings := Vector.replicate 16 RingRecord.init
  flows := Vector.replicate 256 FlowEntry.init
  time := TimeBase.init 0
  due := Due.none
  sweepNext := 0
  tally := TallyState.init
  log := IncidentLog.init
  alarm := AlarmState.init
  panel := Panel.init false
  line := TallyLine.init

end Sys2Proof.Machine
end

