-- ==== Sys2Proof/Machine/Bits.lean ====
section
/-! DEFINITION. Counters that saturate, signed differences, byte order and byte parity (00 "Conventions"; 01 R7; 10 section 10.5). -/

namespace Sys2Proof.Machine

/-- Largest value of a 16-bit saturating counter. -/
def max16 : Nat := 65535

/-- Largest value of a 32-bit saturating counter. -/
def max32 : Nat := 4294967295

/-- A saturating counter holds at its maximum (00 "Counters: saturating and modulo"). -/
def satAdd (cap n k : Nat) : Nat := min cap (n + k)

/-- One count of a 32-bit saturating counter. -/
def bump32 (n : Nat) : Nat := satAdd max32 n 1

/-- One count of a 16-bit saturating counter. -/
def bump16 (n : Nat) : Nat := satAdd max16 n 1

/-- Difference of two tick count values modulo 2^32 (00 "Modulo arithmetic"). -/
def tickDiff (a b : Tick) : Nat := (a - b).toNat

/-- Difference of two tick count values read as signed. -/
def tickDiffSigned (a b : Tick) : Int := (a - b).toInt

/-- Difference of two sequence numbers modulo 65536 read as signed 16-bit. -/
def seqDiffSigned (a b : BitVec 16) : Int := (a - b).toInt

/-- Clamping into a range (00 "Clamping"). -/
def clamp (lo hi n : Nat) : Nat := max lo (min hi n)

/-! ## Bytes, most significant first (10 section 10.5) -/

def bytes1 (n : Nat) : List Byte := [BitVec.ofNat 8 n]
def bytes2 (n : Nat) : List Byte := [BitVec.ofNat 8 (n / 256), BitVec.ofNat 8 n]
def bytes3 (n : Nat) : List Byte := BitVec.ofNat 8 (n / 65536) :: bytes2 n
def bytes4 (n : Nat) : List Byte := BitVec.ofNat 8 (n / 16777216) :: bytes3 n

/-- A signed value in two's complement. -/
def bytesInt4 (x : Int) : List Byte := bytes4 (BitVec.ofInt 32 x).toNat

/-- The value of bytes given most significant first. -/
def ofBytes (bs : List Byte) : Nat := bs.foldl (fun n b => n * 256 + b.toNat) 0

/-- The value of image words given most significant first. -/
def ofHalves (ws : List Half) : Nat := ws.foldl (fun n w => n * 65536 + w.toNat) 0

/-- A byte with the given bits, bit 0 first. -/
def byteOfBits (b0 b1 b2 b3 b4 b5 b6 b7 : Bool) : Byte :=
  (BitVec.ofBoolListLE [b0, b1, b2, b3, b4, b5, b6, b7] : BitVec 8)

def flag (b : Bool) : Nat := if b then 1 else 0

/-! ## Parity -/

/-- Whether an odd number of the first n bits are 1. -/
def oddOnes : Nat → (Nat → Bool) → Bool
  | 0, _ => false
  | n + 1, f => xor (f n) (oddOnes n f)

/-- The parity bit that gives byte i of a word even parity (01 R7); byte i is bits 8i + 7 to 8i. PRESUMED, log entry 6. -/
def byteParity (d : BitVec 32) (i : Nat) : Bool := oddOnes 8 (fun j => d.getLsbD (8 * i + j))

/-- The four parity bits of a word with even parity in every byte (01 R6). -/
def goodParity (d : BitVec 32) : BitVec 4 :=
  (BitVec.ofBoolListLE [byteParity d 0, byteParity d 1, byteParity d 2, byteParity d 3] : BitVec 4)

/-- A bus word whose four bytes all have even parity (01 R7). -/
def wordOk (w : BusWord) : Bool := w.par == goodParity w.data

end Sys2Proof.Machine
end

