-- ==== Sys2Proof/Machine/Flags.lean ====
section
/-! DEFINITION. The incident log and the alarm resolver, the part's status flags: raising, coalescing, eviction, AUTO
re-evaluation, the priority order, STACK and ALERT_N (07 section 7.2 to 7.4; 08 section 8.1 to 8.4). -/

namespace Sys2Proof.Machine

/-- The number of an incident kind, in the order of the incident kind table (10 section 10.5). -/
def IncidentKind.code : IncidentKind → Fin 14
  | .flowMiss => 0
  | .flowLate => 1
  | .flowLoss => 2
  | .flowDisorder => 3
  | .flowSilent => 4
  | .flowAcyclic => 5
  | .flowRetired => 6
  | .directoryFull => 7
  | .ringSilent => 8
  | .ringParity => 9
  | .ringStamp => 10
  | .ringFlush => 11
  | .timeHoldover => 12
  | .configFault => 13

/-! ## Sets of classes -/

/-- The set of the classes 1 to 6 that meet a test; class 0 is never a member (08 R133). -/
def ClassSet.ofPred (p : AlarmClass → Bool) : ClassSet := byteOfBits false (p 1) (p 2) (p 3) (p 4) (p 5) (p 6) false

/-- Whether a class is in a set. -/
def ClassSet.has (x : ClassSet) (c : AlarmClass) : Bool := x.getLsbD c.val

/-- The classes of a set that meet a test. -/
def ClassSet.keep (x : ClassSet) (p : AlarmClass → Bool) : ClassSet := ClassSet.ofPred (fun c => x.has c && p c)

/-- A set with a class added; class 0 adds nothing (07 R126). -/
def ClassSet.add (x : ClassSet) (c : AlarmClass) : ClassSet := ClassSet.ofPred (fun d => x.has d || d == c)

/-- A byte read as a set of classes: bit c for class c, the other bits not read (08 R139). -/
def ClassSet.ofByte (b : Byte) : ClassSet := ClassSet.ofPred (fun c => b.getLsbD c.val)

/-! ## Priority and STACK -/

/-- Three classes in the order of a rotation code; code 3 acts as 0 (08 R136). -/
def rotated (code : BitVec 2) (a b c : AlarmClass) : List AlarmClass :=
  if code = 1 then [b, c, a] else if code = 2 then [c, a, b] else [a, b, c]

/-- The priority order, highest first (08 R136). -/
def Priority.order (p : Priority) : List AlarmClass :=
  let upper := rotated p.upper 1 2 3
  let lower := rotated p.lower 4 5 6
  if p.lowerFirst then lower ++ upper else upper ++ lower

/-- The first class in the priority order that is pending and not masked, or 0 (08 R137). -/
def stackCode (settings : AlarmSettings) (pendingSet : ClassSet) : AlarmClass :=
  match settings.priority.order.find? (fun c => pendingSet.has c && !settings.mask.has c) with
  | some c => c
  | none => 0

/-- STACK and ALERT_N found afresh, together (08 R137). -/
def AlarmState.resolve (a : AlarmState) : AlarmState :=
  let c := stackCode a.settings a.pendingSet
  { a with stack := c, alert := c != 0 }

/-- A class handed to the resolver becomes pending (07 R126, 08 R135). -/
def AlarmState.setPending (a : AlarmState) (c : AlarmClass) : AlarmState := { a with pendingSet := a.pendingSet.add c }

/-- Each pending class in AUTO mode with no record of its class left stops being pending (07 R127, 08 R140 step 2). -/
def AlarmState.reevaluate (a : AlarmState) (records : List Incident) : AlarmState :=
  { a with pendingSet := a.pendingSet.keep (fun c => a.settings.modes.has c || records.any (fun r => r.cls == c)) }

/-- The class of a kind in the class map in force (08 R134). -/
def AlarmSettings.classOf (a : AlarmSettings) (k : IncidentKind) : AlarmClass := a.classMap[k.code]

/-- Installing settings: replace all four, re-evaluate AUTO classes, find STACK afresh (08 R140 steps 1 to 3, R141). -/
def AlarmState.install (a : AlarmState) (new : AlarmSettings) (records : List Incident) : AlarmState :=
  ({ a with settings := new }.reevaluate records).resolve

/-! ## The incident log -/

/-- Whether a record has a kind and a subject (07 R123). -/
def Incident.matchesRaising (r : Incident) (k : IncidentKind) (x : Subject) : Bool := r.kind == k && r.subject == x

/-- A record with one more raising folded into it (07 R123). -/
def Incident.coalesced (r : Incident) (now : Tick) (v : BitVec 32) : Incident :=
  { r with lastTime := now, repeats := satAdd 255 r.repeats 1, value := v }

/-- One raising taken whole: coalesced into its record (07 R123), or a new record appended (R124), the oldest evicted from a full log
(R125); then the class of the record is set pending (R126), AUTO classes are re-evaluated after an eviction (R125, R127), and STACK is
found afresh (08 R137). -/
def raiseInto (now : Tick) (k : IncidentKind) (x : Subject) (v : BitVec 32) (log : IncidentLog) (alarm : AlarmState) :
    IncidentLog × AlarmState :=
  match log.records.find? (fun r => r.matchesRaising k x) with
  | some r =>
    ({ log with records := log.records.map (fun q => if q.matchesRaising k x then q.coalesced now v else q) },
      (alarm.setPending r.cls).resolve)
  | none =>
    let c := alarm.settings.classOf k
    let new : Incident := ⟨k, x, c, now, now, 1, v⟩
    if log.records.length < Config.logSize then
      ({ log with records := log.records ++ [new] }, (alarm.setPending c).resolve)
    else
      let records := log.records.tail ++ [new]
      (⟨records, bump16 log.overflow⟩, ((alarm.setPending c).reevaluate records).resolve)

/-- The raising of an incident at the present tick count (07 R121). -/
def raise (k : IncidentKind) (x : Subject) (v : BitVec 32) (s : State) : State :=
  let out := raiseInto s.time.tickCount k x v s.log s.alarm
  { s with log := out.1, alarm := out.2 }

/-- A list of raisings, one after another (07 R121). -/
def raiseAll (rs : List (IncidentKind × Subject × BitVec 32)) (s : State) : State :=
  rs.foldl (fun s r => raise r.1 r.2.1 r.2.2 s) s

end Sys2Proof.Machine
end

