-- ==== Sys2Proof/Machine/Ops.lean ====
section
/-! DEFINITION. Named operations over the parts of the state: rings, slots, flow entries and summaries. -/

namespace Sys2Proof.Machine

/-! ## Rings -/

def State.ring (s : State) (r : RingIx) : RingRecord := s.rings[r]

def State.setRing (s : State) (r : RingIx) (x : RingRecord) : State := { s with rings := s.rings.set r x }

def State.modRing (s : State) (r : RingIx) (f : RingRecord → RingRecord) : State := s.setRing r (f (s.ring r))

/-- The sixteen ring indices in ring order (01 R25). -/
def ringOrder : List RingIx := List.finRange 16

/-- The sum of the held counts of all enabled rings (01 R22). -/
def totalHeldOf (rings : Vector RingRecord 16) : Nat :=
  (ringOrder.map (fun r => if rings[r].enabled then rings[r].held else 0)).sum

/-- Total held (01 R22). -/
def State.totalHeld (s : State) : Nat := totalHeldOf s.rings

/-! ## The slot store (01 R8): a list of slot indices, strictly rising, with their pending records -/

/-- The pending record of a slot; a slot not listed is EMPTY. -/
def slotGet : List (Nat × PendingRecord) → Nat → Option PendingRecord
  | [], _ => none
  | (j, r) :: rest, i => if i = j then some r else slotGet rest i

/-- A slot made HELD with a record, replacing any record it holds. -/
def slotPut : List (Nat × PendingRecord) → Nat → PendingRecord → List (Nat × PendingRecord)
  | [], i, r => [(i, r)]
  | (j, q) :: rest, i, r =>
    if i < j then (i, r) :: (j, q) :: rest else if i = j then (i, r) :: rest else (j, q) :: slotPut rest i r

/-- A slot made EMPTY. -/
def slotErase : List (Nat × PendingRecord) → Nat → List (Nat × PendingRecord)
  | [], _ => []
  | (j, q) :: rest, i => if i = j then rest else (j, q) :: slotErase rest i

/-- The canonical form: slot indices strictly rising and below a bound. -/
def slotsOk (bound : Nat) : List (Nat × PendingRecord) → Bool
  | [] => true
  | [(i, _)] => decide (i < bound)
  | (i, _) :: (j, r) :: rest => decide (i < j) && slotsOk bound ((j, r) :: rest)

/-! ## Flow entries -/

def State.entry (s : State) (i : FlowIx) : FlowEntry := s.flows[i]

def State.flowAt (s : State) (i : FlowIx) : Option FlowRecord := (s.entry i).flow

def State.setEntry (s : State) (i : FlowIx) (e : FlowEntry) : State := { s with flows := s.flows.set i e }

/-- A flow record written into its entry; the generation is kept (03 R52). -/
def State.setFlow (s : State) (i : FlowIx) (f : FlowRecord) : State := s.setEntry i ⟨(s.entry i).gen, some f⟩

/-- An entry becomes VACANT: its generation goes up by 1 modulo 16, every other field loses its value (03 R52, R57). -/
def State.vacate (s : State) (i : FlowIx) : State := s.setEntry i ⟨(s.entry i).gen + 1, none⟩

/-- The flow indices in order (03 R45). -/
def flowOrder : List FlowIx := List.finRange 256

/-- The number of entries that are not VACANT (03 R45). -/
def State.flowsInUse (s : State) : Nat := flowOrder.countP (fun i => (s.flowAt i).isSome)

/-- The entry that holds a key pair (03 R45, R49). -/
def State.findKey (s : State) (ring : RingIx) (key : Half) : Option FlowIx :=
  flowOrder.find? (fun i =>
    match s.flowAt i with
    | some f => f.ring == ring && f.key == key
    | none => false)

/-- The VACANT entry with the lowest index (03 R50, R56). -/
def State.lowestVacant (s : State) : Option FlowIx := flowOrder.find? (fun i => (s.flowAt i).isNone)

/-! ## Summaries -/

def Summary.isOpen (q : Summary) : Bool := q.phase == .opened

def Summary.isClosing (q : Summary) : Bool :=
  match q.phase with
  | .closing _ => true
  | _ => false

def Summary.isFinal (q : Summary) : Bool := q.phase == .final

def State.setHistory (s : State) (h : List Summary) : State := { s with tally := { s.tally with history := h } }

/-- A change of the OPEN summary (06 R112). -/
def State.modOpen (s : State) (f : Summary → Summary) : State :=
  s.setHistory (s.tally.history.map (fun q => if q.isOpen then f q else q))

/-- A change of the CLOSING summary (06 R112). -/
def State.modClosing (s : State) (f : Summary → Summary) : State :=
  s.setHistory (s.tally.history.map (fun q => if q.isClosing then f q else q))

/-- The ring's and the OPEN summary's untracked arrivals each go up by 1 (01 R10 step 4, R15). -/
def countUntrackedArrival (r : RingIx) (s : State) : State :=
  (s.modRing r (fun x => { x with untrackedArrivals := bump32 x.untrackedArrivals })).modOpen
    (fun q => { q with untrackedArrivals := bump32 q.untrackedArrivals })

/-- The ring's and the OPEN summary's untracked departures each go up by 1 (01 R16, 05 R86). -/
def countUntrackedDeparture (r : RingIx) (s : State) : State :=
  (s.modRing r (fun x => { x with untrackedDepartures := bump32 x.untrackedDepartures })).modOpen
    (fun q => { q with untrackedDepartures := bump32 q.untrackedDepartures })

/-- The OPEN summary's peak held follows a rise of the total held (01 R22). -/
def notePeak (s : State) : State := s.modOpen (fun q => { q with peakHeld := max q.peakHeld s.totalHeld })

/-- The time quality a summary takes at creation (02 R43). -/
def TimeBase.quality (t : TimeBase) : Quality := if t.source == .locked then .locked else .degraded

/-- A new OPEN summary at the present tick count (06 R112). -/
def newSummary (s : State) (number : BitVec 16) (code : Nat) : Summary where
  number := number
  startTime := s.time.tickCount
  endTime := none
  lengthCode := code
  phase := .opened
  quality := s.time.quality
  totals := Tallies.zero
  untrackedArrivals := 0
  untrackedDepartures := 0
  flowsOver := 0
  worst := none
  peakHeld := s.totalHeld

/-- The period length of a tally period code, in millisecond strobes (06 R107). -/
def periodLength (code : Nat) : Nat :=
  match code with
  | 0 => 100
  | 1 => 1000
  | 2 => 10000
  | 3 => 60000
  | 4 => 600000
  | _ => 3600000

/-- Millisecond strobes per silence tick (02 R40). -/
def silenceStrobes (code : BitVec 2) : Nat :=
  if code = 0 then 10 else if code = 1 then 100 else if code = 2 then 1000 else 10000

/-- Bit time of the tally line, in ticks (02 R41). -/
def bitTime (baud : BitVec 2) : Nat :=
  if baud = 0 then 1042 else if baud = 1 then 521 else if baud = 2 then 174 else 87

/-- Bits of a character: start, 8 data bits, mark, parity when the PAR strap is set, stop (09 R148). -/
def charBits (par : Bool) : Nat := if par then 12 else 11

/-- Character time of the tally line, in ticks (02 R41). -/
def charTime (x : Straps) : Nat := charBits x.par * bitTime x.baud

end Sys2Proof.Machine
end

