-- ==== Sys2Proof/Machine/Operands.lean ====
section
/-! DEFINITION. The operand forms of the tally line and the image: status codes, request payloads, the codes of enumerated values, and
the layouts of the reply payloads (09 R153; 10 section 10.5, R169). -/

namespace Sys2Proof.Machine

/-- Reply status (09 R153). -/
inductive Status where
  | ok
  | unknown
  | badArgument
  | full
  | notFound
  | held
  | notReady
  | badLength
  deriving DecidableEq, Repr

def Status.code : Status → Nat
  | .ok => 0
  | .unknown => 1
  | .badArgument => 2
  | .full => 3
  | .notFound => 4
  | .held => 5
  | .notReady => 6
  | .badLength => 7

/-- The seventeen requests with their payload fields (09 R153; 10 section 10.5). -/
inductive Request where
  | status
  | readFlow (index part : Byte)
  | findFlow (ring : Byte) (key : Half)
  | defineFlow (ring : Byte) (key : Half) (args : FlowArgs)
  | removeFlow (index : Byte)
  | setPeriod (index : Byte) (period : BitVec 32)
  | readRing (ring part : Byte)
  | defineRing (ring : Byte) (base : BitVec 24) (slots : Half) (options : Byte)
  | ringOff (ring : Byte)
  | readSummary (number : Half) (part : Byte)
  | takeIncidents (count : Byte)
  | acknowledge (classes : Byte)
  | setAlarmMap (classes : Vector Byte 14) (mask priority modes : Byte)
  | setTallyPeriod (code : Byte)
  | clearTallies
  | restart
  | start
  deriving DecidableEq, Repr

/-- The payload length of a command byte, and none for a byte that is no request code (09 R153). -/
def payloadLength (command : Byte) : Option Nat :=
  match command.toNat with
  | 0x01 => some 0
  | 0x02 => some 2
  | 0x03 => some 3
  | 0x04 => some 35
  | 0x05 => some 1
  | 0x06 => some 5
  | 0x07 => some 2
  | 0x08 => some 7
  | 0x09 => some 1
  | 0x0A => some 3
  | 0x0B => some 1
  | 0x0C => some 1
  | 0x0D => some 17
  | 0x0E => some 1
  | 0x0F => some 0
  | 0x10 => some 0
  | 0x11 => some 0
  | _ => none

/-- n payload bytes from a place on, as a number. -/
def fieldAt (p : List Byte) (at_ n : Nat) : Nat := ofBytes ((p.drop at_).take n)

/-- One payload byte. -/
def byteAt (p : List Byte) (i : Nat) : Byte := p.getD i 0

/-- A 32-bit payload field. -/
def wordField (p : List Byte) (i : Nat) : BitVec 32 := BitVec.ofNat 32 (fieldAt p i 4)

/-- The request of a command byte and a payload of its length (10 section 10.5, request payloads). -/
def requestOf (command : Byte) (p : List Byte) : Option Request :=
  match command.toNat with
  | 0x01 => some .status
  | 0x02 => some (.readFlow (byteAt p 0) (byteAt p 1))
  | 0x03 => some (.findFlow (byteAt p 0) (BitVec.ofNat 16 (fieldAt p 1 2)))
  | 0x04 => some (.defineFlow (byteAt p 0) (BitVec.ofNat 16 (fieldAt p 1 2))
      ⟨wordField p 3, wordField p 7, wordField p 11, wordField p 15, wordField p 19, wordField p 23, wordField p 27, wordField p 31⟩)
  | 0x05 => some (.removeFlow (byteAt p 0))
  | 0x06 => some (.setPeriod (byteAt p 0) (wordField p 1))
  | 0x07 => some (.readRing (byteAt p 0) (byteAt p 1))
  | 0x08 => some (.defineRing (byteAt p 0) (BitVec.ofNat 24 (fieldAt p 1 3)) (BitVec.ofNat 16 (fieldAt p 4 2)) (byteAt p 6))
  | 0x09 => some (.ringOff (byteAt p 0))
  | 0x0A => some (.readSummary (BitVec.ofNat 16 (fieldAt p 0 2)) (byteAt p 2))
  | 0x0B => some (.takeIncidents (byteAt p 0))
  | 0x0C => some (.acknowledge (byteAt p 0))
  | 0x0D => some (.setAlarmMap (Vector.ofFn (fun i => byteAt p i.val)) (byteAt p 14) (byteAt p 15) (byteAt p 16))
  | 0x0E => some (.setTallyPeriod (byteAt p 0))
  | 0x0F => some .clearTallies
  | 0x10 => some .restart
  | 0x11 => some .start
  | _ => none

/-- The command byte of a request (09 R153). -/
def Request.code : Request → Byte
  | .status => 0x01
  | .readFlow _ _ => 0x02
  | .findFlow _ _ => 0x03
  | .defineFlow _ _ _ => 0x04
  | .removeFlow _ => 0x05
  | .setPeriod _ _ => 0x06
  | .readRing _ _ => 0x07
  | .defineRing _ _ _ _ => 0x08
  | .ringOff _ => 0x09
  | .readSummary _ _ => 0x0A
  | .takeIncidents _ => 0x0B
  | .acknowledge _ => 0x0C
  | .setAlarmMap _ _ _ _ => 0x0D
  | .setTallyPeriod _ => 0x0E
  | .clearTallies => 0x0F
  | .restart => 0x10
  | .start => 0x11

/-- The payload of a DEFINE FLOW after the key pair (10 section 10.5, request payloads). -/
def flowArgsBytes (a : FlowArgs) : List Byte :=
  bytes4 a.period.toNat ++ bytes4 a.early.toNat ++ bytes4 a.late.toNat ++ bytes4 a.budget.toNat
  ++ bytes4 a.missLimit.toNat ++ bytes4 a.lateLimit.toNat ++ bytes4 a.lossLimit.toNat ++ bytes4 a.disorderLimit.toNat

/-- The payload of a request (10 section 10.5, request payloads). -/
def Request.payload : Request → List Byte
  | .status => []
  | .readFlow i p => [i, p]
  | .findFlow r k => [r] ++ bytes2 k.toNat
  | .defineFlow r k a => [r] ++ bytes2 k.toNat ++ flowArgsBytes a
  | .removeFlow i => [i]
  | .setPeriod i p => [i] ++ bytes4 p.toNat
  | .readRing r p => [r, p]
  | .defineRing r b n o => [r] ++ bytes3 b.toNat ++ bytes2 n.toNat ++ [o]
  | .ringOff r => [r]
  | .readSummary n p => bytes2 n.toNat ++ [p]
  | .takeIncidents m => [m]
  | .acknowledge c => [c]
  | .setAlarmMap c m p d => c.toList ++ [m, p, d]
  | .setTallyPeriod c => [c]
  | .clearTallies => []
  | .restart => []
  | .start => []

/-- The command that sends a request whole to an address (log entry 13). -/
def Request.command (addr : Byte) : Request → Instr
  | .status => .status addr
  | .readFlow i p => .readFlow addr i p
  | .findFlow r k => .findFlow addr r k
  | .defineFlow r k a => .defineFlow addr r k a
  | .removeFlow i => .removeFlow addr i
  | .setPeriod i p => .setPeriod addr i p
  | .readRing r p => .readRing addr r p
  | .defineRing r b n o => .defineRing addr r b n o
  | .ringOff r => .ringOff addr r
  | .readSummary n p => .readSummary addr n p
  | .takeIncidents m => .takeIncidents addr m
  | .acknowledge c => .acknowledge addr c
  | .setAlarmMap c m p d => .setAlarmMap addr c m p d
  | .setTallyPeriod c => .setTallyPeriod addr c
  | .clearTallies => .clearTallies addr
  | .restart => .restart addr
  | .start => .start addr

/-- The characters of a request, as commands: its address character, then command byte, length and payload (09 section 9.2). -/
def Request.characters (addr : Byte) (req : Request) : List Instr :=
  .addressCharacter addr false ::
    (req.code :: BitVec.ofNat 8 req.payload.length :: req.payload).map (fun b => .dataCharacter b false)

/-! ## Codes of enumerated values (10 R169) -/

def DeviceState.code : DeviceState → Nat
  | .loading => 0
  | .unconfigured => 1
  | .monitoring => 2

def Cause.code : Cause → Nat
  | .powerOn => 0
  | .restart => 1

def ConfigResult.code : ConfigResult → Nat
  | .good => 0
  | .partly => 1
  | .absent => 2
  | .badMark => 3
  | .badSum => 4
  | .badContent => 5
  | .none => 6

def SourceState.code : SourceState → Nat
  | .nominal => 0
  | .locked => 1
  | .holdover => 2

def Cycle.code : Cycle → Nat
  | .learning _ => 1
  | .waiting _ => 2
  | .tracking _ _ _ => 3
  | .silent _ _ _ => 4
  | .acyclic => 5

def Origin.code : Origin → Nat
  | .static => 0
  | .learned => 1

def SilenceState.code : SilenceState → Nat
  | .active => 0
  | .silent => 1

def SummaryPhase.code : SummaryPhase → Nat
  | .opened => 0
  | .closing _ => 1
  | .final => 2

def Quality.code : Quality → Nat
  | .locked => 0
  | .degraded => 1

/-! ## Optional parts of a flow record (03 R47) -/

def Cycle.periodInForce : Cycle → Option Nat
  | .waiting p => some p
  | .tracking p _ _ => some p
  | .silent p _ _ => some p
  | _ => none

def Cycle.pendingPeriod : Cycle → Option Nat
  | .tracking _ q _ => q
  | .silent _ q _ => q
  | _ => none

def Cycle.anchor : Cycle → Option Tick
  | .tracking _ _ e => some e
  | .silent _ _ e => some e
  | _ => none

def Cycle.context : Cycle → Option LearningContext
  | .learning c => some c
  | _ => none

/-- An absent field is sent as 0 (10 R169). -/
def orZero (x : Option Nat) : Nat := x.getD 0

/-- A presence byte: one bit per optional field, in the order listed, from bit 0 (10 section 10.5). -/
def presence (bs : List Bool) : List Byte :=
  bytes1 ((bs.zipIdx.map (fun p => flag p.1 * 2 ^ p.2)).sum)

/-! ## Reply payloads (10 section 10.5, reply payloads) -/

/-- Priority byte: bit 0 G, bits 2 to 1 U, bits 4 to 3 L. -/
def Priority.toByte (p : Priority) : Nat := flag p.lowerFirst + 2 * p.upper.toNat + 8 * p.lower.toNat

/-- The priority word of a byte laid out so. -/
def Priority.ofByte (b : Byte) : Priority := ⟨b.getLsbD 0, b.extractLsb' 1 2, b.extractLsb' 3 2⟩

/-- STATUS: 28 bytes (09 R157). -/
def statusPayload (s : State) : List Byte :=
  bytes1 s.device.code ++ bytes1 s.startRec.cause.code ++ bytes1 s.startRec.result.code ++ bytes2 s.startRec.busResets
  ++ bytes1 s.time.source.code ++ bytes4 s.time.tickCount.toNat ++ bytes2 s.time.ratio ++ bytes2 s.tally.periodNumber.toNat
  ++ [s.alarm.pendingSet, s.alarm.settings.mask] ++ bytes1 s.alarm.settings.priority.toByte ++ [s.alarm.settings.modes]
  ++ bytes1 s.alarm.stack.val ++ bytes1 s.log.records.length ++ bytes2 s.log.overflow ++ bytes2 s.line.lineErrors
  ++ bytes2 s.flowsInUse ++ bytes2 s.totalHeld

/-- READ FLOW part 0: 48 bytes (09 R158). The synced flag is sent as 1 for yes and 0 for no. DESIGN CHOICE, log entry 36. -/
def flowPart0 (i : Nat) (gen : BitVec 4) (f : FlowRecord) : List Byte :=
  bytes1 i ++ bytes1 0 ++ bytes1 f.cycle.code ++ bytes1 f.origin.code ++ bytes1 gen.toNat ++ bytes1 f.ring.val
  ++ bytes2 f.key.toNat
  ++ bytes4 (orZero f.cycle.periodInForce) ++ bytes4 (orZero f.cycle.pendingPeriod)
  ++ bytes4 (orZero (f.cycle.anchor.map (fun e => e.toNat)))
  ++ presence [f.cycle.periodInForce.isSome, f.cycle.pendingPeriod.isSome, f.cycle.anchor.isSome]
  ++ bytes2 f.params.early ++ bytes2 f.params.late ++ bytes4 f.params.budget
  ++ bytes2 f.params.missLimit ++ bytes2 f.params.lateLimit ++ bytes2 f.params.lossLimit ++ bytes2 f.params.disorderLimit
  ++ bytes1 f.misses
  ++ bytes1 (orZero (f.cycle.context.map (fun c => c.intervals.length)))
  ++ bytes1 (orZero (f.cycle.context.map (fun c => c.attempt)))
  ++ bytes1 f.idle ++ bytes1 (flag f.window.synced) ++ bytes2 f.window.top.toNat ++ bytes4 f.window.departed.toNat

/-- READ FLOW part 1: 43 bytes (09 R158). -/
def flowPart1 (i : Nat) (f : FlowRecord) : List Byte :=
  let t := f.running
  bytes1 i ++ bytes1 1
  ++ bytes4 t.arrivals ++ bytes4 t.departures ++ bytes4 t.onTime ++ bytes4 t.early ++ bytes4 t.lateArrivals ++ bytes4 t.missed
  ++ bytes4 t.surplus ++ bytes4 t.relocks
  ++ bytesInt4 (f.worstEarly.getD 0) ++ bytesInt4 (f.worstLate.getD 0)
  ++ presence [f.worstEarly.isSome, f.worstLate.isSome]

/-- READ FLOW part 2: 35 bytes (09 R158). -/
def flowPart2 (i : Nat) (f : FlowRecord) : List Byte :=
  let t := f.running
  bytes1 i ++ bytes1 2
  ++ bytes4 t.lateDepartures ++ bytes4 t.reordered ++ bytes4 t.stragglers ++ bytes4 t.duplicates ++ bytes4 t.lost
  ++ bytes4 t.switchDrops ++ bytes4 t.resyncs
  ++ bytes4 (orZero f.worstResidence) ++ presence [f.worstResidence.isSome]

/-- READ FLOW part 3: 33 bytes (09 R158). -/
def flowPart3 (i : Nat) (f : FlowRecord) : List Byte :=
  let t := f.period
  bytes1 i ++ bytes1 3
  ++ bytes2 t.arrivals ++ bytes2 t.departures ++ bytes2 t.missed ++ bytes2 t.early ++ bytes2 t.lateArrivals ++ bytes2 t.surplus
  ++ bytes2 t.lateDepartures ++ bytes2 t.reordered ++ bytes2 t.stragglers ++ bytes2 t.duplicates ++ bytes2 t.lost
  ++ bytes2 t.switchDrops
  ++ bytes4 (orZero f.periodWorst) ++ presence [f.periodWorst.isSome] ++ bytes2 f.tag.toNat

/-- A part of READ FLOW (09 R158). -/
def flowPart (part : Nat) (i : Nat) (gen : BitVec 4) (f : FlowRecord) : List Byte :=
  match part with
  | 0 => flowPart0 i gen f
  | 1 => flowPart1 i f
  | 2 => flowPart2 i f
  | _ => flowPart3 i f

/-- A part of READ RING: 32, 28 or 34 bytes (09 R159). -/
def ringPart (part : Nat) (r : Nat) (x : RingRecord) : List Byte :=
  bytes1 r ++ bytes1 part ++
  match part with
  | 0 =>
    bytes1 (flag x.enabled + 2 * flag x.stampOn + 4 * flag x.autoEnrol)
    ++ bytes3 x.base.toNat ++ bytes2 x.slotCount ++ bytes2 x.held ++ bytes2 x.highWater
    ++ bytes4 x.enqueued.toNat ++ bytes4 x.departed.toNat ++ bytes4 x.withdrawn.toNat ++ bytes4 x.overwritten.toNat
    ++ bytes4 x.flushed.toNat
  | 1 =>
    bytes4 x.untrackedArrivals ++ bytes4 x.untrackedDepartures ++ bytes4 x.phantomReads ++ bytes4 x.strayAccesses
    ++ bytes4 x.parityFaults ++ bytes4 x.stampMismatches ++ bytes1 x.silence.code ++ bytes1 x.silenceCounter
  | _ => x.histogram.toList.flatMap bytes4

/-- READ SUMMARY part 0: 35 bytes (09 R160). -/
def summaryPart0 (q : Summary) : List Byte :=
  let marker : Option Nat := match q.phase with
    | .closing m => some m.val
    | _ => none
  bytes2 q.number.toNat ++ bytes1 0
  ++ bytes4 q.startTime.toNat ++ bytes4 (orZero (q.endTime.map (fun t => t.toNat)))
  ++ bytes1 q.lengthCode ++ bytes1 q.phase.code ++ bytes1 (orZero marker) ++ bytes1 q.quality.code
  ++ presence [q.endTime.isSome, marker.isSome, q.worst.isSome]
  ++ bytes4 q.untrackedArrivals ++ bytes4 q.untrackedDepartures ++ bytes4 q.flowsOver
  ++ bytes4 (orZero (q.worst.map (fun w => w.1))) ++ bytes1 (orZero (q.worst.map (fun w => w.2.val)))
  ++ bytes2 q.peakHeld

/-- READ SUMMARY part 1: 51 bytes (09 R160). -/
def summaryPart1 (q : Summary) : List Byte :=
  let t := q.totals
  bytes2 q.number.toNat ++ bytes1 1
  ++ bytes4 t.arrivals ++ bytes4 t.departures ++ bytes4 t.missed ++ bytes4 t.early ++ bytes4 t.lateArrivals ++ bytes4 t.surplus
  ++ bytes4 t.lateDepartures ++ bytes4 t.reordered ++ bytes4 t.stragglers ++ bytes4 t.duplicates ++ bytes4 t.lost
  ++ bytes4 t.switchDrops

/-- A part of READ SUMMARY (09 R160). -/
def summaryPart (part : Nat) (q : Summary) : List Byte := if part = 0 then summaryPart0 q else summaryPart1 q

/-- The subject of an incident in two bytes: 0 device, 1 ring, 2 flow, then the index (10 section 10.5). -/
def Subject.toBytes : Subject → List Byte
  | .device => bytes1 0 ++ bytes1 0
  | .ring r => bytes1 1 ++ bytes1 r.val
  | .flow i => bytes1 2 ++ bytes1 i.val

/-- One record of TAKE INCIDENTS: 17 bytes counted with the layout's widths (09 R162). -/
def Incident.toBytes (r : Incident) : List Byte :=
  bytes1 r.kind.code.val ++ r.subject.toBytes ++ bytes1 r.cls.val ++ bytes4 r.firstTime.toNat ++ bytes4 r.lastTime.toNat
  ++ bytes1 r.repeats ++ bytes4 r.value.toNat

/-- FIND FLOW: index, state, origin, generation (09 R161). -/
def findPayload (i : FlowIx) (gen : BitVec 4) (f : FlowRecord) : List Byte :=
  bytes1 i.val ++ bytes1 f.cycle.code ++ bytes1 f.origin.code ++ bytes1 gen.toNat

end Sys2Proof.Machine
end

