-- ==== Sys2Proof/Machine/Cycle.lean ====
section
/-! DEFINITION. The cycle tracker (04): what an arrival notice, a sweep visit and a change of period do to one flow record. Each
function answers the record after it and the incidents to raise, in order, as pairs of kind and value. -/

namespace Sys2Proof.Machine

/-- A flow record after an event, and the incidents the event raises for the flow. -/
abbrev FlowOutcome := FlowRecord × List (IncidentKind × Nat)

/-! ## Learning (04 section 4.2) -/

/-- The average of a complete attempt (04 R64). -/
def attemptAverage (sum : Nat) : Nat := (sum + 2) / 4

/-- Whether two numbers differ by no more than a bound. -/
def within (bound a b : Nat) : Bool := decide (a ≤ b + bound) && decide (b ≤ a + bound)

/-- The test of a complete attempt (04 R64). -/
def attemptSucceeds (intervals : List Nat) (avg : Nat) : Bool :=
  decide (100 ≤ avg) && decide (avg ≤ 16777215) && intervals.all (fun i => within (avg / 8) i avg)

/-- An arrival in LEARNING at time t with sequence q (04 R62 to R65). -/
def learnArrival (f : FlowRecord) (ctx : LearningContext) (t : Tick) (q : BitVec 16) : FlowOutcome :=
  match ctx.lastTime with
  | none => ({ f with cycle := .learning { ctx with lastTime := some t, lastSeq := q, intervals := [], sum := 0 } }, [])
  | some t0 =>
    if q = ctx.lastSeq then (f, [])
    else
      let i := tickDiff t t0
      let intervals := ctx.intervals ++ [i]
      let sum := ctx.sum + i
      if intervals.length < 4 then
        ({ f with cycle := .learning { ctx with lastTime := some t, lastSeq := q, intervals := intervals, sum := sum } }, [])
      else
        let avg := attemptAverage sum
        if attemptSucceeds intervals avg then
          ({ f with cycle := .tracking avg none (t + BitVec.ofNat 32 avg), misses := 0 }, [])
        else if ctx.attempt < 3 then
          ({ f with cycle := .learning ⟨some t, q, [], 0, ctx.attempt + 1⟩ }, [])
        else ({ f with cycle := .acyclic }, [(.flowAcyclic, avg)])

/-! ## Tracking (04 section 4.3) -/

/-- The number of cycles, counted from the anchor, whose windows have closed before time t; rounded toward minus infinity
(04 R67, R77). -/
def elapsedCycles (period : Nat) (anchor t : Tick) : Int := (tickDiffSigned t anchor + (period / 2 : Nat)) / (period : Int)

/-- The anchor moved on by n cycles (04 R68). -/
def advanceAnchor (anchor : Tick) (period n : Nat) : Tick := anchor + BitVec.ofNat 32 (n * period)

/-- The accounting step: n elapsed cycles of a flow in TRACKING (04 R68). -/
def accountCycles (silenceCount n : Nat) (period : Nat) (pend : Option Nat) (anchor : Tick) (f : FlowRecord) : FlowOutcome :=
  let counted := min n (silenceCount - f.misses)
  let misses := f.misses + counted
  let anchor := advanceAnchor anchor period n
  let g := { f with
    running := { f.running with missed := satAdd max32 f.running.missed counted }
    period := { f.period with missed := satAdd max16 f.period.missed counted }
    misses := misses }
  if misses = silenceCount then ({ g with cycle := .silent period pend anchor }, [(.flowSilent, period)])
  else ({ g with cycle := .tracking period pend anchor }, [])

/-- Class of a classified arrival (04 R70). -/
inductive PhaseClass where
  | early
  | late
  | onTime
  deriving DecidableEq, Repr

/-- The class of a phase error under the effective tolerances (04 R70). -/
def phaseClass (p : FlowParams) (period : Nat) (e : Int) : PhaseClass :=
  let h := period / 2
  if e < -((min p.early h : Nat) : Int) then .early
  else if e > ((min p.late (period - h - 1) : Nat) : Int) then .late
  else .onTime

/-- The tallies of a classified arrival (04 R70). -/
def countClass (c : PhaseClass) (f : FlowRecord) : FlowRecord :=
  match c with
  | .early => { f with running := { f.running with early := bump32 f.running.early }
                       period := { f.period with early := bump16 f.period.early } }
  | .late => { f with running := { f.running with lateArrivals := bump32 f.running.lateArrivals }
                      period := { f.period with lateArrivals := bump16 f.period.lateArrivals } }
  | .onTime => { f with running := { f.running with onTime := bump32 f.running.onTime } }

/-- The worst early phase error after a phase error e (04 R71). -/
def worstEarlyAfter (w : Option Int) (e : Int) : Option Int :=
  if e < 0 then
    match w with
    | none => some e
    | some x => if x > e then some e else some x
  else w

/-- The worst late phase error after a phase error e (04 R71). -/
def worstLateAfter (w : Option Int) (e : Int) : Option Int :=
  if e > 0 then
    match w with
    | none => some e
    | some x => if x < e then some e else some x
  else w

/-- The cycle after the one at the anchor (04 R72): the pending period, when present, becomes the period in force. -/
def nextCycle (period : Nat) (pend : Option Nat) (anchor : Tick) : Cycle :=
  match pend with
  | some p => .tracking p none (anchor + BitVec.ofNat 32 p)
  | none => .tracking period none (anchor + BitVec.ofNat 32 period)

/-- An arrival classified in the cycle at the anchor (04 R70 to R72). -/
def classifyArrival (period : Nat) (pend : Option Nat) (anchor t : Tick) (f : FlowRecord) : FlowRecord :=
  let e := tickDiffSigned t anchor
  let g := countClass (phaseClass f.params period e) f
  { g with
    worstEarly := worstEarlyAfter g.worstEarly e
    worstLate := worstLateAfter g.worstLate e
    misses := 0
    cycle := nextCycle period pend anchor }

/-- A surplus arrival (04 R73). -/
def surplusArrival (f : FlowRecord) : FlowRecord :=
  { f with running := { f.running with surplus := bump32 f.running.surplus }
           period := { f.period with surplus := bump16 f.period.surplus } }

/-- A relock by an arrival at time t (04 R75). -/
def relock (period : Nat) (pend : Option Nat) (t : Tick) (f : FlowRecord) : FlowRecord :=
  { f with running := { f.running with relocks := bump32 f.running.relocks }
           misses := 0
           cycle := nextCycle period pend t }

/-- An arrival in TRACKING (04 R69). -/
def trackArrival (silenceCount : Nat) (period : Nat) (pend : Option Nat) (anchor t : Tick) (f : FlowRecord) : FlowOutcome :=
  let k := elapsedCycles period anchor t
  if k < 0 then (surplusArrival f, [])
  else if k = 0 then (classifyArrival period pend anchor t f, [])
  else
    let out := accountCycles silenceCount k.toNat period pend anchor f
    match out.1.cycle with
    | .tracking p pd e => (classifyArrival p pd e t out.1, out.2)
    | .silent p pd _ => (relock p pd t out.1, out.2)
    | _ => out

/-- The arrivals tallies (04 R61). -/
def countArrival (f : FlowRecord) : FlowRecord :=
  { f with running := { f.running with arrivals := bump32 f.running.arrivals }
           period := { f.period with arrivals := bump16 f.period.arrivals } }

/-- An arrival notice taken by a flow: the arrivals tallies, then the handling of its state (04 R61). -/
def flowArrival (silenceCount : Nat) (t : Tick) (q : BitVec 16) (f0 : FlowRecord) : FlowOutcome :=
  let f := countArrival f0
  match f.cycle with
  | .learning ctx => learnArrival f ctx t q
  | .waiting period => ({ f with cycle := .tracking period none (t + BitVec.ofNat 32 period), misses := 0 }, [])
  | .tracking period pend anchor => trackArrival silenceCount period pend anchor t f
  | .silent period pend _ => (relock period pend t f, [])
  | .acyclic => (f, [])

/-! ## The sweep visit (04 section 4.5) -/

/-- The learning timeout (04 R66). -/
def learningTimeout (now : Tick) (ctx : LearningContext) : LearningContext :=
  match ctx.lastTime with
  | none => ctx
  | some t => if tickDiff now t > 16777215 then { ctx with lastTime := none, intervals := [], sum := 0 } else ctx

/-- The cycle work of a sweep visit at tick count now (04 R77 to R79). -/
def visitFlow (silenceCount : Nat) (now : Tick) (f : FlowRecord) : FlowOutcome :=
  match f.cycle with
  | .learning ctx => ({ f with cycle := .learning (learningTimeout now ctx) }, [])
  | .tracking period pend anchor =>
    let j := elapsedCycles period anchor now
    if 1 ≤ j then accountCycles silenceCount j.toNat period pend anchor f else (f, [])
  | .silent period pend anchor =>
    let j := elapsedCycles period anchor now
    if 1 ≤ j then ({ f with cycle := .silent period pend (advanceAnchor anchor period j.toNat) }, []) else (f, [])
  | .waiting _ => (f, [])
  | .acyclic => (f, [])

/-! ## Changes of period (04 section 4.6) -/

/-- The clamping of a requested period; 0 means "learn" (03 R54). -/
def clampPeriod (n : Nat) : Nat := if n = 0 then 0 else clamp 100 16777215 n

/-- The effect of a clamped requested period on a flow, by its state (03 R55, 04 R82). -/
def changePeriod (p : Nat) (f : FlowRecord) : FlowRecord :=
  if p = 0 then
    match f.cycle with
    | .learning _ => f
    | _ => { f with cycle := .learning LearningContext.fresh, misses := 0 }
  else
    match f.cycle with
    | .tracking q pend e => if p = q ∧ pend = none then f else { f with cycle := .tracking q (some p) e }
    | .silent q pend e => if p = q ∧ pend = none then f else { f with cycle := .silent q (some p) e }
    | .waiting _ => { f with cycle := .waiting p }
    | .learning _ => { f with cycle := .waiting p, misses := 0 }
    | .acyclic => { f with cycle := .waiting p, misses := 0 }

end Sys2Proof.Machine
end

