-- ==== Sys2Proof/Machine/Order.lean ====
section
/-! DEFINITION. The order tracker (05): residence, the residence histogram, the budget check and the order window of one flow. -/

namespace Sys2Proof.Machine

/-! ## Residence (05 section 5.2) -/

/-- The residence of a record that departs at time t (05 R87). -/
def residence (p : PendingRecord) (t : Tick) : Nat := tickDiff t p.stamp

/-- The histogram bin of a residence (05 R88). -/
def residenceBin (r : Nat) : Fin 8 :=
  if r < 64 then 0
  else if r < 256 then 1
  else if r < 1024 then 2
  else if r < 4096 then 3
  else if r < 16384 then 4
  else if r < 65536 then 5
  else if r < 262144 then 6
  else 7

/-- A departure counted in its bin (05 R88). -/
def countBin (r : Nat) (x : RingRecord) : RingRecord :=
  let b := residenceBin r
  { x with histogram := x.histogram.set b (bump32 x.histogram[b]) }

/-- A worst residence after a residence r (05 R90). -/
def worstAfter (w : Option Nat) (r : Nat) : Option Nat :=
  match w with
  | none => some r
  | some x => if x < r then some r else some x

/-- Whether a residence is late under a budget; a budget of 0 turns the check off (05 R89). -/
def isLateDeparture (budget r : Nat) : Bool := decide (budget ≠ 0) && decide (budget < r)

/-- The departures tallies (05 R85 step 5), the budget check (R89) and the worst residences (R90). -/
def countDeparture (r : Nat) (f : FlowRecord) : FlowRecord :=
  let late := isLateDeparture f.params.budget r
  { f with
    running := { f.running with
      departures := bump32 f.running.departures
      lateDepartures := if late then bump32 f.running.lateDepartures else f.running.lateDepartures }
    period := { f.period with
      departures := bump16 f.period.departures
      lateDepartures := if late then bump16 f.period.lateDepartures else f.period.lateDepartures }
    worstResidence := worstAfter f.worstResidence r
    periodWorst := worstAfter f.periodWorst r }

/-! ## The order window (05 section 5.3) -/

/-- How a credited departure stands to a synced window (05 R94). -/
inductive OrderCase where
  | resync
  | advance (distance : Nat)
  | duplicate
  | inside (index : Nat)
  | straggler
  deriving DecidableEq, Repr

/-- The case of a distance, under the resync distance (05 R94). An index is the bit of the departed set for position T + distance. -/
def orderCase (resync : Nat) (d : Int) : OrderCase :=
  if d ≥ (resync : Int) ∨ d ≤ -(resync : Int) then .resync
  else if 1 ≤ d then .advance d.toNat
  else if d = 0 then .duplicate
  else if -32 ≤ d then .inside (32 + d).toNat
  else .straggler

/-- A window synced on a sequence (05 R93, R99). -/
def syncedOn (q : BitVec 16) : OrderWindow := ⟨true, q, BitVec.allOnes 32⟩

/-- The positions that an advance by d counts as lost (05 R95 steps 1 and 2). -/
def lostByAdvance (w : OrderWindow) (d : Nat) : Nat :=
  (List.range (min d 32)).countP (fun i => !w.departed.getLsbD i) + (d - 33)

/-- The window after an advance by d to sequence q (05 R95 step 3): kept positions keep their marks, the old top is marked
departed, positions after it are not departed. -/
def advanced (w : OrderWindow) (d : Nat) (q : BitVec 16) : OrderWindow :=
  { w with
    top := q
    departed := if d ≤ 32 then (w.departed >>> d) ||| ((1 : BitVec 32) <<< (32 - d)) else 0 }

/-- A position of the window marked departed (05 R97). -/
def marked (w : OrderWindow) (i : Nat) : OrderWindow := { w with departed := w.departed ||| ((1 : BitVec 32) <<< i) }

/-- One duplicate (05 R96, R97). -/
def countDuplicate (f : FlowRecord) : FlowRecord :=
  { f with running := { f.running with duplicates := bump32 f.running.duplicates }
           period := { f.period with duplicates := bump16 f.period.duplicates } }

/-- The sequence of a credited departure judged against the order window (05 R93 to R99). -/
def judgeSequence (resync : Nat) (q : BitVec 16) (f : FlowRecord) : FlowRecord :=
  if f.window.synced then
    match orderCase resync (seqDiffSigned q f.window.top) with
    | .resync => { f with window := syncedOn q, running := { f.running with resyncs := bump32 f.running.resyncs } }
    | .advance d =>
      let lost := lostByAdvance f.window d
      { f with
        window := advanced f.window d q
        running := { f.running with lost := satAdd max32 f.running.lost lost }
        period := { f.period with lost := satAdd max16 f.period.lost lost } }
    | .duplicate => countDuplicate f
    | .inside i =>
      if f.window.departed.getLsbD i then countDuplicate f
      else
        { f with
          window := marked f.window i
          running := { f.running with reordered := bump32 f.running.reordered }
          period := { f.period with reordered := bump16 f.period.reordered } }
    | .straggler =>
      { f with
        running := { f.running with stragglers := bump32 f.running.stragglers }
        period := { f.period with stragglers := bump16 f.period.stragglers } }
  else { f with window := syncedOn q }

/-- A credited departure of a record with sequence q and residence r (05 R85 steps 5 to 7). -/
def flowDeparture (resync : Nat) (q : BitVec 16) (r : Nat) (f : FlowRecord) : FlowRecord :=
  judgeSequence resync q (countDeparture r f)

/-- One switch drop credited to a flow (01 R16). -/
def countDrop (f : FlowRecord) : FlowRecord :=
  { f with running := { f.running with switchDrops := bump32 f.running.switchDrops }
           period := { f.period with switchDrops := bump16 f.period.switchDrops } }

end Sys2Proof.Machine
end

