-- ==== Sys2Proof/Machine/Directory.lean ====
section
/-! DEFINITION. The roll of a lagging flow with its limit check and retirement (06 section 6.4; 03 R59), the flow directory's lookup
and enrolment (03 section 3.3), the crediting test (03 R53), and the three notices (01 R16; 04 R61; 05 R85). -/

namespace Sys2Proof.Machine

/-! ## The roll (06 R113 to R115) -/

/-- Twelve tallies added into a summary's totals (06 R114). -/
def addTotals (a b : Tallies) : Tallies where
  arrivals := satAdd max32 a.arrivals b.arrivals
  departures := satAdd max32 a.departures b.departures
  missed := satAdd max32 a.missed b.missed
  early := satAdd max32 a.early b.early
  lateArrivals := satAdd max32 a.lateArrivals b.lateArrivals
  surplus := satAdd max32 a.surplus b.surplus
  lateDepartures := satAdd max32 a.lateDepartures b.lateDepartures
  reordered := satAdd max32 a.reordered b.reordered
  stragglers := satAdd max32 a.stragglers b.stragglers
  duplicates := satAdd max32 a.duplicates b.duplicates
  lost := satAdd max32 a.lost b.lost
  switchDrops := satAdd max32 a.switchDrops b.switchDrops

/-- A summary's worst residence after a flow's period worst residence is folded in (06 R114). -/
def foldWorst (w : Option (Nat × FlowIx)) (r : Option Nat) (i : FlowIx) : Option (Nat × FlowIx) :=
  match r with
  | none => w
  | some x =>
    match w with
    | none => some (x, i)
    | some (y, j) => if y < x then some (x, i) else some (y, j)

/-- Whether a non-zero limit is crossed (06 R115). -/
def crosses (limit value : Nat) : Bool := decide (limit ≠ 0) && decide (limit ≤ value)

/-- The incidents of a limit check, in order (06 R115). -/
def limitIncidents (p : FlowParams) (t : Tallies) : List (IncidentKind × Nat) :=
  (if crosses p.missLimit t.missed then [(.flowMiss, t.missed)] else [])
  ++ (if crosses p.lateLimit (t.lateArrivals + t.lateDepartures) then [(.flowLate, t.lateArrivals + t.lateDepartures)] else [])
  ++ (if crosses p.lossLimit (t.lost + t.switchDrops) then [(.flowLoss, t.lost + t.switchDrops)] else [])
  ++ (if crosses p.disorderLimit (t.reordered + t.stragglers + t.duplicates) then
        [(.flowDisorder, t.reordered + t.stragglers + t.duplicates)] else [])

/-- Raisings with a flow as their subject. -/
def flowRaisings (i : FlowIx) (l : List (IncidentKind × Nat)) : List (IncidentKind × Subject × BitVec 32) :=
  l.map (fun p => (p.1, .flow i, BitVec.ofNat 32 p.2))

/-- The idle periods count after a roll (03 R59). -/
def idleAfter (f : FlowRecord) : Nat := if f.period.arrivals = 0 then satAdd Config.idleLimit f.idle 1 else 0

/-- Whether the roll retires the flow (03 R59). -/
def retires (f : FlowRecord) : Bool := f.origin == .learned && idleAfter f == Config.idleLimit

/-- The CLOSING summary after a flow is folded into it (06 R114, R115). -/
def foldInto (f : FlowRecord) (i : FlowIx) (q : Summary) : Summary :=
  { q with
    totals := addTotals q.totals f.period
    worst := foldWorst q.worst f.periodWorst i
    flowsOver := if (limitIncidents f.params f.period).isEmpty then q.flowsOver else bump32 q.flowsOver }

/-- The roll of a flow (06 R113): fold (R114), limit check (R115), idle periods and retirement (03 R59), fresh period tallies. -/
def rollFlow (i : FlowIx) (f : FlowRecord) (s : State) : State :=
  let s1 := raiseAll (flowRaisings i (limitIncidents f.params f.period)) (s.modClosing (foldInto f i))
  if retires f then (raise .flowRetired (.flow i) (f.key.setWidth 32) s1).vacate i
  else
    s1.setFlow i { f with
      period := Tallies.zero
      periodWorst := none
      tag := s1.tally.periodNumber
      idle := idleAfter f }

/-- A flow rolled when its period tag lags the current period number (06 R113). -/
def rollIfLagging (i : FlowIx) (s : State) : State :=
  match s.flowAt i with
  | none => s
  | some f => if f.tag = s.tally.periodNumber then s else rollFlow i f s

/-! ## Lookup and enrolment (03 R49 to R51) -/

/-- The flow record of an entry leaving VACANT (03 R48). -/
def newFlow (origin : Origin) (ring : RingIx) (key : Half) (cycle : Cycle) (params : FlowParams) (tag : BitVec 16) : FlowRecord where
  origin := origin
  ring := ring
  key := key
  cycle := cycle
  params := params
  misses := 0
  window := OrderWindow.unsynced
  running := RunningTallies.zero
  worstEarly := none
  worstLate := none
  worstResidence := none
  period := Tallies.zero
  periodWorst := none
  tag := tag
  idle := 0

/-- The entry and its generation, as a pending record names them (01 R8). -/
def State.refOf (s : State) (i : FlowIx) : FlowRef := ⟨i, (s.entry i).gen⟩

/-- The outcome of a lookup that no entry matches: enrolment (03 R50) or no flow (R51). -/
def enrolOrRefuse (ring : RingIx) (key : Half) (s : State) : State × Option FlowRef :=
  if (s.ring ring).autoEnrol then
    match s.lowestVacant with
    | some i =>
      let f := newFlow .learned ring key (.learning LearningContext.fresh) s.values.learnedParams s.tally.periodNumber
      (s.setFlow i f, some (s.refOf i))
    | none => (raise .directoryFull (.ring ring) (key.setWidth 32) s, none)
  else (s, none)

/-- The lookup of an arrival (03 R49 to R51). -/
def lookup (ring : RingIx) (key : Half) (s : State) : State × Option FlowRef :=
  match s.findKey ring key with
  | some i =>
    let s1 := rollIfLagging i s
    match s1.flowAt i with
    | some _ => (s1, some (s1.refOf i))
    | none => enrolOrRefuse ring key s1
  | none => enrolOrRefuse ring key s

/-! ## Crediting (03 R53) -/

/-- The entry and record a pending record may be credited to: it names a flow, the entry is not VACANT, and the generations are
equal (01 R16, 03 R53). -/
def State.credited (s : State) (p : PendingRecord) : Option (FlowIx × FlowRecord) :=
  match p.flow with
  | none => none
  | some ref =>
    match s.flowAt ref.index with
    | none => none
    | some f => if (s.entry ref.index).gen = ref.gen then some (ref.index, f) else none

/-- The state after the crediting test and the roll it may make, with the flow that is credited, if any (03 R53). -/
def creditAndRoll (p : PendingRecord) (s : State) : State × Option (FlowIx × FlowRecord) :=
  match s.credited p with
  | none => (s, none)
  | some (i, _) =>
    let s1 := rollIfLagging i s
    (s1, s1.credited p)

/-! ## Notices -/

/-- A drop notice for a record that left a slot of a ring (01 R16). -/
def dropNotice (ring : RingIx) (p : PendingRecord) (s : State) : State :=
  match creditAndRoll p s with
  | (s1, some (i, f)) => s1.setFlow i (countDrop f)
  | (s1, none) => countUntrackedDeparture ring s1

/-- The outcome of an event on a flow written back, and its incidents raised in order (07 R121). -/
def applyFlowOutcome (i : FlowIx) (out : FlowOutcome) (s : State) : State :=
  raiseAll (flowRaisings i out.2) (s.setFlow i out.1)

/-- An arrival notice (04 R61). -/
def arrivalNotice (i : FlowIx) (t : Tick) (q : BitVec 16) (s : State) : State :=
  match s.flowAt i with
  | none => s
  | some f => applyFlowOutcome i (flowArrival s.values.silenceCount t q f) s

/-- A departure notice from a ring at time t (05 R85, R86). -/
def departureNotice (ring : RingIx) (p : PendingRecord) (t : Tick) (s : State) : State :=
  let r := residence p t
  match creditAndRoll p (s.modRing ring (countBin r)) with
  | (s1, some (i, f)) => s1.setFlow i (flowDeparture s1.values.resync p.seq r f)
  | (s1, none) => countUntrackedDeparture ring s1

end Sys2Proof.Machine
end

