-- ==== Sys2Proof/WellFormed.lean ====
section
/-! DEFINITION. Which commands are well formed: those a sender outside the part can bring about. `exec` gives every command a
next state, well formed or not. -/

namespace Sys2Proof

/-- The words of a burst: S_LEN 0 to 3 means 1 to 4 words (10 R169). -/
def burstWords (slen : BitVec 2) : Nat := slen.toNat + 1

/-- The address of a request is the data of an address character, 0 to 15 (10 section 10.5, tally line framing). -/
def lineAddressOk (addr : Byte) : Bool := decide (addr.toNat < 16)

/-- A configuration memory with a 16-bit byte address holds at most 65,536 bytes (10 R165). -/
def imageOk (image : List Byte) : Bool := decide (image.length ≤ 65536)

/-- A write carries one data word for each word of its burst, a read carries none (01 R1). -/
def transferOk (write : Bool) (slen : BitVec 2) (data : List BusWord) : Bool :=
  data.length == (if write then burstWords slen else 0)

/-- The memory returns 1 to 4 words for a read (01 R1; 10 R169). -/
def readDataOk (data : List BusWord) : Bool := decide (1 ≤ data.length ∧ data.length ≤ 4)

/-- The checks of one command. -/
def Instr.wellFormed : Instr → Bool
  | .powerOn _ => true
  | .busTransfer write _ slen data => transferOk write slen data
  | .readDataCheck data => readDataOk data
  | .busReset => true
  | .tick _ => true
  | .refLoss => true
  | .measurementCompletion => true
  | .millisecondStrobe => true
  | .secondsStrobe => true
  | .sweepPace => true
  | .silenceTick => true
  | .boundary => true
  | .debouncedStateChange _ => true
  | .addressCharacter _ _ => true
  | .dataCharacter _ _ => true
  | .gapLimitExpiry => true
  | .quietLimitExpiry => true
  | .replyStart => true
  | .replyEnd => true
  | .loadEnd image => imageOk image
  | .status addr => lineAddressOk addr
  | .readFlow addr _ _ => lineAddressOk addr
  | .findFlow addr _ _ => lineAddressOk addr
  | .defineFlow addr _ _ _ => lineAddressOk addr
  | .removeFlow addr _ => lineAddressOk addr
  | .setPeriod addr _ _ => lineAddressOk addr
  | .readRing addr _ _ => lineAddressOk addr
  | .defineRing addr _ _ _ _ => lineAddressOk addr
  | .ringOff addr _ => lineAddressOk addr
  | .readSummary addr _ _ => lineAddressOk addr
  | .takeIncidents addr _ => lineAddressOk addr
  | .acknowledge addr _ => lineAddressOk addr
  | .setAlarmMap addr _ _ _ _ => lineAddressOk addr
  | .setTallyPeriod addr _ => lineAddressOk addr
  | .clearTallies addr => lineAddressOk addr
  | .restart addr => lineAddressOk addr
  | .start addr => lineAddressOk addr
  | .seenRisingEdge => true
  | .busClock _ => true
  | .swRstNRelease => true

end Sys2Proof
end

