-- ==== Sys2Proof/Machine/Path.lean ====
section
/-! DEFINITION. The descriptor path (01): recognition of transfers, field extraction, stamp substitution, the cases of a descriptor
write, departures and phantom reads, the checks of read data, ring silence, the bus reset, and the path stage itself. -/

namespace Sys2Proof.Machine

/-! ## Windows and recognition (01 section 1.2) -/

/-- The first word address after a ring's window (01 R2). -/
def RingRecord.windowEnd (x : RingRecord) : Nat := x.base.toNat + 4 * x.slotCount

/-- Whether a word address lies inside the window of an enabled ring (01 R2, R3). -/
def RingRecord.inWindow (x : RingRecord) (a : Nat) : Bool :=
  x.enabled && decide (x.base.toNat ≤ a) && decide (a < x.windowEnd)

/-- Whether a transfer of n words from address a touches the window of an enabled ring (01 R4). A burst does not wrap at the top of
the address space. DEDUCED, log entry 7. -/
def RingRecord.touched (x : RingRecord) (a n : Nat) : Bool :=
  x.enabled && decide (x.base.toNat < a + n) && decide (a < x.windowEnd)

/-- How the ring decoder takes a transfer (01 R3, R4). -/
inductive Recognised where
  | descriptor (ring : RingIx) (slot : Nat)
  | stray
  | unseen
  deriving DecidableEq, Repr

/-- The enabled ring whose window holds an address (01 R3). -/
def State.ringAt (s : State) (a : Nat) : Option RingIx := ringOrder.find? (fun r => (s.ring r).inWindow a)

/-- Recognition of a transfer by its start address and burst length (01 R3, R4). -/
def recognise (addr : BitVec 22) (slen : BitVec 2) (s : State) : Recognised :=
  let a := addr.toNat
  let n := burstWords slen
  if s.device = .monitoring ∧ s.rstAsserted = false then
    match s.ringAt a with
    | some r =>
      let off := a - (s.ring r).base.toNat
      if off % 4 = 0 ∧ n = 4 then .descriptor r (off / 4) else .stray
    | none => if ringOrder.any (fun r => (s.ring r).touched a n) then .stray else .unseen
  else .unseen

/-! ## Field extraction (01 section 1.3) -/

/-- Word i of a burst. A word the sender left out reads as 0 with good parity; such a command is not well formed (log entry 30). -/
def wordAt (data : List BusWord) (i : Fin 4) : BusWord := data.getD i.val default

/-- The upper or lower half of a word (01 section 1.3). -/
def halfOf (upper : Bool) (w : BitVec 32) : BitVec 16 := if upper then w.extractLsb' 16 16 else w.extractLsb' 0 16

/-- Nibble n of a word: bits 4n + 3 to 4n (01 section 1.3). -/
def nibbleOf (n : Fin 8) (w : BitVec 32) : BitVec 4 := w.extractLsb' (4 * n.val) 4

/-- The masked key of a descriptor write (01 R5, 03 R46). -/
def maskedKeyOf (v : DeviceValues) (data : List BusWord) : Half :=
  halfOf v.profile.keyUpper (wordAt data v.profile.keyWord).data &&& v.keyMask

/-- The sequence of a descriptor write (01 R5). -/
def sequenceOf (v : DeviceValues) (data : List BusWord) : BitVec 16 :=
  halfOf v.profile.seqUpper (wordAt data v.profile.seqWord).data

/-- Whether a descriptor write is void (01 R5). -/
def isVoid (v : DeviceValues) (data : List BusWord) : Bool :=
  nibbleOf v.profile.dispNibble (wordAt data v.profile.dispWord).data == v.profile.voidCode

/-- Whether all sixteen bytes of four words have good parity (01 R7). -/
def burstOk (data : List BusWord) : Bool := [0, 1, 2, 3].all (fun i => wordOk (wordAt data i))

/-! ## The cases of a descriptor write (01 section 1.5) -/

/-- The six cases of the write table (01 R7, R9). -/
inductive WriteCase where
  | parityFaulted
  | arrival
  | voidIntoEmpty
  | update (rec : PendingRecord)
  | overwrite (old : PendingRecord)
  | withdrawal (old : PendingRecord)
  deriving DecidableEq, Repr

/-- The case of a descriptor write: parity, then slot state, then disposition, then key and sequence (01 R7, R9). -/
def writeCase (v : DeviceValues) (slot : Option PendingRecord) (data : List BusWord) : WriteCase :=
  if burstOk data then
    match slot with
    | none => if isVoid v data then .voidIntoEmpty else .arrival
    | some p =>
      if isVoid v data then .withdrawal p
      else if maskedKeyOf v data = p.key ∧ sequenceOf v data = p.seq then .update p
      else .overwrite p
  else .parityFaulted

/-- The stamp value of a descriptor write: the record's stamp for an update, the write's time otherwise (01 R6). -/
def stampValue (c : WriteCase) (now : Tick) : Tick :=
  match c with
  | .update p => p.stamp
  | _ => now

/-- The write data as they leave for memory: the stamp word of a stamped ring substituted, with good parity (01 R6). -/
def substituted (x : RingRecord) (profile : Profile) (v : Tick) (data : List BusWord) : List BusWord :=
  match profile.stampWord with
  | some w => if x.stampOn then data.set w.val ⟨v, goodParity v⟩ else data
  | none => data

/-- A slot that becomes HELD: enqueued and held go up by 1, and the high-water follows (01 R10 step 3, R22). -/
def holdSlot (slot : Nat) (p : PendingRecord) (x : RingRecord) : RingRecord :=
  { x with
    slots := slotPut x.slots slot p
    enqueued := x.enqueued + 1
    held := x.held + 1
    highWater := max x.highWater (x.held + 1) }

/-- A record that takes the place of another: enqueued goes up by 1, held stays (01 R13 step 4, R15). -/
def replaceSlot (slot : Nat) (p : PendingRecord) (x : RingRecord) : RingRecord :=
  { x with slots := slotPut x.slots slot p, enqueued := x.enqueued + 1 }

/-- The rest of an arrival after its record is in the slot (01 R10 steps 4 and 5). -/
def finishArrival (ring : RingIx) (ref : Option FlowRef) (t : Tick) (q : BitVec 16) (s : State) : State :=
  match ref with
  | none => countUntrackedArrival ring s
  | some ref => arrivalNotice ref.index t q s

/-- An arrival into an EMPTY slot (01 R10). -/
def takeArrival (ring : RingIx) (slot : Nat) (key : Half) (q : BitVec 16) (s : State) : State :=
  let out := lookup ring key s
  let p : PendingRecord := ⟨out.2, key, q, s.time.tickCount⟩
  finishArrival ring out.2 s.time.tickCount q (notePeak (out.1.modRing ring (holdSlot slot p)))

/-- A HELD record thrown away by an overwrite: removed, its drop notice handed on, overwritten up by 1 (01 R13 steps 1 and 2, R15). -/
def overwriteOld (ring : RingIx) (slot : Nat) (old : PendingRecord) (s : State) : State :=
  (dropNotice ring old (s.modRing ring (fun x => { x with slots := slotErase x.slots slot }))).modRing ring
    (fun x => { x with overwritten := x.overwritten + 1 })

/-- An overwrite (01 R13). -/
def takeOverwrite (ring : RingIx) (slot : Nat) (old : PendingRecord) (key : Half) (q : BitVec 16) (s : State) : State :=
  let out := lookup ring key (overwriteOld ring slot old s)
  let p : PendingRecord := ⟨out.2, key, q, s.time.tickCount⟩
  finishArrival ring out.2 s.time.tickCount q (out.1.modRing ring (replaceSlot slot p))

/-- A withdrawal (01 R14). -/
def takeWithdrawal (ring : RingIx) (slot : Nat) (old : PendingRecord) (s : State) : State :=
  (dropNotice ring old (s.modRing ring (fun x => { x with slots := slotErase x.slots slot }))).modRing ring
    (fun x => { x with withdrawn := x.withdrawn + 1, held := x.held - 1 })

/-- A parity fault of a ring counted and raised (01 R7, R19). -/
def countParityFault (ring : RingIx) (slot : Nat) (s : State) : State :=
  raise .ringParity (.ring ring) (BitVec.ofNat 32 slot)
    (s.modRing ring (fun x => { x with parityFaults := bump32 x.parityFaults }))

/-- A parity-faulted write (01 R7, R15). RING_PARITY is raised before the old record's drop notice, which may roll a flow and raise its
incidents. DEDUCED, log entry 38. -/
def takeFaultedWrite (ring : RingIx) (slot : Nat) (key : Half) (q : BitVec 16) (s : State) : State :=
  let s1 := countParityFault ring slot s
  let p : PendingRecord := ⟨none, key, q, s.time.tickCount⟩
  match slotGet (s1.ring ring).slots slot with
  | none => countUntrackedArrival ring (notePeak (s1.modRing ring (holdSlot slot p)))
  | some old => countUntrackedArrival ring ((overwriteOld ring slot old s1).modRing ring (replaceSlot slot p))

/-- One stray access of a ring (01 R4, R11). -/
def countStray (ring : RingIx) (s : State) : State :=
  s.modRing ring (fun x => { x with strayAccesses := bump32 x.strayAccesses })

/-- The silence state after a descriptor write (01 R23). -/
def resetSilence (ring : RingIx) (s : State) : State :=
  s.modRing ring (fun x => { x with silenceCounter := 0, silence := .active })

/-- The case of a descriptor write to a slot in a state. -/
def State.writeCaseAt (s : State) (ring : RingIx) (slot : Nat) (data : List BusWord) : WriteCase :=
  writeCase s.values (slotGet (s.ring ring).slots slot) data

/-- A descriptor write, by its case (01 R9 to R15, R23). -/
def descriptorWrite (ring : RingIx) (slot : Nat) (data : List BusWord) (s0 : State) : State :=
  let s := resetSilence ring s0
  let key := maskedKeyOf s.values data
  let q := sequenceOf s.values data
  match s.writeCaseAt ring slot data with
  | .parityFaulted => takeFaultedWrite ring slot key q s
  | .arrival => takeArrival ring slot key q s
  | .voidIntoEmpty => countStray ring s
  | .update _ => s
  | .overwrite old => takeOverwrite ring slot old key q s
  | .withdrawal old => takeWithdrawal ring slot old s

/-! ## Descriptor reads -/

/-- A departure (01 R17). -/
def takeDeparture (ring : RingIx) (slot : Nat) (p : PendingRecord) (s : State) : State :=
  departureNotice ring p s.time.tickCount
    (s.modRing ring (fun x =>
      { x with slots := slotErase x.slots slot, departed := x.departed + 1, held := x.held - 1 }))

/-- A descriptor read: a departure of a HELD slot, a phantom read of an EMPTY one (01 R17, R20). -/
def descriptorRead (ring : RingIx) (slot : Nat) (s : State) : State :=
  match slotGet (s.ring ring).slots slot with
  | some p => takeDeparture ring slot p s
  | none => s.modRing ring (fun x => { x with phantomReads := bump32 x.phantomReads })

/-- The checks of a descriptor read's data, against the ring record as it stands when they pass (01 R17 to R20). -/
def checkReadData (c : ReadCheck) (data : List BusWord) (s : State) : State :=
  if burstOk data then
    match c.stamp, s.values.profile.stampWord with
    | some stamp, some w =>
      if (s.ring c.ring).stampOn ∧ (wordAt data w).data ≠ stamp then
        raise .ringStamp (.ring c.ring) (BitVec.ofNat 32 c.slot)
          (s.modRing c.ring (fun x => { x with stampMismatches := bump32 x.stampMismatches }))
      else s
    | _, _ => s
  else countParityFault c.ring c.slot s

/-! ## The path stage (01 R1) -/

/-- A transfer taken up by the path stage on its way to memory: 2 bus clocks to go (01 R1). -/
def carryOut (t : Transfer) (s : State) : State :=
  { s with path := { s.path with toMemory := s.path.toMemory ++ [(2, t)] } }

/-- Read data taken up by the path stage on their way to the switch: 2 bus clocks to go (01 R1). -/
def carryBack (data : List BusWord) (s : State) : State :=
  { s with path := { s.path with toSwitch := s.path.toSwitch ++ [(2, data)] } }

/-- One bus clock of a delay line: what leaves at it, and what stays with one bus clock less to go. -/
def delayLeaving {α : Type} (l : List (Nat × α)) : List α := (l.filter (fun p => decide (p.1 ≤ 1))).map (fun p => p.2)

def delayStaying {α : Type} (l : List (Nat × α)) : List (Nat × α) :=
  (l.filter (fun p => decide (1 < p.1))).map (fun p => (p.1 - 1, p.2))

/-- One bus clock of the path stage (01 R1). -/
def clockPath (p : PathStage) : PathStage where
  toMemory := delayStaying p.toMemory
  memorySide := delayLeaving p.toMemory
  toSwitch := delayStaying p.toSwitch
  switchSide := delayLeaving p.toSwitch

/-! ## Transfers, read data and the bus reset as events -/

/-- The data words of a transfer as they leave for memory (01 R1, R6). -/
def outgoingData (t : Transfer) (s : State) : List BusWord :=
  match recognise t.addr t.slen s with
  | .descriptor r slot =>
    if t.write then
      substituted (s.ring r) s.values.profile (stampValue (s.writeCaseAt r slot t.data) s.time.tickCount) t.data
    else t.data
  | _ => t.data

/-- What the ring decoder makes of a transfer (01 R3, R4). -/
def takeTransfer (t : Transfer) (s : State) : State :=
  match recognise t.addr t.slen s with
  | .descriptor r slot => if t.write then descriptorWrite r slot t.data s else descriptorRead r slot s
  | .stray =>
    ringOrder.foldl (fun u r => if (u.ring r).touched t.addr.toNat (burstWords t.slen) then countStray r u else u) s
  | .unseen => s

/-- The checks that a read's data will get: those of a descriptor read, and none of any other read (01 R3, R4, R17, R20). -/
def checksOf (t : Transfer) (s : State) : Option ReadCheck :=
  match recognise t.addr t.slen s with
  | .descriptor r slot => some ⟨r, slot, (slotGet (s.ring r).slots slot).map (fun p => p.stamp)⟩
  | _ => none

/-- A read of any kind is outstanding until its data pass (01 R1). -/
def awaitData (write : Bool) (c : Option ReadCheck) (s : State) : State :=
  if write then s else { s with reads := s.reads ++ [c] }

/-- BUS_TRANSFER (01 R1, R3, R4). -/
def busTransfer (t : Transfer) (s : State) : State :=
  carryOut { t with data := outgoingData t s } (awaitData t.write (checksOf t s) (takeTransfer t s))

/-- READ_DATA_CHECK (01 R1, R17 to R20): the data of the oldest read outstanding pass, checked if that read has checks. With none
outstanding the data only pass. DESIGN CHOICE, log entry 9. -/
def readDataCheck (data : List BusWord) (s : State) : State :=
  match s.reads with
  | [] => carryBack data s
  | none :: rest => carryBack data { s with reads := rest }
  | some c :: rest => carryBack data (checkReadData c data { s with reads := rest })

/-- The flush of one enabled ring by a bus reset (01 R25 steps 1 to 3). The drop notices of its HELD slots are handed on in rising
slot index. DESIGN CHOICE, log entry 32. -/
def flushRing (s : State) (r : RingIx) : State :=
  if (s.ring r).enabled then
    let gone := (s.ring r).slots
    let s1 := gone.foldl (fun u p => dropNotice r p.2 u) (s.modRing r (fun x => { x with slots := [] }))
    let s2 := s1.modRing r (fun x => { x with flushed := x.flushed + BitVec.ofNat 32 x.held, held := 0 })
    if gone.length = 0 then s2 else raise .ringFlush (.ring r) (BitVec.ofNat 32 gone.length) s2
  else s

/-- BUS_RESET (01 R25): assertion of SW_RST_N. While it stays asserted it cannot be asserted again. DESIGN CHOICE, log entry 12. -/
def busReset (s : State) : State :=
  if s.rstAsserted then s
  else
    let s1 := ringOrder.foldl flushRing s
    { s1 with
      rstAsserted := true
      startRec := { s1.startRec with busResets := bump16 s1.startRec.busResets } }

/-- SW_RST_N_RELEASE (01 R25). -/
def releaseReset (s : State) : State := { s with rstAsserted := false }

/-! ## Ring silence (01 section 1.7) -/

/-- One silence tick of one ring (01 R24). -/
def stepSilence (s : State) (r : RingIx) : State :=
  let x := s.ring r
  if x.enabled then
    if x.silenceCounter < 3 then s.setRing r { x with silenceCounter := x.silenceCounter + 1 }
    else
      match x.silence with
      | .active => raise .ringSilent (.ring r) (BitVec.ofNat 32 x.held) (s.setRing r { x with silence := .silent })
      | .silent => s
  else s

/-- SILENCE_TICK (01 R24), taken when it is due. The enabled rings are stepped, and raise RING_SILENT, from ring 0 to ring 15. DESIGN
CHOICE, log entry 31. -/
def silenceTick (s : State) : State :=
  if s.due.silenceTick then
    let s1 := { s with due := { s.due with silenceTick := false } }
    if s.device = .monitoring then ringOrder.foldl stepSilence s1 else s1
  else s

end Sys2Proof.Machine
end

