-- ==== Sys2Proof/Machine/Tally.lean ====
section
/-! DEFINITION. The flow sweep, tally periods and the history (06): sweep visits, boundaries, the clearing of tallies, and the entry to
MONITORING (01 R28, R29; 07 R131; 08 R142). -/

namespace Sys2Proof.Machine

/-! ## The sweep (06 section 6.1) -/

/-- The pass check of a visit to an entry (06 R105 step 3, R116). -/
def passCheck (i : FlowIx) (q : Summary) : Summary := if q.phase = .closing i then { q with phase := .final } else q

/-- The cycle work of a visit (06 R105 step 2; 04 section 4.5). -/
def visitCycle (i : FlowIx) (s : State) : State :=
  match s.flowAt i with
  | none => s
  | some f => applyFlowOutcome i (visitFlow s.values.silenceCount s.time.tickCount f) s

/-- A sweep visit: roll, cycle work, pass check (06 R105). -/
def sweepVisit (i : FlowIx) (s : State) : State :=
  let s1 := visitCycle i (rollIfLagging i s)
  s1.setHistory (s1.tally.history.map (passCheck i))

/-- SWEEP_PACE (06 R104), taken when it is due. -/
def sweepPace (s : State) : State :=
  if s.due.sweepPace then
    let s1 := { s with due := { s.due with sweepPace := false } }
    if s.device = .monitoring then
      let s2 := sweepVisit s.sweepNext s1
      { s2 with sweepNext := s.sweepNext + 1 }
    else s1
  else s

/-! ## Boundaries (06 section 6.3) -/

/-- The OPEN summary at its boundary (06 R110 step 1). -/
def closeSummary (now : Tick) (marker : FlowIx) (q : Summary) : Summary :=
  if q.isOpen then { q with endTime := some now, phase := .closing marker } else q

/-- The oldest FINAL summary discarded (06 R110 step 4). -/
def discardOldestFinal : List Summary → List Summary
  | [] => []
  | q :: rest => if q.isFinal then rest else q :: discardOldestFinal rest

/-- Room made for a new summary when 16 are held (06 R110 step 4). -/
def makeRoom (h : List Summary) : List Summary := if Config.historySize ≤ h.length then discardOldestFinal h else h

/-- A new start of a period: number one up, pending code in force, new OPEN summary, timer 0 (06 R110 steps 2 to 6, R118 steps 2 to 5). -/
def startPeriod (kept : List Summary) (s : State) : State :=
  let number := s.tally.periodNumber + 1
  let code := s.tally.pendingCode.getD s.tally.code
  { s with tally := ⟨number, 0, code, none, kept ++ [newSummary s number code]⟩ }

/-- The taking of a boundary (06 R110). -/
def takeBoundary (s : State) : State :=
  startPeriod (makeRoom (s.tally.history.map (closeSummary s.time.tickCount (s.sweepNext - 1)))) s

/-- Whether a boundary is due (06 R107). -/
def State.boundaryDue (s : State) : Bool := s.device == .monitoring && decide (periodLength s.tally.code ≤ s.tally.timer)

/-- BOUNDARY (06 R109, R110), taken when it is due. -/
def boundary (s : State) : State := if s.boundaryDue then takeBoundary s else s

/-! ## Clearing tallies (06 section 6.5) -/

/-- A flow at the clearing of tallies (04 R84, 05 R102, 06 R118 step 6). -/
def clearFlow (number : BitVec 16) (f : FlowRecord) : FlowRecord :=
  { f with
    running := RunningTallies.zero
    worstEarly := none
    worstLate := none
    worstResidence := none
    period := Tallies.zero
    periodWorst := none
    tag := number }

def clearEntry (number : BitVec 16) (e : FlowEntry) : FlowEntry := { e with flow := e.flow.map (clearFlow number) }

/-- A ring record at the clearing of tallies (01 R28). -/
def clearRing (x : RingRecord) : RingRecord :=
  { x with
    enqueued := BitVec.ofNat 32 x.held
    departed := 0
    withdrawn := 0
    overwritten := 0
    flushed := 0
    untrackedArrivals := 0
    untrackedDepartures := 0
    phantomReads := 0
    strayAccesses := 0
    parityFaults := 0
    stampMismatches := 0
    histogram := Vector.replicate 8 0
    highWater := x.held }

/-- The alarm state with the pending set emptied (08 R142). -/
def AlarmState.clearPending (a : AlarmState) : AlarmState := { a with pendingSet := 0 }.resolve

/-- Flows, rings, log and pending set cleared (06 R118 steps 6 and 7; 07 R131; 08 R142). -/
def clearCounts (s : State) : State :=
  { s with
    flows := s.flows.map (clearEntry s.tally.periodNumber)
    rings := s.rings.map clearRing
    log := IncidentLog.init
    alarm := s.alarm.clearPending }

/-- The clearing of tallies: whole in MONITORING, without steps 1 to 5 in UNCONFIGURED, nothing in LOADING (06 R118). -/
def clearTallies (s : State) : State :=
  match s.device with
  | .monitoring => clearCounts (startPeriod [] s)
  | .unconfigured => clearCounts s
  | .loading => s

/-! ## Entry to MONITORING (06 R120; 01 R29) -/

/-- Entry to MONITORING. The slots are EMPTY and the silence counters 0 already (01 R29): no transfer is tracked and no silence stepped
outside MONITORING. -/
def enterMonitoring (s : State) : State :=
  let code := s.tally.pendingCode.getD s.tally.code
  { s with
    device := .monitoring
    sweepNext := 0
    tally := { s.tally with
      timer := 0
      code := code
      pendingCode := none
      history := [newSummary s s.tally.periodNumber code] } }

end Sys2Proof.Machine
end

