-- ==== Sys2Proof/Machine/Tables.lean ====
section
/-! DEFINITION. The changes of the ring map and the flow directory that the requests and the loader share: DEFINE RING (01 R26),
RING OFF (R27), DEFINE FLOW (03 R54 to R56), REMOVE FLOW (R57), SET PERIOD (04 R82). -/

namespace Sys2Proof.Machine

/-! ## Rings (01 section 1.9) -/

/-- The slot counts a ring may have (01 R2). -/
def slotCountOk (n : Nat) : Bool := [8, 16, 32, 64, 128, 256].contains n

/-- Whether two windows of n and m words overlap. -/
def overlaps (a n b m : Nat) : Bool := decide (a < b + m) && decide (b < a + n)

/-- Whether a window overlaps that of another enabled ring (01 R26 check 4). -/
def State.overlapsOther (s : State) (r : RingIx) (base slots : Nat) : Bool :=
  ringOrder.any (fun q => q != r && (s.ring q).enabled && overlaps base (4 * slots) (s.ring q).base.toNat (4 * (s.ring q).slotCount))

/-- The slot counts of all other enabled rings (01 R26 check 7). -/
def State.otherSlots (s : State) (r : RingIx) : Nat :=
  (ringOrder.map (fun q => if q != r && (s.ring q).enabled then (s.ring q).slotCount else 0)).sum

/-- Whether the profile's stamp word is the word that holds the key or the sequence (01 R26 check 5). -/
def Profile.stampClash (p : Profile) : Bool :=
  match p.stampWord with
  | some w => w == p.keyWord || w == p.seqWord
  | none => false

/-- The checks 2 to 7 of DEFINE RING, in order (01 R26). -/
def ringStatus (r : RingIx) (base : BitVec 22) (slots : Nat) (stamp : Bool) (s : State) : Status :=
  if !slotCountOk slots then .badArgument
  else if base.toNat % (4 * slots) ≠ 0 then .badArgument
  else if s.overlapsOther r base.toNat slots then .badArgument
  else if stamp && s.values.profile.stampClash then .badArgument
  else if (s.ring r).enabled && decide (0 < (s.ring r).held) then .held
  else if Config.slotStoreSize < s.otherSlots r + slots then .full
  else .ok

/-- The record of a ring just defined (01 R26). -/
def definedRing (base : BitVec 22) (slots : Nat) (stamp enrol : Bool) : RingRecord :=
  { RingRecord.init with
    enabled := true
    base := base
    slotCount := slots
    stampOn := stamp
    autoEnrol := enrol }

/-- The checks of outstanding reads of a ring done away with (01 R17); the reads themselves stay outstanding. -/
def cancelReads (r : RingIx) (l : List (Option ReadCheck)) : List (Option ReadCheck) :=
  l.map (fun c => c.filter (fun k => k.ring != r))

/-- An accepted DEFINE RING (01 R26, R17). -/
def applyRing (r : RingIx) (base : BitVec 22) (slots : Nat) (stamp enrol : Bool) (s : State) : State :=
  { s.setRing r (definedRing base slots stamp enrol) with reads := cancelReads r s.reads }

/-- DEFINE RING (01 R26). A refused request changes nothing, outstanding read checks included. DEDUCED, log entry 19. -/
def defineRing (ring : Nat) (base : BitVec 22) (slots : Nat) (stamp enrol : Bool) (s : State) : State × Status :=
  if h : ring < 16 then
    let r : RingIx := ⟨ring, h⟩
    match ringStatus r base slots stamp s with
    | .ok => (applyRing r base slots stamp enrol s, .ok)
    | st => (s, st)
  else (s, .badArgument)

/-- A ring turned off (01 R27). -/
def turnOff (x : RingRecord) : RingRecord :=
  { x with enabled := false, slots := [], flushed := x.flushed + BitVec.ofNat 32 x.held, held := 0 }

/-- RING OFF (01 R27). -/
def ringOff (ring : Nat) (s : State) : State × Status :=
  if h : ring < 16 then
    let r : RingIx := ⟨ring, h⟩
    (if (s.ring r).enabled then s.modRing r turnOff else s, .ok)
  else (s, .badArgument)

/-! ## Flows (03 section 3.5) -/

/-- Tolerances, budget and limits clamped (03 R54). -/
def clampParams (early late budget miss lateLimit loss disorder : Nat) : FlowParams :=
  ⟨min early 65535, min late 65535, min budget 16777215, min miss 65535, min lateLimit 65535, min loss 65535, min disorder 65535⟩

/-- The values of a DEFINE FLOW, clamped (03 R54). -/
def paramsOf (a : FlowArgs) : FlowParams :=
  clampParams a.early.toNat a.late.toNat a.budget.toNat a.missLimit.toNat a.lateLimit.toNat a.lossLimit.toNat a.disorderLimit.toNat

/-- The state of a flow newly defined with a clamped period (03 R56). -/
def definedCycle (p : Nat) : Cycle := if p = 0 then .learning LearningContext.fresh else .waiting p

/-- A STATIC flow created in the lowest VACANT entry (03 R56); FULL when there is none (R54). -/
def createFlow (ring : RingIx) (key : Half) (p : Nat) (params : FlowParams) (s : State) : State × Status × List Byte :=
  match s.lowestVacant with
  | none => (s, .full, [])
  | some i => (s.setFlow i (newFlow .static ring key (definedCycle p) params s.tally.periodNumber), .ok, bytes1 i.val)

/-- An existing flow changed in place (03 R55 steps 2 to 4). -/
def redefineFlow (p : Nat) (params : FlowParams) (f : FlowRecord) : FlowRecord :=
  changePeriod p { f with origin := .static, params := params }

/-- DEFINE FLOW on a ring, with its key masked and its values clamped (03 R54 to R56). -/
def defineFlowAt (ring : RingIx) (key : Half) (p : Nat) (params : FlowParams) (s : State) : State × Status × List Byte :=
  match s.findKey ring key with
  | none => createFlow ring key p params s
  | some i =>
    let s1 := rollIfLagging i s
    match s1.flowAt i with
    | none => createFlow ring key p params s1
    | some f => (s1.setFlow i (redefineFlow p params f), .ok, bytes1 i.val)

/-- DEFINE FLOW (03 R54). -/
def defineFlow (ring : Nat) (key : Half) (args : FlowArgs) (s : State) : State × Status × List Byte :=
  if h : ring < 16 then
    defineFlowAt ⟨ring, h⟩ (key &&& s.values.keyMask) (clampPeriod args.period.toNat) (paramsOf args) s
  else (s, .badArgument, [])

/-- REMOVE FLOW (03 R57). -/
def removeFlow (i : FlowIx) (s : State) : State × Status :=
  match s.flowAt i with
  | none => (s, .notFound)
  | some _ =>
    let s1 := rollIfLagging i s
    match s1.flowAt i with
    | none => (s1, .ok)
    | some _ => (s1.vacate i, .ok)

/-- FIND FLOW (03 R58). -/
def findFlow (ring : Nat) (key : Half) (s : State) : Status × List Byte :=
  if h : ring < 16 then
    match s.findKey ⟨ring, h⟩ (key &&& s.values.keyMask) with
    | none => (.notFound, [])
    | some i =>
      match s.flowAt i with
      | none => (.notFound, [])
      | some f => (.ok, findPayload i (s.entry i).gen f)
  else (.badArgument, [])

/-- SET PERIOD (04 R82). -/
def setPeriod (i : FlowIx) (period : Nat) (s : State) : State × Status :=
  match s.flowAt i with
  | none => (s, .notFound)
  | some f => (s.setFlow i (changePeriod (clampPeriod period) f), .ok)

end Sys2Proof.Machine
end

