-- ==== Sys2Proof/Machine/Startup.lean ====
section
/-! DEFINITION. Power-on, the restart, the reading of the configuration image and the end of the load (10; 09 R163; the start-up rules
01 R29, 03 R60, 06 R120, 07 R122, 08 R133, R143, R145). -/

namespace Sys2Proof.Machine

/-! ## Power-on and restart -/

/-- Power-on (10 R164, R168): every block takes its power-on values and all straps are sampled. The level of SW_RST_N and the panel and
TL_RX levels belong to the outside. DESIGN CHOICE, log entry 22. -/
def powerOn (straps : Straps) (s : State) : State :=
  { State.reset with
    pending := s.pending
    rstAsserted := s.rstAsserted
    pins := { s.pins with straps := straps }
    straps := straps
    time := TimeBase.init straps.bdiv
    panel := Panel.init straps.chord }

/-- The straps after a RESTART samples ADDR, BAUD and PAR again (09 R148); BDIV and CHORD stay as sampled at power-on (02 R31, 08 R145). -/
def resampled (old pins : Straps) : Straps := { old with addr := pins.addr, baud := pins.baud, par := pins.par }

/-- The tally line interface after a RESTART: no reply, WAITING, the line error count kept (09 R163, R151). The character receiver looks
for a start edge. DESIGN CHOICE, log entry 15. -/
def TallyLine.restarted (l : TallyLine) : TallyLine := { TallyLine.init with lineErrors := l.lineErrors, rxLast := l.rxLast }

/-- The restart (09 R163, 10 R164, R168): the time base, the line error count, the bus reset count and the CHORD and BDIV straps are
kept, and outstanding read checks are done away with (01 R17). -/
def restartPart (s : State) : State :=
  { s with
    device := .loading
    straps := resampled s.straps s.pins.straps
    startRec := { s.startRec with cause := .restart, result := .none }
    load := LoadRead.init
    reads := s.reads.map (fun _ => none)
    values := DeviceValues.preload
    rings := Vector.replicate 16 RingRecord.init
    flows := Vector.replicate 256 FlowEntry.init
    sweepNext := 0
    tally := TallyState.init
    log := IncidentLog.init
    alarm := AlarmState.init
    panel := Panel.init s.straps.chord
    line := s.line.restarted }

/-! ## Reading the image (10 R165) -/

/-- The byte at an address of the configuration memory; a memory that stops driving its line reads as 0xFF bytes (10 R165). -/
def imageByte (img : List Byte) (a : Nat) : Byte := img.getD a 0xFF

/-- Word i of the configuration memory: two bytes, most significant byte first (10 R165). -/
def imageWord (img : List Byte) (i : Nat) : Half := imageByte img (2 * i) ++ imageByte img (2 * i + 1)

def imageRings (img : List Byte) : Nat := (imageWord img 2).toNat
def imageFlows (img : List Byte) : Nat := (imageWord img 3).toNat

/-- The number of words of an image (10 R165). -/
def imageWords (img : List Byte) : Nat := 4 + 19 + 4 * imageRings img + 12 * imageFlows img + 1

/-- The 16-bit sum of the first n words (10 R165). -/
def imageSum (img : List Byte) (n : Nat) : Half := (List.range n).foldl (fun t i => t + imageWord img i) 0

/-- The result of the read; GOOD stands for an image whose sum is zero, before its entries are applied (10 R165). -/
def readResult (img : List Byte) : ConfigResult :=
  if imageWord img 0 = 0xFFFF then .absent
  else if imageWord img 0 ≠ 0x444B ∨ imageWord img 1 ≠ 1 then .badMark
  else if imageRings img > 16 ∨ imageFlows img > 256 then .badContent
  else if imageSum img (imageWords img) ≠ 0 then .badSum
  else .good

/-- The words the loader takes before it stops the read (10 R165). A word that is not there yet counts as one to be read. -/
def wordsRead (img : List Byte) : Nat :=
  if imageWord img 0 ≠ 0x444B then 1
  else if imageWord img 1 ≠ 1 then 2
  else if imageRings img > 16 then 3
  else if imageFlows img > 256 then 4
  else imageWords img

/-- Whether the bytes clocked in are all the loader takes: it stops the read at the first header word that ends it, or after the check
word (10 R165). -/
def readStopped (bytes : List Byte) : Bool := decide (2 * wordsRead bytes ≤ bytes.length)

/-- One bit clocked in, the most significant bit of a byte first (10 R165). PRESUMED, log entry 23. -/
def clockBit (level : Bool) (x : LoadRead) : LoadRead :=
  let bits := x.bits ++ [level]
  let b := fun i => bits.getD i false
  if bits.length < 8 then { x with bits := bits }
  else { x with bits := [], bytes := x.bytes ++ [byteOfBits (b 7) (b 6) (b 5) (b 4) (b 3) (b 2) (b 1) (b 0)] }

/-- A tick of the read, 4 to each SPI clock, with the level of CFG_MISO at it (10 R165): after the 24 clocks of the command byte and the
address each clock brings one bit, taken at its last tick (DESIGN CHOICE, log entry 35), until the loader stops the read. -/
def LoadRead.tick (level : Bool) (x : LoadRead) : LoadRead :=
  if readStopped x.bytes then x
  else
    let y := { x with ticks := x.ticks + 1 }
    if y.ticks % 4 = 0 ∧ 24 < y.ticks / 4 then clockBit level y else y

/-- The read at a tick (10 R165): it runs in LOADING alone. -/
def loadTick (device : DeviceState) (level : Bool) (x : LoadRead) : LoadRead :=
  if device = .loading then x.tick level else x

/-- Whether the configuration memory is selected: from the entry to LOADING until the loader stops the read (10 R165). -/
def State.cfgSelected (s : State) : Bool := s.device == .loading && !readStopped s.load.bytes

/-- The SPI clock of the read that is running, counted from 0 (10 R165). -/
def State.spiClock (s : State) : Nat := s.load.ticks / 4

/-- CFG_SCK: a period of 4 ticks while the memory is selected (10 R165), low in the first two ticks of each. DESIGN CHOICE, log entry 35. -/
def State.cfgSck (s : State) : Bool := s.cfgSelected && decide (2 ≤ s.load.ticks % 4)

/-- CFG_MOSI: the command byte 0x03 and the address 0x0000 (10 R165), most significant bit first (PRESUMED, log entry 23), and low at all
other times (DESIGN CHOICE, log entry 35). -/
def State.cfgMosi (s : State) : Bool :=
  s.cfgSelected && decide (s.spiClock < 24) && (0x030000#24).getLsbD (23 - s.spiClock)

/-! ## The device section (10 R166 step 1, section 10.5) -/

/-- The profile of words 5 and 6. -/
def imageProfile (w5 w6 : Half) : Profile where
  keyWord := (w5.extractLsb' 0 2).toFin
  keyUpper := w5.getLsbD 2
  seqWord := (w5.extractLsb' 3 2).toFin
  seqUpper := w5.getLsbD 5
  dispWord := (w5.extractLsb' 6 2).toFin
  dispNibble := (w5.extractLsb' 8 3).toFin
  voidCode := w5.extractLsb' 12 4
  stampWord := if w6.getLsbD 2 then none else some (w6.extractLsb' 0 2).toFin

/-- The device values of an image, clamped. -/
def imageValues (img : List Byte) : DeviceValues where
  profile := imageProfile (imageWord img 5) (imageWord img 6)
  keyMask := imageWord img 4
  silenceCount := max 1 ((imageWord img 7).extractLsb' 8 8).toNat
  resync := clamp 64 32767 (imageWord img 8).toNat
  learnedParams := clampParams (imageWord img 9).toNat (imageWord img 10).toNat (ofHalves [imageWord img 11, imageWord img 12])
    (imageWord img 13).toNat (imageWord img 14).toNat (imageWord img 15).toNat (imageWord img 16).toNat

/-- The class of kind number k: a nibble of words 17 to 20, 7 to 15 clamped to 6. -/
def imageClass (img : List Byte) (k : Nat) : AlarmClass :=
  let n := ((imageWord img (17 + k / 4)).extractLsb' (12 - 4 * (k % 4)) 4).toNat
  ⟨min n 6, by omega⟩

/-- The alarm settings of an image (words 17 to 22). -/
def imageSettings (img : List Byte) : AlarmSettings where
  classMap := Vector.ofFn (fun k => imageClass img k.val)
  modes := ClassSet.ofByte ((imageWord img 22).extractLsb' 0 8)
  mask := ClassSet.ofByte ((imageWord img 21).extractLsb' 0 8)
  priority := ⟨(imageWord img 21).getLsbD 8, (imageWord img 21).extractLsb' 9 2, (imageWord img 21).extractLsb' 11 2⟩

/-- The tally period code of an image, 6 and 7 clamped to 5 (06 R108). -/
def imageTallyCode (img : List Byte) : Nat := min 5 ((imageWord img 7).extractLsb' 0 3).toNat

/-- The silence tick code of an image. -/
def imageSilenceCode (img : List Byte) : BitVec 2 := (imageWord img 7).extractLsb' 4 2

/-! ## Entries (10 R167) -/

/-- A CONFIG_FAULT (10 R166, R167). -/
def configFault (x : Subject) (v : Nat) (s : State) : State := raise .configFault x (BitVec.ofNat 32 v) s

/-- The ring entry at a position, applied or refused; the flag says whether any entry so far was refused (10 R167). An entry for a ring
already enabled is refused with 2 unless DEFINE RING's own checks refuse it. DEDUCED, log entry 18. -/
def applyRingEntry (img : List Byte) (acc : State × Bool) (pos : Nat) : State × Bool :=
  let s := acc.1
  let at_ := 23 + 4 * pos
  let w := imageWord img at_
  let ring := (w.extractLsb' 0 8).toNat
  let slots := (imageWord img (at_ + 1)).toNat
  let base := BitVec.ofNat 22 (ofHalves [imageWord img (at_ + 2), imageWord img (at_ + 3)])
  if h : ring < 16 then
    let r : RingIx := ⟨ring, h⟩
    match ringStatus r base slots (w.getLsbD 8) s with
    | .ok =>
      if (s.ring r).enabled then (configFault (.ring r) Status.badArgument.code s, true)
      else (applyRing r base slots (w.getLsbD 8) (w.getLsbD 9) s, acc.2)
    | st => (configFault (.ring r) st.code s, true)
  else (configFault .device (0x1000 + pos) s, true)

/-- The flow entry at a position, applied or refused (03 R60, 10 R167). -/
def applyFlowEntry (img : List Byte) (acc : State × Bool) (pos : Nat) : State × Bool :=
  let s := acc.1
  let at_ := 23 + 4 * imageRings img + 12 * pos
  let w := fun k => imageWord img (at_ + k)
  let ring := ((w 0).extractLsb' 0 8).toNat
  let key := w 1 &&& s.values.keyMask
  let period := clampPeriod (ofHalves [w 2, w 3])
  let params := clampParams (w 4).toNat (w 5).toNat (ofHalves [w 6, w 7]) (w 8).toNat (w 9).toNat (w 10).toNat (w 11).toNat
  if h : ring < 16 then
    match s.findKey ⟨ring, h⟩ key with
    | some i => (configFault (.flow i) (0x2000 + pos) s, true)
    | none =>
      match createFlow ⟨ring, h⟩ key period params s with
      | (s1, .ok, _) => (s1, acc.2)
      | (s1, _, _) => (s1, true)
  else (configFault .device (0x2000 + pos) s, true)

/-! ## The end of the load (10 R166) -/

/-- The tally and silence codes set at the end of a load (02 R40, 06 R108). -/
def setCodes (tallyCode : Nat) (silenceCode : BitVec 2) (s : State) : State :=
  { s with
    tally := { s.tally with code := tallyCode, pendingCode := none }
    time := { s.time with silenceCode := silenceCode, silenceCounter := 0 } }

/-- The alarm settings installed at the end of a load (08 R141). -/
def installSettings (a : AlarmSettings) (s : State) : State := { s with alarm := s.alarm.install a s.log.records }

/-- The configuration result written into the start record (10 R168). -/
def setResult (r : ConfigResult) (s : State) : State := { s with startRec := { s.startRec with result := r } }

/-- The end of a load that does not use the image (10 R166). -/
def refuseImage (r : ConfigResult) (s : State) : State :=
  let s1 := configFault .device r.code s
  let s2 := installSettings AlarmSettings.default (setCodes 1 1 s1)
  { setResult r s2 with device := .unconfigured }

/-- The tables of an image applied: device section, ring entries, flow entries (10 R166 steps 1 to 3). -/
def applyTables (img : List Byte) (s : State) : State × Bool :=
  let s1 := { s with values := imageValues img }
  let rings := (List.range (imageRings img)).foldl (applyRingEntry img) (s1, false)
  (List.range (imageFlows img)).foldl (applyFlowEntry img) rings

/-- The end of a load that uses the image (10 R166). -/
def applyImage (img : List Byte) (s : State) : State :=
  let out := applyTables img s
  let s1 := installSettings (imageSettings img) (setCodes (imageTallyCode img) (imageSilenceCode img) out.1)
  enterMonitoring (setResult (if out.2 then .partly else .good) s1)

/-- The end of a load whose image the loader has (10 R166). -/
def endLoad (img : List Byte) (s : State) : State :=
  match readResult img with
  | .good => applyImage img s
  | r => refuseImage r s

/-- LOAD_END (10 R166): the image is the bytes clocked in so far and, after them, those of the command. It is not held back until the SPI
clocks of the read have passed. DESIGN CHOICE, log entry 10. Outside LOADING no load is running. -/
def loadEnd (rest : List Byte) (s : State) : State :=
  if s.device = .loading then endLoad (s.load.bytes ++ rest) s else s

/-- The end of a load that no command has taken, when the loader has stopped the read (10 R165, R166). -/
def finishLoad (s : State) : State := if readStopped s.load.bytes then loadEnd [] s else s

end Sys2Proof.Machine
end

