-- ==== Sys2Proof/Machine/Requests.lean ====
section
/-! DEFINITION. What each tally line request does and what its reply carries (09 section 9.3, 9.4). -/

namespace Sys2Proof.Machine

/-- The state after a request's effects, its status and its reply payload (09 R154). -/
abbrev Answer := State × Status × List Byte

/-- An answer whose reply payload is empty. -/
def plainAnswer (out : State × Status) : Answer := (out.1, out.2, [])

/-- READ FLOW (09 R158). The part is checked before the entry, so a part above 3 of a VACANT entry is answered BAD_ARGUMENT. DESIGN
CHOICE, log entry 37. -/
def readFlow (index part : Byte) (s : State) : Answer :=
  if 3 < part.toNat then (s, .badArgument, [])
  else
    match s.flowAt index.toFin with
    | none => (s, .notFound, [])
    | some f => (s, .ok, flowPart part.toNat index.toNat (s.entry index.toFin).gen f)

/-- READ RING (09 R159). -/
def readRing (ring part : Byte) (s : State) : Answer :=
  if h : ring.toNat < 16 then
    if 2 < part.toNat then (s, .badArgument, []) else (s, .ok, ringPart part.toNat ring.toNat (s.ring ⟨ring.toNat, h⟩))
  else (s, .badArgument, [])

/-- READ SUMMARY (09 R160). A part above 1 is answered BAD_ARGUMENT in UNCONFIGURED too. DESIGN CHOICE, log entry 34. -/
def readSummary (number : Half) (part : Byte) (s : State) : Answer :=
  if 1 < part.toNat then (s, .badArgument, [])
  else
    match s.tally.history.find? (fun q => q.number == number) with
    | none => (s, .notFound, [])
    | some q => (s, .ok, summaryPart part.toNat q)

/-- The records leaving the head of the log, with the AUTO re-evaluation when there are any (07 R127, R128). -/
def removeOldest (n : Nat) (s : State) : State :=
  if n = 0 then s
  else
    let records := s.log.records.drop n
    { s with log := { s.log with records := records }, alarm := (s.alarm.reevaluate records).resolve }

/-- TAKE INCIDENTS (07 R128, 09 R162). -/
def takeIncidents (count : Byte) (s : State) : Answer :=
  let n := min (min count.toNat 3) s.log.records.length
  let s1 := removeOldest n s
  (s1, .ok, bytes1 n ++ (s.log.records.take n).flatMap Incident.toBytes ++ bytes1 s1.log.records.length)

/-- ACKNOWLEDGE (08 R139). -/
def acknowledge (classes : Byte) (s : State) : Answer :=
  let a := { s.alarm with pendingSet := s.alarm.pendingSet.keep (fun c => !(ClassSet.ofByte classes).has c) }
  ({ s with alarm := a.resolve }, .ok, [])

/-- The settings of a SET ALARM MAP (08 R140; 10 section 10.5). -/
def settingsOf (classes : Vector Byte 14) (mask priority modes : Byte) : AlarmSettings where
  classMap := classes.map (fun b => ⟨min b.toNat 6, by omega⟩)
  modes := ClassSet.ofByte modes
  mask := ClassSet.ofByte mask
  priority := Priority.ofByte priority

/-- SET ALARM MAP (08 R140). -/
def setAlarmMap (classes : Vector Byte 14) (mask priority modes : Byte) (s : State) : Answer :=
  if classes.toList.any (fun b => decide (6 < b.toNat)) then (s, .badArgument, [])
  else (installSettings (settingsOf classes mask priority modes) s, .ok, [])

/-- SET TALLY PERIOD (06 R108). -/
def setTallyPeriod (code : Byte) (s : State) : Answer :=
  if 7 < code.toNat then (s, .badArgument, [])
  else ({ s with tally := { s.tally with pendingCode := some (min 5 code.toNat) } }, .ok, [])

/-- START (09 R162, 10 R164). -/
def startPart (s : State) : Answer :=
  if s.device = .unconfigured then (enterMonitoring s, .ok, []) else (s, .ok, [])

/-- A request that has passed the checks of R153 (09 R154 step 2, section 9.4). RESTART changes nothing at its handling (R163). -/
def perform (req : Request) (s : State) : Answer :=
  match req with
  | .status => (s, .ok, statusPayload s)
  | .readFlow i p => readFlow i p s
  | .findFlow r k => (s, findFlow r.toNat k s)
  | .defineFlow r k a => defineFlow r.toNat k a s
  | .removeFlow i => plainAnswer (removeFlow i.toFin s)
  | .setPeriod i p => plainAnswer (setPeriod i.toFin p.toNat s)
  | .readRing r p => readRing r p s
  | .defineRing r b n o => plainAnswer (defineRing r.toNat (b.setWidth 22) n.toNat (o.getLsbD 0) (o.getLsbD 1) s)
  | .ringOff r => plainAnswer (ringOff r.toNat s)
  | .readSummary n p => readSummary n p s
  | .takeIncidents m => takeIncidents m s
  | .acknowledge c => acknowledge c s
  | .setAlarmMap c m p d => setAlarmMap c m p d s
  | .setTallyPeriod c => setTallyPeriod c s
  | .clearTallies => (clearTallies s, .ok, [])
  | .restart => (s, .ok, [])
  | .start => startPart s

/-- Whether a request is answered in LOADING (09 R153 check 3). -/
def answeredInLoading (req : Request) : Bool := req == .status

/-- The answer of a request of known command and right length (09 R153 check 3, R154). -/
def answer (req : Request) (s : State) : Answer :=
  if s.device = .loading ∧ answeredInLoading req = false then (s, .notReady, []) else perform req s

/-- The reply characters: lead, status, payload length, payload (09 R155). -/
def replyChars (station : BitVec 4) (status : Status) (payload : List Byte) : List Byte :=
  BitVec.ofNat 8 (0x80 + station.toNat) :: BitVec.ofNat 8 status.code :: BitVec.ofNat 8 payload.length :: payload

/-- A reply in its delay, just captured (09 R154, R155). -/
def newReply (station : BitVec 4) (status : Status) (payload : List Byte) (restart : Bool) : Reply :=
  let chars := replyChars station status payload
  ⟨chars, false, 0, chars.length, restart⟩

def State.setReply (s : State) (r : Option Reply) : State := { s with line := { s.line with reply := r } }

def State.setRx (s : State) (x : RxState) : State := { s with line := { s.line with rx := x } }

/-- The end of a request's handling: a direct request gets its reply, a broadcast one none, and a broadcast RESTART restarts at
once (09 R154, R155, R163). -/
def concludeRequest (direct restarts : Bool) (out : Answer) : State :=
  if direct then out.1.setReply (some (newReply out.1.straps.addr out.2.1 out.2.2 restarts))
  else if restarts then restartPart out.1
  else out.1

/-- Whether an answered request makes a restart: RESTART answered OK (09 R163). -/
def restartsAfter (req : Request) (out : Answer) : Bool := req == .restart && out.2.1 == .ok

/-- The handling of a complete request of known command and right length, as one event (09 R154). -/
def handleRequest (direct : Bool) (req : Request) (s : State) : State :=
  let out := answer req s
  concludeRequest direct (restartsAfter req out) out

end Sys2Proof.Machine
end

