-- ==== Sys2Proof/Machine/Line.lean ====
section
/-! DEFINITION. The tally line (09): the character receiver, address and data characters, the gap and quiet limits, the reply delay
and the sending of a reply. -/

namespace Sys2Proof.Machine

/-! ## Replies (09 R155, R156, R163) -/

/-- What is left of a reply ends: TL_DE is released, and the restart of R163 is made if the reply carries one. -/
def finishReply (s : State) : State :=
  match s.line.reply with
  | none => s
  | some r => if r.restart then restartPart s else s.setReply none

/-- REPLY_START (09 R155), taken when 2 character times have passed since the capture. -/
def replyStart (s : State) : State :=
  match s.line.reply with
  | none => s
  | some r =>
    if r.sending = false ∧ 2 * charTime s.straps ≤ r.ticks then s.setReply (some { r with sending := true, ticks := 0 }) else s

/-- REPLY_END (09 R155, R156, R163), taken at the end of the last character sent. -/
def replyEnd (s : State) : State :=
  match s.line.reply with
  | none => s
  | some r => if r.sending = true ∧ r.stopAfter * charTime s.straps ≤ r.ticks then finishReply s else s

/-- The abandonment of a reply by an address character: in the delay nothing is sent, and a restart is made at once; while it is being
sent it ends with the character in progress (09 R156, R163). At the tick at which one character ends, the one that begins then is in
progress. DESIGN CHOICE, log entry 33. -/
def abandonReply (s : State) : State :=
  match s.line.reply with
  | none => s
  | some r =>
    if r.sending then s.setReply (some { r with stopAfter := min r.stopAfter (r.ticks / charTime s.straps + 1) })
    else finishReply s

/-- TL_DE (09 R155). -/
def State.tlDe (s : State) : Bool :=
  match s.line.reply with
  | some r => r.sending
  | none => false

/-- Bit n of a character on the line: start, data from bit 0, mark, parity when used, stop (09 R148). -/
def charBit (par mark : Bool) (b : Byte) (n : Nat) : Bool :=
  if n = 0 then false
  else if n ≤ 8 then b.getLsbD (n - 1)
  else if n = 9 then mark
  else if n = 10 ∧ par then xor mark (oddOnes 8 (fun j => b.getLsbD j))
  else true

/-- TL_TX: the bit of the character in progress; high when no reply is sent (09 R148, R155). DEDUCED, log entry 21. -/
def State.tlTx (s : State) : Bool :=
  match s.line.reply with
  | some r =>
    if r.sending then
      let c := r.ticks / charTime s.straps
      if c < r.stopAfter then charBit s.straps.par (c == 0) (r.chars.getD c 0) ((r.ticks % charTime s.straps) / bitTime s.straps.baud)
      else true
    else true
  | none => true

/-! ## Receiving a request (09 section 9.2) -/

/-- A reception starts the gap and quiet limits again (09 R151, R152), and takes the character out of the receiver when it is the one
received there (R149). DESIGN CHOICE, log entry 14. -/
def noteReception (c : RxChar) (s : State) : State :=
  { s with line := { s.line with
      gapTicks := 0
      received := if s.line.received = some c then none else s.line.received } }

/-- The receive state an address character gives (09 R150). -/
def addressed (station : BitVec 4) (d : Byte) : RxState :=
  if d.toNat = 0 then .collecting false []
  else if d.toNat = station.toNat then .collecting true []
  else .waiting

/-- An address character received without error: it abandons the reply (09 R156), then it is taken by R150; a restart made by the
abandonment drops the collection (R163). -/
def takeAddress (d : Byte) (s : State) : State :=
  match s.line.reply with
  | some r => if r.sending = false ∧ r.restart = true then restartPart s else (abandonReply s).setRx (addressed s.straps.addr d)
  | none => s.setRx (addressed s.straps.addr d)

/-- A collection discarded with a line error (09 R151). -/
def discardCollection (s : State) : State :=
  { s with line := { s.line with rx := .waiting, lineErrors := bump16 s.line.lineErrors } }

/-- A character received with an error: it discards a collection and is dropped otherwise (09 R150, R151, R152). -/
def takeFaulty (s : State) : State :=
  match s.line.rx with
  | .collecting _ _ => discardCollection s
  | _ => s

/-- A reply still going on when the next request is complete has ended by then; a restart it carries drops the request (09 R156, R163).
DESIGN CHOICE, log entry 16. -/
def beforeHandling (s : State) (k : State → State) : State :=
  match s.line.reply with
  | some r => if r.restart then restartPart s else k (s.setReply none)
  | none => k s

/-- A request refused by the checks 1 and 2 of R153: nothing is changed but for the reply (09 R153, R155). -/
def refuseRequest (direct : Bool) (st : Status) (s : State) : State := concludeRequest direct false (s, st, [])

/-- The status of a complete request by its command byte and length (09 R153 checks 1 and 2). -/
def lengthStatus (command : Byte) (n : Nat) : Status :=
  match payloadLength command with
  | none => .unknown
  | some k => if n = k then .ok else .badLength

/-- A complete request checked and handled at once (09 R151, R153, R154). -/
def completeRequest (direct : Bool) (command : Byte) (payload : List Byte) (s : State) : State :=
  match lengthStatus command payload.length, requestOf command payload with
  | .ok, some req => handleRequest direct req s
  | st, _ => refuseRequest direct st s

/-- The collection after one more character: OVERLONG, complete, or still COLLECTING (09 R151). -/
def collect (direct : Bool) (chars : List Byte) (s : State) : State :=
  match chars with
  | command :: n :: payload =>
    if 60 < n.toNat then s.setRx (.overlong direct command)
    else if n.toNat ≤ payload.length then beforeHandling (s.setRx .waiting) (completeRequest direct command payload)
    else s.setRx (.collecting direct chars)
  | _ => s.setRx (.collecting direct chars)

/-- A data character received without error (09 R150 to R152). -/
def takeData (d : Byte) (s : State) : State :=
  match s.line.rx with
  | .collecting direct chars => collect direct (chars ++ [d]) s
  | _ => s

/-- ADDRESS_CHARACTER (09 R150, R151). -/
def addressCharacter (d : Byte) (error : Bool) (s : State) : State :=
  let s1 := noteReception ⟨d, true, error⟩ s
  if error then takeFaulty s1 else takeAddress d s1

/-- DATA_CHARACTER (09 R151, R152). -/
def dataCharacter (d : Byte) (error : Bool) (s : State) : State :=
  let s1 := noteReception ⟨d, false, error⟩ s
  if error then takeFaulty s1 else takeData d s1

/-- GAP_LIMIT_EXPIRY (09 R151), taken when 4 character times have passed since the last reception in COLLECTING. -/
def gapLimitExpiry (s : State) : State :=
  match s.line.rx with
  | .collecting _ _ => if 4 * charTime s.straps ≤ s.line.gapTicks then discardCollection s else s
  | _ => s

/-- The status of an overlong request: UNKNOWN for a byte that is no request code, BAD_LENGTH otherwise (09 R152). -/
def overlongStatus (command : Byte) : Status := if (payloadLength command).isSome then .badLength else .unknown

/-- QUIET_LIMIT_EXPIRY (09 R152), taken when 4 character times have passed since the last reception in OVERLONG. -/
def quietLimitExpiry (s : State) : State :=
  match s.line.rx with
  | .overlong direct command =>
    if 4 * charTime s.straps ≤ s.line.gapTicks then
      beforeHandling (s.setRx .waiting) (refuseRequest direct (overlongStatus command))
    else s
  | _ => s

/-- A character received by the character receiver and not yet taken (09 R149). -/
def takeReceived (s : State) : State :=
  match s.line.received with
  | none => s
  | some c => if c.mark then addressCharacter c.data c.error s else dataCharacter c.data c.error s

/-- A whole request on the line, sent as one command: its address character, then its other characters without error, the last of them
completing it; a reply its address character abandoned has ended by then (09 R150, R151, R154, R156). DESIGN CHOICE, log entry 13. -/
def lineRequest (addr : Byte) (req : Request) (s : State) : State :=
  let s1 := takeAddress addr { s with line := { s.line with gapTicks := 0 } }
  match s1.line.rx with
  | .collecting direct _ => beforeHandling (s1.setRx .waiting) (handleRequest direct req)
  | _ => s1

/-! ## The line at a tick (09 R148, R149, R151, R152, R155) -/

/-- The character of the bits sampled after the start bit: eight data bits, mark, parity when used, stop (09 R148, R149). -/
def charOfBits (par : Bool) (bits : List Bool) : RxChar :=
  let b := fun i => bits.getD i false
  let data := byteOfBits (b 0) (b 1) (b 2) (b 3) (b 4) (b 5) (b 6) (b 7)
  let mark := b 8
  let parityBad := par && xor (xor mark (b 9)) (oddOnes 8 (fun j => data.getLsbD j))
  let stop := b (if par then 10 else 9)
  ⟨data, mark, !stop || parityBad⟩

/-- One tick of the character receiver with the TL_RX level sampled at it (09 R149): the receiver after it, and a character whose
reception it is. -/
def receiverTick (straps : Straps) (last level : Bool) (x : BitReceiver) : BitReceiver × Option RxChar :=
  match x with
  | .idle => if last && !level then (.startCheck 0, none) else (.idle, none)
  | .startCheck t =>
    if t + 1 < bitTime straps.baud / 2 then (.startCheck (t + 1), none)
    else if level then (.idle, none)
    else (.sampling 0 [], none)
  | .sampling t bits =>
    if t + 1 < bitTime straps.baud then (.sampling (t + 1) bits, none)
    else
      let sampled := bits ++ [level]
      if sampled.length < charBits straps.par - 1 then (.sampling 0 sampled, none)
      else (.idle, some (charOfBits straps.par sampled))

/-- The ticks of a reply's phase, up to the moment its next event is due (09 R155). -/
def replyTick (straps : Straps) (r : Reply) : Reply :=
  let limit := if r.sending then r.stopAfter * charTime straps else 2 * charTime straps
  { r with ticks := min limit (r.ticks + 1) }

/-- The tally line at a tick. -/
def lineTick (straps : Straps) (level : Bool) (l : TallyLine) : TallyLine :=
  let out := receiverTick straps l.rxLast level l.receiver
  { l with
    receiver := out.1
    rxLast := level
    received := out.2.or l.received
    gapTicks := min (4 * charTime straps) (l.gapTicks + 1)
    reply := l.reply.map (replyTick straps) }

end Sys2Proof.Machine
end

