-- ==== Sys2Proof/Machine/Panel.lean ====
section
/-! DEFINITION. The panel inputs, the ACK button and the clear chord (08 section 8.5, 8.6). -/

namespace Sys2Proof.Machine

def Panel.input (p : Panel) : PanelInput → InputState
  | .clrA => p.clrA
  | .clrB => p.clrB
  | .ack => p.ack

def Panel.setInput (p : Panel) (i : PanelInput) (x : InputState) : Panel :=
  match i with
  | .clrA => { p with clrA := x }
  | .clrB => { p with clrB := x }
  | .ack => { p with ack := x }

/-- An input sampled at a tick, high for released (08 R143): at 40,000 the change of its debounced state is due. -/
def sampleInput (level : Bool) (x : InputState) : InputState :=
  if level = !x.pressed then { x with count := 0 } else { x with count := min Config.debounceTicks (x.count + 1) }

/-- SPENT becomes IDLE when both CLR inputs are released with their change counts at 0 (08 R145). -/
def chordIdle (p : Panel) : Panel :=
  if p.chord = .spent ∧ p.clrA = ⟨false, 0⟩ ∧ p.clrB = ⟨false, 0⟩ then { p with chord := .idle } else p

/-- The panel at a tick (08 R143, R145). -/
def panelTick (pins : Pins) (p : Panel) : Panel :=
  chordIdle { p with
    clrA := sampleInput pins.clrA p.clrA
    clrB := sampleInput pins.clrB p.clrB
    ack := sampleInput pins.ack p.ack }

/-- A press of the ACK button: every pending class in ACK mode stops being pending (08 R138). -/
def ackPress (s : State) : State :=
  let a := { s.alarm with pendingSet := s.alarm.pendingSet.keep (fun c => !s.alarm.settings.modes.has c) }
  { s with alarm := a.resolve }

/-- The chord after a CLR input has changed (08 R145, R147): it begins when both are pressed and it is IDLE and enabled, and it is
abandoned when one is released in TIMING. -/
def chordAfter (enabled monitoring bothPressed : Bool) (c : Chord) : Chord :=
  match c with
  | .idle => if bothPressed && enabled then (if monitoring then .timing 0 else .spent) else .idle
  | .timing n => if bothPressed then .timing n else .spent
  | .spent => .spent

/-- The effects of a change of a CLR input on the chord; SPENT may become IDLE at once, at the same tick. DEDUCED, log entry 24. -/
def clrChanged (s : State) : State :=
  let p := s.panel
  { s with panel :=
      chordIdle { p with
        chord := chordAfter s.straps.chord (s.device == .monitoring) (p.clrA.pressed && p.clrB.pressed) p.chord } }

/-- DEBOUNCED_STATE_CHANGE (08 R143 to R145), taken when the change count has reached 40,000. -/
def debouncedStateChange (i : PanelInput) (s : State) : State :=
  let x := s.panel.input i
  if x.count = Config.debounceTicks then
    let s1 := { s with panel := s.panel.setInput i ⟨!x.pressed, 0⟩ }
    match i with
    | .ack => if x.pressed then s1 else ackPress s1
    | .clrA => clrChanged s1
    | .clrB => clrChanged s1
  else s

/-- The authorised chord: the clearing of tallies, in MONITORING alone (08 R145, R147; 06 R118). -/
def authoriseChord (s : State) : State :=
  let s1 := { s with panel := { s.panel with chord := .spent } }
  if s.device = .monitoring then clearTallies s1 else s1

/-- The chord at a seconds strobe: the second strobe in TIMING authorises it (08 R145). -/
def chordStrobe (s : State) : State :=
  match s.panel.chord with
  | .timing n => if n = 0 then { s with panel := { s.panel with chord := .timing 1 } } else authoriseChord s
  | _ => s

/-- SECONDS_STROBE (02 R39, 08 R145), taken when it is due. -/
def secondsStrobe (s : State) : State :=
  if s.due.secondsStrobe then chordStrobe { s with due := { s.due with secondsStrobe := false } } else s

end Sys2Proof.Machine
end

