-- ==== Sys2Proof/Machine/Time.lean ====
section
/-! DEFINITION. The time base (02): bus clocks, seen edges, the ratio meter, REF loss, the source states, ticks and the strobes made
from them. -/

namespace Sys2Proof.Machine

/-! ## Source states (02 section 2.6) -/

/-- A departure from LOCKED makes the OPEN summary DEGRADED (02 R43). -/
def degradeOpen (s : State) : State := s.modOpen (fun q => { q with quality := .degraded })

/-- Entry to HOLDOVER from LOCKED with the value of its incident (02 R36, R38). -/
def enterHoldover (v : BitVec 32) (s : State) : State :=
  raise .timeHoldover .device v (degradeOpen { s with time := { s.time with source := .holdover, acc := 0 } })

/-- The measured ratio of a total M (02 R36). -/
def measuredRatio (m : Nat) : Nat := (m + 8) / 16

/-- Whether a measured ratio is valid (02 R36). -/
def ratioValid (r : Nat) : Bool := decide (1024 ≤ r) && decide (r ≤ 16383)

/-- The source state's taking of a measurement with total M (02 R36, R37). On entry to LOCKED the accumulator's residue is discarded:
it becomes 0. DEDUCED, log entry 17. -/
def takeMeasurement (m : Nat) (s : State) : State :=
  let r := measuredRatio m
  if ratioValid r then
    match s.time.source with
    | .locked => { s with time := { s.time with ratio := r } }
    | .nominal => { s with time := { s.time with ratio := r, source := .locked, acc := 0 } }
    | .holdover => { s with time := { s.time with ratio := r, source := .locked, acc := 0 } }
  else
    match s.time.source with
    | .locked => enterHoldover (BitVec.ofNat 32 r) s
    | .nominal => s
    | .holdover => s

/-- MEASUREMENT_COMPLETION (02 R36), taken when it is due. -/
def measurementCompletion (s : State) : State :=
  match s.due.measurement with
  | some m => takeMeasurement m { s with due := { s.due with measurement := none } }
  | none => s

/-- REF_LOSS (02 R35, R38), taken when it is due: the measurement is abandoned (R34). -/
def refLoss (s : State) : State :=
  if s.due.refLoss then
    let s1 := { s with due := { s.due with refLoss := false }, time := { s.time with meter := .waiting } }
    match s.time.source with
    | .locked => enterHoldover 0 s1
    | .nominal => s1
    | .holdover => s1
  else s

/-! ## Seen edges (02 R32, R34, R35) -/

/-- The meter at a seen rising edge, and the total of a measurement the edge completes (02 R34). -/
def meterEdge (m : Meter) : Meter × Option Nat :=
  match m with
  | .waiting => (.counting 0 0 0, none)
  | .counting clocks periods blocks =>
    if periods + 1 < 1024 then (.counting clocks (periods + 1) blocks, none)
    else if blocks + 1 < 4 then (.counting clocks 0 (blocks + 1), none)
    else (.counting 0 0 0, some clocks)

/-- SEEN_RISING_EDGE (02 R32, R34, R35), taken when it is due; in LOCKED it makes a tick. -/
def seenRisingEdge (s : State) : State :=
  if s.due.seenEdge then
    let out := meterEdge s.time.meter
    { s with
      time := { s.time with loss := 0, meter := out.1 }
      due := { s.due with
        seenEdge := false
        tick := s.due.tick || s.time.source == .locked
        measurement := out.2.or s.due.measurement } }
  else s

/-! ## Ticks and strobes (02 R30, R39, R40) -/

/-- A counter that starts again from 0 when it reaches n, and whether it does (02 section 2.7). -/
def stepCounter (n c : Nat) : Nat × Bool := if c + 1 < n then (c + 1, false) else (0, true)

/-- A tick with the levels sampled at it: the tick count, the strobe counters, the panel, the tally line and the loader take it (02 R30,
R39; 08 R143; 09 R149; 10 R165). -/
def tickCore (pins : Pins) (s : State) : State :=
  let ms := stepCounter 10000 s.time.msCounter
  let sweep := stepCounter 400 s.time.sweepCounter
  { s with
    pins := pins
    time := { s.time with
      tickCount := s.time.tickCount + 1
      msCounter := ms.1
      sweepCounter := sweep.1 }
    due := { s.due with
      tick := false
      msStrobe := s.due.msStrobe || ms.2
      sweepPace := s.due.sweepPace || sweep.2 }
    load := loadTick s.device pins.cfgMiso s.load
    panel := panelTick pins s.panel
    line := lineTick s.straps pins.tlRx s.line }

/-- TICK (02 R30), taken when it is due. -/
def tick (pins : Pins) (s : State) : State := if s.due.tick then tickCore pins s else s

/-- The tally timer at a millisecond strobe (06 R107). -/
def timerStrobe (device : DeviceState) (t : TallyState) : TallyState :=
  if device = .monitoring then { t with timer := min (periodLength t.code) (t.timer + 1) } else t

/-- MILLISECOND_STROBE (02 R39, R40; 06 R107), taken when it is due. -/
def millisecondStrobe (s : State) : State :=
  if s.due.msStrobe then
    let sec := stepCounter 1000 s.time.secondsCounter
    let sil := stepCounter (silenceStrobes s.time.silenceCode) s.time.silenceCounter
    { s with
      time := { s.time with secondsCounter := sec.1, silenceCounter := sil.1 }
      due := { s.due with
        msStrobe := false
        secondsStrobe := s.due.secondsStrobe || sec.2
        silenceTick := s.due.silenceTick || sil.2 }
      tally := timerStrobe s.device s.tally }
  else s

/-! ## Bus clocks (02 R32, R33, R35) -/

/-- The accumulator at a bus clock, and whether it makes a tick (02 R33). -/
def accClock (t : TimeBase) : Nat × Bool :=
  match t.source with
  | .locked => (t.acc, false)
  | .nominal => if t.acc + 256 < t.ratio then (t.acc + 256, false) else (t.acc + 256 - t.ratio, true)
  | .holdover => if t.acc + 256 < t.ratio then (t.acc + 256, false) else (t.acc + 256 - t.ratio, true)

/-- The meter's bus clock count at a bus clock (02 R34). -/
def meterClock (m : Meter) : Meter :=
  match m with
  | .waiting => .waiting
  | .counting clocks periods blocks => .counting (clocks + 1) periods blocks

/-- One bus clock with the REF level sampled at it (01 R1; 02 R32 to R35). A seen edge and a REF loss fall due here. -/
def clockCore (ref : Bool) (s : State) : State :=
  let edge := ref && !s.time.refLast
  let acc := accClock s.time
  let loss := if edge then s.time.loss else min Config.lossClocks (s.time.loss + 1)
  { s with
    path := clockPath s.path
    time := { s.time with
      refLast := ref
      acc := acc.1
      loss := loss
      meter := meterClock s.time.meter }
    due := { s.due with
      seenEdge := edge
      tick := s.due.tick || acc.2
      refLoss := s.due.refLoss || (!edge && s.time.loss + 1 == Config.lossClocks) } }

/-- The events of the latest bus clock and of its tick that no command has taken, taken in one fixed order, which the spec allows: the
time base's own first, then the tick's. A tick left so is sampled with the levels given last. DESIGN CHOICE, log entry 2. -/
def settle (s : State) : State :=
  let s := refLoss (measurementCompletion (seenRisingEdge s))
  let s := finishLoad (tick s.pins s)
  let s := debouncedStateChange .ack (debouncedStateChange .clrB (debouncedStateChange .clrA s))
  let s := secondsStrobe (millisecondStrobe (sweepPace s))
  let s := boundary (silenceTick s)
  let s := quietLimitExpiry (gapLimitExpiry (takeReceived s))
  replyStart (replyEnd s)

/-- BUS_CLOCK (02 R32, R33). -/
def busClock (ref : Bool) (s : State) : State := clockCore ref (settle s)

end Sys2Proof.Machine
end

