-- ==== Sys2Proof/Machine/BusCommands.lean ====
section
/-! DEFINITION. The meanings of the commands of the descriptor bus, the supply and the loader. -/

namespace Sys2Proof.Machine

open Host (Outcome)

/-- POWER_ON (10 R164). -/
def execPowerOn (straps : Straps) (s : State) : Outcome State Fault Refusal := .next (powerOn straps s)

/-- BUS_TRANSFER (01 R3). -/
def execBusTransfer (write : Bool) (addr : BitVec 22) (slen : BitVec 2) (data : List BusWord) (s : State) : Outcome State Fault Refusal := .next (busTransfer ⟨write, addr, slen, data⟩ s)

/-- READ_DATA_CHECK (01 R19). -/
def execReadDataCheck (data : List BusWord) (s : State) : Outcome State Fault Refusal := .next (readDataCheck data s)

/-- BUS_RESET (01 R25). -/
def execBusReset (s : State) : Outcome State Fault Refusal := .next (busReset s)

/-- SW_RST_N_RELEASE (01 R25). -/
def execSwRstNRelease (s : State) : Outcome State Fault Refusal := .next (releaseReset s)

/-- LOAD_END (10 R166). -/
def execLoadEnd (image : List Byte) (s : State) : Outcome State Fault Refusal := .next (loadEnd image s)

end Sys2Proof.Machine
end

