-- ==== Sys2Proof/Machine/LineCommands.lean ====
section
/-! DEFINITION. The meanings of the commands of the tally line's characters and replies. -/

namespace Sys2Proof.Machine

open Host (Outcome)

/-- ADDRESS_CHARACTER (09 R150). -/
def execAddressCharacter (data : Byte) (error : Bool) (s : State) : Outcome State Fault Refusal := .next (addressCharacter data error s)

/-- DATA_CHARACTER (09 R151). -/
def execDataCharacter (data : Byte) (error : Bool) (s : State) : Outcome State Fault Refusal := .next (dataCharacter data error s)

/-- GAP_LIMIT_EXPIRY (09 R151). -/
def execGapLimitExpiry (s : State) : Outcome State Fault Refusal := .next (gapLimitExpiry s)

/-- QUIET_LIMIT_EXPIRY (09 R152). -/
def execQuietLimitExpiry (s : State) : Outcome State Fault Refusal := .next (quietLimitExpiry s)

/-- REPLY_START (09 R155). -/
def execReplyStart (s : State) : Outcome State Fault Refusal := .next (replyStart s)

/-- REPLY_END (09 R155). -/
def execReplyEnd (s : State) : Outcome State Fault Refusal := .next (replyEnd s)

end Sys2Proof.Machine
end

