-- ==== Sys2Proof/Machine/RequestCommands.lean ====
section
/-! DEFINITION. The meanings of the seventeen requests, each sent whole (log entry 13). -/

namespace Sys2Proof.Machine

open Host (Outcome)

/-- STATUS (09 R157). -/
def execStatus (addr : Byte) (s : State) : Outcome State Fault Refusal := .next (lineRequest addr .status s)

/-- READ FLOW (09 R158). -/
def execReadFlow (addr : Byte) (index part : Byte) (s : State) : Outcome State Fault Refusal := .next (lineRequest addr (.readFlow index part) s)

/-- FIND FLOW (03 R58). -/
def execFindFlow (addr : Byte) (ring : Byte) (key : Half) (s : State) : Outcome State Fault Refusal := .next (lineRequest addr (.findFlow ring key) s)

/-- DEFINE FLOW (03 R54). -/
def execDefineFlow (addr : Byte) (ring : Byte) (key : Half) (args : FlowArgs) (s : State) : Outcome State Fault Refusal := .next (lineRequest addr (.defineFlow ring key args) s)

/-- REMOVE FLOW (03 R57). -/
def execRemoveFlow (addr : Byte) (index : Byte) (s : State) : Outcome State Fault Refusal := .next (lineRequest addr (.removeFlow index) s)

/-- SET PERIOD (04 R82). -/
def execSetPeriod (addr : Byte) (index : Byte) (period : BitVec 32) (s : State) : Outcome State Fault Refusal := .next (lineRequest addr (.setPeriod index period) s)

/-- READ RING (09 R159). -/
def execReadRing (addr : Byte) (ring part : Byte) (s : State) : Outcome State Fault Refusal := .next (lineRequest addr (.readRing ring part) s)

/-- DEFINE RING (01 R26). -/
def execDefineRing (addr : Byte) (ring : Byte) (base : BitVec 24) (slots : Half) (options : Byte) (s : State) : Outcome State Fault Refusal := .next (lineRequest addr (.defineRing ring base slots options) s)

/-- RING OFF (01 R27). -/
def execRingOff (addr : Byte) (ring : Byte) (s : State) : Outcome State Fault Refusal := .next (lineRequest addr (.ringOff ring) s)

/-- READ SUMMARY (09 R160). -/
def execReadSummary (addr : Byte) (number : Half) (part : Byte) (s : State) : Outcome State Fault Refusal := .next (lineRequest addr (.readSummary number part) s)

/-- TAKE INCIDENTS (07 R128). -/
def execTakeIncidents (addr : Byte) (count : Byte) (s : State) : Outcome State Fault Refusal := .next (lineRequest addr (.takeIncidents count) s)

/-- ACKNOWLEDGE (08 R139). -/
def execAcknowledge (addr : Byte) (classes : Byte) (s : State) : Outcome State Fault Refusal := .next (lineRequest addr (.acknowledge classes) s)

/-- SET ALARM MAP (08 R140). -/
def execSetAlarmMap (addr : Byte) (classes : Vector Byte 14) (mask priority modes : Byte) (s : State) : Outcome State Fault Refusal := .next (lineRequest addr (.setAlarmMap classes mask priority modes) s)

/-- SET TALLY PERIOD (06 R108). -/
def execSetTallyPeriod (addr : Byte) (code : Byte) (s : State) : Outcome State Fault Refusal := .next (lineRequest addr (.setTallyPeriod code) s)

/-- CLEAR TALLIES (06 R118). -/
def execClearTallies (addr : Byte) (s : State) : Outcome State Fault Refusal := .next (lineRequest addr .clearTallies s)

/-- RESTART (09 R163). -/
def execRestart (addr : Byte) (s : State) : Outcome State Fault Refusal := .next (lineRequest addr .restart s)

/-- START (09 R162). -/
def execStart (addr : Byte) (s : State) : Outcome State Fault Refusal := .next (lineRequest addr .start s)

end Sys2Proof.Machine
end

