-- ==== Sys2Proof/Machine/TimeCommands.lean ====
section
/-! DEFINITION. The meanings of the commands of the time base, the sweep, the tally timer and the panel. -/

namespace Sys2Proof.Machine

open Host (Outcome)

/-- BUS_CLOCK (02 R33). -/
def execBusClock (ref : Bool) (s : State) : Outcome State Fault Refusal := .next (busClock ref s)

/-- SEEN_RISING_EDGE (02 R34). -/
def execSeenRisingEdge (s : State) : Outcome State Fault Refusal := .next (seenRisingEdge s)

/-- MEASUREMENT_COMPLETION (02 R36). -/
def execMeasurementCompletion (s : State) : Outcome State Fault Refusal := .next (measurementCompletion s)

/-- REF_LOSS (02 R35). -/
def execRefLoss (s : State) : Outcome State Fault Refusal := .next (refLoss s)

/-- TICK (02 R30). -/
def execTick (pins : Pins) (s : State) : Outcome State Fault Refusal := .next (tick pins s)

/-- MILLISECOND_STROBE (06 R107). -/
def execMillisecondStrobe (s : State) : Outcome State Fault Refusal := .next (millisecondStrobe s)

/-- SECONDS_STROBE (02 R39). -/
def execSecondsStrobe (s : State) : Outcome State Fault Refusal := .next (secondsStrobe s)

/-- SWEEP_PACE (06 R104). -/
def execSweepPace (s : State) : Outcome State Fault Refusal := .next (sweepPace s)

/-- SILENCE_TICK (01 R24). -/
def execSilenceTick (s : State) : Outcome State Fault Refusal := .next (silenceTick s)

/-- BOUNDARY (06 R110). -/
def execBoundary (s : State) : Outcome State Fault Refusal := .next (boundary s)

/-- DEBOUNCED_STATE_CHANGE (08 R143). -/
def execDebouncedStateChange (input : PanelInput) (s : State) : Outcome State Fault Refusal := .next (debouncedStateChange input s)

end Sys2Proof.Machine
end

