-- ==== Sys2Proof/Machine/Dispatch.lean ====
section
/-! DEFINITION. The dispatch of a command to its meaning. -/

namespace Sys2Proof.Machine

def exec (i : Instr) (s : State) : Host.Outcome State Fault Refusal :=
  match i with
  | .powerOn straps => Sys2Proof.Machine.execPowerOn straps s
  | .busTransfer write addr slen data => Sys2Proof.Machine.execBusTransfer write addr slen data s
  | .readDataCheck data => Sys2Proof.Machine.execReadDataCheck data s
  | .busReset => Sys2Proof.Machine.execBusReset s
  | .tick pins => Sys2Proof.Machine.execTick pins s
  | .refLoss => Sys2Proof.Machine.execRefLoss s
  | .measurementCompletion => Sys2Proof.Machine.execMeasurementCompletion s
  | .millisecondStrobe => Sys2Proof.Machine.execMillisecondStrobe s
  | .secondsStrobe => Sys2Proof.Machine.execSecondsStrobe s
  | .sweepPace => Sys2Proof.Machine.execSweepPace s
  | .silenceTick => Sys2Proof.Machine.execSilenceTick s
  | .boundary => Sys2Proof.Machine.execBoundary s
  | .debouncedStateChange input => Sys2Proof.Machine.execDebouncedStateChange input s
  | .addressCharacter data error => Sys2Proof.Machine.execAddressCharacter data error s
  | .dataCharacter data error => Sys2Proof.Machine.execDataCharacter data error s
  | .gapLimitExpiry => Sys2Proof.Machine.execGapLimitExpiry s
  | .quietLimitExpiry => Sys2Proof.Machine.execQuietLimitExpiry s
  | .replyStart => Sys2Proof.Machine.execReplyStart s
  | .replyEnd => Sys2Proof.Machine.execReplyEnd s
  | .loadEnd image => Sys2Proof.Machine.execLoadEnd image s
  | .status addr => Sys2Proof.Machine.execStatus addr s
  | .readFlow addr index part => Sys2Proof.Machine.execReadFlow addr index part s
  | .findFlow addr ring key => Sys2Proof.Machine.execFindFlow addr ring key s
  | .defineFlow addr ring key args => Sys2Proof.Machine.execDefineFlow addr ring key args s
  | .removeFlow addr index => Sys2Proof.Machine.execRemoveFlow addr index s
  | .setPeriod addr index period => Sys2Proof.Machine.execSetPeriod addr index period s
  | .readRing addr ring part => Sys2Proof.Machine.execReadRing addr ring part s
  | .defineRing addr ring base slots options => Sys2Proof.Machine.execDefineRing addr ring base slots options s
  | .ringOff addr ring => Sys2Proof.Machine.execRingOff addr ring s
  | .readSummary addr number part => Sys2Proof.Machine.execReadSummary addr number part s
  | .takeIncidents addr count => Sys2Proof.Machine.execTakeIncidents addr count s
  | .acknowledge addr classes => Sys2Proof.Machine.execAcknowledge addr classes s
  | .setAlarmMap addr classes mask priority modes => Sys2Proof.Machine.execSetAlarmMap addr classes mask priority modes s
  | .setTallyPeriod addr code => Sys2Proof.Machine.execSetTallyPeriod addr code s
  | .clearTallies addr => Sys2Proof.Machine.execClearTallies addr s
  | .restart addr => Sys2Proof.Machine.execRestart addr s
  | .start addr => Sys2Proof.Machine.execStart addr s
  | .seenRisingEdge => Sys2Proof.Machine.execSeenRisingEdge s
  | .busClock ref => Sys2Proof.Machine.execBusClock ref s
  | .swRstNRelease => Sys2Proof.Machine.execSwRstNRelease s

end Sys2Proof.Machine
end

