-- ==== Sys2Proof/Safety.lean ====
section
/-! DEFINITION. The invariants of the part: what holds at reset and is kept by every step, by the rules of the spec that say so. -/

namespace Sys2Proof.Machine

/-! ## Rings (01 R2, R8, R21, R22, R29) -/

/-- A ring record against its slots (01 R8, R21, R22): the slot store in its canonical form, the held count the number of HELD slots,
no slot in a disabled ring, high-water between held count and slot count, and the conservation law. -/
structure RingOk (x : RingRecord) : Prop where
  slotForm     : slotsOk x.slotCount x.slots = true
  heldCount    : x.held = x.slots.length
  disabled     : x.enabled = false → x.slots = []
  highWaterMin : x.held ≤ x.highWater
  highWaterMax : x.highWater ≤ x.slotCount
  conservation : x.enqueued - x.departed - x.withdrawn - x.overwritten - x.flushed = BitVec.ofNat 32 x.held

def RingsOk (s : State) : Prop := ∀ r : RingIx, RingOk (s.ring r)

/-- The slot counts of the enabled rings together (01 R8). -/
def State.reserved (s : State) : Nat := (ringOrder.map (fun r => if (s.ring r).enabled then (s.ring r).slotCount else 0)).sum

/-- The ring map (01 R2, R8): slot counts and bases as R2 gives them, windows of enabled rings apart, at most 2048 places in use. -/
structure RingMapOk (s : State) : Prop where
  counts   : ∀ r : RingIx, slotCountOk (s.ring r).slotCount = true
  aligned  : ∀ r : RingIx, (s.ring r).base.toNat % (4 * (s.ring r).slotCount) = 0
  apart    : ∀ q r : RingIx, q ≠ r → (s.ring q).enabled = true → (s.ring r).enabled = true →
    overlaps (s.ring q).base.toNat (4 * (s.ring q).slotCount) (s.ring r).base.toNat (4 * (s.ring r).slotCount) = false
  places   : s.reserved ≤ Config.slotStoreSize

/-- Outside MONITORING nothing is held and no silence is stepped (01 R24, R29); in LOADING every ring is disabled (R29). -/
structure UntrackedOk (s : State) : Prop where
  empty   : s.device ≠ .monitoring → ∀ r : RingIx, (s.ring r).slots = [] ∧ (s.ring r).held = 0 ∧
    (s.ring r).silenceCounter = 0 ∧ (s.ring r).silence = .active
  loading : s.device = .loading → ∀ r : RingIx, (s.ring r).enabled = false
  counter : ∀ r : RingIx, (s.ring r).silenceCounter ≤ 3

/-! ## Time base (02 R31, R33 to R35, R39, R40) -/

/-- The meter's counts (02 R34). -/
def Meter.ok : Meter → Prop
  | .waiting => True
  | .counting _ periods blocks => periods < 1024 ∧ blocks < 4

/-- The ranges of the time base (02 R31); in LOCKED the accumulator stands at 0 (log entry 17). -/
structure TimeOk (t : TimeBase) : Prop where
  ratioMin : 1024 ≤ t.ratio
  ratioMax : t.ratio ≤ 16383
  accumulator : t.acc < t.ratio
  locked  : t.source = .locked → t.acc = 0
  loss    : t.loss ≤ Config.lossClocks
  meter   : t.meter.ok
  ms      : t.msCounter < 10000
  seconds : t.secondsCounter < 1000
  sweep   : t.sweepCounter < 400
  silence : t.silenceCounter < silenceStrobes t.silenceCode
  straps  : t.strapRatio = 2048 ∨ t.strapRatio = 3200 ∨ t.strapRatio = 4000 ∨ t.strapRatio = 6400

/-! ## Flow directory (03 R45, R47, R48, R59; 04 R68, R81) -/

/-- No two entries hold one key pair (03 R45). -/
def DirectoryOk (s : State) : Prop :=
  ∀ (i j : FlowIx) (f g : FlowRecord), s.flowAt i = some f → s.flowAt j = some g → f.ring = g.ring → f.key = g.key → i = j

/-- A period in its range (04 R81). -/
def periodOk (p : Nat) : Prop := 100 ≤ p ∧ p ≤ 16777215

/-- The cycle part of a flow against the silence count (03 R48; 04 R64, R65, R68, R81). -/
def CycleOk (silenceCount misses : Nat) : Cycle → Prop
  | .learning ctx => ctx.intervals.length < 4 ∧ 1 ≤ ctx.attempt ∧ ctx.attempt ≤ 3
  | .waiting p => periodOk p
  | .tracking p pend _ => periodOk p ∧ (∀ q, pend = some q → periodOk q) ∧ misses < silenceCount
  | .silent p pend _ => periodOk p ∧ (∀ q, pend = some q → periodOk q) ∧ misses = silenceCount
  | .acyclic => True

/-- One flow record (03 R48, R59; 04 R68, R81). -/
structure FlowOk (silenceCount : Nat) (f : FlowRecord) : Prop where
  cycle   : CycleOk silenceCount f.misses f.cycle
  misses  : f.misses ≤ silenceCount
  idle    : f.idle ≤ Config.idleLimit
  learned : f.origin = .learned → f.idle < Config.idleLimit

/-- The flows, with the device values they are judged by (04 R68; 05 R92); in LOADING every entry is VACANT (03 R60). -/
structure FlowsOk (s : State) : Prop where
  silenceMin : 1 ≤ s.values.silenceCount
  silenceMax : s.values.silenceCount ≤ 255
  resyncMin  : 64 ≤ s.values.resync
  resyncMax  : s.values.resync ≤ 32767
  loading    : s.device = .loading → ∀ i : FlowIx, s.flowAt i = none
  flows      : ∀ (i : FlowIx) (f : FlowRecord), s.flowAt i = some f → FlowOk s.values.silenceCount f

/-! ## Tally periods (06 R107, R108, R116, R120) -/

/-- The history, the tally timer, the period number and the tags (06 R106, R107, R108, R116, R118, R120): in MONITORING the newest summary is
OPEN and no other is; outside it there is no summary, timer and period number stand at 0, and every tag is 0, equal to the period number. -/
structure HistoryOk (s : State) : Prop where
  monitoring : s.device = .monitoring →
    ∃ (older : List Summary) (newest : Summary), s.tally.history = older ++ [newest] ∧ newest.phase = .opened ∧
      ∀ q ∈ older, q.phase ≠ .opened
  outside : s.device ≠ .monitoring → s.tally.history = [] ∧ s.tally.timer = 0 ∧ s.tally.periodNumber = 0
  tags    : s.device ≠ .monitoring → ∀ (i : FlowIx) (f : FlowRecord), s.flowAt i = some f → f.tag = 0
  code    : s.tally.code ≤ 5
  pendingCode : ∀ c, s.tally.pendingCode = some c → c ≤ 5
  timer   : s.tally.timer ≤ periodLength s.tally.code

/-! ## Incident log and alarms (07 R122, R124; 08 R133, R135, R137) -/

/-- The incident log (07 R122, R124). -/
structure LogOk (l : IncidentLog) : Prop where
  size     : l.records.length ≤ Config.logSize
  distinct : (l.records.map (fun r => (r.kind, r.subject))).Nodup
  repeats  : ∀ r ∈ l.records, 1 ≤ r.repeats ∧ r.repeats ≤ 255
  overflow : l.overflow ≤ max16

/-- STACK and ALERT_N show the pending set (08 R137), and the pending set holds classes 1 to 6 alone (R133). -/
structure AlarmOk (a : AlarmState) : Prop where
  stack   : a.stack = stackCode a.settings a.pendingSet
  alert   : a.alert = (a.stack != 0)
  classes : a.pendingSet &&& 0b10000001#8 = 0

/-- A class in AUTO mode is pending only while the log holds a record of it (08 R135). -/
def AutoOk (s : State) : Prop :=
  ∀ c : AlarmClass, s.alarm.pendingSet.has c = true → s.alarm.settings.modes.has c = false → ∃ r ∈ s.log.records, r.cls = c

/-! ## Panel (08 R143, R145, R147) -/

/-- The panel inputs and the chord (08 R143, R145, R147). -/
structure PanelOk (s : State) : Prop where
  counts   : s.panel.clrA.count ≤ Config.debounceTicks ∧ s.panel.clrB.count ≤ Config.debounceTicks ∧
    s.panel.ack.count ≤ Config.debounceTicks
  disabled : s.straps.chord = false → s.panel.chord = .idle
  timing   : ∀ n, s.panel.chord = .timing n →
    n ≤ 1 ∧ s.device = .monitoring ∧ s.panel.clrA.pressed = true ∧ s.panel.clrB.pressed = true

/-! ## Tally line (09 R150, R151, R155) -/

/-- Whether a receive state belongs to a direct request (09 R150). -/
def RxState.direct : RxState → Bool
  | .waiting => false
  | .collecting direct _ => direct
  | .overlong direct _ => direct

/-- A reply has a lead, a status, a length and at most 60 payload bytes (09 R155). -/
structure ReplyOk (r : Reply) : Prop where
  least : 3 ≤ r.chars.length
  most  : r.chars.length ≤ 63
  stop  : r.stopAfter ≤ r.chars.length

/-- The tally line (09 R150, R151, R155): a station with address 0 takes no direct request and sends no reply. -/
structure LineOk (s : State) : Prop where
  collected : ∀ direct chars, s.line.rx = .collecting direct chars → chars.length ≤ 61
  station   : s.straps.addr = 0 → s.line.rx.direct = false ∧ s.line.reply = none
  reply     : ∀ r, s.line.reply = some r → ReplyOk r
  errors    : s.line.lineErrors ≤ max16

/-! ## The read of the configuration memory (10 R165) -/

/-- One bit for each SPI clock after the 24 of the command and the address, eight to a byte, and no more ticks than the largest image takes
(10 R165). A bit is taken at the last tick of its clock (log entry 35). -/
structure LoadOk (x : LoadRead) : Prop where
  bits   : x.bits.length < 8
  clocks : 8 * x.bytes.length + x.bits.length = x.ticks / 4 - 24
  most   : x.ticks ≤ 202336

/-! ## The invariants together -/

structure AllOk (s : State) : Prop where
  rings     : RingsOk s
  ringMap   : RingMapOk s
  untracked : UntrackedOk s
  time      : TimeOk s.time
  directory : DirectoryOk s
  flows     : FlowsOk s
  history   : HistoryOk s
  log       : LogOk s.log
  alarm     : AlarmOk s.alarm
  auto      : AutoOk s
  panel     : PanelOk s
  line      : LineOk s
  load      : LoadOk s.load

/-! ## When no event is outstanding -/

/-- No event of the time base, the panel, the tally timer or the tally line has fallen due and waits to be taken (log entry 1). -/
structure Settled (s : State) : Prop where
  due      : s.due = Due.none
  panel    : s.panel.clrA.count ≠ Config.debounceTicks ∧ s.panel.clrB.count ≠ Config.debounceTicks ∧
    s.panel.ack.count ≠ Config.debounceTicks
  load     : s.device = .loading → readStopped s.load.bytes = false
  boundary : s.boundaryDue = false
  received : s.line.received = none
  gap      : s.line.rx = .waiting ∨ s.line.gapTicks < 4 * charTime s.straps
  reply    : ∀ r, s.line.reply = some r →
    (r.sending = false → r.ticks < 2 * charTime s.straps) ∧
    (r.sending = true → r.ticks < r.stopAfter * charTime s.straps)

end Sys2Proof.Machine
end

