-- ==== Sys2Proof/Certificates/Slice0/Obligations.lean ====
section
/-! DEFINITION. The statements about the part, in the terms of the spec's rules; OBLIGATIONS.json lists them. -/

namespace Sys2Proof.Machine

/-! ## Words the statements share -/

/-- The path stage with one more transfer on its way to memory, 2 bus clocks to go (01 R1). -/
def State.sending (s : State) (t : Transfer) : PathStage := { s.path with toMemory := s.path.toMemory ++ [(2, t)] }

/-- No flow's period tag lags the period number, so that no event rolls a flow (06 R113). -/
def NoneLagging (s : State) : Prop := ∀ (i : FlowIx) (f : FlowRecord), s.flowAt i = some f → f.tag = s.tally.periodNumber

/-- The flow that a record is credited to, if there is one, does not lag, so that its notice rolls no flow (01 R16; 06 R113). -/
def CreditedCurrent (s : State) (p : PendingRecord) : Prop :=
  ∀ (j : FlowIx) (f : FlowRecord), s.credited p = some (j, f) → f.tag = s.tally.periodNumber

/-- A payload field by field, each field as its width in bytes and its value, most significant byte first (10 section 10.5). -/
def layout (fields : List (Nat × Nat)) : List Byte :=
  fields.flatMap (fun p => (List.range p.1).map (fun k => BitVec.ofNat 8 (p.2 / 256 ^ (p.1 - 1 - k))))

/-- A direct request of this station with no reply going on (09 R150, R155). -/
def Direct (addr : Byte) (s : State) : Prop := addr.toNat = s.straps.addr.toNat ∧ addr.toNat ≠ 0 ∧ s.line.reply = none

/-- The state with a reply captured and its delay begun (09 R154, R155): receive state WAITING, nothing else changed. -/
def State.replied (s : State) (st : Status) (payload : List Byte) : State :=
  { s with line := { s.line with
      rx := .waiting
      gapTicks := 0
      reply := some ⟨replyChars s.straps.addr st payload, false, 0, (replyChars s.straps.addr st payload).length, false⟩ } }

/-- The history with a change of the OPEN summary (06 R112). -/
def openHistory (f : Summary → Summary) (h : List Summary) : List Summary := h.map (fun q => if q.phase = .opened then f q else q)

/-- Commands run one after another. -/
def runCommands : List Instr → State → Host.Outcome State Fault Refusal
  | [], s => .next s
  | c :: rest, s =>
    match exec c s with
    | .next t => runCommands rest t
    | .fault r => .fault r
    | .refused r => .refused r

/-- Whether a command is one of those that wait for their event, and its event has not fallen due (log entry 1). -/
def notDue (s : State) : Instr → Prop
  | .tick _ => s.due.tick = false
  | .refLoss => s.due.refLoss = false
  | .measurementCompletion => s.due.measurement = none
  | .millisecondStrobe => s.due.msStrobe = false
  | .secondsStrobe => s.due.secondsStrobe = false
  | .sweepPace => s.due.sweepPace = false
  | .silenceTick => s.due.silenceTick = false
  | .boundary => s.device ≠ .monitoring ∨ s.tally.timer < periodLength s.tally.code
  | .debouncedStateChange i => (s.panel.input i).count ≠ Config.debounceTicks
  | .gapLimitExpiry => (∀ d l, s.line.rx ≠ .collecting d l) ∨ s.line.gapTicks < 4 * charTime s.straps
  | .quietLimitExpiry => (∀ d c, s.line.rx ≠ .overlong d c) ∨ s.line.gapTicks < 4 * charTime s.straps
  | .replyStart => ∀ r, s.line.reply = some r → r.sending = true ∨ r.ticks < 2 * charTime s.straps
  | .replyEnd => ∀ r, s.line.reply = some r → r.sending = false ∨ r.ticks < r.stopAfter * charTime s.straps
  | .loadEnd _ => s.device ≠ .loading
  | .seenRisingEdge => s.due.seenEdge = false
  | _ => False

end Sys2Proof.Machine

open Sys2Proof Sys2Proof.Machine

/-! ## The block -/

/-- A step runs the command at the front of the queue on the state with the queue's rest; on an empty queue it leaves the state as it
is (the model's choice, log entry 3). -/
def Obligations.StepRunsFrontCommand : Prop :=
  (∀ (c : Instr) (rest : List Instr) (s : State), s.pending = c :: rest → step s = exec c { s with pending := rest }) ∧
  (∀ s : State, s.pending = [] → step s = .next s)

/-- Every command has a next state, and none touches the queue. -/
def Obligations.EveryCommandCompletes : Prop :=
  ∀ (c : Instr) (s : State), ∃ t, exec c s = .next t ∧ t.pending = s.pending

/-- A command whose event has not fallen due changes nothing (the model's choice, log entry 1). -/
def Obligations.EventNotDueChangesNothing : Prop :=
  ∀ (c : Instr) (s : State), notDue s c → exec c s = .next s

/-- The state right after reset meets every invariant. -/
def Obligations.ResetMeetsInvariants : Prop := AllOk State.reset

/-- POWER_ON from any state (10 R164, R165, R168; 01 R21, R29; 02 R31, R39, R40; 03 R46, R48, R60; 05 R92; 06 R120; 07 R122; 08 R133, R143,
R145; 09 R150, R151): every block at its power-on values, and the read of the configuration memory begun. That no read is outstanding then
is the model's choice (log entry 22). -/
def Obligations.PowerOnResetsEveryBlock : Prop :=
  ∀ (x : Straps) (s : State), ∃ t, exec (.powerOn x) s = .next t ∧
    t.device = .loading ∧ t.straps = x ∧ t.startRec = ⟨.powerOn, .none, 0⟩ ∧ t.reads = [] ∧ t.load = ⟨0, [], []⟩ ∧
    t.values = ⟨⟨2, true, 2, false, 1, 7, 15, some 3⟩, 0xFFFF, 8, 1024, ⟨1000, 1000, 0, 0, 0, 0, 0⟩⟩ ∧
    (∀ r : RingIx, t.ring r =
      ⟨false, 0, 8, false, false, .active, 0, 0, 0, 0, 0, 0, 0, 0, 0, 0, 0, 0, 0, 0, #v[0, 0, 0, 0, 0, 0, 0, 0], []⟩) ∧
    (∀ i : FlowIx, t.entry i = ⟨0, none⟩) ∧
    (∃ ratio, (x.bdiv = 0 → ratio = 2048) ∧ (x.bdiv = 1 → ratio = 3200) ∧ (x.bdiv = 2 → ratio = 4000) ∧
      (x.bdiv = 3 → ratio = 6400) ∧ t.time = ⟨0, .nominal, ratio, ratio, 0, 0, .waiting, t.time.refLast, 0, 0, 0, 0, 1⟩) ∧
    t.due = Due.none ∧ t.sweepNext = 0 ∧ t.tally = ⟨0, 0, 1, none, []⟩ ∧ t.log = ⟨[], 0⟩ ∧
    t.alarm = ⟨⟨#v[3, 4, 2, 5, 2, 6, 0, 6, 1, 1, 1, 3, 4, 1], 0b1110#8, 0, ⟨false, 0, 0⟩⟩, 0, 0, false⟩ ∧
    t.panel = ⟨⟨false, 0⟩, ⟨false, 0⟩, ⟨false, 0⟩, if x.chord then .spent else .idle⟩ ∧
    t.line.rx = .waiting ∧ t.line.reply = none ∧ t.line.lineErrors = 0

/-! ## The descriptor path -/

/-- How a transfer is taken (01 R3, R4): as a descriptor transfer of ring r and slot i when the part is in MONITORING with SW_RST_N
released and the burst is the four words of that slot of an enabled ring whose window no other enabled ring's overlaps; unseen outside
MONITORING, under SW_RST_N, or when it touches no enabled window; and as a stray access in every other case. An address is inside a ring's
window when the ring is enabled and the address runs from the base to base + 4 * (slot count) - 1 (R2), and a transfer touches the window
when one of its words, from its start address to start address + burst length - 1, is inside it; a burst past the last word address goes
on upwards and touches nothing at address 0 (the model's reading, log entry 7). What a write carries (R5, R7):
the masked key and the sequence bit by bit from the halves that the profile names, void exactly when the disposition nibble is the VOID
code, and good parity exactly when every byte of every word together with its parity bit has an even number of ones; parity bit b belongs
to bits 8b + 7 to 8b (the model's choice, log entry 6). -/
def Obligations.TransfersAreRecognised : Prop :=
  (∀ (s : State) (r : RingIx) (i : Nat) (addr : BitVec 22),
    s.device = .monitoring → s.rstAsserted = false → (s.ring r).enabled = true → i < (s.ring r).slotCount →
    addr.toNat = (s.ring r).base.toNat + 4 * i → (∀ q : RingIx, q ≠ r → (s.ring q).inWindow addr.toNat = false) →
    recognise addr 3 s = .descriptor r i) ∧
  (∀ (s : State) (addr : BitVec 22) (slen : BitVec 2),
    (s.device ≠ .monitoring ∨ s.rstAsserted = true ∨ ∀ r : RingIx, (s.ring r).touched addr.toNat (slen.toNat + 1) = false) →
    recognise addr slen s = .unseen) ∧
  (∀ (s : State) (addr : BitVec 22) (slen : BitVec 2) (r : RingIx),
    s.device = .monitoring → s.rstAsserted = false → (s.ring r).touched addr.toNat (slen.toNat + 1) = true →
    (slen ≠ 3 ∨ ∀ q : RingIx, (s.ring q).inWindow addr.toNat = true → (addr.toNat - (s.ring q).base.toNat) % 4 ≠ 0) →
    recognise addr slen s = .stray) ∧
  (∀ (x : RingRecord) (a : Nat),
    x.inWindow a = true ↔ x.enabled = true ∧ x.base.toNat ≤ a ∧ a < x.base.toNat + 4 * x.slotCount) ∧
  (∀ (x : RingRecord) (addr : BitVec 22) (slen : BitVec 2),
    (x.touched addr.toNat (slen.toNat + 1) = true ↔
      x.enabled = true ∧ x.base.toNat < addr.toNat + (slen.toNat + 1) ∧ addr.toNat < x.base.toNat + 4 * x.slotCount) ∧
    (0 < x.slotCount → (x.touched addr.toNat (slen.toNat + 1) = true ↔
      ∃ k : Nat, k ≤ slen.toNat ∧ x.inWindow (addr.toNat + k) = true))) ∧
  (∀ (v : DeviceValues) (w : Vector BusWord 4) (n : Nat), n < 16 →
    (maskedKeyOf v w.toList).getLsbD n =
      (w[v.profile.keyWord].data.getLsbD (if v.profile.keyUpper then n + 16 else n) && v.keyMask.getLsbD n) ∧
    (sequenceOf v w.toList).getLsbD n = w[v.profile.seqWord].data.getLsbD (if v.profile.seqUpper then n + 16 else n)) ∧
  (∀ (v : DeviceValues) (w : Vector BusWord 4), isVoid v w.toList = true ↔
    ∀ n : Nat, n < 4 → w[v.profile.dispWord].data.getLsbD (4 * v.profile.dispNibble.val + n) = v.profile.voidCode.getLsbD n) ∧
  (∀ w : Vector BusWord 4, burstOk w.toList = true ↔ ∀ (i : Fin 4) (b : Nat), b < 4 →
    ((List.range 8).countP (fun j => w[i].data.getLsbD (8 * b + j)) + if w[i].par.getLsbD b then 1 else 0) % 2 = 0) ∧
  (∀ (d : BitVec 32) (b : Nat), b < 4 →
    ((List.range 8).countP (fun j => d.getLsbD (8 * b + j)) + if (goodParity d).getLsbD b then 1 else 0) % 2 = 0)

/-- Transfers that are no descriptor transfer (01 R1, R3, R4): an unseen transfer is carried and changes nothing else; a stray access adds 1 to
the stray access counter of each enabled ring it touches, saturating, is carried unchanged, and changes nothing else. That a read of
either kind is outstanding, with no checks, until its data pass is the model's choice (log entry 9). -/
def Obligations.UntrackedTransfersAreCarried : Prop :=
  (∀ (write : Bool) (addr : BitVec 22) (slen : BitVec 2) (data : List BusWord) (s : State), recognise addr slen s = .unseen →
    exec (.busTransfer write addr slen data) s = .next { s with
      reads := if write then s.reads else s.reads ++ [none]
      path := s.sending ⟨write, addr, slen, data⟩ }) ∧
  (∀ (write : Bool) (addr : BitVec 22) (slen : BitVec 2) (data : List BusWord) (s : State), recognise addr slen s = .stray →
    ∃ t, exec (.busTransfer write addr slen data) s = .next { s with
        rings := t
        reads := if write then s.reads else s.reads ++ [none]
        path := s.sending ⟨write, addr, slen, data⟩ } ∧
      ∀ r : RingIx, t[r] =
        if (s.ring r).touched addr.toNat (slen.toNat + 1) then { s.ring r with strayAccesses := bump32 (s.ring r).strayAccesses }
        else s.ring r)

/-- An update (01 R12) keeps the record and every counter; a void write into an EMPTY slot (01 R11) adds 1 to the stray accesses. Both
reset the silence state (01 R23), and both leave with the stamp word substituted (01 R6): the record's stamp for the update, the write's
time for the void write. Substitution changes the stamp word of a stamped ring and nothing else. -/
def Obligations.UpdateAndVoidWriteKeepSlots : Prop :=
  (∀ (addr : BitVec 22) (slen : BitVec 2) (data : List BusWord) (s : State) (r : RingIx) (i : Nat) (p : PendingRecord),
    recognise addr slen s = .descriptor r i → burstOk data = true → slotGet (s.ring r).slots i = some p →
    isVoid s.values data = false → maskedKeyOf s.values data = p.key → sequenceOf s.values data = p.seq →
    exec (.busTransfer true addr slen data) s = .next { s with
      rings := s.rings.set r { s.ring r with silenceCounter := 0, silence := .active }
      path := s.sending ⟨true, addr, slen, substituted (s.ring r) s.values.profile p.stamp data⟩ }) ∧
  (∀ (addr : BitVec 22) (slen : BitVec 2) (data : List BusWord) (s : State) (r : RingIx) (i : Nat),
    recognise addr slen s = .descriptor r i → burstOk data = true → slotGet (s.ring r).slots i = none →
    isVoid s.values data = true →
    exec (.busTransfer true addr slen data) s = .next { s with
      rings := s.rings.set r { s.ring r with
        silenceCounter := 0, silence := .active, strayAccesses := bump32 (s.ring r).strayAccesses }
      path := s.sending ⟨true, addr, slen, substituted (s.ring r) s.values.profile s.time.tickCount data⟩ }) ∧
  (∀ (x : RingRecord) (p : Profile) (v : Tick) (data : List BusWord) (j : Nat),
    (substituted x p v data)[j]? =
      if x.stampOn = true ∧ p.stampWord.map Fin.val = some j ∧ j < data.length then some ⟨v, goodParity v⟩ else data[j]?)

/-- The record of a ring after an arrival's steps 2 and 3 (01 R10, R22, R23). -/
def Sys2Proof.Machine.RingRecord.arrived (x : RingRecord) (slot : Nat) (p : PendingRecord) : RingRecord :=
  { x with
    silenceCounter := 0
    silence := .active
    slots := slotPut x.slots slot p
    enqueued := x.enqueued + 1
    held := x.held + 1
    highWater := max x.highWater (x.held + 1) }

/-- An arrival of a flow that does not lag (01 R10; 03 R49; 04 R61): the slot HELD with the flow's index and generation, the ring and the
peak held counted, the arrival taken by the cycle tracker, its incidents raised, the write carried with its stamp. -/
def Obligations.TrackedArrival : Prop :=
  ∀ (addr : BitVec 22) (slen : BitVec 2) (data : List BusWord) (s : State) (r : RingIx) (i : Nat) (j : FlowIx) (f : FlowRecord),
    recognise addr slen s = .descriptor r i → burstOk data = true → slotGet (s.ring r).slots i = none →
    isVoid s.values data = false → s.findKey r (maskedKeyOf s.values data) = some j → s.flowAt j = some f →
    f.tag = s.tally.periodNumber →
    ∃ t, exec (.busTransfer true addr slen data) s = .next t ∧
      t = { s with
        rings := s.rings.set r ((s.ring r).arrived i
          ⟨some ⟨j, (s.entry j).gen⟩, maskedKeyOf s.values data, sequenceOf s.values data, s.time.tickCount⟩)
        flows := s.flows.set j ⟨(s.entry j).gen,
          some (flowArrival s.values.silenceCount s.time.tickCount (sequenceOf s.values data) f).1⟩
        tally := { s.tally with
          history := openHistory (fun q => { q with peakHeld := max q.peakHeld (s.totalHeld + 1) }) s.tally.history }
        path := s.sending ⟨true, addr, slen, substituted (s.ring r) s.values.profile s.time.tickCount data⟩
        log := t.log
        alarm := t.alarm } ∧
      t.log = (raiseAll (flowRaisings j
        (flowArrival s.values.silenceCount s.time.tickCount (sequenceOf s.values data) f).2) s).log ∧
      t.alarm = (raiseAll (flowRaisings j
        (flowArrival s.values.silenceCount s.time.tickCount (sequenceOf s.values data) f).2) s).alarm

/-- An arrival without a flow (01 R10 step 4; 03 R51): the record untracked, untracked arrivals of ring and OPEN summary counted, and
DIRECTORY_FULL raised when the ring's auto-enrol option is on and no entry is VACANT. -/
def Obligations.UntrackedArrival : Prop :=
  ∀ (addr : BitVec 22) (slen : BitVec 2) (data : List BusWord) (s : State) (r : RingIx) (i : Nat),
    recognise addr slen s = .descriptor r i → burstOk data = true → slotGet (s.ring r).slots i = none →
    isVoid s.values data = false → s.findKey r (maskedKeyOf s.values data) = none →
    ((s.ring r).autoEnrol = true → ∀ j : FlowIx, s.flowAt j ≠ none) →
    ∃ l a, exec (.busTransfer true addr slen data) s = .next { s with
        rings := s.rings.set r { (s.ring r).arrived i
            ⟨none, maskedKeyOf s.values data, sequenceOf s.values data, s.time.tickCount⟩ with
          untrackedArrivals := bump32 (s.ring r).untrackedArrivals }
        tally := { s.tally with
          history := openHistory (fun q => { q with
            peakHeld := max q.peakHeld (s.totalHeld + 1)
            untrackedArrivals := bump32 q.untrackedArrivals }) s.tally.history }
        path := s.sending ⟨true, addr, slen, substituted (s.ring r) s.values.profile s.time.tickCount data⟩
        log := l
        alarm := a } ∧
      ((s.ring r).autoEnrol = false → l = s.log ∧ a = s.alarm) ∧
      ((s.ring r).autoEnrol = true → (l, a) =
        raiseInto s.time.tickCount .directoryFull (.ring r) ((maskedKeyOf s.values data).setWidth 32) s.log s.alarm)

/-- The flow record of an entry just enrolled, its arrival taken as the first of the learning context (03 R48, R50; 04 R61, R62). -/
def Sys2Proof.Machine.State.enrolled (s : State) (r : RingIx) (key : Half) (t : Tick) (q : BitVec 16) : FlowRecord where
  origin := .learned
  ring := r
  key := key
  cycle := .learning ⟨some t, q, [], 0, 1⟩
  params := s.values.learnedParams
  misses := 0
  window := ⟨false, 0, BitVec.allOnes 32⟩
  running := { RunningTallies.zero with arrivals := 1 }
  worstEarly := none
  worstLate := none
  worstResidence := none
  period := { Tallies.zero with arrivals := 1 }
  periodWorst := none
  tag := s.tally.periodNumber
  idle := 0

/-- An arrival that enrols (03 R48, R50; 04 R61, R62): the lowest VACANT entry becomes a LEARNED flow in LEARNING under the generation it
kept, and the arrival is its first, which begins the learning context. -/
def Obligations.EnrolledArrival : Prop :=
  ∀ (addr : BitVec 22) (slen : BitVec 2) (data : List BusWord) (s : State) (r : RingIx) (i : Nat) (j : FlowIx),
    recognise addr slen s = .descriptor r i → burstOk data = true → slotGet (s.ring r).slots i = none →
    isVoid s.values data = false → s.findKey r (maskedKeyOf s.values data) = none → (s.ring r).autoEnrol = true →
    s.flowAt j = none → (∀ k : FlowIx, k.val < j.val → s.flowAt k ≠ none) →
    exec (.busTransfer true addr slen data) s = .next { s with
      rings := s.rings.set r ((s.ring r).arrived i
        ⟨some ⟨j, (s.entry j).gen⟩, maskedKeyOf s.values data, sequenceOf s.values data, s.time.tickCount⟩)
      flows := s.flows.set j ⟨(s.entry j).gen,
        some (s.enrolled r (maskedKeyOf s.values data) s.time.tickCount (sequenceOf s.values data))⟩
      tally := { s.tally with
        history := openHistory (fun q => { q with peakHeld := max q.peakHeld (s.totalHeld + 1) }) s.tally.history }
      path := s.sending ⟨true, addr, slen, substituted (s.ring r) s.values.profile s.time.tickCount data⟩ }

/-- The state after a HELD record is thrown away by an overwrite (01 R13 steps 1 and 2, R16, R23): the slot EMPTY, overwritten up by 1, the
silence state reset, and the drop notice credited to the record's flow or counted as an untracked departure of ring and OPEN summary. -/
def Sys2Proof.Machine.State.overwrote (s : State) (r : RingIx) (i : Nat) (p : PendingRecord) : State :=
  let x := { s.ring r with
    silenceCounter := 0, silence := .active, slots := slotErase (s.ring r).slots i, overwritten := (s.ring r).overwritten + 1 }
  match s.credited p with
  | some (j, f) => { s with
      rings := s.rings.set r x
      flows := s.flows.set j ⟨(s.entry j).gen, some { f with
        running := { f.running with switchDrops := bump32 f.running.switchDrops }
        period := { f.period with switchDrops := bump16 f.period.switchDrops } }⟩ }
  | none => { s with
      rings := s.rings.set r { x with untrackedDepartures := bump32 x.untrackedDepartures }
      tally := { s.tally with
        history := openHistory (fun q => { q with untrackedDepartures := bump32 q.untrackedDepartures }) s.tally.history } }

/-- A ring record with a record put into the slot that an overwrite emptied (01 R13 steps 3 and 4): enqueued up by 1, held unchanged. -/
def Sys2Proof.Machine.RingRecord.refilled (x : RingRecord) (slot : Nat) (p : PendingRecord) : RingRecord :=
  { x with slots := slotPut x.slots slot p, enqueued := x.enqueued + 1 }

/-- An overwrite that touches no lagging flow (01 R13, R16, R23; 03 R49 to R51; 04 R61): the old record is thrown away with its drop notice, and the
write is then taken as an arrival that leaves held and peak held alone: of a flow the directory has, which takes it in the cycle tracker;
of none, counted untracked with DIRECTORY_FULL when enrolment finds no entry; or of the lowest VACANT entry, enrolled. -/
def Obligations.OverwriteReplacesRecord : Prop :=
  ∀ (addr : BitVec 22) (slen : BitVec 2) (data : List BusWord) (s : State) (r : RingIx) (i : Nat) (p : PendingRecord),
    recognise addr slen s = .descriptor r i → burstOk data = true → slotGet (s.ring r).slots i = some p →
    isVoid s.values data = false → ¬ (maskedKeyOf s.values data = p.key ∧ sequenceOf s.values data = p.seq) → CreditedCurrent s p →
    let u := s.overwrote r i p
    let key := maskedKeyOf s.values data
    let q := sequenceOf s.values data
    let now := s.time.tickCount
    let path := s.sending ⟨true, addr, slen, substituted (s.ring r) s.values.profile now data⟩
    (∀ j f, s.findKey r key = some j → u.flowAt j = some f → f.tag = s.tally.periodNumber →
      let out := flowArrival s.values.silenceCount now q f
      exec (.busTransfer true addr slen data) s = .next { u with
        rings := u.rings.set r ((u.ring r).refilled i ⟨some ⟨j, (s.entry j).gen⟩, key, q, now⟩)
        flows := u.flows.set j ⟨(s.entry j).gen, some out.1⟩
        path := path
        log := (raiseAll (flowRaisings j out.2) s).log
        alarm := (raiseAll (flowRaisings j out.2) s).alarm }) ∧
    (s.findKey r key = none → ((s.ring r).autoEnrol = true → ∀ j : FlowIx, s.flowAt j ≠ none) →
      ∃ l a, exec (.busTransfer true addr slen data) s = .next { u with
          rings := u.rings.set r { (u.ring r).refilled i ⟨none, key, q, now⟩ with
            untrackedArrivals := bump32 (s.ring r).untrackedArrivals }
          tally := { u.tally with
            history := openHistory (fun h => { h with untrackedArrivals := bump32 h.untrackedArrivals }) u.tally.history }
          path := path
          log := l
          alarm := a } ∧
        ((s.ring r).autoEnrol = false → l = s.log ∧ a = s.alarm) ∧
        ((s.ring r).autoEnrol = true → (l, a) = raiseInto now .directoryFull (.ring r) (key.setWidth 32) s.log s.alarm)) ∧
    (∀ j : FlowIx, s.findKey r key = none → (s.ring r).autoEnrol = true → s.flowAt j = none →
      (∀ k : FlowIx, k.val < j.val → s.flowAt k ≠ none) →
      exec (.busTransfer true addr slen data) s = .next { u with
        rings := u.rings.set r ((u.ring r).refilled i ⟨some ⟨j, (s.entry j).gen⟩, key, q, now⟩)
        flows := u.flows.set j ⟨(s.entry j).gen, some (s.enrolled r key now q)⟩
        path := path })

/-- A withdrawal that touches no lagging flow (01 R14, R16, R23): the slot EMPTY, withdrawn up and held down by 1, and the drop notice credited to
the record's flow or counted as an untracked departure of ring and OPEN summary. -/
def Obligations.WithdrawalEmptiesSlot : Prop :=
  ∀ (addr : BitVec 22) (slen : BitVec 2) (data : List BusWord) (s : State) (r : RingIx) (i : Nat) (p : PendingRecord),
    recognise addr slen s = .descriptor r i → burstOk data = true → slotGet (s.ring r).slots i = some p →
    isVoid s.values data = true → CreditedCurrent s p →
    (∀ j f, s.credited p = some (j, f) → exec (.busTransfer true addr slen data) s = .next { s with
      rings := s.rings.set r { s.ring r with
        silenceCounter := 0, silence := .active, slots := slotErase (s.ring r).slots i
        withdrawn := (s.ring r).withdrawn + 1, held := (s.ring r).held - 1 }
      flows := s.flows.set j ⟨(s.entry j).gen, some { f with
        running := { f.running with switchDrops := bump32 f.running.switchDrops }
        period := { f.period with switchDrops := bump16 f.period.switchDrops } }⟩
      path := s.sending ⟨true, addr, slen, substituted (s.ring r) s.values.profile s.time.tickCount data⟩ }) ∧
    (s.credited p = none → exec (.busTransfer true addr slen data) s = .next { s with
      rings := s.rings.set r { s.ring r with
        silenceCounter := 0, silence := .active, slots := slotErase (s.ring r).slots i
        withdrawn := (s.ring r).withdrawn + 1, held := (s.ring r).held - 1
        untrackedDepartures := bump32 (s.ring r).untrackedDepartures }
      tally := { s.tally with
        history := openHistory (fun q => { q with untrackedDepartures := bump32 q.untrackedDepartures }) s.tally.history }
      path := s.sending ⟨true, addr, slen, substituted (s.ring r) s.values.profile s.time.tickCount data⟩ })

/-- A parity-faulted write (01 R7, R15), whatever its disposition: the slot HELD with an untracked record, one parity fault, one untracked
arrival of ring and OPEN summary, RING_PARITY raised with the slot index. Into an EMPTY slot it counts as enqueued and held; into a HELD
slot, with its record's flow not lagging, the old record is thrown away with its drop notice as in an overwrite, and held is unchanged. -/
def Obligations.ParityFaultedWriteHoldsSlot : Prop :=
  ∀ (addr : BitVec 22) (slen : BitVec 2) (data : List BusWord) (s : State) (r : RingIx) (i : Nat),
    recognise addr slen s = .descriptor r i → burstOk data = false →
    (slotGet (s.ring r).slots i = none → ∃ l a,
      (l, a) = raiseInto s.time.tickCount .ringParity (.ring r) (BitVec.ofNat 32 i) s.log s.alarm ∧
      exec (.busTransfer true addr slen data) s = .next { s with
        rings := s.rings.set r { (s.ring r).arrived i
            ⟨none, maskedKeyOf s.values data, sequenceOf s.values data, s.time.tickCount⟩ with
          untrackedArrivals := bump32 (s.ring r).untrackedArrivals
          parityFaults := bump32 (s.ring r).parityFaults }
        tally := { s.tally with
          history := openHistory (fun q => { q with
            peakHeld := max q.peakHeld (s.totalHeld + 1)
            untrackedArrivals := bump32 q.untrackedArrivals }) s.tally.history }
        path := s.sending ⟨true, addr, slen, substituted (s.ring r) s.values.profile s.time.tickCount data⟩
        log := l
        alarm := a }) ∧
    (∀ p, slotGet (s.ring r).slots i = some p → CreditedCurrent s p →
      let u := s.overwrote r i p
      ∃ l a, (l, a) = raiseInto s.time.tickCount .ringParity (.ring r) (BitVec.ofNat 32 i) s.log s.alarm ∧
      exec (.busTransfer true addr slen data) s = .next { u with
        rings := u.rings.set r { (u.ring r).refilled i
            ⟨none, maskedKeyOf s.values data, sequenceOf s.values data, s.time.tickCount⟩ with
          untrackedArrivals := bump32 (s.ring r).untrackedArrivals
          parityFaults := bump32 (s.ring r).parityFaults }
        tally := { u.tally with
          history := openHistory (fun q => { q with untrackedArrivals := bump32 q.untrackedArrivals }) u.tally.history }
        path := s.sending ⟨true, addr, slen, substituted (s.ring r) s.values.profile s.time.tickCount data⟩
        log := l
        alarm := a })

/-- The least residence of each histogram bin (05 R88). -/
def Sys2Proof.Machine.binLow : Vector Nat 8 := #v[0, 64, 256, 1024, 4096, 16384, 65536, 262144]

/-- A departure that touches no lagging flow (01 R17; 05 R85 to R88): the slot EMPTY, departed up and held down by 1, the residence counted in its
bin, the departure credited to the record's flow or counted as untracked, and the read's data awaited. -/
def Obligations.DepartureCountsResidence : Prop :=
  ∀ (addr : BitVec 22) (slen : BitVec 2) (data : List BusWord) (s : State) (r : RingIx) (i : Nat) (p : PendingRecord) (b : Fin 8),
    recognise addr slen s = .descriptor r i → slotGet (s.ring r).slots i = some p → CreditedCurrent s p →
    binLow[b] ≤ (s.time.tickCount - p.stamp).toNat →
    (∀ h : b.val + 1 < 8, (s.time.tickCount - p.stamp).toNat < binLow[b.val + 1]) →
    (∀ j f, s.credited p = some (j, f) → exec (.busTransfer false addr slen data) s = .next { s with
      rings := s.rings.set r { s.ring r with
        slots := slotErase (s.ring r).slots i
        departed := (s.ring r).departed + 1
        held := (s.ring r).held - 1
        histogram := (s.ring r).histogram.set b (bump32 (s.ring r).histogram[b]) }
      flows := s.flows.set j ⟨(s.entry j).gen,
        some (flowDeparture s.values.resync p.seq (s.time.tickCount - p.stamp).toNat f)⟩
      reads := s.reads ++ [some ⟨r, i, some p.stamp⟩]
      path := s.sending ⟨false, addr, slen, data⟩ }) ∧
    (s.credited p = none → exec (.busTransfer false addr slen data) s = .next { s with
      rings := s.rings.set r { s.ring r with
        slots := slotErase (s.ring r).slots i
        departed := (s.ring r).departed + 1
        held := (s.ring r).held - 1
        histogram := (s.ring r).histogram.set b (bump32 (s.ring r).histogram[b])
        untrackedDepartures := bump32 (s.ring r).untrackedDepartures }
      tally := { s.tally with
        history := openHistory (fun q => { q with untrackedDepartures := bump32 q.untrackedDepartures }) s.tally.history }
      reads := s.reads ++ [some ⟨r, i, some p.stamp⟩]
      path := s.sending ⟨false, addr, slen, data⟩ })

/-- A read of an EMPTY slot is a phantom read (01 R20): its counter goes up by 1, saturating, the slot stays EMPTY, no notice is raised, and
the parity check of its data is awaited (R17, R19). -/
def Obligations.PhantomReadIsCounted : Prop :=
  ∀ (addr : BitVec 22) (slen : BitVec 2) (data : List BusWord) (s : State) (r : RingIx) (i : Nat),
    recognise addr slen s = .descriptor r i → slotGet (s.ring r).slots i = none →
    exec (.busTransfer false addr slen data) s = .next { s with
      rings := s.rings.set r { s.ring r with phantomReads := bump32 (s.ring r).phantomReads }
      reads := s.reads ++ [some ⟨r, i, none⟩]
      path := s.sending ⟨false, addr, slen, data⟩ }

/-- Read data are carried to the switch unchanged (01 R1), with the checks of the read they belong to (R17, R18, R19, R20): a parity fault
counted and raised; a stamp mismatch of a departure in a stamped ring counted and raised when parity is good; nothing when data and stamp
are good. Data of a read without checks, and data with no read outstanding, only pass. That data belong to the oldest read outstanding is
the model's choice (log entry 9), and a read whose checks a RESTART or DEFINE RING has done away with is one without checks (log entry
29). -/
def Obligations.ReadDataIsChecked : Prop :=
  ∀ (data : List BusWord) (s : State),
    let back := { s.path with toSwitch := s.path.toSwitch ++ [(2, data)] }
    (s.reads = [] → exec (.readDataCheck data) s = .next { s with path := back }) ∧
    (∀ rest, s.reads = none :: rest → exec (.readDataCheck data) s = .next { s with reads := rest, path := back }) ∧
    (∀ c rest, s.reads = some c :: rest → burstOk data = false → ∃ l a,
      (l, a) = raiseInto s.time.tickCount .ringParity (.ring c.ring) (BitVec.ofNat 32 c.slot) s.log s.alarm ∧
      exec (.readDataCheck data) s = .next { s with
        reads := rest, path := back, log := l, alarm := a
        rings := s.rings.set c.ring { s.ring c.ring with parityFaults := bump32 (s.ring c.ring).parityFaults } }) ∧
    (∀ c rest w stamp, s.reads = some c :: rest → burstOk data = true → (s.ring c.ring).stampOn = true →
      s.values.profile.stampWord = some w → c.stamp = some stamp → (wordAt data w).data ≠ stamp → ∃ l a,
      (l, a) = raiseInto s.time.tickCount .ringStamp (.ring c.ring) (BitVec.ofNat 32 c.slot) s.log s.alarm ∧
      exec (.readDataCheck data) s = .next { s with
        reads := rest, path := back, log := l, alarm := a
        rings := s.rings.set c.ring { s.ring c.ring with stampMismatches := bump32 (s.ring c.ring).stampMismatches } }) ∧
    (∀ c rest, s.reads = some c :: rest → burstOk data = true →
      ((s.ring c.ring).stampOn = false ∨ s.values.profile.stampWord = none ∨ c.stamp = none ∨
        ∃ w, s.values.profile.stampWord = some w ∧ c.stamp = some (wordAt data w).data) →
      exec (.readDataCheck data) s = .next { s with reads := rest, path := back })

/-- The records of a slot store that no flow is credited with (01 R16; 03 R53). -/
def Sys2Proof.Machine.State.uncreditedIn (s : State) (slots : List (Nat × PendingRecord)) : Nat :=
  slots.countP (fun e => (s.credited e.2).isNone)

/-- The records of all enabled rings that are credited to the flow at an entry (01 R16; 03 R53). -/
def Sys2Proof.Machine.State.creditedTo (s : State) (j : FlowIx) : Nat :=
  (ringOrder.map (fun r => if (s.ring r).enabled then (s.ring r).slots.countP (fun e => (s.credited e.2).map (fun c => c.1) == some j)
    else 0)).sum

/-- A bus reset (01 R25) empties every enabled ring, adds its held count to flushed, counts once, and leaves ring definitions, all other
ring counters but the untracked departures, the time base, the panel, the line and the tally timer. With no flow lagging, each flow gets a
switch drop for every record credited to it, every other record counts as an untracked departure of its ring and of the OPEN summary, and
RING_FLUSH is raised with the number of records for each ring that had any, in ring order; rings with nothing HELD raise nothing and drop
nothing. Its release changes the level of SW_RST_N alone. -/
def Obligations.BusResetFlushesRings : Prop :=
  (∀ s : State, s.rstAsserted = false →
    ∃ t, exec .busReset s = .next t ∧
      (∀ r : RingIx, ∃ nd, t.ring r =
        if (s.ring r).enabled then
          { s.ring r with
            slots := []
            held := 0
            flushed := (s.ring r).flushed + BitVec.ofNat 32 (s.ring r).held
            untrackedDepartures := nd }
        else s.ring r) ∧
      t = { s with
        rstAsserted := true
        startRec := { s.startRec with busResets := bump16 s.startRec.busResets }
        rings := t.rings, flows := t.flows, tally := { s.tally with history := t.tally.history }, log := t.log, alarm := t.alarm } ∧
      ((∀ r : RingIx, (s.ring r).enabled = true → (s.ring r).slots = []) →
        t.rings.map (fun x => x.untrackedDepartures) = s.rings.map (fun x => x.untrackedDepartures) ∧
        t.flows = s.flows ∧ t.tally = s.tally ∧ t.log = s.log ∧ t.alarm = s.alarm) ∧
      (NoneLagging s →
        let add := fun cap x n => if n = 0 then x else satAdd cap x n
        let lost := (ringOrder.map (fun r => if (s.ring r).enabled then s.uncreditedIn (s.ring r).slots else 0)).sum
        let raisings := (ringOrder.filter (fun r => (s.ring r).enabled && decide ((s.ring r).slots ≠ []))).map (fun r =>
          (IncidentKind.ringFlush, Subject.ring r, BitVec.ofNat 32 (s.ring r).slots.length))
        (∀ r : RingIx, (s.ring r).enabled = true →
          (t.ring r).untrackedDepartures = add max32 (s.ring r).untrackedDepartures (s.uncreditedIn (s.ring r).slots)) ∧
        (∀ j : FlowIx, t.entry j = { s.entry j with flow := (s.flowAt j).map (fun f => { f with
          running := { f.running with switchDrops := add max32 f.running.switchDrops (s.creditedTo j) }
          period := { f.period with switchDrops := add max16 f.period.switchDrops (s.creditedTo j) } }) }) ∧
        t.tally.history =
          openHistory (fun q => { q with untrackedDepartures := add max32 q.untrackedDepartures lost }) s.tally.history ∧
        t.log = (raiseAll raisings s).log ∧ t.alarm = (raiseAll raisings s).alarm)) ∧
  (∀ s : State, exec .swRstNRelease s = .next { s with rstAsserted := false })

/-- The path stage adds 2 bus clocks in each direction (01 R1): a transfer, and the data of a read, are not on the other side at the first
bus clock after they are presented, and leave at the second, behind those that entered before them. R1 times each word; that a whole burst,
and the data of a whole read, are presented and leave together is the model's choice (log entry 8). -/
def Obligations.PathStageAddsTwoClocks : Prop :=
  (∀ (write : Bool) (addr : BitVec 22) (slen : BitVec 2) (data : List BusWord) (ref1 ref2 : Bool) (s : State),
    (∀ p ∈ s.path.toMemory, p.1 = 1 ∨ p.1 = 2) →
    ∃ t1 t2 t3, exec (.busTransfer write addr slen data) s = .next t1 ∧ exec (.busClock ref1) t1 = .next t2 ∧
      exec (.busClock ref2) t2 = .next t3 ∧
      t2.path.memorySide = (s.path.toMemory.filter (fun p => p.1 == 1)).map (fun p => p.2) ∧
      t3.path.memorySide = (s.path.toMemory.filter (fun p => p.1 == 2)).map (fun p => p.2) ++
        [⟨write, addr, slen, outgoingData ⟨write, addr, slen, data⟩ s⟩] ∧
      t3.path.toMemory = []) ∧
  (∀ (data : List BusWord) (ref1 ref2 : Bool) (s : State),
    (∀ p ∈ s.path.toSwitch, p.1 = 1 ∨ p.1 = 2) →
    ∃ t1 t2 t3, exec (.readDataCheck data) s = .next t1 ∧ exec (.busClock ref1) t1 = .next t2 ∧
      exec (.busClock ref2) t2 = .next t3 ∧
      t2.path.switchSide = (s.path.toSwitch.filter (fun p => p.1 == 1)).map (fun p => p.2) ∧
      t3.path.switchSide = (s.path.toSwitch.filter (fun p => p.1 == 2)).map (fun p => p.2) ++ [data] ∧
      t3.path.toSwitch = [])

/-! ## The time base -/

/-- BUS_CLOCK with no event outstanding (02 R32, R33, R34, R35; 01 R1): REF sampled, the accumulator stepped outside LOCKED and a tick made
when it reaches the ratio in use, the loss count stepped without a seen edge and a REF loss made at 256, the meter's clock count stepped
while counting, the path stage moved on; nothing else. -/
def Obligations.BusClockStepsTimeBase : Prop :=
  ∀ (ref : Bool) (s : State), Settled s →
    ∃ acc tick loss lost edge meter, exec (.busClock ref) s = .next { s with
        path := clockPath s.path
        time := { s.time with refLast := ref, acc := acc, loss := loss, meter := meter }
        due := { Due.none with seenEdge := edge, tick := tick, refLoss := lost } } ∧
      (edge = true ↔ ref = true ∧ s.time.refLast = false) ∧
      (s.time.source = .locked → acc = s.time.acc ∧ tick = false) ∧
      (s.time.source ≠ .locked → s.time.acc + 256 < s.time.ratio → acc = s.time.acc + 256 ∧ tick = false) ∧
      (s.time.source ≠ .locked → s.time.ratio ≤ s.time.acc + 256 → acc = s.time.acc + 256 - s.time.ratio ∧ tick = true) ∧
      (edge = true → loss = s.time.loss ∧ lost = false) ∧
      (edge = false → s.time.loss < 255 → loss = s.time.loss + 1 ∧ lost = false) ∧
      (edge = false → s.time.loss = 255 → loss = 256 ∧ lost = true) ∧
      (edge = false → 256 ≤ s.time.loss → loss = 256 ∧ lost = false) ∧
      (s.time.meter = .waiting → meter = .waiting) ∧
      (∀ n p b, s.time.meter = .counting n p b → meter = .counting (n + 1) p b)

/-- SEEN_RISING_EDGE, fallen due (02 R32, R34, R35): the loss count 0, a tick in LOCKED alone, and the meter begun, moved on by a period or a
block, or its measurement completed with the total M and begun again. -/
def Obligations.SeenEdgeFeedsMeter : Prop :=
  ∀ s : State, s.due.seenEdge = true →
    ∃ m meter, exec .seenRisingEdge s = .next { s with
        time := { s.time with loss := 0, meter := meter }
        due := { s.due with seenEdge := false, tick := s.due.tick || decide (s.time.source = .locked), measurement := m } } ∧
      (s.time.meter = .waiting → meter = .counting 0 0 0 ∧ m = s.due.measurement) ∧
      (∀ n p b, s.time.meter = .counting n p b → p < 1023 → meter = .counting n (p + 1) b ∧ m = s.due.measurement) ∧
      (∀ n b, s.time.meter = .counting n 1023 b → b < 3 → meter = .counting n 0 (b + 1) ∧ m = s.due.measurement) ∧
      (∀ n, s.time.meter = .counting n 1023 3 → meter = .counting 0 0 0 ∧ m = some n)

/-- MEASUREMENT_COMPLETION with total M, fallen due (02 R36, R37, R38, R43): the measured ratio floor((M + 8) / 16), valid from 1024 to
16,383, becomes the ratio in use and the state LOCKED; out of range it changes nothing in NOMINAL and HOLDOVER and leads from LOCKED to
HOLDOVER with TIME_HOLDOVER raised with the rejected ratio and the OPEN summary DEGRADED. The accumulator becomes 0 on each change of state
(entering LOCKED: log entry 17). -/
def Obligations.MeasurementDecidesSource : Prop :=
  ∀ (m : Nat) (s : State), s.due.measurement = some m →
    let due := { s.due with measurement := none }
    (1024 ≤ (m + 8) / 16 → (m + 8) / 16 ≤ 16383 → exec .measurementCompletion s = .next { s with
      time := { s.time with
        ratio := (m + 8) / 16, source := .locked, acc := if s.time.source = .locked then s.time.acc else 0 }
      due := due }) ∧
    ((m + 8) / 16 < 1024 ∨ 16383 < (m + 8) / 16 → s.time.source ≠ .locked →
      exec .measurementCompletion s = .next { s with due := due }) ∧
    ((m + 8) / 16 < 1024 ∨ 16383 < (m + 8) / 16 → s.time.source = .locked → ∃ l a,
      (l, a) = raiseInto s.time.tickCount .timeHoldover .device (BitVec.ofNat 32 ((m + 8) / 16)) s.log s.alarm ∧
      exec .measurementCompletion s = .next { s with
        time := { s.time with source := .holdover, acc := 0 }
        due := due
        tally := { s.tally with history := openHistory (fun q => { q with quality := .degraded }) s.tally.history }
        log := l
        alarm := a })

/-- REF_LOSS, fallen due (02 R34, R35, R38, R43): the measurement is abandoned; in LOCKED the state becomes HOLDOVER with the accumulator 0,
TIME_HOLDOVER raised with value 0 and the OPEN summary DEGRADED; in NOMINAL and HOLDOVER nothing else changes. -/
def Obligations.RefLossEntersHoldover : Prop :=
  ∀ s : State, s.due.refLoss = true →
    let due := { s.due with refLoss := false }
    (s.time.source ≠ .locked → exec .refLoss s = .next { s with time := { s.time with meter := .waiting }, due := due }) ∧
    (s.time.source = .locked → ∃ l a,
      (l, a) = raiseInto s.time.tickCount .timeHoldover .device 0 s.log s.alarm ∧
      exec .refLoss s = .next { s with
        time := { s.time with meter := .waiting, source := .holdover, acc := 0 }
        due := due
        tally := { s.tally with history := openHistory (fun q => { q with quality := .degraded }) s.tally.history }
        log := l
        alarm := a })

/-- A panel input sampled at a tick (08 R143), high for released: count 0 at the level of its debounced state, one more otherwise, up to
40,000. -/
def Sys2Proof.Machine.Sampled (level : Bool) (x y : InputState) : Prop :=
  y.pressed = x.pressed ∧ (level = !x.pressed → y.count = 0) ∧
    (level ≠ !x.pressed → x.count < 40000 → y.count = x.count + 1) ∧ (level ≠ !x.pressed → 40000 ≤ x.count → y.count = 40000)

/-- Whether the loader stops the read with the bytes it has (10 R165): after a first word that is no mark, a wrong version, a ring count above
16, a flow count above 256, or the check word. -/
def Sys2Proof.Machine.loaderStops (bytes : List Byte) : Prop :=
  let w := fun i => (bytes.getD (2 * i) 0xFF).toNat * 256 + (bytes.getD (2 * i + 1) 0xFF).toNat
  (2 ≤ bytes.length ∧ w 0 ≠ 0x444B) ∨ (4 ≤ bytes.length ∧ w 1 ≠ 1) ∨ (6 ≤ bytes.length ∧ 16 < w 2) ∨
    (8 ≤ bytes.length ∧ 256 < w 3) ∨ 2 * (4 + 19 + 4 * w 2 + 12 * w 3 + 1) ≤ bytes.length

/-- TICK, fallen due (02 R30, R39; 08 R143, R145; 09 R151, R155): the tick count up by 1 modulo 2^32, a millisecond strobe at every 10,000th
tick and a sweep pace at every 400th, the panel inputs sampled, SPENT made IDLE when both CLR inputs are released with counts 0, the limits
of the tally line and the phase of a reply one tick on, the character receiver moved on by the level of TL_RX (R149) with a character it
receives then waiting to be taken. In LOADING the read of the configuration memory (10 R165) runs until the loader stops it: 4 ticks to an
SPI clock, and after the 24 clocks of the command and the address one bit to a clock, taken from CFG_MISO at its last tick, eight to a
byte (log entries 23 and 35 for the bit order and the sampling tick). Rings, flows, history, log, alarms and the device do not change. -/
def Obligations.TickAdvancesCounters : Prop :=
  ∀ (pins : Pins) (s : State), s.due.tick = true →
    ∃ t ms mst sw swt, exec (.tick pins) s = .next t ∧
      t = { s with
        pins := pins
        time := { s.time with tickCount := s.time.tickCount + 1, msCounter := ms, sweepCounter := sw }
        due := { s.due with tick := false, msStrobe := s.due.msStrobe || mst, sweepPace := s.due.sweepPace || swt }
        load := t.load
        panel := t.panel
        line := t.line } ∧
      (s.time.msCounter < 9999 → ms = s.time.msCounter + 1 ∧ mst = false) ∧
      (s.time.msCounter = 9999 → ms = 0 ∧ mst = true) ∧
      (s.time.sweepCounter < 399 → sw = s.time.sweepCounter + 1 ∧ swt = false) ∧
      (s.time.sweepCounter = 399 → sw = 0 ∧ swt = true) ∧
      Sampled pins.clrA s.panel.clrA t.panel.clrA ∧ Sampled pins.clrB s.panel.clrB t.panel.clrB ∧
      Sampled pins.ack s.panel.ack t.panel.ack ∧
      t.panel.chord = (if s.panel.chord = .spent ∧ t.panel.clrA = ⟨false, 0⟩ ∧ t.panel.clrB = ⟨false, 0⟩ then .idle
        else s.panel.chord) ∧
      t.line.rx = s.line.rx ∧ t.line.lineErrors = s.line.lineErrors ∧ t.line.rxLast = pins.tlRx ∧
      t.line.gapTicks = min (4 * charTime s.straps) (s.line.gapTicks + 1) ∧
      (s.line.reply = none → t.line.reply = none) ∧
      (∀ r, s.line.reply = some r → ∃ n, t.line.reply = some { r with ticks := n } ∧
        (r.sending = false → n = min (2 * charTime s.straps) (r.ticks + 1)) ∧
        (r.sending = true → n = min (r.stopAfter * charTime s.straps) (r.ticks + 1))) ∧
      (∃ c, receiverTick s.straps s.line.rxLast pins.tlRx s.line.receiver = (t.line.receiver, c) ∧
        t.line.received = c.or s.line.received) ∧
      (s.cfgSelected = true ↔ s.device = .loading ∧ ¬ loaderStops s.load.bytes) ∧ (s.cfgSelected = false → t.load = s.load) ∧
      (s.cfgSelected = true →
        let n := s.load.ticks + 1
        t.load.ticks = n ∧
        (n % 4 ≠ 0 ∨ n < 100 → t.load.bits = s.load.bits ∧ t.load.bytes = s.load.bytes) ∧
        (n % 4 = 0 → 100 ≤ n → s.load.bits.length < 7 →
          t.load.bits = s.load.bits ++ [pins.cfgMiso] ∧ t.load.bytes = s.load.bytes) ∧
        (n % 4 = 0 → 100 ≤ n → s.load.bits.length = 7 → t.load.bits = [] ∧ ∃ b : Byte, t.load.bytes = s.load.bytes ++ [b] ∧
          ∀ k : Nat, k < 8 → b.getLsbD (7 - k) = (s.load.bits ++ [pins.cfgMiso]).getD k false))

/-- MILLISECOND_STROBE, fallen due (02 R39, R40; 06 R107): a seconds strobe at every 1000th, a silence tick at every one that completes the
count of the silence tick code, and in MONITORING one more on the tally timer, up to the period length: 100, 1000, 10,000, 60,000, 600,000 or
3,600,000 strobes for the codes 0 to 5. -/
def Obligations.MillisecondStrobeCounts : Prop :=
  ∀ s : State, s.due.msStrobe = true →
    ∃ sec sect sil silt timer, exec .millisecondStrobe s = .next { s with
        time := { s.time with secondsCounter := sec, silenceCounter := sil }
        due := { s.due with
          msStrobe := false, secondsStrobe := s.due.secondsStrobe || sect, silenceTick := s.due.silenceTick || silt }
        tally := { s.tally with timer := timer } } ∧
      (s.time.secondsCounter < 999 → sec = s.time.secondsCounter + 1 ∧ sect = false) ∧
      (s.time.secondsCounter = 999 → sec = 0 ∧ sect = true) ∧
      (∀ n : Nat, (s.time.silenceCode = 0 → n = 10) → (s.time.silenceCode = 1 → n = 100) → (s.time.silenceCode = 2 → n = 1000) →
        (s.time.silenceCode = 3 → n = 10000) →
        (s.time.silenceCounter + 1 < n → sil = s.time.silenceCounter + 1 ∧ silt = false) ∧
        (s.time.silenceCounter + 1 = n → sil = 0 ∧ silt = true)) ∧
      (s.device = .monitoring → timer = min (periodLength s.tally.code) (s.tally.timer + 1)) ∧
      (s.device ≠ .monitoring → timer = s.tally.timer) ∧
      (List.range 6).map periodLength = [100, 1000, 10000, 60000, 600000, 3600000]

/-- SECONDS_STROBE, fallen due (02 R39; 08 R145): the first in TIMING makes the strobe count 1; the second authorises the chord, which clears
the tallies in MONITORING and becomes SPENT; outside TIMING nothing else changes. -/
def Obligations.SecondsStrobePacesChord : Prop :=
  ∀ s : State, s.due.secondsStrobe = true →
    let due := { s.due with secondsStrobe := false }
    (s.panel.chord = .timing 0 → exec .secondsStrobe s = .next { s with
      due := due, panel := { s.panel with chord := .timing 1 } }) ∧
    (s.panel.chord = .timing 1 → s.device = .monitoring → exec .secondsStrobe s =
      .next (clearTallies { s with due := due, panel := { s.panel with chord := .spent } })) ∧
    ((∀ n, s.panel.chord ≠ .timing n) → exec .secondsStrobe s = .next { s with due := due })

/-! ## Sweep, silence and tally periods -/

/-- SWEEP_PACE, fallen due (06 R104, R105, R116; 04 R66, R68, R77 to R79): outside MONITORING no visit; in MONITORING the entry at the next
index is visited and the index goes up by 1 modulo 256. A lagging flow is rolled first. A flow with a current tag gets its cycle work: in
LEARNING a context whose last arrival is older than 16,777,215 ticks is cleared; in TRACKING the j cycles whose windows have closed are
accounted, with FLOW_SILENT when the misses reach the silence count S; in SILENT the anchor moves on by j periods; in WAITING and ACYCLIC
nothing. A CLOSING summary whose pass marker is the index becomes FINAL. -/
def Obligations.SweepPaceVisitsEntry : Prop :=
  ∀ s : State, s.due.sweepPace = true →
    let due := { s.due with sweepPace := false }
    let passed := s.tally.history.map (fun q => if q.phase = .closing s.sweepNext then { q with phase := .final } else q)
    let now := s.time.tickCount
    let silence := s.values.silenceCount
    (s.device ≠ .monitoring → exec .sweepPace s = .next { s with due := due }) ∧
    (s.device = .monitoring → s.flowAt s.sweepNext = none → exec .sweepPace s = .next { s with
      due := due, sweepNext := s.sweepNext + 1, tally := { s.tally with history := passed } }) ∧
    (∀ f, s.device = .monitoring → s.flowAt s.sweepNext = some f → f.tag = s.tally.periodNumber →
      ∃ g incidents, exec .sweepPace s = .next { s with
          due := due
          sweepNext := s.sweepNext + 1
          flows := s.flows.set s.sweepNext ⟨(s.entry s.sweepNext).gen, some g⟩
          tally := { s.tally with history := passed }
          log := (raiseAll (flowRaisings s.sweepNext incidents) s).log
          alarm := (raiseAll (flowRaisings s.sweepNext incidents) s).alarm } ∧
        ((∃ p, f.cycle = .waiting p) ∨ f.cycle = .acyclic → g = f ∧ incidents = []) ∧
        (∀ ctx, f.cycle = .learning ctx → incidents = [] ∧
          (ctx.lastTime = none → g = f) ∧
          (∀ t, ctx.lastTime = some t → (now - t).toNat ≤ 16777215 → g = f) ∧
          (∀ t, ctx.lastTime = some t → 16777215 < (now - t).toNat →
            g = { f with cycle := .learning ⟨none, ctx.lastSeq, [], 0, ctx.attempt⟩ })) ∧
        (∀ p pend e (j : Int), f.cycle = .tracking p pend e → j = ((now - e).toInt + ((p / 2 : Nat) : Int)) / (p : Int) →
          let n := min j.toNat (silence - f.misses)
          let moved := e + BitVec.ofNat 32 (j.toNat * p)
          (j ≤ 0 → g = f ∧ incidents = []) ∧
          (1 ≤ j → g = { f with
              running := { f.running with missed := satAdd max32 f.running.missed n }
              period := { f.period with missed := satAdd max16 f.period.missed n }
              misses := f.misses + n
              cycle := if f.misses + n = silence then .silent p pend moved else .tracking p pend moved } ∧
            incidents = if f.misses + n = silence then [(.flowSilent, p)] else [])) ∧
        (∀ p pend e (j : Int), f.cycle = .silent p pend e → j = ((now - e).toInt + ((p / 2 : Nat) : Int)) / (p : Int) →
          incidents = [] ∧ (j ≤ 0 → g = f) ∧
          (1 ≤ j → g = { f with cycle := .silent p pend (e + BitVec.ofNat 32 (j.toNat * p)) }))) ∧
    (∀ f, s.device = .monitoring → s.flowAt s.sweepNext = some f → f.tag ≠ s.tally.periodNumber →
      exec .sweepPace s = exec .sweepPace (rollFlow s.sweepNext f s))

/-- SILENCE_TICK, fallen due (01 R24): in MONITORING each enabled ring's counter below 3 goes up by 1; at 3 it stays, an ACTIVE ring becomes
SILENT, and RING_SILENT is raised with the held count, from ring 0 to ring 15 (the model's order, log entry 31); disabled rings, and every
ring outside MONITORING, stay as they are. -/
def Obligations.SilenceTickStepsRings : Prop :=
  ∀ s : State, s.due.silenceTick = true →
    let due := { s.due with silenceTick := false }
    let fallen := ringOrder.filter (fun r =>
      (s.ring r).enabled && decide (3 ≤ (s.ring r).silenceCounter) && decide ((s.ring r).silence = .active))
    let raisings := fallen.map (fun r => (IncidentKind.ringSilent, Subject.ring r, BitVec.ofNat 32 (s.ring r).held))
    (s.device ≠ .monitoring → exec .silenceTick s = .next { s with due := due }) ∧
    (s.device = .monitoring → ∃ rings, exec .silenceTick s = .next { s with
        due := due, rings := rings, log := (raiseAll raisings s).log, alarm := (raiseAll raisings s).alarm } ∧
      ∀ r : RingIx, rings[r] =
        if (s.ring r).enabled then
          if (s.ring r).silenceCounter < 3 then { s.ring r with silenceCounter := (s.ring r).silenceCounter + 1 }
          else { s.ring r with silence := .silent }
        else s.ring r)

/-- A summary just created (06 R112): the current tick count, code and time quality, no totals, peak held the total held. -/
def Sys2Proof.Machine.State.fresh (s : State) (number : BitVec 16) (code : Nat) : Summary :=
  ⟨number, s.time.tickCount, none, code, .opened, if s.time.source = .locked then .locked else .degraded, Tallies.zero, 0, 0, 0, none,
    s.totalHeld⟩

/-- BOUNDARY, fallen due (06 R106 to R110, R112): the OPEN summary becomes CLOSING with the end time and the pass marker before the sweep's
next index, the period number goes up by 1, a pending code comes into force, the oldest FINAL summary makes room when 16 are held, a new
OPEN summary is created, the timer becomes 0; no flow, ring, log or alarm is touched. -/
def Obligations.BoundaryOpensPeriod : Prop :=
  ∀ s : State, s.device = .monitoring → periodLength s.tally.code ≤ s.tally.timer →
    ∃ kept, exec .boundary s = .next { s with tally :=
        { periodNumber := s.tally.periodNumber + 1
          timer := 0
          code := s.tally.pendingCode.getD s.tally.code
          pendingCode := none
          history := kept ++ [s.fresh (s.tally.periodNumber + 1) (s.tally.pendingCode.getD s.tally.code)] } } ∧
      (s.tally.history.length < 16 → kept = openHistory (fun q => { q with
        endTime := some s.time.tickCount, phase := .closing (s.sweepNext - 1) }) s.tally.history) ∧
      (∀ old q rest, 16 ≤ s.tally.history.length → s.tally.history = old ++ q :: rest → q.phase = .final →
        (∀ p ∈ old, p.phase ≠ .final) →
        kept = openHistory (fun q => { q with
          endTime := some s.time.tickCount, phase := .closing (s.sweepNext - 1) }) (old ++ rest))

/-- DEBOUNCED_STATE_CHANGE at a change count of 40,000 (08 R138, R143 to R145, R147): the debounced state turns over and the count becomes 0.
A press of ACK ends every pending class in ACK mode; its release does nothing else. The change that makes both CLR inputs pressed begins
an enabled IDLE chord, TIMING in MONITORING and SPENT outside it; a release in TIMING abandons the chord. Every other change of a CLR input
has no effect on the chord: the first of the two pressed, any change with the chord disabled, any change in IDLE that begins none, a press in
SPENT, and a release in SPENT that leaves the other input pressed or its count above 0. A release in SPENT that leaves both released with
their counts at 0 makes the chord IDLE at once (log entry 24). -/
def Obligations.DebouncedChangeActs : Prop :=
  (∀ s : State, s.panel.ack = ⟨false, 40000⟩ →
    ∃ pend, exec (.debouncedStateChange .ack) s = .next { s with
        panel := { s.panel with ack := ⟨true, 0⟩ }
        alarm := ⟨s.alarm.settings, pend, stackCode s.alarm.settings pend, stackCode s.alarm.settings pend != 0⟩ } ∧
      ∀ c : AlarmClass, c ≠ 0 → pend.has c = (s.alarm.pendingSet.has c && !s.alarm.settings.modes.has c)) ∧
  (∀ s : State, s.panel.ack = ⟨true, 40000⟩ →
    exec (.debouncedStateChange .ack) s = .next { s with panel := { s.panel with ack := ⟨false, 0⟩ } }) ∧
  (∀ s : State, s.panel.clrB = ⟨false, 40000⟩ → s.panel.clrA.pressed = true → s.straps.chord = true → s.panel.chord = .idle →
    exec (.debouncedStateChange .clrB) s = .next { s with panel := { s.panel with
      clrB := ⟨true, 0⟩, chord := if s.device = .monitoring then .timing 0 else .spent } }) ∧
  (∀ s : State, s.panel.clrA = ⟨false, 40000⟩ → s.panel.clrB.pressed = true → s.straps.chord = true → s.panel.chord = .idle →
    exec (.debouncedStateChange .clrA) s = .next { s with panel := { s.panel with
      clrA := ⟨true, 0⟩, chord := if s.device = .monitoring then .timing 0 else .spent } }) ∧
  (∀ (s : State) (n : Nat), s.panel.clrA = ⟨true, 40000⟩ → s.panel.chord = .timing n → s.panel.clrB.pressed = true →
    exec (.debouncedStateChange .clrA) s = .next { s with panel := { s.panel with clrA := ⟨false, 0⟩, chord := .spent } }) ∧
  (∀ (s : State) (n : Nat), s.panel.clrB = ⟨true, 40000⟩ → s.panel.chord = .timing n → s.panel.clrA.pressed = true →
    exec (.debouncedStateChange .clrB) s = .next { s with panel := { s.panel with clrB := ⟨false, 0⟩, chord := .spent } }) ∧
  (∀ s : State, s.panel.clrA = ⟨false, 40000⟩ →
    s.panel.chord = .spent ∨ s.panel.chord = .idle ∧ (s.panel.clrB.pressed = false ∨ s.straps.chord = false) →
    exec (.debouncedStateChange .clrA) s = .next { s with panel := { s.panel with clrA := ⟨true, 0⟩ } }) ∧
  (∀ s : State, s.panel.clrB = ⟨false, 40000⟩ →
    s.panel.chord = .spent ∨ s.panel.chord = .idle ∧ (s.panel.clrA.pressed = false ∨ s.straps.chord = false) →
    exec (.debouncedStateChange .clrB) s = .next { s with panel := { s.panel with clrB := ⟨true, 0⟩ } }) ∧
  (∀ s : State, s.panel.clrA = ⟨true, 40000⟩ → s.panel.chord = .idle →
    exec (.debouncedStateChange .clrA) s = .next { s with panel := { s.panel with clrA := ⟨false, 0⟩ } }) ∧
  (∀ s : State, s.panel.clrB = ⟨true, 40000⟩ → s.panel.chord = .idle →
    exec (.debouncedStateChange .clrB) s = .next { s with panel := { s.panel with clrB := ⟨false, 0⟩ } }) ∧
  (∀ s : State, s.panel.clrA = ⟨true, 40000⟩ → s.panel.chord = .spent →
    exec (.debouncedStateChange .clrA) s = .next { s with panel := { s.panel with
      clrA := ⟨false, 0⟩, chord := if s.panel.clrB = ⟨false, 0⟩ then .idle else .spent } }) ∧
  (∀ s : State, s.panel.clrB = ⟨true, 40000⟩ → s.panel.chord = .spent →
    exec (.debouncedStateChange .clrB) s = .next { s with panel := { s.panel with
      clrB := ⟨false, 0⟩, chord := if s.panel.clrA = ⟨false, 0⟩ then .idle else .spent } })

/-! ## Flows -/

/-- A sweep visit before an arrival changes nothing of the outcome (04 R80): for a TRACKING flow with its misses below the silence count, a
visit at any time no later than the arrival, both read against the anchor, leaves after the arrival the same flow record and raises the
same incidents. -/
def Obligations.VisitBeforeArrivalAgrees : Prop :=
  ∀ (silenceCount : Nat) (f : FlowRecord) (period : Nat) (pend : Option Nat) (anchor now t : Tick) (q : BitVec 16),
    f.cycle = .tracking period pend anchor → 100 ≤ period → period ≤ 16777215 → f.misses < silenceCount →
    (now - anchor).toInt ≤ (t - anchor).toInt →
    (flowArrival silenceCount t q (visitFlow silenceCount now f).1).1 = (flowArrival silenceCount t q f).1 ∧
    (visitFlow silenceCount now f).2 ++ (flowArrival silenceCount t q (visitFlow silenceCount now f).1).2 =
      (flowArrival silenceCount t q f).2

/-- An arrival in TRACKING (04 R61, R67 to R73, R75): with h = floor(P / 2), d the signed distance from the anchor and
k = floor((d + h) / P), it is surplus for k < 0; for k ≥ 0 with c + k below the silence count the k cycles are counted missed and it is
classified in the cycle k periods on, with the phase error inside that cycle's window, EARLY, LATE or ON-TIME by the effective tolerances,
the worst values following and the anchor moved on by the pending period when present; with c + k at or above it the flow falls silent,
FLOW_SILENT is raised once and the arrival relocks it. -/
def Obligations.ArrivalInTracking : Prop :=
  ∀ (silenceCount : Nat) (f : FlowRecord) (period : Nat) (pend : Option Nat) (anchor t : Tick) (q : BitVec 16) (k : Int),
    f.cycle = .tracking period pend anchor → 100 ≤ period → period ≤ 16777215 → f.misses < silenceCount →
    k = ((t - anchor).toInt + ((period / 2 : Nat) : Int)) / (period : Int) →
    let out := flowArrival silenceCount t q f
    let counted := { f with
      running := { f.running with arrivals := bump32 f.running.arrivals }
      period := { f.period with arrivals := bump16 f.period.arrivals } }
    let next := pend.getD period
    (k < 0 → out = ({ counted with
      running := { counted.running with surplus := bump32 f.running.surplus }
      period := { counted.period with surplus := bump16 f.period.surplus } }, [])) ∧
    (0 ≤ k → f.misses + k.toNat < silenceCount →
      ∃ e : Int, e = (t - anchor).toInt - k * (period : Int) ∧ -((period / 2 : Nat) : Int) ≤ e ∧
        e ≤ ((period - period / 2 - 1 : Nat) : Int) ∧
        let early := e < -((min f.params.early (period / 2) : Nat) : Int)
        let late := ((min f.params.late (period - period / 2 - 1) : Nat) : Int) < e
        out = ({ counted with
          running := { counted.running with
            missed := if k = 0 then f.running.missed else satAdd max32 f.running.missed k.toNat
            early := if early then bump32 f.running.early else f.running.early
            lateArrivals := if late then bump32 f.running.lateArrivals else f.running.lateArrivals
            onTime := if ¬ early ∧ ¬ late then bump32 f.running.onTime else f.running.onTime }
          period := { counted.period with
            missed := if k = 0 then f.period.missed else satAdd max16 f.period.missed k.toNat
            early := if early then bump16 f.period.early else f.period.early
            lateArrivals := if late then bump16 f.period.lateArrivals else f.period.lateArrivals }
          worstEarly := if e < 0 then some (min e (f.worstEarly.getD e)) else f.worstEarly
          worstLate := if 0 < e then some (max e (f.worstLate.getD e)) else f.worstLate
          misses := 0
          cycle := .tracking next none (anchor + BitVec.ofNat 32 (k.toNat * period) + BitVec.ofNat 32 next) }, [])) ∧
    (0 ≤ k → silenceCount ≤ f.misses + k.toNat → out = ({ counted with
      running := { counted.running with
        missed := satAdd max32 f.running.missed (silenceCount - f.misses)
        relocks := bump32 f.running.relocks }
      period := { counted.period with missed := satAdd max16 f.period.missed (silenceCount - f.misses) }
      misses := 0
      cycle := .tracking next none (t + BitVec.ofNat 32 next) }, [(.flowSilent, period)]))

/-- Arrivals outside TRACKING (04 R61 to R65, R74 to R76), the whole record and the incidents; each counts in the arrivals tallies, and only
what is named here changes besides. A fresh context begins; a redundant copy is refused; an interval is appended; a fourth interval
completes the attempt, which succeeds or fails by its average A and floor(A / 8), the third failure making the flow ACYCLIC with
FLOW_ACYCLIC; WAITING and SILENT take the arrival as the new phase; ACYCLIC does nothing. Consecutive misses become 0 on the way into
TRACKING alone, and relocks go up in SILENT alone. -/
def Obligations.ArrivalOutsideTracking : Prop :=
  ∀ (silenceCount : Nat) (f : FlowRecord) (t : Tick) (q : BitVec 16),
    let out := flowArrival silenceCount t q f
    let counted := { f with
      running := { f.running with arrivals := bump32 f.running.arrivals }
      period := { f.period with arrivals := bump16 f.period.arrivals } }
    (∀ ctx, f.cycle = .learning ctx → ctx.lastTime = none →
      out = ({ counted with cycle := .learning ⟨some t, q, [], 0, ctx.attempt⟩ }, [])) ∧
    (∀ ctx t0, f.cycle = .learning ctx → ctx.lastTime = some t0 → q = ctx.lastSeq → out = (counted, [])) ∧
    (∀ ctx t0, f.cycle = .learning ctx → ctx.lastTime = some t0 → q ≠ ctx.lastSeq → ctx.intervals.length < 3 →
      out = ({ counted with
        cycle := .learning ⟨some t, q, ctx.intervals ++ [(t - t0).toNat], ctx.sum + (t - t0).toNat, ctx.attempt⟩ }, [])) ∧
    (∀ ctx t0 a, f.cycle = .learning ctx → ctx.lastTime = some t0 → q ≠ ctx.lastSeq → 3 ≤ ctx.intervals.length →
      a = (ctx.sum + (t - t0).toNat + 2) / 4 →
      let good := 100 ≤ a ∧ a ≤ 16777215 ∧ ∀ i ∈ ctx.intervals ++ [(t - t0).toNat], i ≤ a + a / 8 ∧ a ≤ i + a / 8
      (good → out = ({ counted with cycle := .tracking a none (t + BitVec.ofNat 32 a), misses := 0 }, [])) ∧
      (¬ good → ctx.attempt < 3 → out = ({ counted with cycle := .learning ⟨some t, q, [], 0, ctx.attempt + 1⟩ }, [])) ∧
      (¬ good → 3 ≤ ctx.attempt → out = ({ counted with cycle := .acyclic }, [(.flowAcyclic, a)]))) ∧
    (∀ p, f.cycle = .waiting p →
      out = ({ counted with cycle := .tracking p none (t + BitVec.ofNat 32 p), misses := 0 }, [])) ∧
    (∀ p pend e, f.cycle = .silent p pend e → out = ({ counted with
      cycle := .tracking (pend.getD p) none (t + BitVec.ofNat 32 (pend.getD p))
      misses := 0
      running := { counted.running with relocks := bump32 f.running.relocks } }, [])) ∧
    (f.cycle = .acyclic → out = (counted, []))

/-- A credited departure of a flow (05 R85 steps 5 to 7, R89, R90, R93 to R99). First departures go up by 1, late departures go up by 1 exactly
when the budget is not 0 and the residence is greater, and both worst residences become the greater of what they hold and the residence.
Then the sequence is judged against the order window, with the resync distance R from 64 to 32767 and δ the signed distance from the
top: sync, resync, advance, duplicate, reordered or straggler. In an advance the lost count is the not-departed positions that leave the
window and those that never enter it, and each position of the new window keeps its mark, is the old top, or is new and not departed.
Nothing but the window and one tally pair changes there. -/
def Obligations.CreditedDepartureIsJudged : Prop :=
  (∀ (resync : Nat) (q : BitVec 16) (r : Nat) (f : FlowRecord), flowDeparture resync q r f = judgeSequence resync q (countDeparture r f)) ∧
  (∀ (r : Nat) (f : FlowRecord), countDeparture r f = { f with
    running := { f.running with
      departures := bump32 f.running.departures
      lateDepartures := if f.params.budget ≠ 0 ∧ f.params.budget < r then bump32 f.running.lateDepartures
        else f.running.lateDepartures }
    period := { f.period with
      departures := bump16 f.period.departures
      lateDepartures := if f.params.budget ≠ 0 ∧ f.params.budget < r then bump16 f.period.lateDepartures
        else f.period.lateDepartures }
    worstResidence := some (max r (f.worstResidence.getD r))
    periodWorst := some (max r (f.periodWorst.getD r)) }) ∧
  (∀ (resync : Nat) (q : BitVec 16) (f : FlowRecord), 64 ≤ resync → resync ≤ 32767 →
    let d := (q - f.window.top).toInt
    let g := judgeSequence resync q f
    let duplicate := { f with
      running := { f.running with duplicates := bump32 f.running.duplicates }
      period := { f.period with duplicates := bump16 f.period.duplicates } }
    (f.window.synced = false → g = { f with window := ⟨true, q, BitVec.allOnes 32⟩ }) ∧
    (f.window.synced = true →
      ((resync : Int) ≤ d ∨ d ≤ -(resync : Int) → g = { f with
        window := ⟨true, q, BitVec.allOnes 32⟩
        running := { f.running with resyncs := bump32 f.running.resyncs } }) ∧
      (1 ≤ d → d < (resync : Int) → ∃ set lost, g = { f with
          window := ⟨true, q, set⟩
          running := { f.running with lost := satAdd max32 f.running.lost lost }
          period := { f.period with lost := satAdd max16 f.period.lost lost } } ∧
        lost = (List.range 32).countP (fun i : Nat => decide ((i : Int) < d) && !f.window.departed.getLsbD i) + (d.toNat - 33) ∧
        ∀ i : Nat, i < 32 → set.getLsbD i =
          if (i : Int) + d < 32 then f.window.departed.getLsbD (i + d.toNat) else decide ((i : Int) + d = 32)) ∧
      (d = 0 → g = duplicate) ∧
      (-32 ≤ d → d ≤ -1 → f.window.departed.getLsbD (32 + d).toNat = true → g = duplicate) ∧
      (-32 ≤ d → d ≤ -1 → f.window.departed.getLsbD (32 + d).toNat = false → ∃ set, g = { f with
          window := ⟨true, f.window.top, set⟩
          running := { f.running with reordered := bump32 f.running.reordered }
          period := { f.period with reordered := bump16 f.period.reordered } } ∧
        ∀ i : Nat, i < 32 → set.getLsbD i = (f.window.departed.getLsbD i || decide (i = (32 + d).toNat))) ∧
      (-(resync : Int) < d → d < -32 → g = { f with
        running := { f.running with stragglers := bump32 f.running.stragglers }
        period := { f.period with stragglers := bump16 f.period.stragglers } })))

/-- The roll of a lagging flow (06 R113 to R115; 03 R52, R59). The CLOSING summary gets the twelve period tallies, the worst residence with the
flow's index when greater, and one more flow over limit when any limit is crossed; the incidents of the crossed limits are raised in order.
A LEARNED flow whose 16th idle period this is is retired: FLOW_RETIRED with its key, the entry VACANT under the next generation. Any other
flow starts its period tallies again under the current tag. No other entry changes, and no ring. -/
def Obligations.RollFoldsFlow : Prop :=
  ∀ (i : FlowIx) (f : FlowRecord) (s : State), s.flowAt i = some f → f.tag ≠ s.tally.periodNumber →
    let p := f.period
    let idle := if p.arrivals = 0 then min 16 (f.idle + 1) else 0
    let crossings := [(IncidentKind.flowMiss, f.params.missLimit, p.missed),
      (.flowLate, f.params.lateLimit, p.lateArrivals + p.lateDepartures),
      (.flowLoss, f.params.lossLimit, p.lost + p.switchDrops),
      (.flowDisorder, f.params.disorderLimit, p.reordered + p.stragglers + p.duplicates)].filter
        (fun c => decide (c.2.1 ≠ 0) && decide (c.2.1 ≤ c.2.2))
    let raisings := crossings.map (fun c => (c.1, Subject.flow i, BitVec.ofNat 32 c.2.2))
    let add := fun a b : Nat => min 4294967295 (a + b)
    let fold := fun q : Summary => { q with
      totals :=
        { arrivals := add q.totals.arrivals p.arrivals
          departures := add q.totals.departures p.departures
          missed := add q.totals.missed p.missed
          early := add q.totals.early p.early
          lateArrivals := add q.totals.lateArrivals p.lateArrivals
          surplus := add q.totals.surplus p.surplus
          lateDepartures := add q.totals.lateDepartures p.lateDepartures
          reordered := add q.totals.reordered p.reordered
          stragglers := add q.totals.stragglers p.stragglers
          duplicates := add q.totals.duplicates p.duplicates
          lost := add q.totals.lost p.lost
          switchDrops := add q.totals.switchDrops p.switchDrops }
      worst := match f.periodWorst, q.worst with
        | none, w => w
        | some x, none => some (x, i)
        | some x, some (y, j) => if y < x then some (x, i) else some (y, j)
      flowsOver := if crossings = [] then q.flowsOver else bump32 q.flowsOver }
    let history := s.tally.history.map (fun q => match q.phase with
      | .closing _ => fold q
      | _ => q)
    (f.origin = .learned → idle = 16 → rollIfLagging i s = { s with
      flows := s.flows.set i ⟨(s.entry i).gen + 1, none⟩
      tally := { s.tally with history := history }
      log := (raiseAll (raisings ++ [(.flowRetired, .flow i, f.key.setWidth 32)]) s).log
      alarm := (raiseAll (raisings ++ [(.flowRetired, .flow i, f.key.setWidth 32)]) s).alarm }) ∧
    (f.origin = .static ∨ idle ≠ 16 → rollIfLagging i s = { s with
      flows := s.flows.set i ⟨(s.entry i).gen,
        some { f with period := Tallies.zero, periodWorst := none, tag := s.tally.periodNumber, idle := idle }⟩
      tally := { s.tally with history := history }
      log := (raiseAll raisings s).log
      alarm := (raiseAll raisings s).alarm })

/-- A lagging flow is rolled before the event that touches it (01 R7, R13 to R17; 03 R49, R53, R57; 05 R85; 06 R113): a lookup that matches
it, a notice credited to it, and a REMOVE FLOW answer as they answer in the state after the roll. So does a whole BUS_TRANSFER: a forward
write whose key pair it holds, into an EMPTY slot or over a record whose own flow does not lag, and an overwrite, a withdrawal or a
departure of a record credited to it. A parity-faulted write over such a record raises RING_PARITY before the roll (the model's reading
of R7, log entry 38), and does in the state after both what it does with no flow lagging. A REMOVE FLOW whose roll retires the flow ends
there, answered OK. -/
def Obligations.LaggingFlowIsRolledFirst : Prop :=
  ∀ (i : FlowIx) (f : FlowRecord) (s : State), s.flowAt i = some f → f.tag ≠ s.tally.periodNumber →
    (s.findKey f.ring f.key = some i → ∀ g, (rollFlow i f s).flowAt i = some g →
      lookup f.ring f.key s = (rollFlow i f s, some ⟨i, (s.entry i).gen⟩)) ∧
    (s.findKey f.ring f.key = some i → (rollFlow i f s).flowAt i = none →
      lookup f.ring f.key s = enrolOrRefuse f.ring f.key (rollFlow i f s)) ∧
    (∀ (r : RingIx) (p : PendingRecord), s.credited p = some (i, f) →
      dropNotice r p s = dropNotice r p (rollFlow i f s)) ∧
    (∀ (r : RingIx) (p : PendingRecord) (t : Tick), s.credited p = some (i, f) →
      departureNotice r p t s = departureNotice r p t (rollFlow i f s)) ∧
    ((rollFlow i f s).flowAt i = none → removeFlow i s = (rollFlow i f s, .ok)) ∧
    (∀ g, (rollFlow i f s).flowAt i = some g → removeFlow i s = ((rollFlow i f s).vacate i, .ok)) ∧
    (∀ (addr : BitVec 22) (slen : BitVec 2) (data : List BusWord) (r : RingIx) (n : Nat), DirectoryOk s →
      recognise addr slen s = .descriptor r n → burstOk data = true → isVoid s.values data = false →
      s.findKey r (maskedKeyOf s.values data) = some i →
      (∀ p, slotGet (s.ring r).slots n = some p →
        CreditedCurrent s p ∧ ¬ (maskedKeyOf s.values data = p.key ∧ sequenceOf s.values data = p.seq)) →
      exec (.busTransfer true addr slen data) s = exec (.busTransfer true addr slen data) (rollFlow i f s)) ∧
    (∀ (write : Bool) (addr : BitVec 22) (slen : BitVec 2) (data : List BusWord) (r : RingIx) (n : Nat) (p : PendingRecord),
      recognise addr slen s = .descriptor r n → slotGet (s.ring r).slots n = some p → s.credited p = some (i, f) →
      (write = true → burstOk data = true ∧
        (isVoid s.values data = true ∨ ¬ (maskedKeyOf s.values data = p.key ∧ sequenceOf s.values data = p.seq))) →
      exec (.busTransfer write addr slen data) s = exec (.busTransfer write addr slen data) (rollFlow i f s)) ∧
    (∀ (addr : BitVec 22) (slen : BitVec 2) (data : List BusWord) (r : RingIx) (n : Nat) (p : PendingRecord),
      recognise addr slen s = .descriptor r n → burstOk data = false → slotGet (s.ring r).slots n = some p →
      s.credited p = some (i, f) →
      let v := rollFlow i f (raise .ringParity (.ring r) (BitVec.ofNat 32 n) s)
      let u := v.overwrote r n p
      exec (.busTransfer true addr slen data) s = .next { u with
        rings := u.rings.set r { (u.ring r).refilled n
            ⟨none, maskedKeyOf s.values data, sequenceOf s.values data, s.time.tickCount⟩ with
          untrackedArrivals := bump32 (s.ring r).untrackedArrivals
          parityFaults := bump32 (s.ring r).parityFaults }
        tally := { u.tally with
          history := openHistory (fun q => { q with untrackedArrivals := bump32 q.untrackedArrivals }) u.tally.history }
        path := s.sending ⟨true, addr, slen, substituted (s.ring r) s.values.profile s.time.tickCount data⟩ }) ∧
    (∀ (addr index : Byte), Direct addr s → s.device ≠ .loading → index.toFin = i →
      ((rollFlow i f s).flowAt i = none → exec (.removeFlow addr index) s = .next ((rollFlow i f s).replied .ok [])) ∧
      (∀ g, (rollFlow i f s).flowAt i = some g →
        exec (.removeFlow addr index) s = exec (.removeFlow addr index) (rollFlow i f s)))

/-! ## The tally line -/

/-- The line with one more reception: the gap and quiet limits begin again, and the receiver's character is taken when it is this one
(log entry 14). -/
def Sys2Proof.Machine.TallyLine.heard (l : TallyLine) (c : RxChar) : TallyLine :=
  { l with gapTicks := 0, received := if l.received = some c then none else l.received }

/-- The receive state an address character gives (09 R150). -/
def Sys2Proof.Machine.State.addressedBy (s : State) (d : Byte) : RxState :=
  if d = 0 then .collecting false [] else if d.toNat = s.straps.addr.toNat then .collecting true [] else .waiting

/-- A character received with an error: a collection is discarded and counted as a line error, anything else stays (09 R150 to R152). -/
def Sys2Proof.Machine.TallyLine.spoiled (l : TallyLine) : TallyLine :=
  match l.rx with
  | .collecting _ _ => { l with rx := .waiting, lineErrors := bump16 l.lineErrors }
  | _ => l

/-- ADDRESS_CHARACTER (09 R150, R151, R156): without error it begins a collection for an own address, direct or broadcast, and ends any
reception for another, with no line error; it stops a reply being sent after the character in progress and drops one in its delay. With an
error it discards a collection with a line error, is not taken as an address, and abandons no reply. That the command takes an equal
character out of the receiver, and begins the limits again (heard), is the model's choice (log entry 14), and so is which character is in
progress at the tick between two (log entry 33). -/
def Obligations.AddressCharacterBeginsCollection : Prop :=
  (∀ (d : Byte) (s : State), s.line.reply = none →
    exec (.addressCharacter d false) s =
      .next { s with line := { s.line.heard ⟨d, true, false⟩ with rx := s.addressedBy d } }) ∧
  (∀ (d : Byte) (s : State) (r : Reply), s.line.reply = some r → r.sending = true →
    exec (.addressCharacter d false) s = .next { s with line := { s.line.heard ⟨d, true, false⟩ with
      rx := s.addressedBy d
      reply := some { r with stopAfter := min r.stopAfter (r.ticks / charTime s.straps + 1) } } }) ∧
  (∀ (d : Byte) (s : State) (r : Reply), s.line.reply = some r → r.sending = false → r.restart = false →
    exec (.addressCharacter d false) s = .next { s with line := { s.line.heard ⟨d, true, false⟩ with
      rx := s.addressedBy d
      reply := none } }) ∧
  (∀ (d : Byte) (s : State), exec (.addressCharacter d true) s =
    .next { s with line := (s.line.heard ⟨d, true, true⟩).spoiled })

/-- The status of a complete request of n payload bytes by checks 1 and 2 of 09 R153. -/
def Sys2Proof.Machine.lengthFault (command : Byte) (n : Nat) : Status :=
  if command.toNat = 0 ∨ 17 < command.toNat then .unknown
  else if (#[0, 2, 3, 35, 1, 5, 2, 7, 1, 3, 1, 1, 17, 1, 0, 0, 0][command.toNat - 1]?) = some n then .ok
  else .badLength

/-- DATA_CHARACTER (09 R150 to R155): ignored in WAITING and let pass in OVERLONG; in COLLECTING the first is the command, the second the
length, which above 60 makes the state OVERLONG, and the rest the payload. The last one completes the request: with an unknown command or a
wrong length it changes nothing, a direct request gets UNKNOWN or BAD_LENGTH, a broadcast one no reply. With an error it discards a
collection. That the command takes an equal character out of the receiver (heard) is the model's choice (log entry 14). -/
def Obligations.DataCharacterIsCollected : Prop :=
  (∀ (d : Byte) (s : State), (s.line.rx = .waiting ∨ ∃ direct c, s.line.rx = .overlong direct c) →
    exec (.dataCharacter d false) s = .next { s with line := s.line.heard ⟨d, false, false⟩ }) ∧
  (∀ (d : Byte) (s : State) (direct : Bool), s.line.rx = .collecting direct [] →
    exec (.dataCharacter d false) s =
      .next { s with line := { s.line.heard ⟨d, false, false⟩ with rx := .collecting direct [d] } }) ∧
  (∀ (d c : Byte) (s : State) (direct : Bool), s.line.rx = .collecting direct [c] →
    (60 < d.toNat → exec (.dataCharacter d false) s =
      .next { s with line := { s.line.heard ⟨d, false, false⟩ with rx := .overlong direct c } }) ∧
    (0 < d.toNat → d.toNat ≤ 60 → exec (.dataCharacter d false) s =
      .next { s with line := { s.line.heard ⟨d, false, false⟩ with rx := .collecting direct [c, d] } })) ∧
  (∀ (d c n : Byte) (p : List Byte) (s : State) (direct : Bool), s.line.rx = .collecting direct (c :: n :: p) → n.toNat ≤ 60 →
    p.length + 1 < n.toNat → exec (.dataCharacter d false) s =
      .next { s with line := { s.line.heard ⟨d, false, false⟩ with rx := .collecting direct (c :: n :: p ++ [d]) } }) ∧
  (∀ (d c n : Byte) (p : List Byte) (s : State) (direct : Bool), s.line.rx = .collecting direct (c :: n :: p) → n.toNat ≤ 60 →
    p.length + 1 = n.toNat → lengthFault c n.toNat ≠ .ok → s.line.reply = none →
    exec (.dataCharacter d false) s = .next { s with line := { s.line.heard ⟨d, false, false⟩ with
      rx := .waiting
      reply := if direct then
          some ⟨replyChars s.straps.addr (lengthFault c n.toNat) [], false, 0, 3, false⟩
        else none } }) ∧
  (∀ (c : Byte) (s : State) (direct : Bool), s.line.rx = .collecting direct [c] → lengthFault c 0 ≠ .ok → s.line.reply = none →
    exec (.dataCharacter 0 false) s = .next { s with line := { s.line.heard ⟨0, false, false⟩ with
      rx := .waiting
      reply := if direct then some ⟨replyChars s.straps.addr (lengthFault c 0) [], false, 0, 3, false⟩ else none } }) ∧
  (∀ (d : Byte) (s : State), exec (.dataCharacter d true) s =
    .next { s with line := (s.line.heard ⟨d, false, true⟩).spoiled })

/-- The limits and the reply (09 R151, R152, R155, R156): at the gap limit a collection is discarded with a line error and no reply; at the
quiet limit an overlong request is answered UNKNOWN or BAD_LENGTH, or dropped when broadcast; 2 character times after the capture TL_DE is
asserted and the reply begins; while it is sent TL_TX carries its characters without a gap, each bit for one bit time (R148): the start bit,
the data bits from bit 0, the mark bit of the lead alone, the parity bit when used, the stop bit; at the end of its last character, or of the
one in progress when it was abandoned, TL_DE is released. -/
def Obligations.LineLimitsAndReplies : Prop :=
  (∀ (s : State) (direct : Bool) (chars : List Byte), s.line.rx = .collecting direct chars →
    4 * charTime s.straps ≤ s.line.gapTicks → exec .gapLimitExpiry s = .next { s with line := { s.line with
      rx := .waiting, lineErrors := bump16 s.line.lineErrors } }) ∧
  (∀ (s : State) (direct : Bool) (c : Byte), s.line.rx = .overlong direct c → 4 * charTime s.straps ≤ s.line.gapTicks →
    s.line.reply = none → exec .quietLimitExpiry s = .next { s with line := { s.line with
      rx := .waiting
      reply := if direct then some ⟨replyChars s.straps.addr
          (if c.toNat = 0 ∨ 17 < c.toNat then .unknown else .badLength) [], false, 0, 3, false⟩
        else none } }) ∧
  (∀ (s : State) (r : Reply), s.line.reply = some r → r.sending = false → 2 * charTime s.straps ≤ r.ticks →
    ∃ t, exec .replyStart s = .next t ∧ t.tlDe = true ∧
      t = { s with line := { s.line with reply := some { r with sending := true, ticks := 0 } } }) ∧
  (∀ (s : State) (r : Reply) (c n k : Nat) (b : Byte), s.line.reply = some r → r.sending = true → c < r.stopAfter →
    r.chars[c]? = some b → n < charBits s.straps.par → k < bitTime s.straps.baud →
    r.ticks = (c * charBits s.straps.par + n) * bitTime s.straps.baud + k →
    (n = 0 → s.tlTx = false) ∧ (1 ≤ n → n ≤ 8 → s.tlTx = b.getLsbD (n - 1)) ∧ (n = 9 → s.tlTx = decide (c = 0)) ∧
    (n = 10 → s.straps.par = true →
      ((List.range 8).countP (fun j => b.getLsbD j) + (if c = 0 then 1 else 0) + if s.tlTx then 1 else 0) % 2 = 0) ∧
    (n + 1 = charBits s.straps.par → s.tlTx = true)) ∧
  (∀ (s : State) (r : Reply), s.line.reply = some r → r.sending = true → r.restart = false →
    r.stopAfter * charTime s.straps ≤ r.ticks →
    ∃ t, exec .replyEnd s = .next t ∧ t.tlDe = false ∧ t = { s with line := { s.line with reply := none } })

/-- The part after a restart (09 R163, R148, R151; 10 R164, R168; 01 R17, R21, R29; 03 R46, R48, R60; 05 R92; 06 R120; 07 R122; 08 R133, R143,
R145): what it keeps is the time base with its outstanding events, the line error count, the bus reset count, SW_RST_N, the pins, the path
stage, and the CHORD and BDIV straps. The model's own in it: the straps are taken at the levels given last (log entry 11), the character
receiver looks for a start edge and drops a received character (log entry 15), and reads outstanding stay so without checks (log entry
29). -/
def Sys2Proof.Machine.State.afterRestart (s : State) : State :=
  { s with
    device := .loading
    straps := { s.straps with addr := s.pins.straps.addr, baud := s.pins.straps.baud, par := s.pins.straps.par }
    startRec := ⟨.restart, .none, s.startRec.busResets⟩
    load := ⟨0, [], []⟩
    reads := s.reads.map (fun _ => none)
    values := ⟨⟨2, true, 2, false, 1, 7, 15, some 3⟩, 0xFFFF, 8, 1024, ⟨1000, 1000, 0, 0, 0, 0, 0⟩⟩
    rings := Vector.replicate 16
      ⟨false, 0, 8, false, false, .active, 0, 0, 0, 0, 0, 0, 0, 0, 0, 0, 0, 0, 0, 0, #v[0, 0, 0, 0, 0, 0, 0, 0], []⟩
    flows := Vector.replicate 256 ⟨0, none⟩
    sweepNext := 0
    tally := ⟨0, 0, 1, none, []⟩
    log := ⟨[], 0⟩
    alarm := ⟨⟨#v[3, 4, 2, 5, 2, 6, 0, 6, 1, 1, 1, 3, 4, 1], 0b1110#8, 0, ⟨false, 0, 0⟩⟩, 0, 0, false⟩
    panel := ⟨⟨false, 0⟩, ⟨false, 0⟩, ⟨false, 0⟩, if s.straps.chord then .spent else .idle⟩
    line := ⟨.waiting, 0, .idle, s.line.rxLast, none, none, s.line.lineErrors⟩ }

/-- RESTART (09 R163): answered OK and nothing else changed at its handling; the restart is made at the end of its reply, at the reception
of the address character that abandons it in its delay, whose collection it drops, and at the handling of a broadcast one. The part is then
as afterRestart says, with log entries 11, 15 and 29 for the straps, the receiver and the outstanding reads. -/
def Obligations.RestartIsMadeAfterReply : Prop :=
  (∀ (addr : Byte) (s : State), Direct addr s → s.device ≠ .loading → ∃ t, exec (.restart addr) s = .next t ∧
    t = { s.replied .ok [] with line := { (s.replied .ok []).line with
      reply := some ⟨replyChars s.straps.addr .ok [], false, 0, 3, true⟩ } }) ∧
  (∀ (s : State) (r : Reply), s.line.reply = some r → r.sending = true → r.restart = true →
    r.stopAfter * charTime s.straps ≤ r.ticks → exec .replyEnd s = .next s.afterRestart) ∧
  (∀ (d : Byte) (s : State) (r : Reply), s.line.reply = some r → r.sending = false → r.restart = true →
    exec (.addressCharacter d false) s = .next s.afterRestart) ∧
  (∀ s : State, s.device ≠ .loading → s.line.reply = none → exec (.restart 0) s = .next s.afterRestart)

/-- The characters of a request, received one after another, do what the request's own command does (09 R150, R151, R153, R154): for every
request, address and state with no character waiting in the receiver. That a request command is its characters is the model's choice (log
entry 13), and so is what a reply still going on does to it (log entry 16). -/
def Obligations.CharactersMakeRequest : Prop :=
  ∀ (addr : Byte) (req : Request) (s : State), s.line.received = none →
    runCommands (req.characters addr) s = exec (req.command addr) s

/-- The request layouts lose nothing (10 R169; 09 R153): the command byte and payload of every request, with every operand at every value,
are read back as that request, and the payload has the length the table gives its command. -/
def Obligations.RequestLayoutsRoundTrip : Prop :=
  ∀ req : Request, requestOf req.code req.payload = some req ∧ payloadLength req.code = some req.payload.length ∧
    req.payload.length ≤ 60

/-- The receiver run over levels, one a tick, from a leading edge at tick 0 (09 R149). -/
def Sys2Proof.Machine.receiverRun (x : Straps) (level : Nat → Bool) : Nat → BitReceiver × Option RxChar
  | 0 => receiverTick x true (level 0) .idle
  | n + 1 => receiverTick x (level n) (level (n + 1)) (receiverRun x level n).1

/-- A character as it is sent is received (09 R148, R149; 02 R41): from the tick of its leading edge, with each bit held for a bit time, its
data and mark bit are received at the stop bit's sample, floor(bit time / 2) plus one bit time for each further bit after the edge, and
not before, at every speed and with parity on or off. With its stop bit low, or with parity on and its parity bit turned over, it is
received with an error, and otherwise without. -/
def Obligations.SentCharacterIsReceived : Prop :=
  ∀ (x : Straps) (mark : Bool) (b : Byte) (stop flip : Bool),
    let bit := fun n => if n + 1 = charBits x.par then stop else xor (charBit x.par mark b n) (decide (n = 10) && flip)
    let level := fun k => bit (k / bitTime x.baud)
    let last := bitTime x.baud / 2 + (charBits x.par - 1) * bitTime x.baud
    receiverRun x level last = (.idle, some ⟨b, mark, !stop || (x.par && flip)⟩) ∧ ∀ n < last, (receiverRun x level n).2 = none

/-! ## Requests -/

/-- STATUS field by field (09 R157; 10 R169, reply payloads), the priority byte as that of SET ALARM MAP. -/
def Sys2Proof.Machine.State.statusFields (s : State) : List (Nat × Nat) :=
  let a := s.alarm
  let u := a.settings.priority
  [(1, [DeviceState.loading, .unconfigured, .monitoring].idxOf s.device), (1, [Cause.powerOn, .restart].idxOf s.startRec.cause),
    (1, [ConfigResult.good, .partly, .absent, .badMark, .badSum, .badContent, .none].idxOf s.startRec.result),
    (2, s.startRec.busResets), (1, [SourceState.nominal, .locked, .holdover].idxOf s.time.source), (4, s.time.tickCount.toNat),
    (2, s.time.ratio), (2, s.tally.periodNumber.toNat), (1, a.pendingSet.toNat), (1, a.settings.mask.toNat),
    (1, u.lowerFirst.toNat + 2 * u.upper.toNat + 8 * u.lower.toNat), (1, a.settings.modes.toNat), (1, a.stack.val),
    (1, s.log.records.length), (2, s.log.overflow), (2, s.line.lineErrors),
    (2, (List.finRange 256).countP (fun i : FlowIx => (s.flowAt i).isSome)),
    (2, ((List.finRange 16).map (fun r : RingIx => if (s.ring r).enabled then (s.ring r).held else 0)).sum)]

/-- What READ FLOW shows of the cycle part (03 R47, R48; 09 R158; 10 R169): the code of the state, the period in force, the pending period and
the anchor where the state has them, and the interval count and the attempt, 0 outside LEARNING. -/
def Sys2Proof.Machine.Cycle.shown : Cycle → Nat × Option Nat × Option Nat × Option Tick × Nat × Nat
  | .learning ctx => (1, none, none, none, ctx.intervals.length, ctx.attempt)
  | .waiting p => (2, some p, none, none, 0, 0)
  | .tracking p pend e => (3, some p, pend, some e, 0, 0)
  | .silent p pend e => (4, some p, pend, some e, 0, 0)
  | .acyclic => (5, none, none, none, 0, 0)

/-- A part of READ FLOW field by field, for the entry at an index with its generation (09 R158; 10 R169, reply payloads); the synced flag as 1
for yes (log entry 36). -/
def Sys2Proof.Machine.FlowRecord.shownFields (f : FlowRecord) (part index : Nat) (gen : BitVec 4) : List (Nat × Nat) :=
  let t := f.running
  let q := f.period
  let signed := fun x : Option Int => (4, (BitVec.ofInt 32 (x.getD 0)).toNat)
  (1, index) :: (1, part) ::
  match part with
  | 0 =>
    let (state, p, pend, anchor, intervals, attempt) := f.cycle.shown
    [(1, state), (1, [Origin.static, .learned].idxOf f.origin), (1, gen.toNat), (1, f.ring.val), (2, f.key.toNat),
      (4, p.getD 0), (4, pend.getD 0), (4, (anchor.getD 0).toNat),
      (1, p.isSome.toNat + 2 * pend.isSome.toNat + 4 * anchor.isSome.toNat),
      (2, f.params.early), (2, f.params.late), (4, f.params.budget),
      (2, f.params.missLimit), (2, f.params.lateLimit), (2, f.params.lossLimit), (2, f.params.disorderLimit),
      (1, f.misses), (1, intervals), (1, attempt), (1, f.idle), (1, f.window.synced.toNat), (2, f.window.top.toNat),
      (4, f.window.departed.toNat)]
  | 1 =>
    [(4, t.arrivals), (4, t.departures), (4, t.onTime), (4, t.early), (4, t.lateArrivals), (4, t.missed), (4, t.surplus),
      (4, t.relocks), signed f.worstEarly, signed f.worstLate, (1, f.worstEarly.isSome.toNat + 2 * f.worstLate.isSome.toNat)]
  | 2 =>
    [(4, t.lateDepartures), (4, t.reordered), (4, t.stragglers), (4, t.duplicates), (4, t.lost), (4, t.switchDrops), (4, t.resyncs),
      (4, f.worstResidence.getD 0), (1, f.worstResidence.isSome.toNat)]
  | _ =>
    [(2, q.arrivals), (2, q.departures), (2, q.missed), (2, q.early), (2, q.lateArrivals), (2, q.surplus), (2, q.lateDepartures),
      (2, q.reordered), (2, q.stragglers), (2, q.duplicates), (2, q.lost), (2, q.switchDrops),
      (4, f.periodWorst.getD 0), (1, f.periodWorst.isSome.toNat), (2, f.tag.toNat)]

/-- A part of READ RING field by field (09 R159; 10 R169, reply payloads): the flags byte has enabled in bit 0, stamps in bit 1 and auto-enrol in
bit 2. -/
def Sys2Proof.Machine.RingRecord.shownFields (x : RingRecord) (part : Nat) (r : RingIx) : List (Nat × Nat) :=
  (1, r.val) :: (1, part) ::
  match part with
  | 0 =>
    [(1, x.enabled.toNat + 2 * x.stampOn.toNat + 4 * x.autoEnrol.toNat), (3, x.base.toNat), (2, x.slotCount), (2, x.held),
      (2, x.highWater), (4, x.enqueued.toNat), (4, x.departed.toNat), (4, x.withdrawn.toNat), (4, x.overwritten.toNat),
      (4, x.flushed.toNat)]
  | 1 =>
    [(4, x.untrackedArrivals), (4, x.untrackedDepartures), (4, x.phantomReads), (4, x.strayAccesses), (4, x.parityFaults),
      (4, x.stampMismatches), (1, [SilenceState.active, .silent].idxOf x.silence), (1, x.silenceCounter)]
  | _ => (List.finRange 8).map (fun b => (4, x.histogram[b]))

/-- A part of READ SUMMARY field by field (09 R160; 10 R169, reply payloads): the state and, in CLOSING, the pass marker. -/
def Sys2Proof.Machine.Summary.shownFields (q : Summary) (part : Nat) : List (Nat × Nat) :=
  let t := q.totals
  (2, q.number.toNat) :: (1, part) ::
  match part with
  | 0 =>
    let shown : Nat × Option Nat := match q.phase with
      | .opened => (0, none)
      | .closing m => (1, some m.val)
      | .final => (2, none)
    [(4, q.startTime.toNat), (4, (q.endTime.getD 0).toNat), (1, q.lengthCode), (1, shown.1), (1, shown.2.getD 0),
      (1, [Quality.locked, .degraded].idxOf q.quality),
      (1, q.endTime.isSome.toNat + 2 * shown.2.isSome.toNat + 4 * q.worst.isSome.toNat),
      (4, q.untrackedArrivals), (4, q.untrackedDepartures), (4, q.flowsOver), (4, (q.worst.map Prod.fst).getD 0),
      (1, (q.worst.map (fun w => w.2.val)).getD 0), (2, q.peakHeld)]
  | _ =>
    [(4, t.arrivals), (4, t.departures), (4, t.missed), (4, t.early), (4, t.lateArrivals), (4, t.surplus), (4, t.lateDepartures),
      (4, t.reordered), (4, t.stragglers), (4, t.duplicates), (4, t.lost), (4, t.switchDrops)]

/-- STATUS, READ FLOW, FIND FLOW, READ RING and READ SUMMARY (09 R157 to R160; 03 R58; 10 R169), sent to this station with no reply going
on: each changes nothing but the line, is refused or answered NOT_FOUND as its rule says, and carries the payload captured then, byte for
byte as the layout gives its fields and its length. BAD_ARGUMENT for a part of READ SUMMARY above 1 in UNCONFIGURED too, and for a part of
READ FLOW above 3 on a VACANT entry, is the model's choice (log entries 34 and 37), and so is the code of the synced flag in part 0 of READ
FLOW (log entry 36). -/
def Obligations.ReadRequestsAnswer : Prop :=
  ∀ (addr : Byte) (s : State), Direct addr s →
    (exec (.status addr) s = .next (s.replied .ok (layout s.statusFields)) ∧ (layout s.statusFields).length = 28) ∧
    (s.device ≠ .loading →
      (∀ index part, 3 < part.toNat → exec (.readFlow addr index part) s = .next (s.replied .badArgument [])) ∧
      (∀ index part, part.toNat ≤ 3 → s.flowAt index.toFin = none →
        exec (.readFlow addr index part) s = .next (s.replied .notFound [])) ∧
      (∀ index part f, part.toNat ≤ 3 → s.flowAt index.toFin = some f →
        let p := layout (f.shownFields part.toNat index.toNat (s.entry index.toFin).gen)
        exec (.readFlow addr index part) s = .next (s.replied .ok p) ∧
        p.length = if part = 0 then 48 else if part = 1 then 43 else if part = 2 then 35 else 33) ∧
      (∀ (ring : Byte) (key : Half), 15 < ring.toNat → exec (.findFlow addr ring key) s = .next (s.replied .badArgument [])) ∧
      (∀ (ring : Byte) (r : RingIx) (key : Half), ring.toNat = r.val →
        (∀ (i : FlowIx) (f : FlowRecord), s.flowAt i = some f → ¬ (f.ring = r ∧ f.key = key &&& s.values.keyMask)) →
        exec (.findFlow addr ring key) s = .next (s.replied .notFound [])) ∧
      (∀ (ring : Byte) (r : RingIx) (key : Half) (i : FlowIx) (f : FlowRecord), DirectoryOk s → ring.toNat = r.val →
        s.flowAt i = some f → f.ring = r → f.key = key &&& s.values.keyMask →
        exec (.findFlow addr ring key) s = .next (s.replied .ok (layout
          [(1, i.val), (1, f.cycle.shown.1), (1, [Origin.static, .learned].idxOf f.origin), (1, (s.entry i).gen.toNat)]))) ∧
      (∀ ring part, 15 < ring.toNat ∨ 2 < part.toNat → exec (.readRing addr ring part) s = .next (s.replied .badArgument [])) ∧
      (∀ (ring : Byte) (r : RingIx) (part : Byte), ring.toNat = r.val → part.toNat ≤ 2 →
        let p := layout ((s.ring r).shownFields part.toNat r)
        exec (.readRing addr ring part) s = .next (s.replied .ok p) ∧
        p.length = if part = 0 then 32 else if part = 1 then 28 else 34) ∧
      (∀ number part, 1 < part.toNat → exec (.readSummary addr number part) s = .next (s.replied .badArgument [])) ∧
      (∀ number part, part.toNat ≤ 1 → (∀ q ∈ s.tally.history, q.number ≠ number) →
        exec (.readSummary addr number part) s = .next (s.replied .notFound [])) ∧
      (∀ number part q before after, part.toNat ≤ 1 → s.tally.history = before ++ q :: after → q.number = number →
        (∀ p ∈ before, p.number ≠ number) →
        let p := layout (q.shownFields part.toNat)
        exec (.readSummary addr number part) s = .next (s.replied .ok p) ∧ p.length = if part = 0 then 35 else 51))

/-- A period of a request clamped (03 R54). -/
def Sys2Proof.Machine.clampedPeriod (n : Nat) : Nat := if n = 0 then 0 else max 100 (min 16777215 n)

/-- The values of a DEFINE FLOW clamped (03 R54). -/
def Sys2Proof.Machine.clampedParams (a : FlowArgs) : FlowParams :=
  ⟨min a.early.toNat 65535, min a.late.toNat 65535, min a.budget.toNat 16777215, min a.missLimit.toNat 65535,
    min a.lateLimit.toNat 65535, min a.lossLimit.toNat 65535, min a.disorderLimit.toNat 65535⟩

/-- DEFINE FLOW (03 R46, R48, R54 to R56; 09 R161): BAD_ARGUMENT for a ring above 15; a key pair no entry holds takes the lowest VACANT entry as
a STATIC flow, or is answered FULL; a flow already held and not lagging is changed in place, its period by the table of R55; a lagging one
is rolled first. The reply carries the entry. -/
def Obligations.DefineFlowRequest : Prop :=
  ∀ (addr : Byte) (s : State) (ring : Byte) (key : Half) (args : FlowArgs), Direct addr s → s.device ≠ .loading →
    let masked := key &&& s.values.keyMask
    let p := clampedPeriod args.period.toNat
    let free := ∀ r : RingIx, r.val = ring.toNat →
      ∀ (i : FlowIx) (f : FlowRecord), s.flowAt i = some f → ¬ (f.ring = r ∧ f.key = masked)
    (15 < ring.toNat → exec (.defineFlow addr ring key args) s = .next (s.replied .badArgument [])) ∧
    (ring.toNat ≤ 15 → free → (∀ i : FlowIx, s.flowAt i ≠ none) →
      exec (.defineFlow addr ring key args) s = .next (s.replied .full [])) ∧
    (∀ (r : RingIx) (j : FlowIx), r.val = ring.toNat → free → s.flowAt j = none → (∀ k : FlowIx, k.val < j.val → s.flowAt k ≠ none) →
      exec (.defineFlow addr ring key args) s = .next { s.replied .ok [BitVec.ofNat 8 j.val] with
        flows := s.flows.set j ⟨(s.entry j).gen, some
          { origin := .static
            ring := r
            key := masked
            cycle := if p = 0 then .learning ⟨none, 0, [], 0, 1⟩ else .waiting p
            params := clampedParams args
            misses := 0
            window := ⟨false, 0, BitVec.allOnes 32⟩
            running := RunningTallies.zero
            worstEarly := none
            worstLate := none
            worstResidence := none
            period := Tallies.zero
            periodWorst := none
            tag := s.tally.periodNumber
            idle := 0 }⟩ }) ∧
    (∀ (r : RingIx) (i : FlowIx) (f : FlowRecord), DirectoryOk s → r.val = ring.toNat → s.flowAt i = some f → f.ring = r →
      f.key = masked → f.tag = s.tally.periodNumber →
      exec (.defineFlow addr ring key args) s = .next { s.replied .ok [BitVec.ofNat 8 i.val] with
        flows := s.flows.set i ⟨(s.entry i).gen, some { changePeriod p f with
          origin := .static, params := clampedParams args }⟩ }) ∧
    (∀ (r : RingIx) (i : FlowIx) (f : FlowRecord), DirectoryOk s → r.val = ring.toNat → s.flowAt i = some f → f.ring = r →
      f.key = masked → f.tag ≠ s.tally.periodNumber →
      exec (.defineFlow addr ring key args) s = exec (.defineFlow addr ring key args) (rollFlow i f s))

/-- REMOVE FLOW and SET PERIOD (03 R52, R57; 04 R81, R82; 09 R161), and what a clamped period does to a flow by its state (03 R55; 04 R82). -/
def Obligations.RemoveFlowAndSetPeriod : Prop :=
  (∀ (addr : Byte) (s : State) (index : Byte) (period : BitVec 32), Direct addr s → s.device ≠ .loading →
    (s.flowAt index.toFin = none →
      exec (.removeFlow addr index) s = .next (s.replied .notFound []) ∧
      exec (.setPeriod addr index period) s = .next (s.replied .notFound [])) ∧
    (∀ f, s.flowAt index.toFin = some f →
      (f.tag = s.tally.periodNumber → exec (.removeFlow addr index) s = .next { s.replied .ok [] with
        flows := s.flows.set index.toFin ⟨(s.entry index.toFin).gen + 1, none⟩ }) ∧
      exec (.setPeriod addr index period) s = .next { s.replied .ok [] with
        flows := s.flows.set index.toFin
          ⟨(s.entry index.toFin).gen, some (changePeriod (clampedPeriod period.toNat) f)⟩ })) ∧
  (∀ (p : Nat) (f : FlowRecord), p ≠ 0 →
    (∀ q e, f.cycle = .tracking q none e → p = q → changePeriod p f = f) ∧
    (∀ q pend e, f.cycle = .tracking q pend e → ¬ (p = q ∧ pend = none) →
      changePeriod p f = { f with cycle := .tracking q (some p) e }) ∧
    (∀ q e, f.cycle = .silent q none e → p = q → changePeriod p f = f) ∧
    (∀ q pend e, f.cycle = .silent q pend e → ¬ (p = q ∧ pend = none) →
      changePeriod p f = { f with cycle := .silent q (some p) e }) ∧
    (∀ q, f.cycle = .waiting q → changePeriod p f = { f with cycle := .waiting p }) ∧
    ((∃ ctx, f.cycle = .learning ctx) ∨ f.cycle = .acyclic →
      changePeriod p f = { f with cycle := .waiting p, misses := 0 })) ∧
  (∀ f : FlowRecord,
    (∀ ctx, f.cycle = .learning ctx → changePeriod 0 f = f) ∧
    ((∀ ctx, f.cycle ≠ .learning ctx) → changePeriod 0 f = { f with cycle := .learning ⟨none, 0, [], 0, 1⟩, misses := 0 }))

/-- The checks 2 to 7 of DEFINE RING in their order, for a base of b and n slots (01 R26). -/
def Sys2Proof.Machine.State.ringChecks (s : State) (r : RingIx) (b n : Nat) (stamp : Bool) : Status :=
  let p := s.values.profile
  if ¬ (n = 8 ∨ n = 16 ∨ n = 32 ∨ n = 64 ∨ n = 128 ∨ n = 256) then .badArgument
  else if b % (4 * n) ≠ 0 then .badArgument
  else if ∃ q : RingIx, q ≠ r ∧ (s.ring q).enabled = true ∧ b < (s.ring q).base.toNat + 4 * (s.ring q).slotCount ∧
    (s.ring q).base.toNat < b + 4 * n then .badArgument
  else if stamp = true ∧ (p.stampWord = some p.keyWord ∨ p.stampWord = some p.seqWord) then .badArgument
  else if (s.ring r).enabled = true ∧ 0 < (s.ring r).held then .held
  else if 2048 < (ringOrder.map (fun q => if q ≠ r ∧ (s.ring q).enabled = true then (s.ring q).slotCount else 0)).sum + n then .full
  else .ok

/-- The state after a ring is defined: enabled and empty, every counter 0, the checks of outstanding reads of it done away with (01 R17,
R26). -/
def Sys2Proof.Machine.State.ringDefined (s : State) (r : RingIx) (b n : Nat) (stamp enrol : Bool) : State :=
  { s with
    rings := s.rings.set r ⟨true, BitVec.ofNat 22 b, n, stamp, enrol, .active, 0, 0, 0, 0, 0, 0, 0, 0, 0, 0, 0, 0, 0, 0,
      #v[0, 0, 0, 0, 0, 0, 0, 0], []⟩
    reads := s.reads.map (fun c => c.bind (fun k => if k.ring = r then none else some k)) }

/-- DEFINE RING and RING OFF (01 R17, R26, R27; 09 R161): the seven checks in their order, the first that fails giving the status and changing
nothing; an accepted ring is enabled with its definition, every slot EMPTY and every counter 0, and outstanding reads of it lose their
checks. That such reads stay outstanding without checks is the model's reading (log entry 29), and so is that a refused request leaves the
checks (log entry 19). RING OFF disables an enabled ring, its held count added to flushed, with no notices and no incident. -/
def Obligations.RingRequests : Prop :=
  ∀ (addr : Byte) (s : State), Direct addr s → s.device ≠ .loading →
    (∀ (ring : Byte) (base : BitVec 24) (slots : Half) (options : Byte), 15 < ring.toNat →
      exec (.defineRing addr ring base slots options) s = .next (s.replied .badArgument []) ∧
      exec (.ringOff addr ring) s = .next (s.replied .badArgument [])) ∧
    (∀ (r : RingIx) (ring : Byte) (base : BitVec 24) (slots : Half) (options : Byte), ring.toNat = r.val →
      let b := base.toNat % 2 ^ 22
      let st := s.ringChecks r b slots.toNat (options.getLsbD 0)
      (st ≠ .ok → exec (.defineRing addr ring base slots options) s = .next (s.replied st [])) ∧
      (st = .ok → exec (.defineRing addr ring base slots options) s =
        .next ((s.replied .ok []).ringDefined r b slots.toNat (options.getLsbD 0) (options.getLsbD 1)))) ∧
    (∀ (r : RingIx) (ring : Byte), ring.toNat = r.val →
      ((s.ring r).enabled = false → exec (.ringOff addr ring) s = .next (s.replied .ok [])) ∧
      ((s.ring r).enabled = true → exec (.ringOff addr ring) s = .next { s.replied .ok [] with
        rings := s.rings.set r { s.ring r with
          enabled := false
          slots := []
          flushed := (s.ring r).flushed + BitVec.ofNat 32 (s.ring r).held
          held := 0 } }))

/-- The alarm state with a pending set given class by class, STACK and ALERT_N found afresh (08 R137). -/
def Sys2Proof.Machine.Resolved (settings : AlarmSettings) (pend : AlarmClass → Bool) (a : AlarmState) : Prop :=
  a.settings = settings ∧ (∀ c : AlarmClass, c ≠ 0 → a.pendingSet.has c = pend c) ∧ a.pendingSet &&& 0b10000001#8 = 0 ∧
    a.stack = stackCode settings a.pendingSet ∧ a.alert = (a.stack != 0)

/-- A record of TAKE INCIDENTS field by field (09 R162; 10 R169, reply payloads): the kind by its place in the incident kind table, the subject
as device 0, ring 1 or flow 2 and its index. -/
def Sys2Proof.Machine.Incident.shownFields (r : Incident) : List (Nat × Nat) :=
  let subject : Nat × Nat := match r.subject with
    | .device => (0, 0)
    | .ring q => (1, q.val)
    | .flow i => (2, i.val)
  [(1, [IncidentKind.flowMiss, .flowLate, .flowLoss, .flowDisorder, .flowSilent, .flowAcyclic, .flowRetired, .directoryFull, .ringSilent,
      .ringParity, .ringStamp, .ringFlush, .timeHoldover, .configFault].idxOf r.kind),
    (1, subject.1), (1, subject.2), (1, r.cls.val), (4, r.firstTime.toNat), (4, r.lastTime.toNat), (1, r.repeats), (4, r.value.toNat)]

/-- TAKE INCIDENTS, ACKNOWLEDGE and SET ALARM MAP (07 R127, R128; 08 R139, R140; 09 R161, R162). The n = min(m, 3, log count) oldest records
leave the log for the reply, laid out field by field, and AUTO classes with no record left stop being pending; nothing is re-evaluated for n = 0. ACKNOWLEDGE ends
the named classes in either mode and removes no record. SET ALARM MAP is refused for a class above 6, and otherwise replaces the four
settings, ends pending AUTO classes without a record, and finds STACK afresh. -/
def Obligations.AlarmRequests : Prop :=
  ∀ (addr : Byte) (s : State), Direct addr s → s.device ≠ .loading →
    (∀ m : Byte,
      let n := min (min m.toNat 3) s.log.records.length
      let payload := layout ((1, n) :: (s.log.records.take n).flatMap Incident.shownFields ++ [(1, s.log.records.length - n)])
      (n = 0 → exec (.takeIncidents addr m) s = .next (s.replied .ok payload)) ∧
      (0 < n → ∃ a, exec (.takeIncidents addr m) s = .next { s.replied .ok payload with
          log := { s.log with records := s.log.records.drop n }, alarm := a } ∧
        Resolved s.alarm.settings (fun c => s.alarm.pendingSet.has c &&
          (s.alarm.settings.modes.has c || (s.log.records.drop n).any (fun r => r.cls == c))) a)) ∧
    (∀ classes : Byte, ∃ a, exec (.acknowledge addr classes) s = .next { s.replied .ok [] with alarm := a } ∧
      Resolved s.alarm.settings (fun c => s.alarm.pendingSet.has c && !classes.getLsbD c.val) a) ∧
    (∀ (classes : Vector Byte 14) (mask priority modes : Byte),
      ((∃ i : Fin 14, 6 < classes[i].toNat) →
        exec (.setAlarmMap addr classes mask priority modes) s = .next (s.replied .badArgument [])) ∧
      ((∀ i : Fin 14, classes[i].toNat ≤ 6) →
        ∃ new a, exec (.setAlarmMap addr classes mask priority modes) s = .next { s.replied .ok [] with alarm := a } ∧
          (∀ i : Fin 14, new.classMap[i].val = classes[i].toNat) ∧
          (∀ c : AlarmClass, c ≠ 0 → new.mask.has c = mask.getLsbD c.val ∧ new.modes.has c = modes.getLsbD c.val) ∧
          new.priority = ⟨priority.getLsbD 0, priority.extractLsb' 1 2, priority.extractLsb' 3 2⟩ ∧
          Resolved new (fun c => s.alarm.pendingSet.has c &&
            (modes.getLsbD c.val || s.log.records.any (fun r => r.cls == c))) a))

/-- A ring record with its tallies cleared (01 R28). -/
def Sys2Proof.Machine.RingRecord.cleared (x : RingRecord) : RingRecord :=
  { x with
    highWater := x.held, enqueued := BitVec.ofNat 32 x.held, departed := 0, withdrawn := 0, overwritten := 0, flushed := 0
    untrackedArrivals := 0, untrackedDepartures := 0, phantomReads := 0, strayAccesses := 0, parityFaults := 0
    stampMismatches := 0, histogram := #v[0, 0, 0, 0, 0, 0, 0, 0] }

/-- A flow record with its tallies cleared under a period number (04 R84; 05 R102; 06 R118). -/
def Sys2Proof.Machine.FlowRecord.cleared (f : FlowRecord) (number : BitVec 16) : FlowRecord :=
  { f with
    running := RunningTallies.zero, worstEarly := none, worstLate := none, worstResidence := none, period := Tallies.zero
    periodWorst := none, tag := number }

/-- SET TALLY PERIOD, CLEAR TALLIES and START (06 R108, R118, R120; 01 R28; 04 R84; 05 R102; 07 R131; 08 R142; 09 R161, R162; 10 R164): a code up
to 7 becomes pending as at most 5; a clear in MONITORING opens a new period with the history discarded and clears flows, rings, log and
pending set, and in UNCONFIGURED clears those alone; START moves UNCONFIGURED to MONITORING with the first OPEN summary, timer and next
index 0 and a pending code in force, and does nothing in MONITORING. The period number of that summary is the one in force, which is 0
outside MONITORING (StepKeepsHistory). -/
def Obligations.TallyRequests : Prop :=
  ∀ (addr : Byte) (s : State), Direct addr s →
    (∀ code : Byte, s.device ≠ .loading →
      (7 < code.toNat → exec (.setTallyPeriod addr code) s = .next (s.replied .badArgument [])) ∧
      (code.toNat ≤ 7 → exec (.setTallyPeriod addr code) s = .next { s.replied .ok [] with
        tally := { s.tally with pendingCode := some (min 5 code.toNat) } })) ∧
    (s.device = .monitoring → exec (.clearTallies addr) s = .next { s.replied .ok [] with
      tally := ⟨s.tally.periodNumber + 1, 0, s.tally.pendingCode.getD s.tally.code, none,
        [s.fresh (s.tally.periodNumber + 1) (s.tally.pendingCode.getD s.tally.code)]⟩
      rings := s.rings.map RingRecord.cleared
      flows := s.flows.map (fun e => { e with flow := e.flow.map (fun f => f.cleared (s.tally.periodNumber + 1)) })
      log := ⟨[], 0⟩
      alarm := ⟨s.alarm.settings, 0, 0, false⟩ }) ∧
    (s.device = .unconfigured → exec (.clearTallies addr) s = .next { s.replied .ok [] with
      rings := s.rings.map RingRecord.cleared
      flows := s.flows.map (fun e => { e with flow := e.flow.map (fun f => f.cleared s.tally.periodNumber) })
      log := ⟨[], 0⟩
      alarm := ⟨s.alarm.settings, 0, 0, false⟩ }) ∧
    (s.device = .monitoring → exec (.start addr) s = .next (s.replied .ok [])) ∧
    (s.device = .unconfigured → exec (.start addr) s = .next { s.replied .ok [] with
      device := .monitoring
      sweepNext := 0
      tally := ⟨s.tally.periodNumber, 0, s.tally.pendingCode.getD s.tally.code, none,
        [s.fresh s.tally.periodNumber (s.tally.pendingCode.getD s.tally.code)]⟩ })

/-- Requests in other conditions (09 R150, R153, R154, R156, R163): in LOADING every one but STATUS is answered NOT_READY and changes nothing; a
broadcast one other than RESTART does what the direct one does and sends no reply; one for another station changes the receive state
alone; and one that finds a reply still going on abandons it, and is dropped by the restart such a reply carries (the model's reading
of R156 and R163 for a whole request, log entries 13 and 16). -/
def Obligations.RequestsInOtherConditions : Prop :=
  (∀ (addr : Byte) (req : Request) (s : State), Direct addr s → s.device = .loading → req ≠ .status →
    exec (req.command addr) s = .next (s.replied .notReady [])) ∧
  (∀ (addr : Byte) (req : Request) (s : State), Direct addr s → req ≠ .restart →
    ∃ t, exec (req.command addr) s = .next t ∧
      exec (req.command 0) s = .next { t with line := { t.line with reply := none } }) ∧
  (∀ (addr : Byte) (req : Request) (s : State), s.line.reply = none → addr ≠ 0 → addr.toNat ≠ s.straps.addr.toNat →
    exec (req.command addr) s = .next { s with line := { s.line with rx := .waiting, gapTicks := 0 } }) ∧
  (∀ (addr : Byte) (req : Request) (s : State) (r : Reply), s.line.reply = some r → addr = 0 ∨ addr.toNat = s.straps.addr.toNat →
    (r.restart = false → exec (req.command addr) s = exec (req.command addr) { s with line := { s.line with reply := none } }) ∧
    (r.restart = true → exec (req.command addr) s = .next s.afterRestart))

/-! ## The configuration load -/

/-- A ring entry of an image taken at its position (10 R167; 01 R26): its ring enabled, or the entry refused with its CONFIG_FAULT; an entry that
names an enabled ring and fails a check besides gets the status of the check (the model's reading, log entry 18). The flag says whether any
entry so far was refused. -/
def Sys2Proof.Machine.loadRing (w : Nat → Half) (a : State × Bool) (pos : Nat) : State × Bool :=
  let s := a.1
  let e := fun k => w (23 + 4 * pos + k)
  let b := ((e 2).toNat * 65536 + (e 3).toNat) % 2 ^ 22
  if h : (e 0).toNat % 256 < 16 then
    let r : RingIx := ⟨(e 0).toNat % 256, h⟩
    let st := s.ringChecks r b (e 1).toNat ((e 0).getLsbD 8)
    if st = .ok ∧ (s.ring r).enabled = false then (s.ringDefined r b (e 1).toNat ((e 0).getLsbD 8) ((e 0).getLsbD 9), a.2)
    else (raise .configFault (.ring r) (if st = .ok then 2 else BitVec.ofNat 32 st.code) s, true)
  else (raise .configFault .device (BitVec.ofNat 32 (0x1000 + pos)) s, true)

/-- A flow entry of an image taken at its position, after the ring entries (10 R167; 03 R54, R56, R60): the lowest VACANT entry made a STATIC
flow, or the entry refused with its CONFIG_FAULT. -/
def Sys2Proof.Machine.loadFlow (w : Nat → Half) (rings : Nat) (a : State × Bool) (pos : Nat) : State × Bool :=
  let s := a.1
  let e := fun k => w (23 + 4 * rings + 12 * pos + k)
  let key := e 1 &&& s.values.keyMask
  let p := clampedPeriod ((e 2).toNat * 65536 + (e 3).toNat)
  if h : (e 0).toNat % 256 < 16 then
    let r : RingIx := ⟨(e 0).toNat % 256, h⟩
    match s.findKey r key, s.lowestVacant with
    | some i, _ => (raise .configFault (.flow i) (BitVec.ofNat 32 (0x2000 + pos)) s, true)
    | none, none => (s, true)
    | none, some j => ({ s with flows := s.flows.set j ⟨(s.entry j).gen, some
        { origin := .static
          ring := r
          key := key
          cycle := if p = 0 then .learning ⟨none, 0, [], 0, 1⟩ else .waiting p
          params := ⟨(e 4).toNat, (e 5).toNat, min 16777215 ((e 6).toNat * 65536 + (e 7).toNat), (e 8).toNat, (e 9).toNat,
            (e 10).toNat, (e 11).toNat⟩
          misses := 0
          window := ⟨false, 0, BitVec.allOnes 32⟩
          running := RunningTallies.zero
          worstEarly := none
          worstLate := none
          worstResidence := none
          period := Tallies.zero
          periodWorst := none
          tag := s.tally.periodNumber
          idle := 0 }⟩ }, a.2)
  else (raise .configFault .device (BitVec.ofNat 32 (0x2000 + pos)) s, true)

/-- The device values of an image whose words are w (10 R166 step 1, section 10.5). -/
def Sys2Proof.Machine.DeviceValues.ofWords (v : DeviceValues) (w : Nat → Half) : Prop :=
  v.profile.keyWord.val = (w 5).toNat % 4 ∧ v.profile.keyUpper = (w 5).getLsbD 2 ∧
  v.profile.seqWord.val = (w 5).toNat / 8 % 4 ∧ v.profile.seqUpper = (w 5).getLsbD 5 ∧
  v.profile.dispWord.val = (w 5).toNat / 64 % 4 ∧ v.profile.dispNibble.val = (w 5).toNat / 256 % 8 ∧
  v.profile.voidCode.toNat = (w 5).toNat / 4096 ∧
  v.profile.stampWord.map Fin.val = (if (w 6).toNat % 8 < 4 then some ((w 6).toNat % 8) else none) ∧
  v.keyMask = w 4 ∧ v.silenceCount = max 1 ((w 7).toNat / 256) ∧ v.resync = max 64 (min 32767 (w 8).toNat) ∧
  v.learnedParams = ⟨(w 9).toNat, (w 10).toNat, min 16777215 ((w 11).toNat * 65536 + (w 12).toNat), (w 13).toNat, (w 14).toNat,
    (w 15).toNat, (w 16).toNat⟩

/-- The alarm settings of an image whose words are w (10 R166 step 1, section 10.5). -/
def Sys2Proof.Machine.AlarmSettings.ofWords (a : AlarmSettings) (w : Nat → Half) : Prop :=
  (∀ k : Fin 14, a.classMap[k].val = min 6 ((w (17 + k.val / 4)).toNat / 16 ^ (3 - k.val % 4) % 16)) ∧
  (∀ c : AlarmClass, c ≠ 0 → a.mask.has c = (w 21).getLsbD c.val ∧ a.modes.has c = (w 22).getLsbD c.val) ∧
  a.priority = ⟨(w 21).getLsbD 8, (w 21).extractLsb' 9 2, (w 21).extractLsb' 11 2⟩

/-- LOAD_END in LOADING (10 R165 to R168; 01 R26; 02 R40; 03 R54, R56, R60; 06 R108, R120; 08 R141), whenever it is sent (the model's choice,
log entry 10): the image is the bytes clocked in and those of the command, two to a word, 0xFF where there is none. The first condition
met while reading gives ABSENT, BAD_MARK, BAD_CONTENT or BAD_SUM: CONFIG_FAULT raised with the device and the result code, default codes
and alarm settings, nothing of the image used, UNCONFIGURED. With none the image is used: its device values clamped, its ring entries and
then its flow entries taken in image order or refused, its codes and alarm settings in force, the result PARTIAL if any entry was refused
and GOOD otherwise, and the entry to MONITORING made, its OPEN summary under the period number in force, which is 0
outside MONITORING (StepKeepsHistory). Log entry 18 stands behind loadRing. -/
def Obligations.LoadEndUsesOrRefusesImage : Prop :=
  ∀ (rest : List Byte) (s : State), s.device = .loading →
    let b := fun n => ((s.load.bytes ++ rest).getD n 0xFF).toNat
    let w := fun i => BitVec.ofNat 16 (b (2 * i) * 256 + b (2 * i + 1))
    let words := 24 + 4 * (w 2).toNat + 12 * (w 3).toNat
    let absent := w 0 = 0xFFFF
    let badMark := ¬ absent ∧ (w 0 ≠ 0x444B ∨ w 1 ≠ 1)
    let badContent := ¬ absent ∧ ¬ badMark ∧ (16 < (w 2).toNat ∨ 256 < (w 3).toNat)
    let sum := ((List.range words).map w).foldl (fun a b => a + b) 0
    let badSum := ¬ absent ∧ ¬ badMark ∧ ¬ badContent ∧ sum ≠ 0
    (∀ (result : ConfigResult) (code : Nat),
      (absent ∧ result = .absent ∧ code = 2) ∨ (badMark ∧ result = .badMark ∧ code = 3) ∨
        (badSum ∧ result = .badSum ∧ code = 4) ∨ (badContent ∧ result = .badContent ∧ code = 5) →
      ∃ l a0 a, (l, a0) = raiseInto s.time.tickCount .configFault .device (BitVec.ofNat 32 code) s.log s.alarm ∧
        exec (.loadEnd rest) s = .next { s with
          device := .unconfigured
          startRec := { s.startRec with result := result }
          tally := { s.tally with code := 1, pendingCode := none }
          time := { s.time with silenceCode := 1, silenceCounter := 0 }
          log := l
          alarm := a } ∧
        Resolved AlarmSettings.default (fun c => a0.pendingSet.has c &&
          (AlarmSettings.default.modes.has c || l.records.any (fun r => r.cls == c))) a) ∧
    (¬ absent → ¬ badMark → ¬ badContent → sum = 0 → ∃ v new a,
      let out := (List.range (w 3).toNat).foldl (loadFlow w (w 2).toNat)
        ((List.range (w 2).toNat).foldl (loadRing w) ({ s with values := v }, false))
      let code := min 5 ((w 7).toNat % 8)
      v.ofWords w ∧ new.ofWords w ∧
      exec (.loadEnd rest) s = .next { out.1 with
        device := .monitoring
        startRec := { s.startRec with result := if out.2 then .partly else .good }
        sweepNext := 0
        time := { s.time with silenceCode := BitVec.ofNat 2 ((w 7).toNat / 16), silenceCounter := 0 }
        tally := ⟨s.tally.periodNumber, 0, code, none, [out.1.fresh s.tally.periodNumber code]⟩
        alarm := a } ∧
      Resolved new (fun c => out.1.alarm.pendingSet.has c &&
        (new.modes.has c || out.1.log.records.any (fun r => r.cls == c))) a)

/-! ## Incidents and alarms -/

/-- A raising taken whole (07 R123 to R127; 08 R137): coalesced into the record of its kind and subject, which keeps its place, first time and
class; or a new record at the end with the class of the map in force, the oldest making room in a full log and AUTO classes re-evaluated
then. The record's class becomes pending and STACK and ALERT_N are found afresh; nothing but log and alarm state changes. -/
def Obligations.RaisingIsTakenWhole : Prop :=
  ∀ (k : IncidentKind) (x : Subject) (v : BitVec 32) (s : State),
    let now := s.time.tickCount
    let new := fun c => Incident.mk k x c now now 1 v
    (∀ r before after, s.log.records = before ++ r :: after → r.kind = k → r.subject = x →
      (∀ q ∈ before ++ after, ¬ (q.kind = k ∧ q.subject = x)) →
      ∃ a, raise k x v s = { s with
          log := { s.log with
            records := before ++ { r with lastTime := now, repeats := min 255 (r.repeats + 1), value := v } :: after }
          alarm := a } ∧
        Resolved s.alarm.settings (fun c => s.alarm.pendingSet.has c || r.cls == c) a) ∧
    ((∀ q ∈ s.log.records, ¬ (q.kind = k ∧ q.subject = x)) → s.log.records.length < 64 →
      ∃ a, raise k x v s = { s with
          log := { s.log with records := s.log.records ++ [new (s.alarm.settings.classMap[k.code])] }, alarm := a } ∧
        Resolved s.alarm.settings (fun c => s.alarm.pendingSet.has c || s.alarm.settings.classMap[k.code] == c) a) ∧
    (∀ oldest rest, (∀ q ∈ s.log.records, ¬ (q.kind = k ∧ q.subject = x)) → 64 ≤ s.log.records.length →
      s.log.records = oldest :: rest →
      ∃ a, raise k x v s = { s with
          log := ⟨rest ++ [new (s.alarm.settings.classMap[k.code])], min 65535 (s.log.overflow + 1)⟩, alarm := a } ∧
        Resolved s.alarm.settings (fun c =>
          (s.alarm.pendingSet.has c || s.alarm.settings.classMap[k.code] == c) &&
          (s.alarm.settings.modes.has c ||
            (rest ++ [new (s.alarm.settings.classMap[k.code])]).any (fun r => r.cls == c))) a)

/-- The place of a class in the priority order, from 0 for the highest (08 R136): in its group by the rotation code, code 3 acting as 0, and
the groups by the group order. -/
def Sys2Proof.Machine.Priority.rank (p : Priority) (c : AlarmClass) : Nat :=
  let place := fun (code : BitVec 2) (n : Nat) => (n + 3 - (if code = 3 then 0 else code.toNat)) % 3
  if c.val ≤ 3 then place p.upper (c.val - 1) + (if p.lowerFirst then 3 else 0)
  else place p.lower (c.val - 4) + (if p.lowerFirst then 0 else 3)

/-- STACK (08 R136, R137): 0 when no class is both pending and not masked, and otherwise such a class with no such class before it in the
priority order. -/
def Obligations.StackShowsFirstClass : Prop :=
  ∀ (settings : AlarmSettings) (pend : ClassSet),
    let shown := fun c : AlarmClass => c ≠ 0 ∧ pend.has c = true ∧ settings.mask.has c = false
    (stackCode settings pend = 0 ↔ ∀ c, ¬ shown c) ∧
    (stackCode settings pend ≠ 0 → shown (stackCode settings pend) ∧
      ∀ c, shown c → settings.priority.rank (stackCode settings pend) ≤ settings.priority.rank c)

/-! ## Invariants every step keeps -/

/-- For every ring the conservation law holds, the held count is the number of HELD slots, the slot store is in canonical form, and a
disabled ring holds nothing (01 R8, R21, R22, R27). -/
def Obligations.StepKeepsRings : Prop :=
  ∀ s t : State, RingsOk s → step s = .next t → RingsOk t

/-- Slot counts and bases stay as R2 gives them, the windows of enabled rings stay apart and their slots fit the slot store (01 R2, R8, R26),
and outside MONITORING nothing is held or stepped (01 R24, R29). -/
def Obligations.StepKeepsRingMap : Prop :=
  ∀ s t : State, RingMapOk s → UntrackedOk s → step s = .next t → RingMapOk t ∧ UntrackedOk t

/-- The ratio in use stays from 1024 to 16,383 and the accumulator below it, and the counters of the time base in their ranges (02 R31, R33 to
R36, R39, R40); in LOCKED the accumulator stands at 0 (the model's reading of R37, log entry 17). The read of the configuration memory has
one bit for each SPI clock after the first 24, and takes at most 202,336 ticks (10 R165); that the bit is there at the last tick of its
clock, and so at every tick as ticks / 4 counts, is the model's choice (log entry 35). -/
def Obligations.StepKeepsTimeBase : Prop :=
  ∀ s t : State, TimeOk s.time → LoadOk s.load → step s = .next t → TimeOk t.time ∧ LoadOk t.load

/-- No two entries hold one key pair (03 R45), and every flow keeps its period, pending period, misses and idle periods in range, with
misses below the silence count in TRACKING and at it in SILENT (03 R48, R59; 04 R68, R81). -/
def Obligations.StepKeepsDirectory : Prop :=
  ∀ s t : State, DirectoryOk s → FlowsOk s → step s = .next t → DirectoryOk t ∧ FlowsOk t

/-- In MONITORING exactly one summary is OPEN and it is the newest; outside it the history is empty, the timer and the period number stand at
0, and every flow's period tag is 0 (06 R106, R107, R116, R118, R120). -/
def Obligations.StepKeepsHistory : Prop :=
  ∀ s t : State, HistoryOk s → step s = .next t → HistoryOk t

/-- The log holds at most 64 records, no two of one kind and subject (07 R124); STACK shows the highest pending unmasked class and ALERT_N is
asserted exactly when it is not 0 (08 R137); an AUTO class is pending only while the log holds a record of it (08 R135). -/
def Obligations.StepKeepsLogAndAlarms : Prop :=
  ∀ s t : State, LogOk s.log → AlarmOk s.alarm → AutoOk s → step s = .next t → LogOk t.log ∧ AlarmOk t.alarm ∧ AutoOk t

/-- Change counts stay at most 40,000, a disabled chord IDLE, and a chord in TIMING in MONITORING with both CLR inputs pressed (08 R143, R145,
R147); a collection stays within 61 characters, a reply within 63, and a station with address 0 takes no direct request and sends no reply
(09 R150, R151, R155). -/
def Obligations.StepKeepsPanelAndLine : Prop :=
  ∀ s t : State, PanelOk s → LineOk s → step s = .next t → PanelOk t ∧ LineOk t
end

