-- ==== Sys2Proof/Laws/Slots.lean ====
section
/-! SUPPORT. The slot store of a ring: the canonical form in words, kept by making a slot HELD or EMPTY; what a slot reads as after
either; and the number of HELD slots. -/

namespace Sys2Proof.Machine

set_option Elab.async false

/-- The canonical form: indices strictly rising, each below the bound. -/
theorem slotsOk_iff (b : Nat) (l : List (Nat × PendingRecord)) :
    slotsOk b l = true ↔ l.Pairwise (fun p q => p.1 < q.1) ∧ ∀ p ∈ l, p.1 < b := by
  induction l with
  | nil => simp [slotsOk]
  | cons p rest ih =>
    obtain ⟨i, x⟩ := p
    cases rest with
    | nil => simp [slotsOk]
    | cons q rest =>
      obtain ⟨j, y⟩ := q
      simp only [slotsOk, Bool.and_eq_true, decide_eq_true_eq, ih]
      constructor
      · rintro ⟨hij, hp, hb⟩
        refine ⟨List.pairwise_cons.2 ⟨?_, hp⟩, ?_⟩
        · intro a ha
          rcases List.mem_cons.1 ha with rfl | ha
          · exact hij
          · exact Nat.lt_trans hij (List.rel_of_pairwise_cons hp ha)
        · intro a ha
          rcases List.mem_cons.1 ha with rfl | ha
          · exact Nat.lt_trans hij (hb (j, y) (by simp))
          · exact hb a ha
      · rintro ⟨hp, hb⟩
        have h := List.pairwise_cons.1 hp
        exact ⟨h.1 (j, y) (by simp), h.2, fun a ha => hb a (List.mem_cons_of_mem _ ha)⟩

theorem slotPut_mem {l : List (Nat × PendingRecord)} {i : Nat} {r : PendingRecord} {p : Nat × PendingRecord}
    (h : p ∈ slotPut l i r) : p = (i, r) ∨ p ∈ l := by
  induction l with
  | nil => simpa [slotPut] using h
  | cons q rest ih =>
    obtain ⟨j, y⟩ := q
    simp only [slotPut] at h
    split at h
    · simpa using h
    · split at h
      · rcases List.mem_cons.1 h with h | h
        · exact Or.inl h
        · exact Or.inr (List.mem_cons_of_mem _ h)
      · rcases List.mem_cons.1 h with h | h
        · exact Or.inr (h ▸ List.mem_cons_self)
        · rcases ih h with h | h
          · exact Or.inl h
          · exact Or.inr (List.mem_cons_of_mem _ h)

theorem slotErase_sublist (l : List (Nat × PendingRecord)) (i : Nat) : (slotErase l i).Sublist l := by
  induction l with
  | nil => exact List.Sublist.refl _
  | cons q rest ih =>
    obtain ⟨j, y⟩ := q
    simp only [slotErase]
    split
    · exact List.sublist_cons_self _ _
    · exact ih.cons_cons _

/-- Making a slot HELD keeps the canonical form. -/
theorem slotsOk_slotPut {b i : Nat} {l : List (Nat × PendingRecord)} (h : slotsOk b l = true) (hi : i < b) (r : PendingRecord) :
    slotsOk b (slotPut l i r) = true := by
  induction l with
  | nil => simpa [slotPut, slotsOk] using hi
  | cons q rest ih =>
    obtain ⟨j, y⟩ := q
    rw [slotsOk_iff] at h
    obtain ⟨hp, hb⟩ := h
    have hc := List.pairwise_cons.1 hp
    simp only [slotPut]
    split
    · next hlt =>
      rw [slotsOk_iff]
      refine ⟨List.pairwise_cons.2 ⟨?_, hp⟩, ?_⟩
      · intro a ha
        rcases List.mem_cons.1 ha with rfl | ha
        · exact hlt
        · exact Nat.lt_trans hlt (hc.1 a ha)
      · intro a ha
        rcases List.mem_cons.1 ha with rfl | ha
        · exact hi
        · exact hb a ha
    · split
      · next he =>
        subst he
        rw [slotsOk_iff]
        refine ⟨List.pairwise_cons.2 ⟨hc.1, hc.2⟩, ?_⟩
        intro a ha
        rcases List.mem_cons.1 ha with rfl | ha
        · exact hi
        · exact hb a (List.mem_cons_of_mem _ ha)
      · next hnl hne =>
        have hrest : slotsOk b rest = true := (slotsOk_iff b rest).2 ⟨hc.2, fun a ha => hb a (List.mem_cons_of_mem _ ha)⟩
        have hput := (slotsOk_iff b _).1 (ih hrest)
        rw [slotsOk_iff]
        refine ⟨List.pairwise_cons.2 ⟨?_, hput.1⟩, ?_⟩
        · intro a ha
          rcases slotPut_mem ha with rfl | ha
          · exact Nat.lt_of_le_of_ne (Nat.le_of_not_lt hnl) (Ne.symm hne)
          · exact hc.1 a ha
        · intro a ha
          rcases List.mem_cons.1 ha with rfl | ha
          · exact hb (j, y) (by simp)
          · exact hput.2 a ha

/-- Making a slot EMPTY keeps the canonical form. -/
theorem slotsOk_slotErase {b : Nat} {l : List (Nat × PendingRecord)} (h : slotsOk b l = true) (i : Nat) :
    slotsOk b (slotErase l i) = true := by
  rw [slotsOk_iff] at h ⊢
  have hs := slotErase_sublist l i
  exact ⟨h.1.sublist hs, fun p hp => h.2 p (hs.subset hp)⟩

/-- A slot just made HELD reads as its record. -/
theorem slotGet_slotPut_self (l : List (Nat × PendingRecord)) (i : Nat) (r : PendingRecord) :
    slotGet (slotPut l i r) i = some r := by
  induction l with
  | nil => simp [slotPut, slotGet]
  | cons q rest ih =>
    obtain ⟨j, y⟩ := q
    simp only [slotPut]
    split
    · simp [slotGet]
    · split
      · simp [slotGet]
      · next h => simp [slotGet, h, ih]

/-- Every other slot reads as before. -/
theorem slotGet_slotPut_ne (l : List (Nat × PendingRecord)) {i k : Nat} (r : PendingRecord) (hk : k ≠ i) :
    slotGet (slotPut l i r) k = slotGet l k := by
  induction l with
  | nil => simp [slotPut, slotGet, hk]
  | cons q rest ih =>
    obtain ⟨j, y⟩ := q
    simp only [slotPut]
    split
    · simp [slotGet, hk]
    · split
      · next h => subst h; simp [slotGet, hk]
      · simp [slotGet, ih]

/-- Making one slot EMPTY leaves what every other reads as. -/
theorem slotGet_slotErase_ne (l : List (Nat × PendingRecord)) {i k : Nat} (hk : k ≠ i) :
    slotGet (slotErase l i) k = slotGet l k := by
  induction l with
  | nil => rfl
  | cons q rest ih =>
    obtain ⟨j, y⟩ := q
    simp only [slotErase]
    split
    · next h => subst h; simp [slotGet, hk]
    · simp [slotGet, ih]

theorem slotGet_eq_none {l : List (Nat × PendingRecord)} {i : Nat} (h : ∀ p ∈ l, p.1 ≠ i) : slotGet l i = none := by
  induction l with
  | nil => rfl
  | cons q rest ih =>
    obtain ⟨j, y⟩ := q
    have hj : i ≠ j := fun e => h (j, y) (by simp) e.symm
    simp only [slotGet, if_neg hj]
    exact ih (fun p hp => h p (List.mem_cons_of_mem _ hp))

/-- In canonical form a slot made EMPTY reads as EMPTY. -/
theorem slotGet_slotErase_self {b : Nat} {l : List (Nat × PendingRecord)} (h : slotsOk b l = true) (i : Nat) :
    slotGet (slotErase l i) i = none := by
  rw [slotsOk_iff] at h
  obtain ⟨hp, -⟩ := h
  induction l with
  | nil => rfl
  | cons q rest ih =>
    obtain ⟨j, y⟩ := q
    have hc := List.pairwise_cons.1 hp
    simp only [slotErase]
    split
    · next he =>
      subst he
      exact slotGet_eq_none (fun p hp' e => Nat.lt_irrefl _ (e ▸ hc.1 p hp'))
    · next hne => simp [slotGet, hne, ih hc.2]

/-- A HELD slot is listed. -/
theorem slotGet_mem {l : List (Nat × PendingRecord)} {i : Nat} {r : PendingRecord} (h : slotGet l i = some r) : (i, r) ∈ l := by
  induction l with
  | nil => simp [slotGet] at h
  | cons q rest ih =>
    obtain ⟨j, y⟩ := q
    simp only [slotGet] at h
    split at h
    · next he => subst he; simp at h; subst h; simp
    · exact List.mem_cons_of_mem _ (ih h)

/-- An EMPTY slot made HELD adds one to the number of HELD slots. -/
theorem slotPut_length_empty {b : Nat} {l : List (Nat × PendingRecord)} {i : Nat} (hl : slotsOk b l = true) (h : slotGet l i = none)
    (r : PendingRecord) :
    (slotPut l i r).length = l.length + 1 := by
  rw [slotsOk_iff] at hl
  obtain ⟨hp, -⟩ := hl
  induction l with
  | nil => rfl
  | cons q rest ih =>
    obtain ⟨j, y⟩ := q
    have hc := List.pairwise_cons.1 hp
    simp only [slotGet] at h
    simp only [slotPut]
    split
    · simp
    · split
      · next he => simp [he] at h
      · next hne =>
        rw [if_neg hne] at h
        simp [ih h hc.2]

/-- A HELD slot given another record keeps the number of HELD slots. -/
theorem slotPut_length_held {b : Nat} {l : List (Nat × PendingRecord)} {i : Nat} {p : PendingRecord} (hl : slotsOk b l = true)
    (h : slotGet l i = some p) (r : PendingRecord) : (slotPut l i r).length = l.length := by
  rw [slotsOk_iff] at hl
  obtain ⟨hp, -⟩ := hl
  induction l with
  | nil => simp [slotGet] at h
  | cons q rest ih =>
    obtain ⟨j, y⟩ := q
    have hc := List.pairwise_cons.1 hp
    simp only [slotGet] at h
    simp only [slotPut]
    split
    · next hlt =>
      rw [if_neg (Nat.ne_of_lt hlt)] at h
      exact absurd (hc.1 _ (slotGet_mem h)) (Nat.not_lt.2 (Nat.le_of_lt hlt))
    · split
      · simp
      · next hne =>
        rw [if_neg hne] at h
        simp [ih h hc.2]

/-- A HELD slot made EMPTY takes one from the number of HELD slots. -/
theorem slotErase_length {l : List (Nat × PendingRecord)} {i : Nat} {p : PendingRecord} (h : slotGet l i = some p) :
    (slotErase l i).length + 1 = l.length := by
  induction l with
  | nil => simp [slotGet] at h
  | cons q rest ih =>
    obtain ⟨j, y⟩ := q
    simp only [slotGet] at h
    simp only [slotErase]
    split
    · simp
    · next hne =>
      rw [if_neg hne] at h
      simp [ih h]

/-- A slot that is EMPTY made EMPTY changes nothing. -/
theorem slotErase_eq_self {l : List (Nat × PendingRecord)} {i : Nat} (h : ∀ p ∈ l, p.1 ≠ i) : slotErase l i = l := by
  induction l with
  | nil => rfl
  | cons q rest ih =>
    obtain ⟨j, y⟩ := q
    have hj : i ≠ j := fun e => h (j, y) (by simp) e.symm
    simp only [slotErase, if_neg hj]
    rw [ih (fun p hp => h p (List.mem_cons_of_mem _ hp))]

/-- A replacement made as the descriptor path makes it, EMPTY and then HELD again, is one put. -/
theorem slotPut_slotErase {b : Nat} {l : List (Nat × PendingRecord)} (hl : slotsOk b l = true) (i : Nat) (r : PendingRecord) :
    slotPut (slotErase l i) i r = slotPut l i r := by
  rw [slotsOk_iff] at hl
  obtain ⟨hp, -⟩ := hl
  induction l with
  | nil => rfl
  | cons q rest ih =>
    obtain ⟨j, y⟩ := q
    have hc := List.pairwise_cons.1 hp
    by_cases he : i = j
    · subst he
      simp only [slotErase, slotPut, if_neg (Nat.lt_irrefl i)]
      cases rest with
      | nil => rfl
      | cons p rest =>
        obtain ⟨k, z⟩ := p
        have hk : i < k := hc.1 (k, z) (by simp)
        simp [slotPut, hk]
    · simp only [slotErase, if_neg he, slotPut, ih hc.2]
      split
      · next hlt => rw [slotErase_eq_self (fun p hp' e => by
          have hlt' : j < p.1 := hc.1 p hp'
          omega)]
      · rfl

/-- A ring never holds more than its slots (01 R8). -/
theorem slotsOk_length {b : Nat} {l : List (Nat × PendingRecord)} (h : slotsOk b l = true) : l.length ≤ b := by
  rw [slotsOk_iff] at h
  have hn : (l.map Prod.fst).Nodup := by
    rw [List.Nodup, List.pairwise_map]
    exact h.1.imp (fun hlt => Nat.ne_of_lt hlt)
  have hs : (l.map Prod.fst) ⊆ List.range b := by
    intro i hi
    obtain ⟨p, hp, rfl⟩ := List.mem_map.1 hi
    exact List.mem_range.2 (h.2 p hp)
  have hle := (hn.subperm hs).length_le
  simpa using hle

end Sys2Proof.Machine
end

