-- ==== Sys2Proof/Laws/State.lean ====
section
/-! SUPPORT. What each named update of the state leaves and what it sets, one lemma a field, true by rfl; and reading back a ring or
an entry after one is set. -/

namespace Sys2Proof.Machine

section
variable (s : State) (r : RingIx) (x : RingRecord)

@[simp] theorem State.setRing_pending : (s.setRing r x).pending = s.pending := rfl
@[simp] theorem State.setRing_device : (s.setRing r x).device = s.device := rfl
@[simp] theorem State.setRing_rstAsserted : (s.setRing r x).rstAsserted = s.rstAsserted := rfl
@[simp] theorem State.setRing_pins : (s.setRing r x).pins = s.pins := rfl
@[simp] theorem State.setRing_straps : (s.setRing r x).straps = s.straps := rfl
@[simp] theorem State.setRing_startRec : (s.setRing r x).startRec = s.startRec := rfl
@[simp] theorem State.setRing_load : (s.setRing r x).load = s.load := rfl
@[simp] theorem State.setRing_path : (s.setRing r x).path = s.path := rfl
@[simp] theorem State.setRing_reads : (s.setRing r x).reads = s.reads := rfl
@[simp] theorem State.setRing_values : (s.setRing r x).values = s.values := rfl
@[simp] theorem State.setRing_flows : (s.setRing r x).flows = s.flows := rfl
@[simp] theorem State.setRing_time : (s.setRing r x).time = s.time := rfl
@[simp] theorem State.setRing_due : (s.setRing r x).due = s.due := rfl
@[simp] theorem State.setRing_sweepNext : (s.setRing r x).sweepNext = s.sweepNext := rfl
@[simp] theorem State.setRing_tally : (s.setRing r x).tally = s.tally := rfl
@[simp] theorem State.setRing_log : (s.setRing r x).log = s.log := rfl
@[simp] theorem State.setRing_alarm : (s.setRing r x).alarm = s.alarm := rfl
@[simp] theorem State.setRing_panel : (s.setRing r x).panel = s.panel := rfl
@[simp] theorem State.setRing_line : (s.setRing r x).line = s.line := rfl

end

section
variable (s : State) (r : RingIx) (f : RingRecord → RingRecord)

@[simp] theorem State.modRing_pending : (s.modRing r f).pending = s.pending := rfl
@[simp] theorem State.modRing_device : (s.modRing r f).device = s.device := rfl
@[simp] theorem State.modRing_rstAsserted : (s.modRing r f).rstAsserted = s.rstAsserted := rfl
@[simp] theorem State.modRing_pins : (s.modRing r f).pins = s.pins := rfl
@[simp] theorem State.modRing_straps : (s.modRing r f).straps = s.straps := rfl
@[simp] theorem State.modRing_startRec : (s.modRing r f).startRec = s.startRec := rfl
@[simp] theorem State.modRing_load : (s.modRing r f).load = s.load := rfl
@[simp] theorem State.modRing_path : (s.modRing r f).path = s.path := rfl
@[simp] theorem State.modRing_reads : (s.modRing r f).reads = s.reads := rfl
@[simp] theorem State.modRing_values : (s.modRing r f).values = s.values := rfl
@[simp] theorem State.modRing_flows : (s.modRing r f).flows = s.flows := rfl
@[simp] theorem State.modRing_time : (s.modRing r f).time = s.time := rfl
@[simp] theorem State.modRing_due : (s.modRing r f).due = s.due := rfl
@[simp] theorem State.modRing_sweepNext : (s.modRing r f).sweepNext = s.sweepNext := rfl
@[simp] theorem State.modRing_tally : (s.modRing r f).tally = s.tally := rfl
@[simp] theorem State.modRing_log : (s.modRing r f).log = s.log := rfl
@[simp] theorem State.modRing_alarm : (s.modRing r f).alarm = s.alarm := rfl
@[simp] theorem State.modRing_panel : (s.modRing r f).panel = s.panel := rfl
@[simp] theorem State.modRing_line : (s.modRing r f).line = s.line := rfl

end

section
variable (s : State) (i : FlowIx) (e : FlowEntry)

@[simp] theorem State.setEntry_pending : (s.setEntry i e).pending = s.pending := rfl
@[simp] theorem State.setEntry_device : (s.setEntry i e).device = s.device := rfl
@[simp] theorem State.setEntry_rstAsserted : (s.setEntry i e).rstAsserted = s.rstAsserted := rfl
@[simp] theorem State.setEntry_pins : (s.setEntry i e).pins = s.pins := rfl
@[simp] theorem State.setEntry_straps : (s.setEntry i e).straps = s.straps := rfl
@[simp] theorem State.setEntry_startRec : (s.setEntry i e).startRec = s.startRec := rfl
@[simp] theorem State.setEntry_load : (s.setEntry i e).load = s.load := rfl
@[simp] theorem State.setEntry_path : (s.setEntry i e).path = s.path := rfl
@[simp] theorem State.setEntry_reads : (s.setEntry i e).reads = s.reads := rfl
@[simp] theorem State.setEntry_values : (s.setEntry i e).values = s.values := rfl
@[simp] theorem State.setEntry_rings : (s.setEntry i e).rings = s.rings := rfl
@[simp] theorem State.setEntry_time : (s.setEntry i e).time = s.time := rfl
@[simp] theorem State.setEntry_due : (s.setEntry i e).due = s.due := rfl
@[simp] theorem State.setEntry_sweepNext : (s.setEntry i e).sweepNext = s.sweepNext := rfl
@[simp] theorem State.setEntry_tally : (s.setEntry i e).tally = s.tally := rfl
@[simp] theorem State.setEntry_log : (s.setEntry i e).log = s.log := rfl
@[simp] theorem State.setEntry_alarm : (s.setEntry i e).alarm = s.alarm := rfl
@[simp] theorem State.setEntry_panel : (s.setEntry i e).panel = s.panel := rfl
@[simp] theorem State.setEntry_line : (s.setEntry i e).line = s.line := rfl

end

section
variable (s : State) (i : FlowIx) (f : FlowRecord)

@[simp] theorem State.setFlow_pending : (s.setFlow i f).pending = s.pending := rfl
@[simp] theorem State.setFlow_device : (s.setFlow i f).device = s.device := rfl
@[simp] theorem State.setFlow_rstAsserted : (s.setFlow i f).rstAsserted = s.rstAsserted := rfl
@[simp] theorem State.setFlow_pins : (s.setFlow i f).pins = s.pins := rfl
@[simp] theorem State.setFlow_straps : (s.setFlow i f).straps = s.straps := rfl
@[simp] theorem State.setFlow_startRec : (s.setFlow i f).startRec = s.startRec := rfl
@[simp] theorem State.setFlow_load : (s.setFlow i f).load = s.load := rfl
@[simp] theorem State.setFlow_path : (s.setFlow i f).path = s.path := rfl
@[simp] theorem State.setFlow_reads : (s.setFlow i f).reads = s.reads := rfl
@[simp] theorem State.setFlow_values : (s.setFlow i f).values = s.values := rfl
@[simp] theorem State.setFlow_rings : (s.setFlow i f).rings = s.rings := rfl
@[simp] theorem State.setFlow_time : (s.setFlow i f).time = s.time := rfl
@[simp] theorem State.setFlow_due : (s.setFlow i f).due = s.due := rfl
@[simp] theorem State.setFlow_sweepNext : (s.setFlow i f).sweepNext = s.sweepNext := rfl
@[simp] theorem State.setFlow_tally : (s.setFlow i f).tally = s.tally := rfl
@[simp] theorem State.setFlow_log : (s.setFlow i f).log = s.log := rfl
@[simp] theorem State.setFlow_alarm : (s.setFlow i f).alarm = s.alarm := rfl
@[simp] theorem State.setFlow_panel : (s.setFlow i f).panel = s.panel := rfl
@[simp] theorem State.setFlow_line : (s.setFlow i f).line = s.line := rfl

end

section
variable (s : State) (i : FlowIx)

@[simp] theorem State.vacate_pending : (s.vacate i).pending = s.pending := rfl
@[simp] theorem State.vacate_device : (s.vacate i).device = s.device := rfl
@[simp] theorem State.vacate_rstAsserted : (s.vacate i).rstAsserted = s.rstAsserted := rfl
@[simp] theorem State.vacate_pins : (s.vacate i).pins = s.pins := rfl
@[simp] theorem State.vacate_straps : (s.vacate i).straps = s.straps := rfl
@[simp] theorem State.vacate_startRec : (s.vacate i).startRec = s.startRec := rfl
@[simp] theorem State.vacate_load : (s.vacate i).load = s.load := rfl
@[simp] theorem State.vacate_path : (s.vacate i).path = s.path := rfl
@[simp] theorem State.vacate_reads : (s.vacate i).reads = s.reads := rfl
@[simp] theorem State.vacate_values : (s.vacate i).values = s.values := rfl
@[simp] theorem State.vacate_rings : (s.vacate i).rings = s.rings := rfl
@[simp] theorem State.vacate_time : (s.vacate i).time = s.time := rfl
@[simp] theorem State.vacate_due : (s.vacate i).due = s.due := rfl
@[simp] theorem State.vacate_sweepNext : (s.vacate i).sweepNext = s.sweepNext := rfl
@[simp] theorem State.vacate_tally : (s.vacate i).tally = s.tally := rfl
@[simp] theorem State.vacate_log : (s.vacate i).log = s.log := rfl
@[simp] theorem State.vacate_alarm : (s.vacate i).alarm = s.alarm := rfl
@[simp] theorem State.vacate_panel : (s.vacate i).panel = s.panel := rfl
@[simp] theorem State.vacate_line : (s.vacate i).line = s.line := rfl

end

section
variable (s : State) (h : List Summary)

@[simp] theorem State.setHistory_pending : (s.setHistory h).pending = s.pending := rfl
@[simp] theorem State.setHistory_device : (s.setHistory h).device = s.device := rfl
@[simp] theorem State.setHistory_rstAsserted : (s.setHistory h).rstAsserted = s.rstAsserted := rfl
@[simp] theorem State.setHistory_pins : (s.setHistory h).pins = s.pins := rfl
@[simp] theorem State.setHistory_straps : (s.setHistory h).straps = s.straps := rfl
@[simp] theorem State.setHistory_startRec : (s.setHistory h).startRec = s.startRec := rfl
@[simp] theorem State.setHistory_load : (s.setHistory h).load = s.load := rfl
@[simp] theorem State.setHistory_path : (s.setHistory h).path = s.path := rfl
@[simp] theorem State.setHistory_reads : (s.setHistory h).reads = s.reads := rfl
@[simp] theorem State.setHistory_values : (s.setHistory h).values = s.values := rfl
@[simp] theorem State.setHistory_rings : (s.setHistory h).rings = s.rings := rfl
@[simp] theorem State.setHistory_flows : (s.setHistory h).flows = s.flows := rfl
@[simp] theorem State.setHistory_time : (s.setHistory h).time = s.time := rfl
@[simp] theorem State.setHistory_due : (s.setHistory h).due = s.due := rfl
@[simp] theorem State.setHistory_sweepNext : (s.setHistory h).sweepNext = s.sweepNext := rfl
@[simp] theorem State.setHistory_log : (s.setHistory h).log = s.log := rfl
@[simp] theorem State.setHistory_alarm : (s.setHistory h).alarm = s.alarm := rfl
@[simp] theorem State.setHistory_panel : (s.setHistory h).panel = s.panel := rfl
@[simp] theorem State.setHistory_line : (s.setHistory h).line = s.line := rfl

end

section
variable (s : State) (f : Summary → Summary)

@[simp] theorem State.modOpen_pending : (s.modOpen f).pending = s.pending := rfl
@[simp] theorem State.modOpen_device : (s.modOpen f).device = s.device := rfl
@[simp] theorem State.modOpen_rstAsserted : (s.modOpen f).rstAsserted = s.rstAsserted := rfl
@[simp] theorem State.modOpen_pins : (s.modOpen f).pins = s.pins := rfl
@[simp] theorem State.modOpen_straps : (s.modOpen f).straps = s.straps := rfl
@[simp] theorem State.modOpen_startRec : (s.modOpen f).startRec = s.startRec := rfl
@[simp] theorem State.modOpen_load : (s.modOpen f).load = s.load := rfl
@[simp] theorem State.modOpen_path : (s.modOpen f).path = s.path := rfl
@[simp] theorem State.modOpen_reads : (s.modOpen f).reads = s.reads := rfl
@[simp] theorem State.modOpen_values : (s.modOpen f).values = s.values := rfl
@[simp] theorem State.modOpen_rings : (s.modOpen f).rings = s.rings := rfl
@[simp] theorem State.modOpen_flows : (s.modOpen f).flows = s.flows := rfl
@[simp] theorem State.modOpen_time : (s.modOpen f).time = s.time := rfl
@[simp] theorem State.modOpen_due : (s.modOpen f).due = s.due := rfl
@[simp] theorem State.modOpen_sweepNext : (s.modOpen f).sweepNext = s.sweepNext := rfl
@[simp] theorem State.modOpen_log : (s.modOpen f).log = s.log := rfl
@[simp] theorem State.modOpen_alarm : (s.modOpen f).alarm = s.alarm := rfl
@[simp] theorem State.modOpen_panel : (s.modOpen f).panel = s.panel := rfl
@[simp] theorem State.modOpen_line : (s.modOpen f).line = s.line := rfl

end

section
variable (s : State) (f : Summary → Summary)

@[simp] theorem State.modClosing_pending : (s.modClosing f).pending = s.pending := rfl
@[simp] theorem State.modClosing_device : (s.modClosing f).device = s.device := rfl
@[simp] theorem State.modClosing_rstAsserted : (s.modClosing f).rstAsserted = s.rstAsserted := rfl
@[simp] theorem State.modClosing_pins : (s.modClosing f).pins = s.pins := rfl
@[simp] theorem State.modClosing_straps : (s.modClosing f).straps = s.straps := rfl
@[simp] theorem State.modClosing_startRec : (s.modClosing f).startRec = s.startRec := rfl
@[simp] theorem State.modClosing_load : (s.modClosing f).load = s.load := rfl
@[simp] theorem State.modClosing_path : (s.modClosing f).path = s.path := rfl
@[simp] theorem State.modClosing_reads : (s.modClosing f).reads = s.reads := rfl
@[simp] theorem State.modClosing_values : (s.modClosing f).values = s.values := rfl
@[simp] theorem State.modClosing_rings : (s.modClosing f).rings = s.rings := rfl
@[simp] theorem State.modClosing_flows : (s.modClosing f).flows = s.flows := rfl
@[simp] theorem State.modClosing_time : (s.modClosing f).time = s.time := rfl
@[simp] theorem State.modClosing_due : (s.modClosing f).due = s.due := rfl
@[simp] theorem State.modClosing_sweepNext : (s.modClosing f).sweepNext = s.sweepNext := rfl
@[simp] theorem State.modClosing_log : (s.modClosing f).log = s.log := rfl
@[simp] theorem State.modClosing_alarm : (s.modClosing f).alarm = s.alarm := rfl
@[simp] theorem State.modClosing_panel : (s.modClosing f).panel = s.panel := rfl
@[simp] theorem State.modClosing_line : (s.modClosing f).line = s.line := rfl

end

section
variable (s : State) (x : Option Reply)

@[simp] theorem State.setReply_pending : (s.setReply x).pending = s.pending := rfl
@[simp] theorem State.setReply_device : (s.setReply x).device = s.device := rfl
@[simp] theorem State.setReply_rstAsserted : (s.setReply x).rstAsserted = s.rstAsserted := rfl
@[simp] theorem State.setReply_pins : (s.setReply x).pins = s.pins := rfl
@[simp] theorem State.setReply_straps : (s.setReply x).straps = s.straps := rfl
@[simp] theorem State.setReply_startRec : (s.setReply x).startRec = s.startRec := rfl
@[simp] theorem State.setReply_load : (s.setReply x).load = s.load := rfl
@[simp] theorem State.setReply_path : (s.setReply x).path = s.path := rfl
@[simp] theorem State.setReply_reads : (s.setReply x).reads = s.reads := rfl
@[simp] theorem State.setReply_values : (s.setReply x).values = s.values := rfl
@[simp] theorem State.setReply_rings : (s.setReply x).rings = s.rings := rfl
@[simp] theorem State.setReply_flows : (s.setReply x).flows = s.flows := rfl
@[simp] theorem State.setReply_time : (s.setReply x).time = s.time := rfl
@[simp] theorem State.setReply_due : (s.setReply x).due = s.due := rfl
@[simp] theorem State.setReply_sweepNext : (s.setReply x).sweepNext = s.sweepNext := rfl
@[simp] theorem State.setReply_tally : (s.setReply x).tally = s.tally := rfl
@[simp] theorem State.setReply_log : (s.setReply x).log = s.log := rfl
@[simp] theorem State.setReply_alarm : (s.setReply x).alarm = s.alarm := rfl
@[simp] theorem State.setReply_panel : (s.setReply x).panel = s.panel := rfl

end

section
variable (s : State) (x : RxState)

@[simp] theorem State.setRx_pending : (s.setRx x).pending = s.pending := rfl
@[simp] theorem State.setRx_device : (s.setRx x).device = s.device := rfl
@[simp] theorem State.setRx_rstAsserted : (s.setRx x).rstAsserted = s.rstAsserted := rfl
@[simp] theorem State.setRx_pins : (s.setRx x).pins = s.pins := rfl
@[simp] theorem State.setRx_straps : (s.setRx x).straps = s.straps := rfl
@[simp] theorem State.setRx_startRec : (s.setRx x).startRec = s.startRec := rfl
@[simp] theorem State.setRx_load : (s.setRx x).load = s.load := rfl
@[simp] theorem State.setRx_path : (s.setRx x).path = s.path := rfl
@[simp] theorem State.setRx_reads : (s.setRx x).reads = s.reads := rfl
@[simp] theorem State.setRx_values : (s.setRx x).values = s.values := rfl
@[simp] theorem State.setRx_rings : (s.setRx x).rings = s.rings := rfl
@[simp] theorem State.setRx_flows : (s.setRx x).flows = s.flows := rfl
@[simp] theorem State.setRx_time : (s.setRx x).time = s.time := rfl
@[simp] theorem State.setRx_due : (s.setRx x).due = s.due := rfl
@[simp] theorem State.setRx_sweepNext : (s.setRx x).sweepNext = s.sweepNext := rfl
@[simp] theorem State.setRx_tally : (s.setRx x).tally = s.tally := rfl
@[simp] theorem State.setRx_log : (s.setRx x).log = s.log := rfl
@[simp] theorem State.setRx_alarm : (s.setRx x).alarm = s.alarm := rfl
@[simp] theorem State.setRx_panel : (s.setRx x).panel = s.panel := rfl

end

section
variable (s : State) (h : List Summary)

@[simp] theorem State.setHistory_periodNumber : (s.setHistory h).tally.periodNumber = s.tally.periodNumber := rfl
@[simp] theorem State.setHistory_timer : (s.setHistory h).tally.timer = s.tally.timer := rfl
@[simp] theorem State.setHistory_code : (s.setHistory h).tally.code = s.tally.code := rfl
@[simp] theorem State.setHistory_pendingCode : (s.setHistory h).tally.pendingCode = s.tally.pendingCode := rfl

end

section
variable (s : State) (f : Summary → Summary)

@[simp] theorem State.modOpen_periodNumber : (s.modOpen f).tally.periodNumber = s.tally.periodNumber := rfl
@[simp] theorem State.modOpen_timer : (s.modOpen f).tally.timer = s.tally.timer := rfl
@[simp] theorem State.modOpen_code : (s.modOpen f).tally.code = s.tally.code := rfl
@[simp] theorem State.modOpen_pendingCode : (s.modOpen f).tally.pendingCode = s.tally.pendingCode := rfl

end

section
variable (s : State) (f : Summary → Summary)

@[simp] theorem State.modClosing_periodNumber : (s.modClosing f).tally.periodNumber = s.tally.periodNumber := rfl
@[simp] theorem State.modClosing_timer : (s.modClosing f).tally.timer = s.tally.timer := rfl
@[simp] theorem State.modClosing_code : (s.modClosing f).tally.code = s.tally.code := rfl
@[simp] theorem State.modClosing_pendingCode : (s.modClosing f).tally.pendingCode = s.tally.pendingCode := rfl

end

section
variable (s : State) (x : Option Reply)

@[simp] theorem State.setReply_line_rx : (s.setReply x).line.rx = s.line.rx := rfl
@[simp] theorem State.setReply_line_gapTicks : (s.setReply x).line.gapTicks = s.line.gapTicks := rfl
@[simp] theorem State.setReply_line_receiver : (s.setReply x).line.receiver = s.line.receiver := rfl
@[simp] theorem State.setReply_line_rxLast : (s.setReply x).line.rxLast = s.line.rxLast := rfl
@[simp] theorem State.setReply_line_received : (s.setReply x).line.received = s.line.received := rfl
@[simp] theorem State.setReply_line_lineErrors : (s.setReply x).line.lineErrors = s.line.lineErrors := rfl

end

section
variable (s : State) (x : RxState)

@[simp] theorem State.setRx_line_gapTicks : (s.setRx x).line.gapTicks = s.line.gapTicks := rfl
@[simp] theorem State.setRx_line_receiver : (s.setRx x).line.receiver = s.line.receiver := rfl
@[simp] theorem State.setRx_line_rxLast : (s.setRx x).line.rxLast = s.line.rxLast := rfl
@[simp] theorem State.setRx_line_received : (s.setRx x).line.received = s.line.received := rfl
@[simp] theorem State.setRx_line_reply : (s.setRx x).line.reply = s.line.reply := rfl
@[simp] theorem State.setRx_line_lineErrors : (s.setRx x).line.lineErrors = s.line.lineErrors := rfl

end

@[simp] theorem State.setReply_line_reply (s : State) (x : Option Reply) : (s.setReply x).line.reply = x := rfl
@[simp] theorem State.setRx_line_rx (s : State) (x : RxState) : (s.setRx x).line.rx = x := rfl
@[simp] theorem State.setHistory_history (s : State) (h : List Summary) : (s.setHistory h).tally.history = h := rfl
@[simp] theorem State.modOpen_history (s : State) (f : Summary → Summary) :
    (s.modOpen f).tally.history = s.tally.history.map (fun q => if q.isOpen then f q else q) := rfl
@[simp] theorem State.modClosing_history (s : State) (f : Summary → Summary) :
    (s.modClosing f).tally.history = s.tally.history.map (fun q => if q.isClosing then f q else q) := rfl
@[simp] theorem State.setRing_rings (s : State) (r : RingIx) (x : RingRecord) : (s.setRing r x).rings = s.rings.set r x := rfl
@[simp] theorem State.setEntry_flows (s : State) (i : FlowIx) (e : FlowEntry) : (s.setEntry i e).flows = s.flows.set i e := rfl

/-! ## Raising -/

section
variable (k : IncidentKind) (x : Subject) (v : BitVec 32) (s : State)

@[simp] theorem raise_pending : (raise k x v s).pending = s.pending := rfl
@[simp] theorem raise_device : (raise k x v s).device = s.device := rfl
@[simp] theorem raise_rstAsserted : (raise k x v s).rstAsserted = s.rstAsserted := rfl
@[simp] theorem raise_pins : (raise k x v s).pins = s.pins := rfl
@[simp] theorem raise_straps : (raise k x v s).straps = s.straps := rfl
@[simp] theorem raise_startRec : (raise k x v s).startRec = s.startRec := rfl
@[simp] theorem raise_load : (raise k x v s).load = s.load := rfl
@[simp] theorem raise_path : (raise k x v s).path = s.path := rfl
@[simp] theorem raise_reads : (raise k x v s).reads = s.reads := rfl
@[simp] theorem raise_values : (raise k x v s).values = s.values := rfl
@[simp] theorem raise_rings : (raise k x v s).rings = s.rings := rfl
@[simp] theorem raise_flows : (raise k x v s).flows = s.flows := rfl
@[simp] theorem raise_time : (raise k x v s).time = s.time := rfl
@[simp] theorem raise_due : (raise k x v s).due = s.due := rfl
@[simp] theorem raise_sweepNext : (raise k x v s).sweepNext = s.sweepNext := rfl
@[simp] theorem raise_tally : (raise k x v s).tally = s.tally := rfl
@[simp] theorem raise_panel : (raise k x v s).panel = s.panel := rfl
@[simp] theorem raise_line : (raise k x v s).line = s.line := rfl

end

/-! ## Reading back -/

theorem State.setRing_ring (s : State) (r q : RingIx) (x : RingRecord) :
    (s.setRing r x).ring q = if q = r then x else s.ring q := by
  simp only [State.ring, State.setRing]
  by_cases h : q = r
  · subst h; simp
  · rw [if_neg h]
    exact Vector.getElem_set_ne _ _ (fun e => h (Fin.ext e.symm))

@[simp] theorem State.setRing_ring_self (s : State) (r : RingIx) (x : RingRecord) : (s.setRing r x).ring r = x := by
  rw [State.setRing_ring, if_pos rfl]

theorem State.setRing_ring_ne (s : State) {r q : RingIx} (x : RingRecord) (h : q ≠ r) : (s.setRing r x).ring q = s.ring q := by
  rw [State.setRing_ring, if_neg h]

theorem State.modRing_ring (s : State) (r q : RingIx) (f : RingRecord → RingRecord) :
    (s.modRing r f).ring q = if q = r then f (s.ring r) else s.ring q := State.setRing_ring s r q _

@[simp] theorem State.modRing_ring_self (s : State) (r : RingIx) (f : RingRecord → RingRecord) :
    (s.modRing r f).ring r = f (s.ring r) := State.setRing_ring_self s r _

theorem State.modRing_ring_ne (s : State) {r q : RingIx} (f : RingRecord → RingRecord) (h : q ≠ r) :
    (s.modRing r f).ring q = s.ring q := State.setRing_ring_ne s _ h

theorem State.setEntry_entry (s : State) (i j : FlowIx) (e : FlowEntry) :
    (s.setEntry i e).entry j = if j = i then e else s.entry j := by
  simp only [State.entry, State.setEntry]
  by_cases h : j = i
  · subst h; simp
  · rw [if_neg h]
    exact Vector.getElem_set_ne _ _ (fun e => h (Fin.ext e.symm))

theorem State.setFlow_flowAt (s : State) (i j : FlowIx) (f : FlowRecord) :
    (s.setFlow i f).flowAt j = if j = i then some f else s.flowAt j := by
  simp only [State.flowAt, State.setFlow, State.setEntry_entry]
  split <;> rfl

@[simp] theorem State.setFlow_flowAt_self (s : State) (i : FlowIx) (f : FlowRecord) : (s.setFlow i f).flowAt i = some f := by
  rw [State.setFlow_flowAt, if_pos rfl]

theorem State.vacate_flowAt (s : State) (i j : FlowIx) : (s.vacate i).flowAt j = if j = i then none else s.flowAt j := by
  simp only [State.flowAt, State.vacate, State.setEntry_entry]
  split <;> rfl

/-- Generations: a flow written keeps it (03 R52). -/
theorem State.setFlow_gen (s : State) (i j : FlowIx) (f : FlowRecord) : ((s.setFlow i f).entry j).gen = (s.entry j).gen := by
  simp only [State.setFlow, State.setEntry_entry]
  split
  · next h => subst h; rfl
  · rfl

/-- Generations: a vacating raises that of its entry by 1 modulo 16 (03 R52). -/
theorem State.vacate_gen (s : State) (i j : FlowIx) :
    ((s.vacate i).entry j).gen = if j = i then (s.entry i).gen + 1 else (s.entry j).gen := by
  simp only [State.vacate, State.setEntry_entry]
  split <;> rfl

/-- What reading a ring, an entry or the total held looks at. -/
theorem State.ring_eq_of_rings {s t : State} (h : t.rings = s.rings) (r : RingIx) : t.ring r = s.ring r := by
  rw [State.ring, State.ring, h]

theorem State.entry_eq_of_flows {s t : State} (h : t.flows = s.flows) (i : FlowIx) : t.entry i = s.entry i := by
  rw [State.entry, State.entry, h]

theorem State.flowAt_eq_of_flows {s t : State} (h : t.flows = s.flows) (i : FlowIx) : t.flowAt i = s.flowAt i := by
  rw [State.flowAt, State.flowAt, State.entry_eq_of_flows h]

end Sys2Proof.Machine
end

