-- ==== Sys2Proof/Laws/Frame.lean ====
section
/-! SUPPORT. What the shared operations leave unchanged, said once for each: the directory's operations change flows, history, log and
alarm state alone; those of the descriptor path change ring counters and slots besides, and no ring's definition. -/

namespace Sys2Proof.Machine

set_option Elab.async false

/-! ## Operations of the directory -/

/-- t differs from s in flows, history, log and alarm state at most. -/
structure DirectoryFrame (s t : State) : Prop where
  pending      : t.pending = s.pending
  device       : t.device = s.device
  rstAsserted  : t.rstAsserted = s.rstAsserted
  pins         : t.pins = s.pins
  straps       : t.straps = s.straps
  startRec     : t.startRec = s.startRec
  load         : t.load = s.load
  path         : t.path = s.path
  reads        : t.reads = s.reads
  values       : t.values = s.values
  rings        : t.rings = s.rings
  time         : t.time = s.time
  due          : t.due = s.due
  sweepNext    : t.sweepNext = s.sweepNext
  panel        : t.panel = s.panel
  line         : t.line = s.line
  periodNumber : t.tally.periodNumber = s.tally.periodNumber
  timer        : t.tally.timer = s.tally.timer
  code         : t.tally.code = s.tally.code
  pendingCode  : t.tally.pendingCode = s.tally.pendingCode

theorem DirectoryFrame.refl (s : State) : DirectoryFrame s s := by constructor <;> rfl

theorem DirectoryFrame.trans {s t u : State} (h : DirectoryFrame s t) (k : DirectoryFrame t u) : DirectoryFrame s u where
  pending := k.pending.trans h.pending
  device := k.device.trans h.device
  rstAsserted := k.rstAsserted.trans h.rstAsserted
  pins := k.pins.trans h.pins
  straps := k.straps.trans h.straps
  startRec := k.startRec.trans h.startRec
  load := k.load.trans h.load
  path := k.path.trans h.path
  reads := k.reads.trans h.reads
  values := k.values.trans h.values
  rings := k.rings.trans h.rings
  time := k.time.trans h.time
  due := k.due.trans h.due
  sweepNext := k.sweepNext.trans h.sweepNext
  panel := k.panel.trans h.panel
  line := k.line.trans h.line
  periodNumber := k.periodNumber.trans h.periodNumber
  timer := k.timer.trans h.timer
  code := k.code.trans h.code
  pendingCode := k.pendingCode.trans h.pendingCode

theorem DirectoryFrame.ring {s t : State} (h : DirectoryFrame s t) (r : RingIx) : t.ring r = s.ring r :=
  State.ring_eq_of_rings h.rings r

theorem raise_frame (k : IncidentKind) (x : Subject) (v : BitVec 32) (s : State) : DirectoryFrame s (raise k x v s) := by
  constructor <;> rfl

theorem raiseAll_frame (l : List (IncidentKind × Subject × BitVec 32)) (s : State) : DirectoryFrame s (raiseAll l s) := by
  induction l generalizing s with
  | nil => exact DirectoryFrame.refl s
  | cons p rest ih => exact (raise_frame p.1 p.2.1 p.2.2 s).trans (ih _)

/-- A list of raisings leaves the flows and the history. -/
theorem raiseAll_flows (l : List (IncidentKind × Subject × BitVec 32)) (s : State) : (raiseAll l s).flows = s.flows := by
  induction l generalizing s with
  | nil => rfl
  | cons p rest ih => exact ih (raise p.1 p.2.1 p.2.2 s)

theorem raiseAll_tally (l : List (IncidentKind × Subject × BitVec 32)) (s : State) : (raiseAll l s).tally = s.tally := by
  induction l generalizing s with
  | nil => rfl
  | cons p rest ih => exact ih (raise p.1 p.2.1 p.2.2 s)

theorem setEntry_frame (s : State) (i : FlowIx) (e : FlowEntry) : DirectoryFrame s (s.setEntry i e) := by constructor <;> rfl
theorem setFlow_frame (s : State) (i : FlowIx) (f : FlowRecord) : DirectoryFrame s (s.setFlow i f) := by constructor <;> rfl
theorem vacate_frame (s : State) (i : FlowIx) : DirectoryFrame s (s.vacate i) := by constructor <;> rfl
theorem setHistory_frame (s : State) (h : List Summary) : DirectoryFrame s (s.setHistory h) := by constructor <;> rfl
theorem modOpen_frame (s : State) (f : Summary → Summary) : DirectoryFrame s (s.modOpen f) := by constructor <;> rfl
theorem modClosing_frame (s : State) (f : Summary → Summary) : DirectoryFrame s (s.modClosing f) := by constructor <;> rfl

theorem rollFlow_frame (i : FlowIx) (f : FlowRecord) (s : State) : DirectoryFrame s (rollFlow i f s) := by
  have h := (modClosing_frame s (foldInto f i)).trans
    (raiseAll_frame (flowRaisings i (limitIncidents f.params f.period)) (s.modClosing (foldInto f i)))
  unfold rollFlow
  split
  · exact (h.trans (raise_frame _ _ _ _)).trans (vacate_frame _ _)
  · exact h.trans (setFlow_frame _ _ _)

theorem rollIfLagging_frame (i : FlowIx) (s : State) : DirectoryFrame s (rollIfLagging i s) := by
  unfold rollIfLagging
  split
  · exact DirectoryFrame.refl s
  · split
    · exact DirectoryFrame.refl s
    · exact rollFlow_frame _ _ _

theorem enrolOrRefuse_frame (ring : RingIx) (key : Half) (s : State) : DirectoryFrame s (enrolOrRefuse ring key s).1 := by
  unfold enrolOrRefuse
  split
  · split
    · exact setFlow_frame _ _ _
    · exact raise_frame _ _ _ _
  · exact DirectoryFrame.refl s

theorem lookup_frame (ring : RingIx) (key : Half) (s : State) : DirectoryFrame s (lookup ring key s).1 := by
  unfold lookup
  split
  · next i _ =>
    have h := rollIfLagging_frame i s
    dsimp only
    split
    · exact h
    · exact h.trans (enrolOrRefuse_frame _ _ _)
  · exact enrolOrRefuse_frame _ _ _

theorem creditAndRoll_frame (p : PendingRecord) (s : State) : DirectoryFrame s (creditAndRoll p s).1 := by
  unfold creditAndRoll
  split
  · exact DirectoryFrame.refl s
  · exact rollIfLagging_frame _ _

theorem applyFlowOutcome_frame (i : FlowIx) (out : FlowOutcome) (s : State) : DirectoryFrame s (applyFlowOutcome i out s) :=
  (setFlow_frame s i out.1).trans (raiseAll_frame _ _)

theorem arrivalNotice_frame (i : FlowIx) (t : Tick) (q : BitVec 16) (s : State) : DirectoryFrame s (arrivalNotice i t q s) := by
  unfold arrivalNotice
  split
  · exact DirectoryFrame.refl s
  · exact applyFlowOutcome_frame _ _ _

theorem visitCycle_frame (i : FlowIx) (s : State) : DirectoryFrame s (visitCycle i s) := by
  unfold visitCycle
  split
  · exact DirectoryFrame.refl s
  · exact applyFlowOutcome_frame _ _ _

theorem sweepVisit_frame (i : FlowIx) (s : State) : DirectoryFrame s (sweepVisit i s) :=
  ((rollIfLagging_frame i s).trans (visitCycle_frame i _)).trans (setHistory_frame _ _)

theorem notePeak_frame (s : State) : DirectoryFrame s (notePeak s) := modOpen_frame s _

/-! ## Operations of the descriptor path -/

/-- The definition of a ring: what DEFINE RING sets and no transfer changes (01 R21, R26). -/
def RingRecord.definition (x : RingRecord) : Bool × BitVec 22 × Nat × Bool × Bool :=
  (x.enabled, x.base, x.slotCount, x.stampOn, x.autoEnrol)

/-- t differs from s in ring counters, slots, flows, history, log and alarm state at most. -/
structure TransferFrame (s t : State) : Prop where
  pending      : t.pending = s.pending
  device       : t.device = s.device
  rstAsserted  : t.rstAsserted = s.rstAsserted
  pins         : t.pins = s.pins
  straps       : t.straps = s.straps
  startRec     : t.startRec = s.startRec
  load         : t.load = s.load
  path         : t.path = s.path
  reads        : t.reads = s.reads
  values       : t.values = s.values
  definitions  : ∀ r, (t.ring r).definition = (s.ring r).definition
  time         : t.time = s.time
  due          : t.due = s.due
  sweepNext    : t.sweepNext = s.sweepNext
  panel        : t.panel = s.panel
  line         : t.line = s.line
  periodNumber : t.tally.periodNumber = s.tally.periodNumber
  timer        : t.tally.timer = s.tally.timer
  code         : t.tally.code = s.tally.code
  pendingCode  : t.tally.pendingCode = s.tally.pendingCode

theorem DirectoryFrame.transfer {s t : State} (h : DirectoryFrame s t) : TransferFrame s t where
  pending := h.pending
  device := h.device
  rstAsserted := h.rstAsserted
  pins := h.pins
  straps := h.straps
  startRec := h.startRec
  load := h.load
  path := h.path
  reads := h.reads
  values := h.values
  definitions := fun r => by rw [h.ring r]
  time := h.time
  due := h.due
  sweepNext := h.sweepNext
  panel := h.panel
  line := h.line
  periodNumber := h.periodNumber
  timer := h.timer
  code := h.code
  pendingCode := h.pendingCode

theorem TransferFrame.refl (s : State) : TransferFrame s s := (DirectoryFrame.refl s).transfer

theorem TransferFrame.trans {s t u : State} (h : TransferFrame s t) (k : TransferFrame t u) : TransferFrame s u where
  pending := k.pending.trans h.pending
  device := k.device.trans h.device
  rstAsserted := k.rstAsserted.trans h.rstAsserted
  pins := k.pins.trans h.pins
  straps := k.straps.trans h.straps
  startRec := k.startRec.trans h.startRec
  load := k.load.trans h.load
  path := k.path.trans h.path
  reads := k.reads.trans h.reads
  values := k.values.trans h.values
  definitions := fun r => (k.definitions r).trans (h.definitions r)
  time := k.time.trans h.time
  due := k.due.trans h.due
  sweepNext := k.sweepNext.trans h.sweepNext
  panel := k.panel.trans h.panel
  line := k.line.trans h.line
  periodNumber := k.periodNumber.trans h.periodNumber
  timer := k.timer.trans h.timer
  code := k.code.trans h.code
  pendingCode := k.pendingCode.trans h.pendingCode

theorem TransferFrame.enabled {s t : State} (h : TransferFrame s t) (r : RingIx) : (t.ring r).enabled = (s.ring r).enabled :=
  congrArg (fun x => x.1) (h.definitions r)
theorem TransferFrame.base {s t : State} (h : TransferFrame s t) (r : RingIx) : (t.ring r).base = (s.ring r).base :=
  congrArg (fun x => x.2.1) (h.definitions r)
theorem TransferFrame.slotCount {s t : State} (h : TransferFrame s t) (r : RingIx) : (t.ring r).slotCount = (s.ring r).slotCount :=
  congrArg (fun x => x.2.2.1) (h.definitions r)
theorem TransferFrame.stampOn {s t : State} (h : TransferFrame s t) (r : RingIx) : (t.ring r).stampOn = (s.ring r).stampOn :=
  congrArg (fun x => x.2.2.2.1) (h.definitions r)
theorem TransferFrame.autoEnrol {s t : State} (h : TransferFrame s t) (r : RingIx) : (t.ring r).autoEnrol = (s.ring r).autoEnrol :=
  congrArg (fun x => x.2.2.2.2) (h.definitions r)

/-- A change of a ring record that keeps its definition. -/
theorem modRing_frame (s : State) (r : RingIx) {f : RingRecord → RingRecord} (hf : ∀ x, (f x).definition = x.definition) :
    TransferFrame s (s.modRing r f) where
  pending := rfl
  device := rfl
  rstAsserted := rfl
  pins := rfl
  straps := rfl
  startRec := rfl
  load := rfl
  path := rfl
  reads := rfl
  values := rfl
  definitions := fun q => by
    rw [State.modRing_ring]
    split
    · next h => subst h; exact hf _
    · rfl
  time := rfl
  due := rfl
  sweepNext := rfl
  panel := rfl
  line := rfl
  periodNumber := rfl
  timer := rfl
  code := rfl
  pendingCode := rfl

theorem countUntrackedArrival_frame (r : RingIx) (s : State) : TransferFrame s (countUntrackedArrival r s) := by
  unfold countUntrackedArrival
  refine .trans ?_ (modOpen_frame _ _).transfer
  exact modRing_frame s r (fun _ => rfl)

theorem countUntrackedDeparture_frame (r : RingIx) (s : State) : TransferFrame s (countUntrackedDeparture r s) := by
  unfold countUntrackedDeparture
  refine .trans ?_ (modOpen_frame _ _).transfer
  exact modRing_frame s r (fun _ => rfl)

theorem countParityFault_frame (r : RingIx) (slot : Nat) (s : State) : TransferFrame s (countParityFault r slot s) := by
  unfold countParityFault
  refine .trans ?_ (raise_frame _ _ _ _).transfer
  exact modRing_frame s r (fun _ => rfl)

theorem countStray_frame (r : RingIx) (s : State) : TransferFrame s (countStray r s) := modRing_frame s r (fun _ => rfl)

theorem resetSilence_frame (r : RingIx) (s : State) : TransferFrame s (resetSilence r s) := modRing_frame s r (fun _ => rfl)

theorem dropNotice_frame (ring : RingIx) (p : PendingRecord) (s : State) : TransferFrame s (dropNotice ring p s) := by
  have h := (creditAndRoll_frame p s).transfer
  unfold dropNotice
  split
  · next e => rw [e] at h; exact h.trans (setFlow_frame _ _ _).transfer
  · next e => rw [e] at h; exact h.trans (countUntrackedDeparture_frame _ _)

theorem departureNotice_frame (ring : RingIx) (p : PendingRecord) (t : Tick) (s : State) :
    TransferFrame s (departureNotice ring p t s) := by
  have h0 : TransferFrame s (s.modRing ring (countBin (residence p t))) := modRing_frame s ring (fun _ => rfl)
  have h := h0.trans (creditAndRoll_frame p (s.modRing ring (countBin (residence p t)))).transfer
  unfold departureNotice
  dsimp only
  split
  · next e => rw [e] at h; exact h.trans (setFlow_frame _ _ _).transfer
  · next e => rw [e] at h; exact h.trans (countUntrackedDeparture_frame _ _)

theorem finishArrival_frame (ring : RingIx) (ref : Option FlowRef) (t : Tick) (q : BitVec 16) (s : State) :
    TransferFrame s (finishArrival ring ref t q s) := by
  unfold finishArrival
  split
  · exact countUntrackedArrival_frame _ _
  · exact (arrivalNotice_frame _ _ _ _).transfer

theorem overwriteOld_frame (ring : RingIx) (slot : Nat) (old : PendingRecord) (s : State) :
    TransferFrame s (overwriteOld ring slot old s) := by
  unfold overwriteOld
  refine .trans ?_ (modRing_frame _ ring (fun _ => rfl))
  refine .trans ?_ (dropNotice_frame _ _ _)
  exact modRing_frame s ring (fun _ => rfl)

theorem takeArrival_frame (ring : RingIx) (slot : Nat) (key : Half) (q : BitVec 16) (s : State) :
    TransferFrame s (takeArrival ring slot key q s) := by
  unfold takeArrival
  refine .trans ?_ (finishArrival_frame _ _ _ _ _)
  refine .trans ?_ (notePeak_frame _).transfer
  refine .trans ?_ (modRing_frame _ ring (fun _ => rfl))
  exact (lookup_frame ring key s).transfer

theorem takeOverwrite_frame (ring : RingIx) (slot : Nat) (old : PendingRecord) (key : Half) (q : BitVec 16) (s : State) :
    TransferFrame s (takeOverwrite ring slot old key q s) := by
  unfold takeOverwrite
  refine .trans ?_ (finishArrival_frame _ _ _ _ _)
  refine .trans ?_ (modRing_frame _ ring (fun _ => rfl))
  refine .trans ?_ (lookup_frame ring key _).transfer
  exact overwriteOld_frame ring slot old s

theorem takeWithdrawal_frame (ring : RingIx) (slot : Nat) (old : PendingRecord) (s : State) :
    TransferFrame s (takeWithdrawal ring slot old s) := by
  unfold takeWithdrawal
  refine .trans ?_ (modRing_frame _ ring (fun _ => rfl))
  refine .trans ?_ (dropNotice_frame _ _ _)
  exact modRing_frame s ring (fun _ => rfl)

theorem takeFaultedWrite_frame (ring : RingIx) (slot : Nat) (key : Half) (q : BitVec 16) (s : State) :
    TransferFrame s (takeFaultedWrite ring slot key q s) := by
  have h := countParityFault_frame ring slot s
  unfold takeFaultedWrite
  dsimp only
  split
  · refine .trans ?_ (countUntrackedArrival_frame _ _)
    refine .trans ?_ (notePeak_frame _).transfer
    exact h.trans (modRing_frame _ ring (fun _ => rfl))
  · refine .trans ?_ (countUntrackedArrival_frame _ _)
    refine .trans ?_ (modRing_frame _ ring (fun _ => rfl))
    exact h.trans (overwriteOld_frame _ _ _ _)

theorem descriptorWrite_frame (ring : RingIx) (slot : Nat) (data : List BusWord) (s : State) :
    TransferFrame s (descriptorWrite ring slot data s) := by
  have h := resetSilence_frame ring s
  unfold descriptorWrite
  dsimp only
  split
  · exact h.trans (takeFaultedWrite_frame _ _ _ _ _)
  · exact h.trans (takeArrival_frame _ _ _ _ _)
  · exact h.trans (countStray_frame _ _)
  · exact h
  · exact h.trans (takeOverwrite_frame _ _ _ _ _ _)
  · exact h.trans (takeWithdrawal_frame _ _ _ _)

theorem takeDeparture_frame (ring : RingIx) (slot : Nat) (p : PendingRecord) (s : State) :
    TransferFrame s (takeDeparture ring slot p s) := by
  unfold takeDeparture
  refine .trans ?_ (departureNotice_frame _ _ _ _)
  exact modRing_frame s ring (fun _ => rfl)

theorem descriptorRead_frame (ring : RingIx) (slot : Nat) (s : State) : TransferFrame s (descriptorRead ring slot s) := by
  unfold descriptorRead
  split
  · exact takeDeparture_frame _ _ _ _
  · exact modRing_frame s ring (fun _ => rfl)

theorem checkReadData_frame (c : ReadCheck) (data : List BusWord) (s : State) : TransferFrame s (checkReadData c data s) := by
  unfold checkReadData
  split
  · split
    · split
      · refine .trans ?_ (raise_frame _ _ _ _).transfer
        exact modRing_frame s _ (fun _ => rfl)
      · exact TransferFrame.refl s
    · exact TransferFrame.refl s
  · exact countParityFault_frame _ _ _

/-- A step made on each element of a list in turn, each step within the frame. -/
theorem foldl_transferFrame {α : Type} (l : List α) (f : State → α → State) (hf : ∀ s a, TransferFrame s (f s a)) (s : State) :
    TransferFrame s (l.foldl f s) := by
  induction l generalizing s with
  | nil => exact TransferFrame.refl s
  | cons a rest ih => exact (hf s a).trans (ih (f s a))

theorem takeTransfer_frame (t : Transfer) (s : State) : TransferFrame s (takeTransfer t s) := by
  unfold takeTransfer
  split
  · split
    · exact descriptorWrite_frame _ _ _ _
    · exact descriptorRead_frame _ _ _
  · refine foldl_transferFrame _ _ (fun u r => ?_) s
    split
    · exact countStray_frame _ _
    · exact TransferFrame.refl u
  · exact TransferFrame.refl s

@[simp] theorem awaitData_write (c : Option ReadCheck) (s : State) : awaitData true c s = s := rfl
@[simp] theorem awaitData_read (c : Option ReadCheck) (s : State) : awaitData false c s = { s with reads := s.reads ++ [c] } := rfl

/-- A transfer changes what the ring decoder makes of it, the path stage, and the outstanding reads by its own one if it is a read. -/
theorem busTransfer_frame (t : Transfer) (s : State) :
    TransferFrame
      { s with
        path := { s.path with toMemory := s.path.toMemory ++ [(2, { t with data := outgoingData t s })] }
        reads := if t.write then s.reads else s.reads ++ [checksOf t s] }
      (busTransfer t s) := by
  have h := takeTransfer_frame t s
  cases ht : t.write <;> simp only [busTransfer, awaitData, carryOut, ht] <;>
    exact ⟨h.pending, h.device, h.rstAsserted, h.pins, h.straps, h.startRec, h.load, by simp [h.path], by simp [h.reads], h.values,
      h.definitions, h.time, h.due, h.sweepNext, h.panel, h.line, h.periodNumber, h.timer, h.code, h.pendingCode⟩

/-- Read data take the oldest outstanding read from the list and enter the path stage, and their checks stay within the frame. -/
theorem readDataCheck_frame (data : List BusWord) (s : State) :
    TransferFrame { s with reads := s.reads.tail, path := { s.path with toSwitch := s.path.toSwitch ++ [(2, data)] } }
      (readDataCheck data s) := by
  unfold readDataCheck
  split
  · next h => constructor <;> first | rfl | exact fun _ => rfl | simp [carryBack, h]
  · next h => rw [h]; exact TransferFrame.refl _
  · next c rest h =>
    have k := checkReadData_frame c data { s with reads := rest }
    rw [h]
    exact ⟨k.pending, k.device, k.rstAsserted, k.pins, k.straps, k.startRec, k.load, by simp [carryBack, k.path], k.reads, k.values,
      k.definitions, k.time, k.due, k.sweepNext, k.panel, k.line, k.periodNumber, k.timer, k.code, k.pendingCode⟩

theorem flushRing_frame (s : State) (r : RingIx) : TransferFrame s (flushRing s r) := by
  unfold flushRing
  split
  · have h := ((modRing_frame s r (f := fun x => { x with slots := [] }) (fun _ => rfl)).trans
        (foldl_transferFrame (s.ring r).slots (fun u p => dropNotice r p.2 u) (fun u p => dropNotice_frame r p.2 u) _)).trans
        (modRing_frame _ r (f := fun x => { x with flushed := x.flushed + BitVec.ofNat 32 x.held, held := 0 }) (fun _ => rfl))
    dsimp only
    split
    · exact h
    · exact h.trans (raise_frame _ _ _ _).transfer
  · exact TransferFrame.refl s

theorem stepSilence_frame (s : State) (r : RingIx) : TransferFrame s (stepSilence s r) := by
  have hx : ∀ x : RingRecord, x.definition = (s.ring r).definition → TransferFrame s (s.setRing r x) := by
    intro x hx
    constructor <;> try rfl
    intro q
    rw [State.setRing_ring]
    split
    · next h => subst h; exact hx
    · rfl
  unfold stepSilence
  dsimp only
  split
  · split
    · exact hx _ rfl
    · split
      · refine .trans ?_ (raise_frame _ _ _ _).transfer
        exact hx _ rfl
      · exact TransferFrame.refl s
  · exact TransferFrame.refl s

/-! ## Ring records under the notices -/

/-- A drop notice counts untracked departures of one ring at most, and changes nothing else of any ring (01 R16). -/
theorem dropNotice_ring (ring : RingIx) (p : PendingRecord) (s : State) (q : RingIx) :
    ∃ n, (dropNotice ring p s).ring q = { s.ring q with untrackedDepartures := n } := by
  have h := (creditAndRoll_frame p s).ring q
  unfold dropNotice
  split
  · next e =>
    rw [e] at h
    exact ⟨_, by rw [(setFlow_frame _ _ _).ring q]; exact h⟩
  · next e =>
    rw [e] at h
    unfold countUntrackedDeparture
    rw [(modOpen_frame _ _).ring q, State.modRing_ring]
    split
    · next hq => subst hq; rw [h]; exact ⟨_, rfl⟩
    · rw [h]; exact ⟨_, rfl⟩

/-- A departure notice counts a histogram bin and untracked departures, and changes nothing else of any ring (05 R85, R86). -/
theorem departureNotice_ring (ring : RingIx) (p : PendingRecord) (t : Tick) (s : State) (q : RingIx) :
    ∃ n b, (departureNotice ring p t s).ring q = { s.ring q with untrackedDepartures := n, histogram := b } := by
  have h := (creditAndRoll_frame p (s.modRing ring (countBin (residence p t)))).ring q
  rw [State.modRing_ring] at h
  have h0 : ∃ b, (if q = ring then countBin (residence p t) (s.ring ring) else s.ring q) = { s.ring q with histogram := b } := by
    split
    · next hq => subst hq; exact ⟨_, rfl⟩
    · exact ⟨_, rfl⟩
  obtain ⟨b, hb⟩ := h0
  rw [hb] at h
  unfold departureNotice
  dsimp only
  split
  · next e =>
    rw [e] at h
    exact ⟨_, b, by rw [(setFlow_frame _ _ _).ring q]; exact h⟩
  · next e =>
    rw [e] at h
    unfold countUntrackedDeparture
    rw [(modOpen_frame _ _).ring q, State.modRing_ring]
    split
    · next hq => subst hq; rw [h]; exact ⟨_, b, rfl⟩
    · rw [h]; exact ⟨_, b, rfl⟩

/-- The end of an arrival counts untracked arrivals of one ring at most, and changes nothing else of any ring (01 R10). -/
theorem finishArrival_ring (ring : RingIx) (ref : Option FlowRef) (t : Tick) (k : BitVec 16) (s : State) (q : RingIx) :
    ∃ n, (finishArrival ring ref t k s).ring q = { s.ring q with untrackedArrivals := n } := by
  unfold finishArrival
  split
  · unfold countUntrackedArrival
    rw [(modOpen_frame _ _).ring q, State.modRing_ring]
    split
    · next hq => subst hq; exact ⟨_, rfl⟩
    · exact ⟨_, rfl⟩
  · exact ⟨_, by rw [(arrivalNotice_frame _ _ _ _).ring q]⟩

end Sys2Proof.Machine
end

