-- ==== Sys2Proof/Laws/Invariants.lean ====
section
/-! SUPPORT. The invariants of a ring record, of the incident log, of the alarm state and of the loader under the shared operations. -/

namespace Sys2Proof.Machine

set_option Elab.async false

/-! ## Ring records (01 R8, R21, R22) -/

theorem RingOk.init : RingOk RingRecord.init where
  slotForm := rfl
  heldCount := rfl
  disabled := fun _ => rfl
  highWaterMin := Nat.le_refl 0
  highWaterMax := Nat.zero_le _
  conservation := rfl

/-- The counters that the conservation law does not name do not touch it. -/
theorem RingOk.counters {x : RingRecord} (h : RingOk x) (ua ud ph st pf sm : Nat) (hist : Vector Nat 8) (sil : SilenceState) (c : Nat) :
    RingOk { x with
      untrackedArrivals := ua, untrackedDepartures := ud, phantomReads := ph, strayAccesses := st, parityFaults := pf
      stampMismatches := sm, histogram := hist, silence := sil, silenceCounter := c } :=
  ⟨h.slotForm, h.heldCount, h.disabled, h.highWaterMin, h.highWaterMax, h.conservation⟩

/-- An EMPTY slot of an enabled ring becomes HELD (01 R10). -/
theorem RingOk.hold {x : RingRecord} (h : RingOk x) (slot : Nat) (p : PendingRecord) (he : x.enabled = true) (hs : slot < x.slotCount)
    (hg : slotGet x.slots slot = none) : RingOk (holdSlot slot p x) where
  slotForm := slotsOk_slotPut h.slotForm hs p
  heldCount := by
    have := slotPut_length_empty h.slotForm hg p
    simp only [holdSlot, this, h.heldCount]
  disabled := by
    intro e
    simp [holdSlot, he] at e
  highWaterMin := Nat.le_max_right _ _
  highWaterMax := by
    have h1 := slotsOk_length (slotsOk_slotPut h.slotForm hs p)
    rw [slotPut_length_empty h.slotForm hg p, ← h.heldCount] at h1
    exact Nat.max_le.mpr ⟨h.highWaterMax, h1⟩
  conservation := by
    have h1 := h.conservation
    have h2 : (1#32) = 1 := rfl
    simp only [holdSlot, BitVec.ofNat_add, h2]
    linear_combination h1

/-- A HELD slot's record replaced, counted as enqueued and overwritten (01 R13, R15). -/
theorem RingOk.replace {x : RingRecord} (h : RingOk x) (slot : Nat) (p old : PendingRecord) (hg : slotGet x.slots slot = some old) :
    RingOk { x with slots := slotPut x.slots slot p, enqueued := x.enqueued + 1, overwritten := x.overwritten + 1 } where
  slotForm := slotsOk_slotPut h.slotForm (((slotsOk_iff _ _).mp h.slotForm).2 _ (slotGet_mem hg)) p
  heldCount := by rw [slotPut_length_held h.slotForm hg p]; exact h.heldCount
  disabled := by
    intro e
    have := h.disabled e
    simp [this, slotGet] at hg
  highWaterMin := h.highWaterMin
  highWaterMax := h.highWaterMax
  conservation := by
    have h1 := h.conservation
    linear_combination h1

/-- A HELD slot made EMPTY and counted in one of the counters that the conservation law subtracts (01 R14, R17). -/
theorem RingOk.release {x : RingRecord} (h : RingOk x) (slot : Nat) (old : PendingRecord) (hg : slotGet x.slots slot = some old)
    (d w : BitVec 32) (hdw : d + w = x.departed + x.withdrawn + 1) :
    RingOk { x with slots := slotErase x.slots slot, departed := d, withdrawn := w, held := x.held - 1 } where
  slotForm := slotsOk_slotErase h.slotForm slot
  heldCount := by
    have h1 := slotErase_length hg
    have h2 := h.heldCount
    show x.held - 1 = (slotErase x.slots slot).length
    omega
  disabled := by
    intro e
    have := h.disabled e
    simp [this, slotGet] at hg
  highWaterMin := Nat.le_trans (Nat.sub_le _ _) h.highWaterMin
  highWaterMax := h.highWaterMax
  conservation := by
    have h1 := h.conservation
    have h2 : x.held = (x.held - 1) + 1 := by
      have := slotErase_length hg
      have := h.heldCount
      omega
    have h3 : (1#32) = 1 := rfl
    rw [h2, BitVec.ofNat_add, h3] at h1
    show x.enqueued - d - w - x.overwritten - x.flushed = BitVec.ofNat 32 (x.held - 1)
    linear_combination h1 - hdw

/-- Every slot made EMPTY and counted as flushed (01 R25, R27). -/
theorem RingOk.flush {x : RingRecord} (h : RingOk x) (e : Bool) :
    RingOk { x with enabled := e, slots := [], flushed := x.flushed + BitVec.ofNat 32 x.held, held := 0 } where
  slotForm := rfl
  heldCount := rfl
  disabled := fun _ => rfl
  highWaterMin := Nat.zero_le _
  highWaterMax := h.highWaterMax
  conservation := by
    have h1 := h.conservation
    have h2 : (BitVec.ofNat 32 0) = 0 := rfl
    simp only [h2]
    linear_combination h1

/-- The clearing of a ring's tallies (01 R28). -/
theorem RingOk.clear {x : RingRecord} (h : RingOk x) : RingOk (clearRing x) where
  slotForm := h.slotForm
  heldCount := h.heldCount
  disabled := h.disabled
  highWaterMin := Nat.le_refl _
  highWaterMax := Nat.le_trans h.highWaterMin h.highWaterMax
  conservation := by simp [clearRing]

/-! ## Sets of classes (08 R133) -/

theorem byteOfBits_bit (b0 b1 b2 b3 b4 b5 b6 b7 : Bool) (i : Nat) :
    (byteOfBits b0 b1 b2 b3 b4 b5 b6 b7).getLsbD i = [b0, b1, b2, b3, b4, b5, b6, b7].getD i false := by
  simp [byteOfBits, BitVec.getLsbD_ofBoolListLE]

/-- A class 1 to 6 is in the set of a test exactly when it meets the test, and class 0 is in none. -/
theorem ClassSet.has_ofPred (p : AlarmClass → Bool) (c : AlarmClass) : (ClassSet.ofPred p).has c = (decide (c ≠ 0) && p c) := by
  unfold ClassSet.has ClassSet.ofPred
  rw [byteOfBits_bit]
  fin_cases c <;> simp

theorem ClassSet.ofPred_reserved (p : AlarmClass → Bool) : ClassSet.ofPred p &&& 0b10000001#8 = 0 := by
  have h : ∀ b1 b2 b3 b4 b5 b6 : Bool, byteOfBits false b1 b2 b3 b4 b5 b6 false &&& 0b10000001#8 = 0 := by decide
  exact h _ _ _ _ _ _

theorem ClassSet.has_add (x : ClassSet) (c d : AlarmClass) : (x.add c).has d = (decide (d ≠ 0) && (x.has d || d == c)) :=
  ClassSet.has_ofPred _ _

theorem ClassSet.has_keep (x : ClassSet) (p : AlarmClass → Bool) (d : AlarmClass) :
    (x.keep p).has d = (decide (d ≠ 0) && (x.has d && p d)) := ClassSet.has_ofPred _ _

/-- Finding STACK afresh makes the outputs show the pending set (08 R137). -/
theorem AlarmOk.resolve (a : AlarmState) (h : a.pendingSet &&& 0b10000001#8 = 0) : AlarmOk a.resolve := ⟨rfl, rfl, h⟩

theorem AlarmState.setPending_reserved (a : AlarmState) (c : AlarmClass) : (a.setPending c).pendingSet &&& 0b10000001#8 = 0 := by
  simp only [AlarmState.setPending, ClassSet.add, ClassSet.ofPred_reserved]

theorem AlarmState.reevaluate_reserved (a : AlarmState) (records : List Incident) :
    (a.reevaluate records).pendingSet &&& 0b10000001#8 = 0 := by
  simp only [AlarmState.reevaluate, ClassSet.keep, ClassSet.ofPred_reserved]

theorem AlarmOk.install (a : AlarmState) (new : AlarmSettings) (records : List Incident) : AlarmOk (a.install new records) :=
  AlarmOk.resolve _ (AlarmState.reevaluate_reserved _ _)

/-! ## Raising an incident (07 R123 to R127) -/

/-- The kind and subject of a record do not change when a raising is folded into it. -/
theorem Incident.coalesced_key (r : Incident) (now : Tick) (v : BitVec 32) :
    (r.coalesced now v).kind = r.kind ∧ (r.coalesced now v).subject = r.subject ∧ (r.coalesced now v).cls = r.cls := ⟨rfl, rfl, rfl⟩

/-- A raising keeps the log within its size, with no two records of one kind and subject (07 R124). -/
theorem raiseInto_log {l : IncidentLog} (h : LogOk l) (now : Tick) (k : IncidentKind) (x : Subject) (v : BitVec 32) (a : AlarmState) :
    LogOk (raiseInto now k x v l a).1 := by
  unfold raiseInto
  split
  · next r hr =>
    have hmap : (l.records.map (fun q => if q.matchesRaising k x then q.coalesced now v else q)).map (fun r => (r.kind, r.subject))
        = l.records.map (fun r => (r.kind, r.subject)) := by
      rw [List.map_map]
      apply List.map_congr_left
      intro q _
      simp only [Function.comp]
      split <;> rfl
    refine ⟨?_, ?_, ?_, h.overflow⟩
    · simpa using h.size
    · show ((l.records.map _).map _).Nodup
      rw [hmap]
      exact h.distinct
    · intro q hq
      simp only [List.mem_map] at hq
      obtain ⟨p, hp, rfl⟩ := hq
      have := h.repeats p hp
      split
      · simp only [Incident.coalesced, satAdd]
        omega
      · exact this
  · next hn =>
    have hne : ∀ q ∈ l.records, (q.kind, q.subject) ≠ (k, x) := by
      intro q hq e
      have := List.find?_eq_none.mp hn q hq
      simp only [Prod.mk.injEq] at e
      simp [Incident.matchesRaising, e.1, e.2] at this
    have hnew : ∀ records : List Incident, records.Sublist l.records → ∀ c : AlarmClass,
        ((records ++ [Incident.mk k x c now now 1 v]).map (fun r => (r.kind, r.subject))).Nodup ∧
        ∀ r ∈ records ++ [Incident.mk k x c now now 1 v], 1 ≤ r.repeats ∧ r.repeats ≤ 255 := by
      intro records hs c
      constructor
      · rw [List.map_append, List.nodup_append]
        refine ⟨(hs.map _).nodup h.distinct, by simp, ?_⟩
        intro p hp q hq
        simp only [List.mem_map] at hp
        obtain ⟨r, hr, rfl⟩ := hp
        simp only [List.map_cons, List.map_nil, List.mem_singleton] at hq
        subst hq
        exact hne r (hs.subset hr)
      · intro r hr
        rcases List.mem_append.mp hr with hr | hr
        · exact h.repeats r (hs.subset hr)
        · simp only [List.mem_singleton] at hr
          subst hr
          exact ⟨Nat.le_refl 1, (by decide : 1 ≤ 255)⟩
    dsimp only
    split
    · next hlt =>
      refine ⟨?_, (hnew _ (List.Sublist.refl _) _).1, (hnew _ (List.Sublist.refl _) _).2, h.overflow⟩
      simpa using hlt
    · refine ⟨?_, (hnew _ (List.tail_sublist _) _).1, (hnew _ (List.tail_sublist _) _).2, Nat.min_le_left _ _⟩
      have := h.size
      simp only [List.length_append, List.length_tail, List.length_singleton, Config.logSize] at *
      omega

/-- A raising leaves STACK and ALERT_N true to the pending set and the settings as they are (07 R126; 08 R137). -/
theorem raiseInto_alarm (now : Tick) (k : IncidentKind) (x : Subject) (v : BitVec 32) (l : IncidentLog) (a : AlarmState) :
    AlarmOk (raiseInto now k x v l a).2 ∧ (raiseInto now k x v l a).2.settings = a.settings := by
  unfold raiseInto
  split
  · exact ⟨AlarmOk.resolve _ (AlarmState.setPending_reserved _ _), rfl⟩
  · dsimp only
    split
    · exact ⟨AlarmOk.resolve _ (AlarmState.setPending_reserved _ _), rfl⟩
    · exact ⟨AlarmOk.resolve _ (AlarmState.reevaluate_reserved _ _), rfl⟩

/-- A raising keeps it so that a pending AUTO class has a record of its class in the log (07 R126, R127; 08 R135). -/
theorem raise_auto (k : IncidentKind) (x : Subject) (v : BitVec 32) {s : State} (h : AutoOk s) : AutoOk (raise k x v s) := by
  intro c hc hm
  revert hc hm
  unfold raise raiseInto
  dsimp only
  split
  · next r hr =>
    intro hc hm
    have hm' : s.alarm.settings.modes.has c = false := hm
    have hc' : (s.alarm.pendingSet.add r.cls).has c = true := hc
    rw [ClassSet.has_add, Bool.and_eq_true, Bool.or_eq_true, beq_iff_eq] at hc'
    obtain ⟨r0, h0, hcls⟩ : ∃ r0 ∈ s.log.records, r0.cls = c := by
      rcases hc'.2 with hp | hp
      · exact h c hp hm'
      · exact ⟨r, List.mem_of_find?_eq_some hr, hp.symm⟩
    refine ⟨_, List.mem_map_of_mem h0, ?_⟩
    split
    · exact hcls
    · exact hcls
  · split
    · intro hc hm
      have hm' : s.alarm.settings.modes.has c = false := hm
      have hc' : (s.alarm.pendingSet.add (s.alarm.settings.classOf k)).has c = true := hc
      rw [ClassSet.has_add, Bool.and_eq_true, Bool.or_eq_true, beq_iff_eq] at hc'
      rcases hc'.2 with hp | hp
      · obtain ⟨r0, h0, hcls⟩ := h c hp hm'
        exact ⟨r0, List.mem_append_left _ h0, hcls⟩
      · exact ⟨_, List.mem_append_right _ (List.mem_singleton.mpr rfl), hp.symm⟩
    · intro hc hm
      have hm' : s.alarm.settings.modes.has c = false := hm
      have hc' : ((s.alarm.pendingSet.add (s.alarm.settings.classOf k)).keep (fun d => s.alarm.settings.modes.has d ||
          (s.log.records.tail ++ [Incident.mk k x (s.alarm.settings.classOf k) s.time.tickCount s.time.tickCount 1 v]).any
            (fun r => r.cls == d))).has c = true := hc
      rw [ClassSet.has_keep, Bool.and_eq_true, Bool.and_eq_true, Bool.or_eq_true, hm'] at hc'
      obtain ⟨-, -, hp | hp⟩ := hc'
      · cases hp
      · obtain ⟨r0, h0, hcls⟩ := List.any_eq_true.mp hp
        exact ⟨r0, h0, eq_of_beq hcls⟩

/-! ## The read of the configuration memory (10 R165) -/

/-- The loader takes at most the words of the largest image (10 R165). -/
theorem wordsRead_le (img : List Byte) : wordsRead img ≤ 3160 := by
  unfold wordsRead imageWords
  split
  · omega
  · split
    · omega
    · split
      · omega
      · split <;> omega

theorem LoadRead.init_ok : LoadOk LoadRead.init := ⟨by decide, by decide, by decide⟩

/-- What one bit does to the read (10 R165). -/
theorem clockBit_count (level : Bool) (x : LoadRead) (h : x.bits.length < 8) :
    (clockBit level x).bits.length < 8 ∧ (clockBit level x).ticks = x.ticks ∧
      8 * (clockBit level x).bytes.length + (clockBit level x).bits.length = 8 * x.bytes.length + x.bits.length + 1 := by
  unfold clockBit
  dsimp only
  split
  · next hb => simp at hb ⊢; omega
  · next hb => simp at hb ⊢; omega

/-- A tick keeps the read within its ranges (10 R165). -/
theorem LoadRead.tick_ok (level : Bool) (x : LoadRead) (h : LoadOk x) : LoadOk (x.tick level) := by
  obtain ⟨hb, hc, hm⟩ := h
  unfold LoadRead.tick
  split
  · exact ⟨hb, hc, hm⟩
  · next hs =>
    have hw := wordsRead_le x.bytes
    have hr : x.bytes.length < 2 * wordsRead x.bytes := by
      simp only [readStopped, decide_eq_true_eq] at hs
      omega
    dsimp only
    split
    · next ht =>
      obtain ⟨h1, h2, h3⟩ := clockBit_count level { x with ticks := x.ticks + 1 } hb
      refine ⟨h1, ?_, ?_⟩
      · rw [h2, h3]; dsimp only at ht ⊢; omega
      · rw [h2]; dsimp only at ht ⊢; omega
    · next ht => exact ⟨hb, by dsimp only at ht ⊢; omega, by dsimp only at ht ⊢; omega⟩

theorem loadTick_ok (d : DeviceState) (level : Bool) (x : LoadRead) (h : LoadOk x) : LoadOk (loadTick d level x) := by
  unfold loadTick
  split
  · exact LoadRead.tick_ok level x h
  · exact h

/-- An image word as a number (10 R165). -/
theorem imageWord_toNat (img : List Byte) (i : Nat) :
    (imageWord img i).toNat = (imageByte img (2 * i)).toNat * 256 + (imageByte img (2 * i + 1)).toNat := by
  unfold imageWord
  rw [BitVec.toNat_append, ← Nat.shiftLeft_add_eq_or_of_lt (imageByte img (2 * i + 1)).isLt, Nat.shiftLeft_eq]
end Sys2Proof.Machine
end

