-- ==== Sys2Proof/Laws/Layouts.lean ====
section
/-! SUPPORT. The bytes of a payload given field by field, one field after another and by the width of a field (10 section 10.5). -/

namespace Sys2Proof.Machine

set_option Elab.async false

@[simp] theorem layout_nil : layout [] = [] := rfl

theorem layout_append (a b : List (Nat × Nat)) : layout (a ++ b) = layout a ++ layout b := by simp only [layout, List.flatMap_append]

theorem layout_one (n : Nat) (l : List (Nat × Nat)) : layout ((1, n) :: l) = bytes1 n ++ layout l := by
  simp [layout, bytes1, List.range_succ]

theorem layout_two (n : Nat) (l : List (Nat × Nat)) : layout ((2, n) :: l) = bytes2 n ++ layout l := by
  simp [layout, bytes2, List.range_succ]

theorem layout_three (n : Nat) (l : List (Nat × Nat)) : layout ((3, n) :: l) = bytes3 n ++ layout l := by
  simp [layout, bytes3, bytes2, List.range_succ]

theorem layout_four (n : Nat) (l : List (Nat × Nat)) : layout ((4, n) :: l) = bytes4 n ++ layout l := by
  simp [layout, bytes4, bytes3, bytes2, List.range_succ]

end Sys2Proof.Machine
end

