-- ==== Sys2Proof/Laws/PerInstr.lean ====
section
/-! SUPPORT. What it takes for each command to be well formed, one lemma a constructor. -/

namespace Sys2Proof.Laws.WellFormed

/-- The conditions on a command's operands, spelled out: as many data words as the burst of a write has and none for a read (01 R1), a
memory of at most 65,536 bytes (10 R165), a request address from 0 to 15 (10 section 10.5). -/
def Admissible : Instr → Prop
  | .powerOn _ => True
  | .busTransfer write _ slen data => data.length = if write then slen.toNat + 1 else 0
  | .readDataCheck data => 1 ≤ data.length ∧ data.length ≤ 4
  | .busReset => True
  | .tick _ => True
  | .refLoss => True
  | .measurementCompletion => True
  | .millisecondStrobe => True
  | .secondsStrobe => True
  | .sweepPace => True
  | .silenceTick => True
  | .boundary => True
  | .debouncedStateChange _ => True
  | .addressCharacter _ _ => True
  | .dataCharacter _ _ => True
  | .gapLimitExpiry => True
  | .quietLimitExpiry => True
  | .replyStart => True
  | .replyEnd => True
  | .loadEnd image => image.length ≤ 65536
  | .status addr => addr.toNat < 16
  | .readFlow addr _ _ => addr.toNat < 16
  | .findFlow addr _ _ => addr.toNat < 16
  | .defineFlow addr _ _ _ => addr.toNat < 16
  | .removeFlow addr _ => addr.toNat < 16
  | .setPeriod addr _ _ => addr.toNat < 16
  | .readRing addr _ _ => addr.toNat < 16
  | .defineRing addr _ _ _ _ => addr.toNat < 16
  | .ringOff addr _ => addr.toNat < 16
  | .readSummary addr _ _ => addr.toNat < 16
  | .takeIncidents addr _ => addr.toNat < 16
  | .acknowledge addr _ => addr.toNat < 16
  | .setAlarmMap addr _ _ _ _ => addr.toNat < 16
  | .setTallyPeriod addr _ => addr.toNat < 16
  | .clearTallies addr => addr.toNat < 16
  | .restart addr => addr.toNat < 16
  | .start addr => addr.toNat < 16
  | .seenRisingEdge => True
  | .busClock _ => True
  | .swRstNRelease => True

/-- A command is well formed exactly when its operands meet the conditions. -/
def Statement (i : Instr) : Prop := i.wellFormed = true ↔ Admissible i

theorem powerOn (straps : Straps) : Statement (.powerOn straps) := iff_of_true rfl trivial
theorem busTransfer (write : Bool) (addr : BitVec 22) (slen : BitVec 2) (data : List BusWord) : Statement (.busTransfer write addr slen data) := by
  cases write <;> simp [Statement, Admissible, Instr.wellFormed, transferOk, burstWords]
theorem readDataCheck (data : List BusWord) : Statement (.readDataCheck data) := decide_eq_true_iff
theorem busReset : Statement (.busReset) := iff_of_true rfl trivial
theorem tick (pins : Pins) : Statement (.tick pins) := iff_of_true rfl trivial
theorem refLoss : Statement (.refLoss) := iff_of_true rfl trivial
theorem measurementCompletion : Statement (.measurementCompletion) := iff_of_true rfl trivial
theorem millisecondStrobe : Statement (.millisecondStrobe) := iff_of_true rfl trivial
theorem secondsStrobe : Statement (.secondsStrobe) := iff_of_true rfl trivial
theorem sweepPace : Statement (.sweepPace) := iff_of_true rfl trivial
theorem silenceTick : Statement (.silenceTick) := iff_of_true rfl trivial
theorem boundary : Statement (.boundary) := iff_of_true rfl trivial
theorem debouncedStateChange (input : PanelInput) : Statement (.debouncedStateChange input) := iff_of_true rfl trivial
theorem addressCharacter (data : Byte) (error : Bool) : Statement (.addressCharacter data error) := iff_of_true rfl trivial
theorem dataCharacter (data : Byte) (error : Bool) : Statement (.dataCharacter data error) := iff_of_true rfl trivial
theorem gapLimitExpiry : Statement (.gapLimitExpiry) := iff_of_true rfl trivial
theorem quietLimitExpiry : Statement (.quietLimitExpiry) := iff_of_true rfl trivial
theorem replyStart : Statement (.replyStart) := iff_of_true rfl trivial
theorem replyEnd : Statement (.replyEnd) := iff_of_true rfl trivial
theorem loadEnd (image : List Byte) : Statement (.loadEnd image) := decide_eq_true_iff
theorem status (addr : Byte) : Statement (.status addr) := decide_eq_true_iff
theorem readFlow (addr : Byte) (index part : Byte) : Statement (.readFlow addr index part) := decide_eq_true_iff
theorem findFlow (addr : Byte) (ring : Byte) (key : Half) : Statement (.findFlow addr ring key) := decide_eq_true_iff
theorem defineFlow (addr : Byte) (ring : Byte) (key : Half) (args : FlowArgs) : Statement (.defineFlow addr ring key args) := decide_eq_true_iff
theorem removeFlow (addr : Byte) (index : Byte) : Statement (.removeFlow addr index) := decide_eq_true_iff
theorem setPeriod (addr : Byte) (index : Byte) (period : BitVec 32) : Statement (.setPeriod addr index period) := decide_eq_true_iff
theorem readRing (addr : Byte) (ring part : Byte) : Statement (.readRing addr ring part) := decide_eq_true_iff
theorem defineRing (addr : Byte) (ring : Byte) (base : BitVec 24) (slots : Half) (options : Byte) : Statement (.defineRing addr ring base slots options) := decide_eq_true_iff
theorem ringOff (addr : Byte) (ring : Byte) : Statement (.ringOff addr ring) := decide_eq_true_iff
theorem readSummary (addr : Byte) (number : Half) (part : Byte) : Statement (.readSummary addr number part) := decide_eq_true_iff
theorem takeIncidents (addr : Byte) (count : Byte) : Statement (.takeIncidents addr count) := decide_eq_true_iff
theorem acknowledge (addr : Byte) (classes : Byte) : Statement (.acknowledge addr classes) := decide_eq_true_iff
theorem setAlarmMap (addr : Byte) (classes : Vector Byte 14) (mask priority modes : Byte) : Statement (.setAlarmMap addr classes mask priority modes) := decide_eq_true_iff
theorem setTallyPeriod (addr : Byte) (code : Byte) : Statement (.setTallyPeriod addr code) := decide_eq_true_iff
theorem clearTallies (addr : Byte) : Statement (.clearTallies addr) := decide_eq_true_iff
theorem restart (addr : Byte) : Statement (.restart addr) := decide_eq_true_iff
theorem start (addr : Byte) : Statement (.start addr) := decide_eq_true_iff
theorem seenRisingEdge : Statement (.seenRisingEdge) := iff_of_true rfl trivial
theorem busClock (ref : Bool) : Statement (.busClock ref) := iff_of_true rfl trivial
theorem swRstNRelease : Statement (.swRstNRelease) := iff_of_true rfl trivial

end Sys2Proof.Laws.WellFormed
end

