-- ==== Sys2Proof/Laws/Rolls.lean ====
section
/-! SUPPORT. What the roll of a flow does to the directory, that it stands apart from everything that touches neither its entry nor
the CLOSING summary, the log and the alarm state (a change of a ring, of another entry, of the OPEN summary), and what the crediting test
and the recognition of a transfer look at. -/

namespace Sys2Proof.Machine

set_option Elab.async false

/-! ## Raisings see the tick count, the log and the alarm state alone (07 R121) -/

theorem raiseAll_modRing (l : List (IncidentKind × Subject × BitVec 32)) (s : State) (r : RingIx) (g : RingRecord → RingRecord) :
    raiseAll l (s.modRing r g) = (raiseAll l s).modRing r g := by
  induction l generalizing s with
  | nil => rfl
  | cons p rest ih => exact ih (raise p.1 p.2.1 p.2.2 s)

theorem raiseAll_setEntry (l : List (IncidentKind × Subject × BitVec 32)) (s : State) (i : FlowIx) (e : FlowEntry) :
    raiseAll l (s.setEntry i e) = (raiseAll l s).setEntry i e := by
  induction l generalizing s with
  | nil => rfl
  | cons p rest ih => exact ih (raise p.1 p.2.1 p.2.2 s)

theorem raiseAll_setHistory (l : List (IncidentKind × Subject × BitVec 32)) (s : State) (h : List Summary) :
    raiseAll l (s.setHistory h) = (raiseAll l s).setHistory h := by
  induction l generalizing s with
  | nil => rfl
  | cons p rest ih => exact ih (raise p.1 p.2.1 p.2.2 s)

/-! ## The roll in one form (06 R113) -/

/-- The entry of a flow after its roll. -/
def rolledEntry (f : FlowRecord) (gen : BitVec 4) (number : BitVec 16) : FlowEntry :=
  if retires f then ⟨gen + 1, none⟩
  else ⟨gen, some { f with period := Tallies.zero, periodWorst := none, tag := number, idle := idleAfter f }⟩

/-- The incidents of a roll, in order. -/
def rollRaisings (i : FlowIx) (f : FlowRecord) : List (IncidentKind × Subject × BitVec 32) :=
  flowRaisings i (limitIncidents f.params f.period) ++
    if retires f then [(.flowRetired, .flow i, f.key.setWidth 32)] else []

/-- A roll folds the flow into the CLOSING summary, raises its incidents, and writes its entry. -/
theorem rollFlow_eq (i : FlowIx) (f : FlowRecord) (s : State) :
    rollFlow i f s =
      (raiseAll (rollRaisings i f) (s.modClosing (foldInto f i))).setEntry i (rolledEntry f (s.entry i).gen s.tally.periodNumber) := by
  have h : ∀ l, ((raiseAll l (s.modClosing (foldInto f i))).entry i).gen = (s.entry i).gen := by
    intro l
    rw [State.entry_eq_of_flows (raiseAll_flows l _) i]
    rfl
  unfold rollFlow rolledEntry rollRaisings
  dsimp only
  split
  · simp only [raiseAll, List.foldl_append, List.foldl_cons, List.foldl_nil, State.vacate]
    exact congrArg (fun g => State.setEntry _ i ⟨g + 1, none⟩) (h _)
  · simp only [List.append_nil, State.setFlow, h]
    rw [raiseAll_tally]
    rfl

theorem rollFlow_entry (i j : FlowIx) (f : FlowRecord) (s : State) :
    (rollFlow i f s).entry j = if j = i then rolledEntry f (s.entry i).gen s.tally.periodNumber else s.entry j := by
  rw [rollFlow_eq, State.setEntry_entry]
  split
  · rfl
  · rw [State.entry_eq_of_flows (raiseAll_flows _ _) j]
    rfl

theorem rollFlow_flowAt_other {i j : FlowIx} (h : j ≠ i) (f : FlowRecord) (s : State) : (rollFlow i f s).flowAt j = s.flowAt j := by
  rw [State.flowAt, rollFlow_entry, if_neg h, State.flowAt]

/-- A rolled flow that is kept has the current tag, and its ring, key and generation. -/
theorem rollFlow_kept {i : FlowIx} {f g : FlowRecord} {s : State} (h : (rollFlow i f s).flowAt i = some g) :
    g.tag = s.tally.periodNumber ∧ g.ring = f.ring ∧ g.key = f.key ∧ ((rollFlow i f s).entry i).gen = (s.entry i).gen := by
  rw [State.flowAt, rollFlow_entry, if_pos rfl] at h
  rw [rollFlow_entry, if_pos rfl]
  unfold rolledEntry at h ⊢
  split at h
  · cases h
  · next hr =>
    rw [if_neg hr]
    cases h
    exact ⟨rfl, rfl, rfl, rfl⟩

/-! ## What a roll stands apart from -/

theorem rollFlow_modRing (i : FlowIx) (f : FlowRecord) (s : State) (r : RingIx) (g : RingRecord → RingRecord) :
    rollFlow i f (s.modRing r g) = (rollFlow i f s).modRing r g := by
  rw [rollFlow_eq, rollFlow_eq]
  have h : (s.modRing r g).modClosing (foldInto f i) = (s.modClosing (foldInto f i)).modRing r g := rfl
  rw [h, raiseAll_modRing]
  rfl

/-- A summary is open, or closing, by its phase alone. -/
theorem Summary.isOpen_congr {p q : Summary} (h : p.phase = q.phase) : p.isOpen = q.isOpen := by simp only [Summary.isOpen, h]

theorem Summary.isClosing_congr {p q : Summary} (h : p.phase = q.phase) : p.isClosing = q.isClosing := by
  simp only [Summary.isClosing, h]

theorem Summary.not_closing_of_open {q : Summary} (h : q.isOpen = true) : q.isClosing = false := by
  simp only [Summary.isOpen, beq_iff_eq] at h
  simp only [Summary.isClosing, h]

/-- The OPEN summary is none that a roll folds a flow into (06 R112, R114). -/
theorem rollFlow_modOpen (i : FlowIx) (f : FlowRecord) (s : State) (g : Summary → Summary) (hg : ∀ q, (g q).phase = q.phase) :
    rollFlow i f (s.modOpen g) = (rollFlow i f s).modOpen g := by
  have h : (s.modOpen g).modClosing (foldInto f i) = (s.modClosing (foldInto f i)).modOpen g := by
    simp only [State.modOpen, State.modClosing, State.setHistory, List.map_map]
    congr 2
    apply List.map_congr_left
    intro q _
    have h1 := Summary.isOpen_congr (show (foldInto f i q).phase = q.phase from rfl)
    have h2 := Summary.isClosing_congr (hg q)
    simp only [Function.comp]
    by_cases ho : q.isOpen = true
    · simp [ho, h2, Summary.not_closing_of_open ho]
    · by_cases hc : q.isClosing = true <;> simp [ho, hc, h1]
  rw [rollFlow_eq, rollFlow_eq, h]
  simp only [State.modOpen, raiseAll_setHistory]
  rw [State.setEntry_tally, raiseAll_tally]
  rfl

/-- Another entry written before or after a roll. -/
theorem rollFlow_setEntry {i j : FlowIx} (h : j ≠ i) (f : FlowRecord) (s : State) (e : FlowEntry) :
    rollFlow i f (s.setEntry j e) = (rollFlow i f s).setEntry j e := by
  have hg : ((s.setEntry j e).entry i).gen = (s.entry i).gen := by
    rw [State.setEntry_entry, if_neg (Ne.symm h)]
  have hc : (s.setEntry j e).modClosing (foldInto f i) = (s.modClosing (foldInto f i)).setEntry j e := rfl
  have hv : j.val ≠ i.val := fun k => h (Fin.ext k)
  rw [rollFlow_eq, rollFlow_eq, hc, raiseAll_setEntry, hg]
  simp only [State.setEntry]
  congr 1
  exact Vector.set_comm _ _ (by simpa using hv)

/-! ## When a roll is made -/

theorem rollIfLagging_lagging {s : State} {i : FlowIx} {f : FlowRecord} (hf : s.flowAt i = some f) (ht : f.tag ≠ s.tally.periodNumber) :
    rollIfLagging i s = rollFlow i f s := by
  simp only [rollIfLagging, hf, ht, if_false]

theorem rollIfLagging_current {s : State} {i : FlowIx} {f : FlowRecord} (hf : s.flowAt i = some f) (ht : f.tag = s.tally.periodNumber) :
    rollIfLagging i s = s := by
  simp only [rollIfLagging, hf, ht, if_true]

/-- A flow just rolled and kept is not rolled again. -/
theorem rollIfLagging_rollFlow {s : State} {i : FlowIx} {f g : FlowRecord} (h : (rollFlow i f s).flowAt i = some g) :
    rollIfLagging i (rollFlow i f s) = rollFlow i f s :=
  rollIfLagging_current h ((rollFlow_kept h).1.trans (rollFlow_frame i f s).periodNumber.symm)

/-! ## What the crediting test and the recognition of a transfer look at -/

theorem State.credited_congr {s t : State} (h : t.flows = s.flows) (p : PendingRecord) : t.credited p = s.credited p := by
  simp only [State.credited, State.flowAt_eq_of_flows h, State.entry_eq_of_flows h]

/-- A credited record names the entry and its generation (03 R53). -/
theorem State.credited_some {s : State} {p : PendingRecord} {i : FlowIx} {f : FlowRecord} (h : s.credited p = some (i, f)) :
    s.flowAt i = some f ∧ p.flow = some ⟨i, (s.entry i).gen⟩ := by
  unfold State.credited at h
  split at h
  · cases h
  · next ref hr =>
    split at h
    · cases h
    · next g hg =>
      split at h
      · next hgen => cases h; exact ⟨hg, by rw [hr, hgen]⟩
      · cases h

theorem recognise_frame {s t : State} (h : DirectoryFrame s t) (addr : BitVec 22) (slen : BitVec 2) :
    recognise addr slen t = recognise addr slen s := by
  simp only [recognise, State.ringAt, h.device, h.rstAsserted, h.ring]

end Sys2Proof.Machine
end

