-- ==== Sys2Proof/Tests/Slice0.lean ====
section
/-! SUPPORT. Checks of the model on small states: ill-formed commands, one step of each command, and for every statement with
hypotheses a concrete state and operands that meet them. -/

namespace Sys2Proof.Tests

set_option Elab.async false

open Sys2Proof.Machine

/-! ## Small states -/

/-- A word with good parity. -/
def word (d : Nat) : BusWord := ⟨BitVec.ofNat 32 d, goodParity (BitVec.ofNat 32 d)⟩

/-- A forward write of a key and a sequence under the default profile. -/
def forward (key seq : Nat) : List BusWord := [word 0, word 0x20000000, word (key * 65536 + seq), word 0]

/-- A void write. -/
def voided : List BusWord := [word 0, word 0xF0000000, word 0, word 0]

/-- A write whose first byte has bad parity. -/
def spoilt : List BusWord := [⟨0, ~~~(goodParity 0)⟩, word 0, word 0, word 0]

/-- A part in MONITORING with address 5, the chord enabled, and ring 3 at 0x4000 with 8 slots, stamps and auto-enrol on. -/
def part : State :=
  { State.reset with
    device := .monitoring
    straps := ⟨5, 1, false, 0, true⟩
    rings := State.reset.rings.set 3
      { RingRecord.init with enabled := true, base := 0x4000, slotCount := 8, stampOn := true, autoEnrol := true }
    tally := { TallyState.init with history := [newSummary State.reset 0 1] } }

/-- A flow tracked at 400 ticks on ring 3. -/
def flow : FlowRecord := newFlow .static 3 0x0A21 (.tracking 400 none 1000) ⟨200, 300, 5000, 1, 1, 1, 1⟩ 0

/-- The pending record of a frame of that flow. -/
def record : PendingRecord := ⟨some ⟨0, 0⟩, 0x0A21, 500, 1000⟩

/-- The part with the flow at entry 0 at tick count 1000. -/
def flowing : State :=
  { part with flows := part.flows.set 0 ⟨0, some flow⟩, time := { part.time with tickCount := 1000 } }

/-- The part with the flow's frame held in slots 0 and 7. -/
def holding : State :=
  { flowing with rings := flowing.rings.set 3 { flowing.ring 3 with
      slots := [(0, record), (7, record)], held := 2, highWater := 2, enqueued := 2 } }

/-- The part holding frames whose flow is gone. -/
def orphaned : State := { holding with flows := State.reset.flows }

/-- The part with no VACANT entry. -/
def crowded : State := { part with flows := Vector.replicate 256 ⟨0, some flow⟩ }

/-- The part at the end of a period, with every flow's tag one behind. -/
def lagging : State :=
  { flowing with tally := { flowing.tally with
      periodNumber := 1
      history := [{ newSummary State.reset 0 1 with phase := .closing 255 }, newSummary State.reset 1 1] } }

/-- A state with some events due. -/
def withDue (d : Due) (s : State) : State := { s with due := d }

/-- A state with a reply going on. -/
def replying (r : Reply) (s : State) : State := { s with line := { s.line with reply := some r } }

/-- Whether a command answers a next state with a property. -/
def after (c : Instr) (s : State) (p : State → Bool) : Bool :=
  match exec c s with
  | .next t => p t
  | _ => false

/-! ## Ill-formed commands are refused by the check -/

theorem test_wellFormed_write_without_words : (Instr.busTransfer true 0 3 []).wellFormed = false := by decide
theorem test_wellFormed_read_with_words : (Instr.busTransfer false 0 0 [word 0]).wellFormed = false := by decide
theorem test_wellFormed_read_data : (Instr.readDataCheck []).wellFormed = false ∧ (Instr.readDataCheck [word 0]).wellFormed = true := by decide
theorem test_wellFormed_full_write : (Instr.busTransfer true 0 3 voided).wellFormed = true := by decide
theorem test_wellFormed_request_address : (Instr.status 16).wellFormed = false ∧ (Instr.status 15).wellFormed = true := by decide
theorem test_wellFormed_long_image : imageOk (List.replicate 65537 0) = false := by
  unfold imageOk
  rw [List.length_replicate]
  decide

/-! ## The queue -/

theorem test_step_on_empty_queue : step State.reset = .next State.reset := rfl

theorem test_no_word_spells_a_command : decodeTableWord 8 1 = none ∧ State.reset.withFetchWord 8 1 = State.reset := ⟨rfl, rfl⟩

/-! ## One step of each command -/

theorem test_power_on : after (.powerOn ⟨5, 1, false, 2, true⟩) holding
    (fun t => t.device == .loading && t.time.ratio == 4000 && t.panel.chord == .spent && t.totalHeld == 0) = true := by decide +kernel
theorem test_arrival : after (.busTransfer true 0x4000 3 (forward 0x0A21 500)) part (fun t =>
    (t.ring 3).held == 1 && (t.flowAt 0).isSome && slotGet (t.ring 3).slots 0 == some ⟨some ⟨0, 0⟩, 0x0A21, 500, 0⟩) = true := by
  decide +kernel
theorem test_departure : after (.busTransfer false 0x401C 3 []) holding (fun t =>
    (t.ring 3).departed == 1 && (t.ring 3).held == 1 && t.reads == [some ⟨3, 7, some 1000⟩]) = true := by decide +kernel
theorem test_read_data_check : after (.readDataCheck [word 0, word 0, word 0, word 1])
    { holding with reads := [some ⟨3, 0, some 1000⟩] } (fun t => (t.ring 3).stampMismatches == 1 && t.alarm.stack == 1) = true := by
  decide +kernel
theorem test_short_read : after (.busTransfer false 0x4000 0 []) holding (fun t => t.reads == [none] && (t.ring 3).strayAccesses == 1) = true ∧
    after (.readDataCheck [word 1]) { holding with reads := [none, some ⟨3, 0, some 1000⟩] }
      (fun t => t.reads.length == 1 && t.path.toSwitch == [(2, [word 1])] && (t.ring 3).parityFaults == 0) = true := by decide +kernel
theorem test_bus_reset : after .busReset holding (fun t =>
    (t.ring 3).flushed == 2 && t.totalHeld == 0 && t.startRec.busResets == 1 && t.rstAsserted) = true := by decide +kernel
theorem test_release : after .swRstNRelease { holding with rstAsserted := true } (fun t => !t.rstAsserted && t.totalHeld == 2) = true := by decide +kernel
theorem test_bus_clock : after (.busClock false) part (fun t => t.time.acc == 256 && t.time.loss == 1) = true := by decide +kernel
theorem test_seen_edge : after .seenRisingEdge (withDue { Due.none with seenEdge := true } part)
    (fun t => t.time.meter == .counting 0 0 0) = true := by decide +kernel
theorem test_tick : after (.tick part.pins) (withDue { Due.none with tick := true } part)
    (fun t => t.time.tickCount == 1 && t.due == Due.none) = true := by decide +kernel
theorem test_ref_loss : after .refLoss { part with
      due := { Due.none with refLoss := true }, time := { part.time with source := .locked } }
    (fun t => t.time.source == .holdover && t.log.records.length == 1) = true := by decide +kernel
theorem test_measurement : after .measurementCompletion (withDue { Due.none with measurement := some 64000 } part)
    (fun t => t.time.ratio == 4000 && t.time.source == .locked) = true := by decide +kernel
theorem test_millisecond_strobe : after .millisecondStrobe (withDue { Due.none with msStrobe := true } part)
    (fun t => t.tally.timer == 1 && t.time.secondsCounter == 1) = true := by decide +kernel
theorem test_seconds_strobe : after .secondsStrobe
      { part with due := { Due.none with secondsStrobe := true }, panel := { part.panel with chord := .timing 1 } }
    (fun t => t.tally.periodNumber == 1 && t.panel.chord == .spent) = true := by decide +kernel
theorem test_sweep_pace : after .sweepPace (withDue { Due.none with sweepPace := true } lagging)
    (fun t => (t.flowAt 0).map (fun f => f.tag) == some 1 && t.sweepNext == 1) = true := by decide +kernel
theorem test_silence_tick : after .silenceTick (withDue { Due.none with silenceTick := true } part)
    (fun t => (t.ring 3).silenceCounter == 1 && (t.ring 2).silenceCounter == 0) = true := by decide +kernel
theorem test_boundary : after .boundary { part with tally := { part.tally with timer := 1000 } }
    (fun t => t.tally.history.map (fun q => q.phase) == [.closing 255, .opened] && t.tally.timer == 0) = true := by decide +kernel
theorem test_debounced_change : after (.debouncedStateChange .clrA)
      { part with panel := ⟨⟨false, 40000⟩, ⟨true, 0⟩, ⟨false, 0⟩, .idle⟩ }
    (fun t => t.panel.chord == .timing 0 && t.panel.clrA.pressed) = true := by decide +kernel
theorem test_address_character : after (.addressCharacter 5 false) part (fun t => t.line.rx == .collecting true []) = true := by
  decide +kernel
theorem test_data_character : after (.dataCharacter 61 false) { part with line := { part.line with rx := .collecting true [2] } }
    (fun t => t.line.rx == .overlong true 2) = true := by decide +kernel
theorem test_gap_limit : after .gapLimitExpiry { part with line := { part.line with rx := .collecting true [], gapTicks := 22924 } }
    (fun t => t.line.rx == .waiting && t.line.lineErrors == 1) = true := by decide +kernel
theorem test_quiet_limit : after .quietLimitExpiry { part with line := { part.line with rx := .overlong true 2, gapTicks := 22924 } }
    (fun t => t.line.reply.map (fun r => r.chars) == some [0x85, 7, 0]) = true := by decide +kernel
theorem test_reply_start : after .replyStart (replying ⟨[0x85, 0, 0], false, 11462, 3, false⟩ part) (fun t => t.tlDe) = true := by
  decide +kernel
theorem test_reply_end : after .replyEnd (replying ⟨[0x85, 0, 0], true, 17193, 3, false⟩ part)
    (fun t => !t.tlDe && t.line.reply == none) = true := by decide +kernel
theorem test_load_end : after (.loadEnd []) State.reset
    (fun t => t.device == .unconfigured && t.startRec.result == .absent && t.alarm.stack == 1) = true := by decide +kernel
/-- The first bit of the image is taken at the last tick of the 25th SPI clock; the read of an absent image stops after 16 ones. -/
theorem test_loader_tick :
    (LoadRead.tick true ⟨98, [], []⟩) = ⟨99, [], []⟩ ∧ (LoadRead.tick true ⟨99, [], []⟩) = ⟨100, [true], []⟩ ∧
      (LoadRead.tick true ⟨159, List.replicate 7 true, [0xFF]⟩) = ⟨160, [], [0xFF, 0xFF]⟩ ∧
      (LoadRead.tick true ⟨160, [], [0xFF, 0xFF]⟩) = ⟨160, [], [0xFF, 0xFF]⟩ ∧
      (LoadRead.tick false ⟨127, [false, true, false, false, false, true, false], []⟩) = ⟨128, [], [0x44]⟩ := by decide +kernel
/-- CFG_MOSI carries 0x03 in the SPI clocks 0 to 7: low in clock 5, high in clock 6. -/
theorem test_cfg_outputs :
    State.reset.cfgSelected = true ∧ part.cfgSelected = false ∧
      (({ State.reset with load := ⟨20, [], []⟩ } : State).cfgMosi = false) ∧
      (({ State.reset with load := ⟨24, [], []⟩ } : State).cfgMosi = true) ∧
      (({ State.reset with load := ⟨26, [], []⟩ } : State).cfgSck = true) ∧ (({ State.reset with load := ⟨24, [], []⟩ } : State).cfgSck = false) := by
  decide +kernel
theorem test_status : after (.status 5) part
    (fun t => t.line.reply.map (fun r => r.chars.take 4) == some [0x85, 0, 28, 2]) = true := by decide +kernel
theorem test_read_flow : after (.readFlow 5 0 3) flowing (fun t => t.line.reply.map (fun r => r.chars.length) == some 36) = true := by
  decide +kernel
theorem test_find_flow : after (.findFlow 5 3 0x0A21) flowing
    (fun t => t.line.reply.map (fun r => r.chars) == some [0x85, 0, 4, 0, 3, 0, 0]) = true := by decide +kernel
theorem test_define_flow : after (.defineFlow 5 3 0x0A22 ⟨50, 0, 0, 0, 0, 0, 0, 0⟩) flowing
    (fun t => (t.flowAt 1).map (fun f => f.cycle) == some (.waiting 100)) = true := by decide +kernel
theorem test_remove_flow : after (.removeFlow 5 0) flowing (fun t => t.flowAt 0 == none && (t.entry 0).gen == 1) = true := by
  decide +kernel
theorem test_set_period : after (.setPeriod 5 0 500) flowing
    (fun t => (t.flowAt 0).map (fun f => f.cycle) == some (.tracking 400 (some 500) 1000)) = true := by decide +kernel
theorem test_read_ring : after (.readRing 5 3 2) part (fun t => t.line.reply.map (fun r => r.chars.length) == some 37) = true := by
  decide +kernel
theorem test_read_ring_counters : after (.readRing 5 3 0) holding (fun t => t.line.reply.map (fun r => r.chars) ==
    some ([0x85, 0, 32, 3, 0, 7, 0, 0x40, 0, 0, 8, 0, 2, 0, 2, 0, 0, 0, 2] ++ List.replicate 16 0)) = true := by decide +kernel
theorem test_define_ring : after (.defineRing 5 4 0x4020 8 1) part
    (fun t => (t.ring 4).enabled && (t.ring 4).stampOn && !(t.ring 4).autoEnrol) = true := by decide +kernel
theorem test_ring_off : after (.ringOff 5 3) holding (fun t => !(t.ring 3).enabled && (t.ring 3).flushed == 2) = true := by
  decide +kernel
theorem test_read_summary : after (.readSummary 5 0 1) part
    (fun t => t.line.reply.map (fun r => r.chars.length) == some 54) = true := by decide +kernel
theorem test_take_incidents : after (.takeIncidents 5 255) (raise .configFault .device 2 part)
    (fun t => t.log.records.length == 0 && t.line.reply.map (fun r => r.chars.length) == some 22) = true := by decide +kernel
theorem test_acknowledge : after (.acknowledge 5 2) (raise .configFault .device 2 part)
    (fun t => t.alarm.stack == 0 && t.log.records.length == 1) = true := by decide +kernel
theorem test_set_alarm_map : after (.setAlarmMap 5 (Vector.replicate 14 2) 0xFF 0 0) part
    (fun t => t.alarm.settings.mask == 0b01111110 && t.alarm.settings.classMap[13].val == 2) = true := by decide +kernel
theorem test_set_tally_period : after (.setTallyPeriod 5 7) part (fun t => t.tally.pendingCode == some 5) = true := by decide +kernel
theorem test_clear_tallies : after (.clearTallies 5) holding
    (fun t => t.tally.periodNumber == 1 && (t.ring 3).enqueued == 2 && t.tally.history.length == 1) = true := by decide +kernel
theorem test_restart : after (.restart 0) holding (fun t => t.device == .loading && t.flowAt 0 == none) = true := by decide +kernel
theorem test_start : after (.start 5) { part with device := .unconfigured } (fun t => t.device == .monitoring) = true := by
  decide +kernel

/-! ## The hypotheses of the statements are met -/

theorem part_flowAt (i : FlowIx) : part.flowAt i = none := by
  simp [State.flowAt, State.entry, part, State.reset, FlowEntry.init]

theorem orphaned_flowAt (i : FlowIx) : orphaned.flowAt i = none := by
  simp [State.flowAt, State.entry, orphaned, State.reset, FlowEntry.init]

theorem flowing_flowAt (i : FlowIx) : flowing.flowAt i = if i = 0 then some flow else none := by
  have h := part_flowAt i
  simp only [State.flowAt, State.entry, flowing] at h ⊢
  by_cases hi : i = 0
  · subst hi
    rfl
  · have : (0 : FlowIx).val ≠ i.val := fun e => hi (Fin.ext e.symm)
    simp_all

theorem holding_flowAt (i : FlowIx) : holding.flowAt i = if i = 0 then some flow else none := flowing_flowAt i

theorem crowded_flowAt (i : FlowIx) : crowded.flowAt i = some flow := by simp [State.flowAt, State.entry, crowded]

theorem flowing_only (i : FlowIx) (f : FlowRecord) (h : flowing.flowAt i = some f) : i = 0 ∧ f = flow := by
  rw [flowing_flowAt] at h
  split at h <;> simp_all

theorem flowing_noneLagging : NoneLagging flowing := fun i f h => (flowing_only i f h).2 ▸ rfl
theorem holding_noneLagging : NoneLagging holding := fun i f h => (flowing_only i f h).2 ▸ rfl
theorem orphaned_noneLagging : NoneLagging orphaned := fun i f h => by simp [orphaned_flowAt] at h

theorem flowing_directory : DirectoryOk flowing := fun i j f g hi hj _ _ =>
  (flowing_only i f hi).1.trans (flowing_only j g hj).1.symm

/-- Where no flow lags, no credited flow does. -/
theorem creditedCurrent_of_noneLagging {s : State} (h : NoneLagging s) (p : PendingRecord) : CreditedCurrent s p :=
  fun j f e => h j f (State.credited_some e).1

theorem holding_credited : CreditedCurrent holding record := creditedCurrent_of_noneLagging holding_noneLagging record
theorem orphaned_credited : CreditedCurrent orphaned record := creditedCurrent_of_noneLagging orphaned_noneLagging record

theorem part_direct : Direct 5 part := ⟨rfl, by decide, rfl⟩
theorem flowing_direct : Direct 5 flowing := ⟨rfl, by decide, rfl⟩
theorem holding_direct : Direct 5 holding := ⟨rfl, by decide, rfl⟩

theorem witness_StepRunsFrontCommand :
    ({ part with pending := [.busReset] } : State).pending = .busReset :: [] ∧ part.pending = [] := ⟨rfl, rfl⟩

theorem witness_EventNotDueChangesNothing :
    ∀ c ∈ [Instr.tick part.pins, .refLoss, .measurementCompletion, .millisecondStrobe, .secondsStrobe, .sweepPace, .silenceTick,
      .boundary, .debouncedStateChange .clrA, .debouncedStateChange .clrB, .debouncedStateChange .ack, .gapLimitExpiry,
      .quietLimitExpiry, .replyStart, .replyEnd, .loadEnd [], .seenRisingEdge], notDue part c := by
  simp [notDue, part, State.reset, Due.none, TallyLine.init, TallyState.init, periodLength, Panel.input, Panel.init, Config.debounceTicks]

/-- The first and the last slot; no window, the address after the window, and SW_RST_N asserted; a short burst, a burst off the slot grid,
and a burst that runs into the window; the two ends of the window, and a burst past the last word address with a window at 0. -/
theorem witness_TransfersAreRecognised :
    (part.device = .monitoring ∧ part.rstAsserted = false ∧ (part.ring 3).enabled = true ∧ 7 < (part.ring 3).slotCount ∧
      (0x4000#22).toNat = (part.ring 3).base.toNat + 4 * 0 ∧ (0x401C#22).toNat = (part.ring 3).base.toNat + 4 * 7 ∧
      (∀ q : RingIx, q ≠ 3 → (part.ring q).inWindow (0x401C#22).toNat = false)) ∧
    (State.reset.device ≠ .monitoring ∧ ({ part with rstAsserted := true } : State).rstAsserted = true ∧
      ∀ r : RingIx, (part.ring r).touched (0x4020#22).toNat 4 = false) ∧
    ((part.ring 3).touched (0x4000#22).toNat 1 = true ∧ (part.ring 3).touched (0x401F#22).toNat 4 = true ∧
      ((0x401F#22).toNat - (part.ring 3).base.toNat) % 4 ≠ 0 ∧ (part.ring 3).touched (0x3FFF#22).toNat 2 = true ∧
      ∀ q : RingIx, (part.ring q).inWindow (0x3FFF#22).toNat = false) ∧
    ((part.ring 3).inWindow 0x4000 = true ∧ (part.ring 3).inWindow 0x401F = true ∧ (part.ring 3).inWindow 0x4020 = false ∧
      (part.ring 3).touched (0x3FFE#22).toNat 2 = false ∧ 0 < (part.ring 3).slotCount ∧
      ({ RingRecord.init with enabled := true } : RingRecord).touched (0x3FFFFF#22).toNat 4 = false) ∧
    (burstOk (forward 0x0A21 500) = true ∧ burstOk spoilt = false ∧ maskedKeyOf part.values (forward 0x0A21 500) = 0x0A21 ∧
      sequenceOf part.values (forward 0x0A21 500) = 500 ∧ isVoid part.values voided = true) := by decide +kernel

theorem witness_UntrackedTransfersAreCarried :
    recognise 0x4020 3 part = .unseen ∧ recognise 0x4000 2 part = .stray ∧ recognise 0x3FFF 3 part = .stray := by decide +kernel

theorem witness_UpdateAndVoidWriteKeepSlots :
    (recognise 0x4000 3 holding = .descriptor 3 0 ∧ burstOk (forward 0x0A21 500) = true ∧
      slotGet (holding.ring 3).slots 0 = some record ∧ isVoid holding.values (forward 0x0A21 500) = false ∧
      maskedKeyOf holding.values (forward 0x0A21 500) = record.key ∧ sequenceOf holding.values (forward 0x0A21 500) = record.seq) ∧
    (recognise 0x4004 3 holding = .descriptor 3 1 ∧ burstOk voided = true ∧ slotGet (holding.ring 3).slots 1 = none ∧
      isVoid holding.values voided = true) := by decide +kernel

theorem witness_TrackedArrival :
    recognise 0x4004 3 flowing = .descriptor 3 1 ∧ burstOk (forward 0x0A21 500) = true ∧
      slotGet (flowing.ring 3).slots 1 = none ∧ isVoid flowing.values (forward 0x0A21 500) = false ∧
      flowing.findKey 3 (maskedKeyOf flowing.values (forward 0x0A21 500)) = some 0 ∧ flowing.flowAt 0 = some flow ∧
      flow.tag = flowing.tally.periodNumber := by decide +kernel

/-- A key no flow has is found in no entry. -/
theorem findKey_none (s : State) (r : RingIx) (k : Half) (h : ∀ i f, s.flowAt i = some f → f.key ≠ k) : s.findKey r k = none := by
  simp only [State.findKey, List.find?_eq_none]
  intro i _ hi
  split at hi
  · next f hf =>
    simp only [Bool.and_eq_true, beq_iff_eq] at hi
    exact h i f hf hi.2
  · cases hi

/-- Auto-enrol off with VACANT entries, and auto-enrol on with none. -/
theorem witness_UntrackedArrival :
    (
      let s := part.modRing 3 (fun x => { x with autoEnrol := false })
      recognise 0x4000 3 s = .descriptor 3 0 ∧ burstOk (forward 7 1) = true ∧ slotGet (s.ring 3).slots 0 = none ∧
      isVoid s.values (forward 7 1) = false ∧ maskedKeyOf s.values (forward 7 1) = 7 ∧ (s.ring 3).autoEnrol = false) ∧
    (recognise 0x4000 3 crowded = .descriptor 3 0 ∧ slotGet (crowded.ring 3).slots 0 = none ∧
      isVoid crowded.values (forward 7 1) = false ∧ maskedKeyOf crowded.values (forward 7 1) = 7 ∧
      (crowded.ring 3).autoEnrol = true) ∧
    (part.modRing 3 (fun x => { x with autoEnrol := false })).findKey 3 7 = none ∧ crowded.findKey 3 7 = none ∧
    ∀ j : FlowIx, crowded.flowAt j ≠ none := by
  refine ⟨by decide +kernel, by decide +kernel, findKey_none _ _ _ ?_, findKey_none _ _ _ ?_, ?_⟩
  · intro i f h
    have h1 : part.flowAt i = some f := h
    rw [part_flowAt] at h1
    cases h1
  · intro i f h
    rw [crowded_flowAt] at h
    cases h
    decide
  · intro j
    rw [crowded_flowAt]
    exact nofun

/-- Enrolment at the first entry and at the last. -/
theorem witness_EnrolledArrival :
    (recognise 0x4000 3 part = .descriptor 3 0 ∧ burstOk (forward 7 1) = true ∧ slotGet (part.ring 3).slots 0 = none ∧
      isVoid part.values (forward 7 1) = false ∧ maskedKeyOf part.values (forward 7 1) = 7 ∧ (part.ring 3).autoEnrol = true) ∧
    part.findKey 3 7 = none ∧ part.flowAt 0 = none ∧
    (
      let s := crowded.setEntry 255 ⟨3, none⟩
      s.flowAt 255 = none ∧ ∀ k : FlowIx, k.val < (255 : FlowIx).val → s.flowAt k ≠ none) := by
  refine ⟨by decide +kernel, findKey_none _ _ _ ?_, part_flowAt 0, ?_, ?_⟩
  · intro i f h
    rw [part_flowAt] at h
    cases h
  · simp [State.flowAt, State.entry, State.setEntry]
  · intro k hk
    have h := crowded_flowAt k
    have hne : (255 : FlowIx).val ≠ k.val := by omega
    simp_all [State.flowAt, State.entry, State.setEntry]

/-- The same flow again, a key without a flow and with auto-enrol off, and one that is enrolled; a drop credited and one not. -/
theorem witness_OverwriteReplacesRecord :
    (recognise 0x4000 3 holding = .descriptor 3 0 ∧ burstOk (forward 0x0A21 501) = true ∧
      slotGet (holding.ring 3).slots 0 = some record ∧ isVoid holding.values (forward 0x0A21 501) = false ∧
      ¬ (maskedKeyOf holding.values (forward 0x0A21 501) = record.key ∧ sequenceOf holding.values (forward 0x0A21 501) = record.seq) ∧
      holding.findKey 3 (maskedKeyOf holding.values (forward 0x0A21 501)) = some 0 ∧
      ((holding.overwrote 3 0 record).flowAt 0).isSome = true ∧ holding.credited record = some (0, flow)) ∧
    (recognise 0x4000 3 orphaned = .descriptor 3 0 ∧ isVoid orphaned.values (forward 7 1) = false ∧
      maskedKeyOf orphaned.values (forward 7 1) = 7 ∧ slotGet (orphaned.ring 3).slots 0 = some record ∧
      orphaned.credited record = none ∧ (orphaned.ring 3).autoEnrol = true ∧
      ((orphaned.modRing 3 (fun x => { x with autoEnrol := false })).ring 3).autoEnrol = false) ∧
    ((holding.overwrote 3 0 record).flowAt 0).map (fun f => f.tag) = some holding.tally.periodNumber ∧
    CreditedCurrent holding record ∧ CreditedCurrent orphaned record ∧ orphaned.findKey 3 7 = none ∧ orphaned.flowAt 0 = none := by
  refine ⟨by decide +kernel, by decide +kernel, by decide +kernel, holding_credited, orphaned_credited, findKey_none _ _ _ ?_, orphaned_flowAt 0⟩
  intro i f h
  rw [orphaned_flowAt] at h
  cases h

theorem witness_WithdrawalEmptiesSlot :
    (recognise 0x401C 3 holding = .descriptor 3 7 ∧ burstOk voided = true ∧ slotGet (holding.ring 3).slots 7 = some record ∧
      isVoid holding.values voided = true ∧ holding.credited record = some (0, flow)) ∧
    (recognise 0x401C 3 orphaned = .descriptor 3 7 ∧ slotGet (orphaned.ring 3).slots 7 = some record ∧
      orphaned.credited record = none) ∧ CreditedCurrent holding record ∧ CreditedCurrent orphaned record := by
  refine ⟨?_, ?_, holding_credited, orphaned_credited⟩ <;> decide +kernel

theorem witness_ParityFaultedWriteHoldsSlot :
    (recognise 0x4004 3 holding = .descriptor 3 1 ∧ burstOk spoilt = false ∧ slotGet (holding.ring 3).slots 1 = none) ∧
    (recognise 0x4000 3 holding = .descriptor 3 0 ∧ slotGet (holding.ring 3).slots 0 = some record) ∧ CreditedCurrent holding record := by
  refine ⟨?_, ?_, holding_credited⟩ <;> decide +kernel

/-- Residence 0 in the first bin and the largest residence in the last. -/
theorem witness_DepartureCountsResidence :
    (recognise 0x4000 3 holding = .descriptor 3 0 ∧ slotGet (holding.ring 3).slots 0 = some record ∧
      binLow[0] ≤ (holding.time.tickCount - record.stamp).toNat ∧ (holding.time.tickCount - record.stamp).toNat < binLow[1] ∧
      holding.credited record = some (0, flow)) ∧
    (
      let s := { orphaned with time := { orphaned.time with tickCount := 999 } }
      recognise 0x4000 3 s = .descriptor 3 0 ∧ slotGet (s.ring 3).slots 0 = some record ∧
      binLow[7] ≤ (s.time.tickCount - record.stamp).toNat ∧ s.credited record = none) ∧
    CreditedCurrent holding record ∧ CreditedCurrent orphaned record := by
  refine ⟨?_, ?_, holding_credited, orphaned_credited⟩ <;> decide +kernel

theorem witness_PhantomReadIsCounted :
    recognise 0x4004 3 holding = .descriptor 3 1 ∧ slotGet (holding.ring 3).slots 1 = none := by decide +kernel

/-- No read outstanding, one without checks, bad parity, a wrong stamp, a right stamp, and a phantom read. -/
theorem witness_ReadDataIsChecked :
    part.reads = [] ∧ (∀ l : List (Option ReadCheck), ({ holding with reads := l } : State).reads = l) ∧
    burstOk spoilt = false ∧ burstOk [word 0, word 0, word 0, word 1001] = true ∧ (holding.ring 3).stampOn = true ∧
    holding.values.profile.stampWord = some 3 ∧ (⟨3, 0, some 1000⟩ : ReadCheck).stamp = some 1000 ∧
    (wordAt [word 0, word 0, word 0, word 1001] 3).data ≠ 1000#32 ∧ (wordAt [word 0, word 0, word 0, word 1000] 3).data = 1000#32 ∧
    (⟨3, 1, none⟩ : ReadCheck).stamp = none :=
  ⟨rfl, fun _ => rfl, by decide +kernel⟩

/-- A ring with records credited and one with records of no flow, and no ring with a record. -/
theorem witness_BusResetFlushesRings :
    holding.rstAsserted = false ∧ part.rstAsserted = false ∧
      (∀ r : RingIx, (part.ring r).enabled = true → (part.ring r).slots = []) ∧ NoneLagging holding ∧ NoneLagging orphaned ∧
      holding.creditedTo 0 = 2 ∧ orphaned.uncreditedIn (orphaned.ring 3).slots = 2 :=
  ⟨rfl, rfl, by decide +kernel, holding_noneLagging, orphaned_noneLagging, by decide +kernel, by decide +kernel⟩

theorem witness_PathStageAddsTwoClocks :
    let s := { part with path := ⟨[(1, ⟨false, 0, 0, []⟩), (2, ⟨false, 4, 0, []⟩)], [], [(1, [word 0]), (2, [word 1])], []⟩ }
    (∀ p ∈ s.path.toMemory, p.1 = 1 ∨ p.1 = 2) ∧ ∀ p ∈ s.path.toSwitch, p.1 = 1 ∨ p.1 = 2 := by decide +kernel

/-- A part with nothing outstanding, under any time base. -/
theorem part_settled (t : TimeBase) : Settled { part with time := t } where
  due := rfl
  panel := (by decide : part.panel.clrA.count ≠ Config.debounceTicks ∧ part.panel.clrB.count ≠ Config.debounceTicks ∧
    part.panel.ack.count ≠ Config.debounceTicks)
  load := nofun
  boundary := rfl
  received := rfl
  gap := .inl rfl
  reply := by
    intro r h
    cases h

/-- An accumulator one step below the ratio and one at it; a loss count at 254, 255 and 256. -/
theorem witness_BusClockStepsTimeBase :
    (∀ acc loss : Nat, Settled { part with time := { part.time with acc := acc, loss := loss } }) ∧
      1791 + 256 < part.time.ratio ∧ part.time.ratio ≤ 1792 + 256 ∧ part.time.source ≠ .locked ∧ part.time.refLast = true :=
  ⟨fun _ _ => part_settled _, by decide⟩

theorem witness_SeenEdgeFeedsMeter :
    (withDue { Due.none with seenEdge := true } part).due.seenEdge = true ∧ part.time.meter = .waiting ∧
    (∀ p b : Nat, ({ part.time with meter := .counting 9 p b } : TimeBase).meter = .counting 9 p b) := ⟨rfl, rfl, fun _ _ => rfl⟩

/-- The least and the greatest total of a valid ratio, and the totals next to them. -/
theorem witness_MeasurementDecidesSource :
    (∀ m : Nat, (withDue { Due.none with measurement := some m } part).due.measurement = some m) ∧
      (16376 + 8) / 16 = 1024 ∧ (262135 + 8) / 16 = 16383 ∧ (16375 + 8) / 16 < 1024 ∧ 16383 < (262136 + 8) / 16 :=
  ⟨fun _ => rfl, by decide⟩

theorem witness_RefLossEntersHoldover :
    (withDue { Due.none with refLoss := true } part).due.refLoss = true ∧ part.time.source ≠ .locked ∧
      ({ part.time with source := .locked } : TimeBase).source = .locked := ⟨rfl, by decide, rfl⟩

/-- Strobe counters below and at their ends; the loader before the first bit, at it, at the last bit of a byte, and stopped. -/
theorem witness_TickAdvancesCounters :
    (withDue { Due.none with tick := true } part).due.tick = true ∧
      ({ part.time with msCounter := 9998, sweepCounter := 398 } : TimeBase).msCounter < 9999 ∧
      ({ part.time with msCounter := 9999, sweepCounter := 399 } : TimeBase).sweepCounter = 399 ∧
      ({ State.reset with load := ⟨98, [], []⟩ } : State).cfgSelected = true ∧ 98 + 1 < 100 ∧ (99 + 1) % 4 = 0 ∧ 100 ≤ 99 + 1 ∧
      (List.replicate 7 true).length = 7 ∧ ({ State.reset with load := ⟨160, [], [0xFF, 0xFF]⟩ } : State).cfgSelected = false := by
  decide +kernel

theorem witness_MillisecondStrobeCounts :
    (withDue { Due.none with msStrobe := true } part).due.msStrobe = true ∧ part.device = .monitoring ∧
      State.reset.device ≠ .monitoring ∧ part.time.silenceCode = 1 ∧ 98 + 1 < 100 ∧ 99 + 1 = 100 := by decide +kernel

theorem witness_SecondsStrobePacesChord :
    (withDue { Due.none with secondsStrobe := true } part).due.secondsStrobe = true ∧ part.device = .monitoring ∧
      (∀ n, ({ part.panel with chord := .timing n } : Panel).chord = .timing n) ∧ ∀ n, part.panel.chord ≠ .timing n :=
  ⟨rfl, rfl, fun _ => rfl, by intro n h; cases h⟩

/-- A VACANT entry, a flow with a current tag, and a lagging one; a context at the age limit and above it; a time at the end of a window
and the one after. -/
theorem witness_SweepPaceVisitsEntry :
    (withDue { Due.none with sweepPace := true } part).due.sweepPace = true ∧ State.reset.device ≠ .monitoring ∧
      part.flowAt part.sweepNext = none ∧ flowing.flowAt flowing.sweepNext = some flow ∧
      flow.tag = flowing.tally.periodNumber ∧ lagging.flowAt lagging.sweepNext = some flow ∧
      flow.tag ≠ lagging.tally.periodNumber ∧ ((16777216#32) - 1#32).toNat ≤ 16777215 ∧ 16777215 < ((16777217#32) - 1#32).toNat ∧
      flow.cycle = .tracking 400 none 1000 ∧ (((1199#32) - 1000#32).toInt + 200) / 400 = 0 ∧
      (((1200#32) - 1000#32).toInt + 200) / 400 = 1 := by decide +kernel

theorem witness_SilenceTickStepsRings :
    (withDue { Due.none with silenceTick := true } part).due.silenceTick = true ∧ part.device = .monitoring ∧
      State.reset.device ≠ .monitoring := by decide +kernel

/-- A FINAL summary among sixteen, and a short history. -/
theorem witness_BoundaryOpensPeriod :
    part.device = .monitoring ∧ periodLength part.tally.code ≤ 1000 ∧ part.tally.history.length < 16 ∧
    (
      let q : Summary := { newSummary State.reset 0 1 with phase := .final }
      let h := List.replicate 15 q ++ [newSummary State.reset 15 1]
      16 ≤ h.length ∧ h = [] ++ q :: (List.replicate 14 q ++ [newSummary State.reset 15 1]) ∧ q.phase = .final) := by decide +kernel

theorem witness_DebouncedChangeActs :
    (
      let s := { part with panel := ⟨⟨false, 40000⟩, ⟨true, 0⟩, ⟨false, 40000⟩, .idle⟩ }
      s.panel.ack = ⟨false, 40000⟩ ∧ s.panel.clrA = ⟨false, 40000⟩ ∧ s.panel.clrB.pressed = true ∧ s.straps.chord = true ∧
      s.panel.chord = .idle) ∧
    (
      let s := { part with panel := ⟨⟨true, 0⟩, ⟨false, 40000⟩, ⟨true, 40000⟩, .idle⟩ }
      s.panel.ack = ⟨true, 40000⟩ ∧ s.panel.clrB = ⟨false, 40000⟩ ∧ s.panel.clrA.pressed = true ∧ s.straps.chord = true ∧
      s.panel.chord = .idle) ∧
    (
      let s := { part with panel := ⟨⟨true, 40000⟩, ⟨true, 40000⟩, ⟨true, 0⟩, .timing 1⟩ }
      s.panel.clrA = ⟨true, 40000⟩ ∧ s.panel.chord = .timing 1 ∧ s.panel.clrB.pressed = true ∧ s.panel.clrB = ⟨true, 40000⟩ ∧
      s.panel.clrA.pressed = true) ∧
    (
      let s := { part with panel := ⟨⟨false, 40000⟩, ⟨false, 40000⟩, ⟨false, 0⟩, .idle⟩ }
      s.panel.clrA = ⟨false, 40000⟩ ∧ s.panel.clrB = ⟨false, 40000⟩ ∧ s.panel.chord = .idle ∧ s.panel.clrA.pressed = false ∧
      s.panel.clrB.pressed = false ∧ State.reset.straps.chord = false) ∧
    (
      let p : Chord → Panel := fun c => ⟨⟨true, 40000⟩, ⟨true, 40000⟩, ⟨false, 0⟩, c⟩
      (p .idle).clrA = ⟨true, 40000⟩ ∧ (p .idle).clrB = ⟨true, 40000⟩ ∧ (p .spent).chord = .spent ∧
      (⟨⟨true, 40000⟩, ⟨false, 0⟩, ⟨false, 0⟩, .spent⟩ : Panel).clrB = ⟨false, 0⟩) := by decide +kernel

/-- The least and the greatest period, with a visit before the arrival and at it. -/
theorem witness_VisitBeforeArrivalAgrees :
    flow.cycle = .tracking 400 none 1000 ∧ 100 ≤ 400 ∧ 400 ≤ 16777215 ∧ flow.misses < 1 ∧
      ((900#32) - 1000#32).toInt ≤ ((1000#32) - 1000#32).toInt ∧ ((1000#32) - 1000#32).toInt ≤ ((1000#32) - 1000#32).toInt := by
  decide +kernel

/-- The arrival at which k is -1, the two ends of the window of k = 0, and the first arrival that relocks at a silence count of 1. -/
theorem witness_ArrivalInTracking :
    flow.cycle = .tracking 400 none 1000 ∧ flow.misses < 1 ∧
      ((799#32) - 1000#32).toInt + 200 < 0 ∧ (((800#32) - 1000#32).toInt + 200) / 400 = 0 ∧
      (((1199#32) - 1000#32).toInt + 200) / 400 = 0 ∧ (((1200#32) - 1000#32).toInt + 200) / 400 = 1 ∧ 1 ≤ flow.misses + 1 := by
  decide +kernel

/-- A learning context with three intervals whose fourth meets the test of its average, one whose fourth fails it, and a third attempt. -/
theorem witness_ArrivalOutsideTracking :
    ((0 + 400 + 400 + 400 + 400 + 2) / 4 = 400 ∧ ∀ i ∈ [400, 400, 350, 450], i ≤ 400 + 400 / 8 ∧ 400 ≤ i + 400 / 8) ∧
    ¬ (∀ i ∈ [400, 400, 349, 451], i ≤ 400 + 400 / 8 ∧ 400 ≤ i + 400 / 8) ∧
    (⟨none, 0, [], 0, 1⟩ : LearningContext).lastTime = none ∧ (⟨some 5, 7, [400, 400, 400], 1200, 3⟩ : LearningContext).attempt = 3 := by
  decide +kernel

/-- Every case at the ends of its range, for the least resync distance. -/
theorem witness_CreditedDepartureIsJudged :
    (64 ≤ 64 ∧ 32767 ≤ 32767) ∧ flow.window.synced = false ∧ ({ flow.window with synced := true } : OrderWindow).synced = true ∧
    (64#16 - 0#16).toInt = 64 ∧ (0#16 - 64#16).toInt = -64 ∧ (63#16 - 0#16).toInt = 63 ∧ (1#16 - 0#16).toInt = 1 ∧
    (0#16 - 1#16).toInt = -1 ∧ (0#16 - 32#16).toInt = -32 ∧ (0#16 - 33#16).toInt = -33 ∧ (0#16 - 63#16).toInt = -63 := by decide +kernel

theorem witness_RollFoldsFlow :
    lagging.flowAt 0 = some flow ∧ flow.tag ≠ lagging.tally.periodNumber ∧ flow.origin = .static ∧
    (
      let f := { flow with origin := .learned, idle := 15 }
      f.origin = .learned ∧ f.period.arrivals = 0 ∧ min 16 (f.idle + 1) = 16) ∧
    (
      let f := { flow with origin := .learned, idle := 14 }
      min 16 (f.idle + 1) ≠ 16) := by decide +kernel

/-- The part holding a frame of its flow in slots 0 and 7 when the flow lags. -/
def late : State := { lagging with rings := holding.rings }

/-- The same with the flow LEARNED and one idle period short of its retirement. -/
def idling : State := late.setFlow 0 { flow with origin := .learned, idle := 15 }

theorem late_directory : DirectoryOk late := flowing_directory

/-- A flow that the roll keeps and one that it retires; a write into an EMPTY slot, one over a record of no flow, and a void write, a read
and a spoilt write of a record of the flow. -/
theorem witness_LaggingFlowIsRolledFirst :
    (lagging.flowAt 0 = some flow ∧ flow.tag ≠ lagging.tally.periodNumber ∧ lagging.findKey flow.ring flow.key = some 0 ∧
      lagging.credited record = some (0, flow) ∧ ((rollFlow 0 flow lagging).flowAt 0).isSome = true ∧
      (rollFlow 0 { flow with origin := .learned, idle := 15 } lagging).flowAt 0 = none) ∧
    DirectoryOk late ∧
    (recognise 0x4004 3 late = .descriptor 3 1 ∧ slotGet (late.ring 3).slots 1 = none ∧ burstOk (forward 0x0A21 500) = true ∧
      isVoid late.values (forward 0x0A21 500) = false ∧ late.findKey 3 (maskedKeyOf late.values (forward 0x0A21 500)) = some 0 ∧
      late.credited { record with flow := none } = none ∧
      ¬ (maskedKeyOf late.values (forward 0x0A21 501) = record.key ∧ sequenceOf late.values (forward 0x0A21 501) = record.seq)) ∧
    (recognise 0x4000 3 late = .descriptor 3 0 ∧ slotGet (late.ring 3).slots 0 = some record ∧ late.credited record = some (0, flow) ∧
      burstOk voided = true ∧ isVoid late.values voided = true ∧ burstOk spoilt = false) ∧
    (late.line.reply = none ∧ late.device ≠ .loading ∧ (5#8).toNat = late.straps.addr.toNat ∧ (0#8).toFin = (0 : FlowIx)) :=
  ⟨by decide +kernel, late_directory, by decide +kernel, by decide +kernel, by decide +kernel⟩

/-- What a transfer or a removal that touches the flow at entry 0 leaves of the parts it may change. -/
def touched (t : State) : FlowEntry × TallyState × IncidentLog × Option Reply :=
  (t.entry 0, t.tally, t.log, t.line.reply)

/-- An overwrite and a departure of a record of a lagging flow, and the flow's removal, on the part itself and after the roll. -/
theorem test_lagging_overwrite : after (.busTransfer true 0x4000 3 (forward 0x0A21 501)) late (fun t =>
    after (.busTransfer true 0x4000 3 (forward 0x0A21 501)) (rollIfLagging 0 late) (fun u => touched t == touched u)) = true := by
  decide +kernel
theorem test_lagging_departure : after (.busTransfer false 0x4000 3 []) idling (fun t =>
    after (.busTransfer false 0x4000 3 []) (rollIfLagging 0 idling) (fun u => touched t == touched u)) = true := by decide +kernel
theorem test_lagging_removal : after (.removeFlow 5 0) idling (fun t => touched t == touched ((rollIfLagging 0 idling).replied .ok [])) =
    true := by decide +kernel

theorem witness_AddressCharacterBeginsCollection :
    part.line.reply = none ∧ (replying ⟨[0x85, 0, 0], true, 5, 3, false⟩ part).line.reply = some ⟨[0x85, 0, 0], true, 5, 3, false⟩ ∧
      (⟨[0x85, 0, 0], false, 5, 3, false⟩ : Reply).sending = false := ⟨rfl, rfl, rfl⟩

/-- The lengths 0, 1, 60 and 61, and a command of an unknown code or with a wrong length. -/
theorem witness_DataCharacterIsCollected :
    (∀ x : RxState, ({ part.line with rx := x } : TallyLine).rx = x) ∧ 60 < (61#8).toNat ∧ 0 < (1#8).toNat ∧ (60#8).toNat ≤ 60 ∧
      [1#8].length + 1 < (3#8).toNat ∧ [1#8].length + 1 = (2#8).toNat ∧ lengthFault 0x12 2 ≠ .ok ∧ lengthFault 0x01 2 ≠ .ok ∧
      lengthFault 0x02 0 ≠ .ok ∧ part.line.reply = none := ⟨fun _ => rfl, by decide +kernel⟩

theorem witness_LineLimitsAndReplies :
    4 * charTime part.straps ≤ 22924 ∧ 2 * charTime part.straps ≤ 11462 ∧ 3 * charTime part.straps ≤ 17193 ∧
      (replying ⟨[0x85, 0, 0], false, 11462, 3, false⟩ part).line.reply = some ⟨[0x85, 0, 0], false, 11462, 3, false⟩ ∧
      (∀ x : RxState, ({ part.line with rx := x } : TallyLine).rx = x) ∧ part.line.reply = none ∧
      ([0x85, 0, 0] : List Byte)[2]? = some 0 ∧ 10 < charBits part.straps.par ∧ 520 < bitTime part.straps.baud ∧
      17192 = (2 * charBits part.straps.par + 10) * bitTime part.straps.baud + 520 :=
  ⟨by decide, by decide, by decide, rfl, fun _ => rfl, rfl, rfl, by decide, by decide, by decide⟩

theorem witness_RestartIsMadeAfterReply :
    Direct 5 part ∧ part.device ≠ .loading ∧ 3 * charTime part.straps ≤ 17193 ∧
      (replying ⟨[0x85, 0, 0], true, 17193, 3, true⟩ part).line.reply = some ⟨[0x85, 0, 0], true, 17193, 3, true⟩ ∧
      (⟨[0x85, 0, 0], false, 0, 3, true⟩ : Reply).sending = false :=
  ⟨part_direct, by decide, by decide, rfl, rfl⟩

theorem witness_CharactersMakeRequest : part.line.received = none := rfl

/-- The limits of the ring index and of every part, an entry with and without a flow, a summary held and one not. -/
theorem witness_ReadRequestsAnswer :
    Direct 5 flowing ∧ flowing.device ≠ .loading ∧ 3 < (4#8).toNat ∧ (3#8).toNat ≤ 3 ∧ flowing.flowAt (1#8).toFin = none ∧
      flowing.flowAt (0#8).toFin = some flow ∧ 15 < (16#8).toNat ∧ (3#8).toNat = (3 : RingIx).val ∧ DirectoryOk flowing ∧
      flow.ring = 3 ∧ flow.key = 0x0A21#16 &&& flowing.values.keyMask ∧
      (∀ (i : FlowIx) (f : FlowRecord), flowing.flowAt i = some f → ¬ (f.ring = 3 ∧ f.key = 0x0A22#16 &&& flowing.values.keyMask)) ∧
      2 < (3#8).toNat ∧ (2#8).toNat ≤ 2 ∧ 1 < (2#8).toNat ∧ (1#8).toNat ≤ 1 ∧
      (∀ q ∈ flowing.tally.history, q.number ≠ 1) ∧ flowing.tally.history = [] ++ newSummary State.reset 0 1 :: [] ∧
      (newSummary State.reset 0 1).number = 0 := by
  refine ⟨flowing_direct, by decide, by decide, by decide, by decide +kernel, by decide +kernel, by decide, by decide, flowing_directory,
    rfl, by decide, ?_, by decide +kernel⟩
  intro i f hf h
  rw [(flowing_only i f hf).2] at h
  exact absurd h.2 (by decide)

/-- A free key pair with and without room, and a flow held, lagging and not. -/
theorem witness_DefineFlowRequest :
    Direct 5 flowing ∧ flowing.device ≠ .loading ∧ 15 < (16#8).toNat ∧ (15#8).toNat ≤ 15 ∧
      (∀ i : FlowIx, crowded.flowAt i ≠ none) ∧
      (∀ (i : FlowIx) (f : FlowRecord), crowded.flowAt i = some f → f.key ≠ 0x0A22) ∧
      (∀ (i : FlowIx) (f : FlowRecord), flowing.flowAt i = some f → f.key ≠ 0x0A22) ∧
      flowing.flowAt 1 = none ∧ (∀ k : FlowIx, k.val < (1 : FlowIx).val → flowing.flowAt k ≠ none) ∧ DirectoryOk flowing ∧
      flowing.flowAt 0 = some flow ∧ flow.ring = 3 ∧ flow.key = 0x0A21#16 &&& flowing.values.keyMask ∧
      flow.tag = flowing.tally.periodNumber ∧ flow.tag ≠ lagging.tally.periodNumber := by
  refine ⟨flowing_direct, by decide, by decide, by decide, fun i => by simp [crowded_flowAt], ?_, ?_, flowing_flowAt 1, ?_,
    flowing_directory, flowing_flowAt 0, rfl, by decide, by decide, by decide⟩
  · intro i f h
    rw [crowded_flowAt] at h
    cases h
    decide
  · intro i f h
    rw [(flowing_only i f h).2]
    decide
  · intro k hk
    have : k = 0 := by
      apply Fin.ext
      simp at hk ⊢
      exact hk
    rw [this, flowing_flowAt]
    exact nofun

theorem witness_RemoveFlowAndSetPeriod :
    Direct 5 flowing ∧ flowing.device ≠ .loading ∧ flowing.flowAt (255#8).toFin = none ∧ flowing.flowAt (0#8).toFin = some flow ∧
      flow.tag = flowing.tally.periodNumber ∧ clampedPeriod 1 = 100 ∧ clampedPeriod 16777216 = 16777215 ∧
      (∀ c : Cycle, ({ flow with cycle := c } : FlowRecord).cycle = c) :=
  ⟨flowing_direct, by decide, by decide +kernel, by decide +kernel, by decide, by decide, by decide, fun _ => rfl⟩

/-- The part with the stamp word on the word of the key. -/
def clashing : State := { part with values := { part.values with profile := { part.values.profile with stampWord := some 2 } } }

/-- The part with rings 0 to 7 enabled at 256 slots each, which fill the slot store. -/
def filled : State :=
  { part with rings := Vector.ofFn (fun r : Fin 16 =>
      { RingRecord.init with enabled := decide (r.val < 8), base := BitVec.ofNat 22 (1024 * r.val), slotCount := 256 }) }

/-- Each check of DEFINE RING failing alone, and none failing; an outstanding read of the ring and one of another. -/
theorem witness_RingRequests :
    Direct 5 part ∧ Direct 5 holding ∧ part.device ≠ .loading ∧ 15 < (16#8).toNat ∧ (15#8).toNat = (15 : RingIx).val ∧
      ringStatus 4 0x4020 9 false part = .badArgument ∧ ringStatus 4 0x4010 8 false part = .badArgument ∧
      ringStatus 4 0x4000 8 false part = .badArgument ∧ ringStatus 3 0x4000 8 false holding = .held ∧
      ringStatus 4 0x4020 8 false part = .ok ∧ (part.ring 4).enabled = false ∧ (part.ring 3).enabled = true ∧
      clashing.ringChecks 4 0x4020 8 true = .badArgument ∧ clashing.ringChecks 4 0x4020 8 false = .ok ∧
      filled.ringChecks 8 0x4000 8 false = .full ∧ filled.ringChecks 0 0 256 false = .ok ∧
      (({ part with reads := [some ⟨3, 0, none⟩, some ⟨4, 0, none⟩] } : State).ringDefined 3 0x4000 8 false false).reads =
        [none, some ⟨4, 0, none⟩] :=
  ⟨part_direct, holding_direct, by decide +kernel⟩

/-- An empty log and one with a record; a class of 6 for every kind and one of 7. -/
theorem witness_AlarmRequests :
    Direct 5 part ∧ part.device ≠ .loading ∧ min (min (255#8).toNat 3) part.log.records.length = 0 ∧
      0 < min (min (255#8).toNat 3) (raise .configFault .device 2 part).log.records.length ∧
      (∃ i : Fin 14, 6 < (Vector.replicate 14 7#8)[i].toNat) ∧ ∀ i : Fin 14, (Vector.replicate 14 6#8)[i].toNat ≤ 6 :=
  ⟨part_direct, by decide +kernel⟩

theorem witness_TallyRequests :
    Direct 5 part ∧ part.device = .monitoring ∧ Direct 5 { part with device := .unconfigured } ∧ 7 < (8#8).toNat ∧
      (7#8).toNat ≤ 7 := ⟨part_direct, rfl, ⟨rfl, by decide, rfl⟩, by decide, by decide⟩

theorem witness_RequestsInOtherConditions :
    Direct 5 { part with device := .loading } ∧ Request.start ≠ .status ∧ Direct 5 part ∧ Request.start ≠ .restart ∧
      part.line.reply = none ∧ (6#8) ≠ 0 ∧ (6#8).toNat ≠ part.straps.addr.toNat ∧
      (replying ⟨[0x85, 0, 0], true, 5, 3, true⟩ part).line.reply = some ⟨[0x85, 0, 0], true, 5, 3, true⟩ :=
  ⟨⟨rfl, by decide, rfl⟩, by decide, part_direct, by decide, rfl, by decide, by decide, rfl⟩

/-- The bytes of an image of nothing but its header and device section whose sum is zero. -/
def smallImage : List Byte := [0x44, 0x4B, 0, 1, 0, 0, 0, 0] ++ List.replicate 38 0 ++ [0xBB, 0xB4]

/-- An image with one ring entry, ring 3, and one flow entry on it. -/
def entryImage : List Byte :=
  [0x44, 0x4B, 0, 1, 0, 1, 0, 1] ++ List.replicate 38 0 ++ [0, 3, 0, 8, 0, 0, 0x40, 0] ++
    ([0, 3, 0x0A, 0x21, 0, 0, 0x01, 0x90] ++ List.replicate 16 0) ++ [0x6F, 0xF3]

/-- The four results that refuse an image, the counts at their limits, and good images; a part of the bytes already clocked in. -/
theorem witness_LoadEndUsesOrRefusesImage :
    State.reset.device = .loading ∧ readResult [] = .absent ∧ readResult [0x44, 0x4B, 0, 2] = .badMark ∧
      16 < (17#16).toNat ∧ 256 < (257#16).toNat ∧ readResult [0x44, 0x4B, 0, 1, 0, 17, 0, 0] = .badContent ∧
      readResult [0x44, 0x4B, 0, 1, 0, 0, 1, 1] = .badContent ∧ readResult (smallImage ++ [1]) = .good ∧
      readResult (smallImage.set 11 1) = .badSum ∧ readResult smallImage = .good ∧ readResult entryImage = .good ∧
      readResult ([0x44, 0x4B, 0] ++ smallImage.drop 3) = .good := by decide +kernel

theorem test_load_entries : after (.loadEnd entryImage) State.reset (fun t =>
    t.startRec.result == .good && (t.ring 3).base == 0x4000 && (t.flowAt 0).map (fun f => f.cycle) == some (.waiting 400)) = true := by
  decide +kernel

theorem witness_RaisingIsTakenWhole :
    let r : Incident := ⟨.configFault, .device, 1, 0, 0, 1, 2⟩
    let s := raise .configFault .device 2 part
    (s.log.records = [] ++ r :: [] ∧ r.kind = .configFault ∧ r.subject = .device) ∧
    ((∀ q ∈ s.log.records, ¬ (q.kind = .ringFlush ∧ q.subject = .ring 3)) ∧ s.log.records.length < 64) ∧
    (
      let full := { part with log := ⟨r :: List.replicate 63 r, 65535⟩ }
      64 ≤ full.log.records.length ∧ (∀ q ∈ full.log.records, ¬ (q.kind = .ringFlush ∧ q.subject = .ring 3)) ∧
      full.log.records = r :: List.replicate 63 r) := by decide +kernel

theorem witness_StackShowsFirstClass :
    stackCode AlarmSettings.default 0 = 0 ∧ stackCode AlarmSettings.default 0b01000000 = 6 ∧
      stackCode { AlarmSettings.default with priority := ⟨true, 1, 3⟩ } 0b01010010 = 4 := by decide +kernel

end Sys2Proof.Tests
end

