-- ==== Sys2Proof/Proofs/Keeping.lean ====
section
/-!
SUPPORT. An invariant of the part from what its single events do: the tally line's receiving and replying, the settling of outstanding
events and the dispatch of a command are taken once, for any predicate that the events themselves keep.
-/

namespace Sys2Proof.Machine

/-- A predicate that every event of the part itself keeps, whatever the tally line holds. A request is performed outside LOADING alone
(09 R153 check 3). -/
structure KeptByEvents (P : State → Prop) : Prop where
  seenRisingEdge        : ∀ s, P s → P (seenRisingEdge s)
  measurementCompletion : ∀ s, P s → P (measurementCompletion s)
  refLoss               : ∀ s, P s → P (refLoss s)
  tick                  : ∀ pins s, P s → P (tick pins s)
  loadEnd               : ∀ image s, P s → P (loadEnd image s)
  debouncedStateChange  : ∀ i s, P s → P (debouncedStateChange i s)
  sweepPace             : ∀ s, P s → P (sweepPace s)
  millisecondStrobe     : ∀ s, P s → P (millisecondStrobe s)
  secondsStrobe         : ∀ s, P s → P (secondsStrobe s)
  silenceTick           : ∀ s, P s → P (silenceTick s)
  boundary              : ∀ s, P s → P (boundary s)
  line                  : ∀ l s, P s → P { s with line := l }
  restart               : ∀ s, P s → P (restartPart s)
  perform               : ∀ req s, s.device ≠ .loading → P s → P (perform req s).1

/-- A predicate that the events of the bus and the supply keep too, and that does not see the queue of commands. -/
structure KeptByCommands (P : State → Prop) : Prop extends KeptByEvents P where
  pending       : ∀ q s, P s → P { s with pending := q }
  powerOn       : ∀ x s, P s → P (powerOn x s)
  busTransfer   : ∀ t s, P s → P (busTransfer t s)
  readDataCheck : ∀ data s, P s → P (readDataCheck data s)
  busReset      : ∀ s, P s → P (busReset s)
  releaseReset  : ∀ s, P s → P (releaseReset s)
  clock         : ∀ ref s, P s → P (clockCore ref s)

namespace KeptByEvents

variable {P : State → Prop} (h : KeptByEvents P) {s : State}
include h

/-! ## Requests -/

theorem answer (req : Request) (hs : P s) : P (answer req s).1 := by
  unfold Machine.answer
  split
  · exact hs
  · next hn =>
    by_cases hd : s.device = .loading
    · have hreq : req = .status := by simpa [hd, answeredInLoading] using hn
      subst hreq
      exact hs
    · exact h.perform req s hd hs

theorem concludeRequest (direct restarts : Bool) (out : Answer) (hs : P out.1) : P (concludeRequest direct restarts out) := by
  unfold Machine.concludeRequest
  split
  · exact h.line _ _ hs
  · split
    · exact h.restart _ hs
    · exact hs

theorem handleRequest (direct : Bool) (req : Request) (hs : P s) : P (handleRequest direct req s) :=
  h.concludeRequest _ _ _ (h.answer req hs)

theorem refuseRequest (direct : Bool) (st : Status) (hs : P s) : P (refuseRequest direct st s) := h.concludeRequest _ _ _ hs

theorem completeRequest (direct : Bool) (command : Byte) (payload : List Byte) (hs : P s) :
    P (completeRequest direct command payload s) := by
  unfold Machine.completeRequest
  split
  · exact h.handleRequest _ _ hs
  · exact h.refuseRequest _ _ hs

theorem beforeHandling (k : State → State) (hk : ∀ u, P u → P (k u)) (hs : P s) : P (beforeHandling s k) := by
  unfold Machine.beforeHandling
  split
  · split
    · exact h.restart _ hs
    · exact hk _ (h.line _ _ hs)
  · exact hk _ hs

/-! ## Replies -/

theorem finishReply (hs : P s) : P (finishReply s) := by
  unfold Machine.finishReply
  split
  · exact hs
  · split
    · exact h.restart _ hs
    · exact h.line _ _ hs

theorem replyStart (hs : P s) : P (replyStart s) := by
  unfold Machine.replyStart
  split
  · exact hs
  · split
    · exact h.line _ _ hs
    · exact hs

theorem replyEnd (hs : P s) : P (replyEnd s) := by
  unfold Machine.replyEnd
  split
  · exact hs
  · split
    · exact h.finishReply hs
    · exact hs

theorem abandonReply (hs : P s) : P (abandonReply s) := by
  unfold Machine.abandonReply
  split
  · exact hs
  · split
    · exact h.line _ _ hs
    · exact h.finishReply hs

/-! ## Characters and limits -/

theorem takeAddress (d : Byte) (hs : P s) : P (takeAddress d s) := by
  unfold Machine.takeAddress
  split
  · split
    · exact h.restart _ hs
    · exact h.line _ _ (h.abandonReply hs)
  · exact h.line _ _ hs

theorem takeFaulty (hs : P s) : P (takeFaulty s) := by
  unfold Machine.takeFaulty
  split
  · exact h.line _ _ hs
  · exact hs

theorem collect (direct : Bool) (chars : List Byte) (hs : P s) : P (collect direct chars s) := by
  unfold Machine.collect
  split
  · split
    · exact h.line _ _ hs
    · split
      · exact h.beforeHandling _ (fun u hu => h.completeRequest _ _ _ hu) (h.line _ _ hs)
      · exact h.line _ _ hs
  · exact h.line _ _ hs

theorem takeData (d : Byte) (hs : P s) : P (takeData d s) := by
  unfold Machine.takeData
  split
  · exact h.collect _ _ hs
  · exact hs

theorem addressCharacter (d : Byte) (error : Bool) (hs : P s) : P (addressCharacter d error s) := by
  unfold Machine.addressCharacter
  split
  · exact h.takeFaulty (h.line _ _ hs)
  · exact h.takeAddress _ (h.line _ _ hs)

theorem dataCharacter (d : Byte) (error : Bool) (hs : P s) : P (dataCharacter d error s) := by
  unfold Machine.dataCharacter
  split
  · exact h.takeFaulty (h.line _ _ hs)
  · exact h.takeData _ (h.line _ _ hs)

theorem gapLimitExpiry (hs : P s) : P (gapLimitExpiry s) := by
  unfold Machine.gapLimitExpiry
  split
  · split
    · exact h.line _ _ hs
    · exact hs
  · exact hs

theorem quietLimitExpiry (hs : P s) : P (quietLimitExpiry s) := by
  unfold Machine.quietLimitExpiry
  split
  · split
    · exact h.beforeHandling _ (fun u hu => h.refuseRequest _ _ hu) (h.line _ _ hs)
    · exact hs
  · exact hs

theorem takeReceived (hs : P s) : P (takeReceived s) := by
  unfold Machine.takeReceived
  split
  · exact hs
  · split
    · exact h.addressCharacter _ _ hs
    · exact h.dataCharacter _ _ hs

theorem lineRequest (addr : Byte) (req : Request) (hs : P s) : P (lineRequest addr req s) := by
  have h1 := h.takeAddress addr (h.line { s.line with gapTicks := 0 } s hs)
  unfold Machine.lineRequest
  dsimp only
  split
  · exact h.beforeHandling _ (fun u hu => h.handleRequest _ _ hu) (h.line _ _ h1)
  · exact h1

/-! ## Settling -/

theorem finishLoad (hs : P s) : P (finishLoad s) := by
  unfold Machine.finishLoad
  split
  · exact h.loadEnd _ _ hs
  · exact hs

/-- The events that a bus clock takes when no command has taken them. -/
theorem settle (hs : P s) : P (settle s) := by
  have h1 := h.refLoss _ (h.measurementCompletion _ (h.seenRisingEdge _ hs))
  have h2 := h.finishLoad (h.tick (Machine.refLoss (Machine.measurementCompletion (Machine.seenRisingEdge s))).pins _ h1)
  have h3 := h.debouncedStateChange .ack _ (h.debouncedStateChange .clrB _ (h.debouncedStateChange .clrA _ h2))
  have h4 := h.secondsStrobe _ (h.millisecondStrobe _ (h.sweepPace _ h3))
  have h5 := h.boundary _ (h.silenceTick _ h4)
  have h6 := h.quietLimitExpiry (h.gapLimitExpiry (h.takeReceived h5))
  exact h.replyStart (h.replyEnd h6)

end KeptByEvents

namespace KeptByCommands

variable {P : State → Prop} (h : KeptByCommands P) {s : State}
include h

/-- Every command answers a state that has the predicate again. -/
theorem exec (c : Instr) (hs : P s) : ∃ t, exec c s = .next t ∧ P t := by
  have line := fun addr req => h.toKeptByEvents.lineRequest addr req hs
  cases c with
  | powerOn x => exact ⟨_, rfl, h.powerOn _ _ hs⟩
  | busTransfer write addr slen data => exact ⟨_, rfl, h.busTransfer _ _ hs⟩
  | readDataCheck data => exact ⟨_, rfl, h.readDataCheck _ _ hs⟩
  | busReset => exact ⟨_, rfl, h.busReset _ hs⟩
  | tick pins => exact ⟨_, rfl, h.tick _ _ hs⟩
  | refLoss => exact ⟨_, rfl, h.refLoss _ hs⟩
  | measurementCompletion => exact ⟨_, rfl, h.measurementCompletion _ hs⟩
  | millisecondStrobe => exact ⟨_, rfl, h.millisecondStrobe _ hs⟩
  | secondsStrobe => exact ⟨_, rfl, h.secondsStrobe _ hs⟩
  | sweepPace => exact ⟨_, rfl, h.sweepPace _ hs⟩
  | silenceTick => exact ⟨_, rfl, h.silenceTick _ hs⟩
  | boundary => exact ⟨_, rfl, h.boundary _ hs⟩
  | debouncedStateChange i => exact ⟨_, rfl, h.debouncedStateChange _ _ hs⟩
  | addressCharacter d e => exact ⟨_, rfl, h.addressCharacter _ _ hs⟩
  | dataCharacter d e => exact ⟨_, rfl, h.dataCharacter _ _ hs⟩
  | gapLimitExpiry => exact ⟨_, rfl, h.gapLimitExpiry hs⟩
  | quietLimitExpiry => exact ⟨_, rfl, h.quietLimitExpiry hs⟩
  | replyStart => exact ⟨_, rfl, h.replyStart hs⟩
  | replyEnd => exact ⟨_, rfl, h.replyEnd hs⟩
  | loadEnd image => exact ⟨_, rfl, h.loadEnd _ _ hs⟩
  | status addr => exact ⟨_, rfl, line _ _⟩
  | readFlow addr i p => exact ⟨_, rfl, line _ _⟩
  | findFlow addr r k => exact ⟨_, rfl, line _ _⟩
  | defineFlow addr r k a => exact ⟨_, rfl, line _ _⟩
  | removeFlow addr i => exact ⟨_, rfl, line _ _⟩
  | setPeriod addr i p => exact ⟨_, rfl, line _ _⟩
  | readRing addr r p => exact ⟨_, rfl, line _ _⟩
  | defineRing addr r b n o => exact ⟨_, rfl, line _ _⟩
  | ringOff addr r => exact ⟨_, rfl, line _ _⟩
  | readSummary addr n p => exact ⟨_, rfl, line _ _⟩
  | takeIncidents addr n => exact ⟨_, rfl, line _ _⟩
  | acknowledge addr c => exact ⟨_, rfl, line _ _⟩
  | setAlarmMap addr c m p d => exact ⟨_, rfl, line _ _⟩
  | setTallyPeriod addr c => exact ⟨_, rfl, line _ _⟩
  | clearTallies addr => exact ⟨_, rfl, line _ _⟩
  | restart addr => exact ⟨_, rfl, line _ _⟩
  | start addr => exact ⟨_, rfl, line _ _⟩
  | seenRisingEdge => exact ⟨_, rfl, h.seenRisingEdge _ hs⟩
  | busClock ref => exact ⟨_, rfl, h.clock _ _ (h.settle hs)⟩
  | swRstNRelease => exact ⟨_, rfl, h.releaseReset _ hs⟩

/-- A predicate that every event keeps holds after every step. -/
theorem step {t : State} (hs : P s) (ht : step s = .next t) : P t := by
  unfold Machine.step at ht
  split at ht
  · cases ht
    exact hs
  · next c rest _ =>
    obtain ⟨u, hu, hP⟩ := h.exec c (h.pending rest s hs)
    rw [hu] at ht
    cases ht
    exact hP

end KeptByCommands

end Sys2Proof.Machine
end

