-- ==== Sys2Proof/Proofs/RingRecords.lean ====
section
/-!
SUPPORT. What recognition says of a descriptor transfer, and what each event of the descriptor path does to every ring record, said once
for each up to the counters that no conservation law names.
-/

namespace Sys2Proof.Machine

/-! ## Recognition (01 R2 to R4) -/

theorem RingRecord.inWindow_iff (x : RingRecord) (a : Nat) :
    x.inWindow a = true ↔ x.enabled = true ∧ x.base.toNat ≤ a ∧ a < x.base.toNat + 4 * x.slotCount := by
  simp only [RingRecord.inWindow, Bool.and_eq_true, decide_eq_true_eq, and_assoc]
  exact Iff.rfl

theorem RingRecord.touched_iff (x : RingRecord) (a n : Nat) :
    x.touched a n = true ↔ x.enabled = true ∧ x.base.toNat < a + n ∧ a < x.base.toNat + 4 * x.slotCount := by
  simp only [RingRecord.touched, Bool.and_eq_true, decide_eq_true_eq, and_assoc]
  exact Iff.rfl

/-- The ring at an address has it in its window. -/
theorem State.ringAt_some {s : State} {a : Nat} {r : RingIx} (h : s.ringAt a = some r) : (s.ring r).inWindow a = true := by
  simpa using List.find?_some h

theorem State.ringAt_none {s : State} {a : Nat} (h : s.ringAt a = none) (r : RingIx) : (s.ring r).inWindow a = false := by
  simpa using List.find?_eq_none.mp h r (List.mem_finRange r)

/-- A descriptor transfer is taken in MONITORING, for a slot of an enabled ring (01 R3). -/
theorem recognise_descriptor {addr : BitVec 22} {slen : BitVec 2} {s : State} {r : RingIx} {i : Nat}
    (h : recognise addr slen s = .descriptor r i) :
    s.device = .monitoring ∧ (s.ring r).enabled = true ∧ i < (s.ring r).slotCount := by
  unfold recognise at h
  dsimp only at h
  split at h
  · next hd =>
    split at h
    · next q hq =>
      split at h
      · cases h
        obtain ⟨he, hb, hw⟩ := (RingRecord.inWindow_iff _ _).mp (State.ringAt_some hq)
        exact ⟨hd.1, he, by omega⟩
      · cases h
    · split at h <;> cases h
  · cases h

/-- Nothing is seen outside MONITORING (01 R3). -/
theorem recognise_outside {s : State} (h : s.device ≠ .monitoring) (addr : BitVec 22) (slen : BitVec 2) :
    recognise addr slen s = .unseen := by simp [recognise, h]

/-! ## The cases of a descriptor write (01 R7, R9) -/

section
variable (r : RingIx) (i : Nat) (data : List BusWord) (s : State)

theorem resetSilence_slots : ((resetSilence r s).ring r).slots = (s.ring r).slots := by
  rw [resetSilence, State.modRing_ring_self]

theorem descriptorWrite_faulted (hb : burstOk data = false) :
    descriptorWrite r i data s =
      takeFaultedWrite r i (maskedKeyOf s.values data) (sequenceOf s.values data) (resetSilence r s) := by
  simp [descriptorWrite, State.writeCaseAt, writeCase, hb, resetSilence]

theorem descriptorWrite_arrival (hb : burstOk data = true) (hg : slotGet (s.ring r).slots i = none)
    (hv : isVoid s.values data = false) :
    descriptorWrite r i data s = takeArrival r i (maskedKeyOf s.values data) (sequenceOf s.values data) (resetSilence r s) := by
  simp [descriptorWrite, State.writeCaseAt, writeCase, hb, hg, hv, resetSilence]

theorem descriptorWrite_void (hb : burstOk data = true) (hg : slotGet (s.ring r).slots i = none)
    (hv : isVoid s.values data = true) : descriptorWrite r i data s = countStray r (resetSilence r s) := by
  simp [descriptorWrite, State.writeCaseAt, writeCase, hb, hg, hv, resetSilence]

variable {p : PendingRecord}

theorem descriptorWrite_update (hb : burstOk data = true) (hg : slotGet (s.ring r).slots i = some p)
    (hv : isVoid s.values data = false) (hk : maskedKeyOf s.values data = p.key ∧ sequenceOf s.values data = p.seq) :
    descriptorWrite r i data s = resetSilence r s := by
  simp [descriptorWrite, State.writeCaseAt, writeCase, hb, hg, hv, hk, resetSilence]

theorem descriptorWrite_overwrite (hb : burstOk data = true) (hg : slotGet (s.ring r).slots i = some p)
    (hv : isVoid s.values data = false) (hk : ¬ (maskedKeyOf s.values data = p.key ∧ sequenceOf s.values data = p.seq)) :
    descriptorWrite r i data s =
      takeOverwrite r i p (maskedKeyOf s.values data) (sequenceOf s.values data) (resetSilence r s) := by
  simp [descriptorWrite, State.writeCaseAt, writeCase, hb, hg, hv, hk, resetSilence]

theorem descriptorWrite_withdrawal (hb : burstOk data = true) (hg : slotGet (s.ring r).slots i = some p)
    (hv : isVoid s.values data = true) : descriptorWrite r i data s = takeWithdrawal r i p (resetSilence r s) := by
  simp [descriptorWrite, State.writeCaseAt, writeCase, hb, hg, hv, resetSilence]

theorem descriptorRead_held (hg : slotGet (s.ring r).slots i = some p) : descriptorRead r i s = takeDeparture r i p s := by
  simp [descriptorRead, hg]

theorem descriptorRead_empty (hg : slotGet (s.ring r).slots i = none) :
    descriptorRead r i s = s.modRing r (fun x => { x with phantomReads := bump32 x.phantomReads }) := by
  simp [descriptorRead, hg]

end

/-! ## Ring records under a descriptor write (01 R9 to R15) -/

section
variable (ring q : RingIx) (slot : Nat) (old : PendingRecord) (key : Half) (k : BitVec 16) (s : State)

/-- An arrival makes its slot HELD and counts in the ring (01 R10). -/
theorem takeArrival_ring : ∃ p n, (takeArrival ring slot key k s).ring q =
    if q = ring then { holdSlot slot p (s.ring ring) with untrackedArrivals := n } else { s.ring q with untrackedArrivals := n } := by
  unfold takeArrival
  dsimp only
  refine ⟨⟨(lookup ring key s).2, key, k, s.time.tickCount⟩, ?_⟩
  obtain ⟨n, hn⟩ := finishArrival_ring ring (lookup ring key s).2 s.time.tickCount k
    (notePeak ((lookup ring key s).1.modRing ring (holdSlot slot ⟨(lookup ring key s).2, key, k, s.time.tickCount⟩))) q
  rw [(notePeak_frame _).ring q, State.modRing_ring, (lookup_frame ring key s).ring, (lookup_frame ring key s).ring] at hn
  refine ⟨n, hn.trans ?_⟩
  split <;> rfl

/-- A record thrown away leaves its slot and is counted as overwritten (01 R13 steps 1 and 2). -/
theorem overwriteOld_ring : ∃ m, (overwriteOld ring slot old s).ring q =
    if q = ring then
      { s.ring ring with
        slots := slotErase (s.ring ring).slots slot, overwritten := (s.ring ring).overwritten + 1, untrackedDepartures := m }
    else { s.ring q with untrackedDepartures := m } := by
  unfold overwriteOld
  obtain ⟨m, hm⟩ := dropNotice_ring ring old (s.modRing ring (fun x => { x with slots := slotErase x.slots slot })) q
  rw [State.modRing_ring] at hm
  refine ⟨m, ?_⟩
  rw [State.modRing_ring]
  split
  · next hq => subst hq; rw [hm, if_pos rfl]
  · next hq => rw [hm, if_neg hq]

/-- An overwrite puts the new record in the place of the old one (01 R13). -/
theorem takeOverwrite_ring : ∃ p m n, (takeOverwrite ring slot old key k s).ring q =
    if q = ring then
      { s.ring ring with
        slots := slotPut (slotErase (s.ring ring).slots slot) slot p
        enqueued := (s.ring ring).enqueued + 1, overwritten := (s.ring ring).overwritten + 1
        untrackedDepartures := m, untrackedArrivals := n }
    else { s.ring q with untrackedDepartures := m, untrackedArrivals := n } := by
  unfold takeOverwrite
  dsimp only
  obtain ⟨m, hm⟩ := overwriteOld_ring ring q slot old s
  generalize overwriteOld ring slot old s = u at hm ⊢
  have hl := lookup_frame ring key u
  generalize lookup ring key u = out at hl ⊢
  obtain ⟨n, hn⟩ := finishArrival_ring ring out.2 s.time.tickCount k
    (out.1.modRing ring (replaceSlot slot ⟨out.2, key, k, s.time.tickCount⟩)) q
  refine ⟨⟨out.2, key, k, s.time.tickCount⟩, m, n, ?_⟩
  rw [hn, State.modRing_ring, hl.ring, hl.ring]
  by_cases hq : q = ring
  · subst hq
    rw [if_pos rfl] at hm ⊢
    rw [hm, if_pos rfl]
    rfl
  · rw [if_neg hq] at hm ⊢
    rw [hm, if_neg hq]

/-- A withdrawal empties its slot and is counted (01 R14). -/
theorem takeWithdrawal_ring : ∃ m, (takeWithdrawal ring slot old s).ring q =
    if q = ring then
      { s.ring ring with
        slots := slotErase (s.ring ring).slots slot, withdrawn := (s.ring ring).withdrawn + 1, held := (s.ring ring).held - 1
        untrackedDepartures := m }
    else { s.ring q with untrackedDepartures := m } := by
  unfold takeWithdrawal
  obtain ⟨m, hm⟩ := dropNotice_ring ring old (s.modRing ring (fun x => { x with slots := slotErase x.slots slot })) q
  rw [State.modRing_ring] at hm
  refine ⟨m, ?_⟩
  rw [State.modRing_ring]
  split
  · next hq => subst hq; rw [hm, if_pos rfl]
  · next hq => rw [hm, if_neg hq]

theorem countParityFault_ring : (countParityFault ring slot s).ring q =
    if q = ring then { s.ring ring with parityFaults := bump32 (s.ring ring).parityFaults } else s.ring q := by
  unfold countParityFault
  rw [(raise_frame _ _ _ _).ring, State.modRing_ring]

theorem countUntrackedArrival_ring : (countUntrackedArrival ring s).ring q =
    if q = ring then { s.ring ring with untrackedArrivals := bump32 (s.ring ring).untrackedArrivals } else s.ring q := by
  unfold countUntrackedArrival
  rw [(modOpen_frame _ _).ring, State.modRing_ring]

theorem takeFaultedWrite_empty (h : slotGet (s.ring ring).slots slot = none) : takeFaultedWrite ring slot key k s =
    countUntrackedArrival ring
      (notePeak ((countParityFault ring slot s).modRing ring (holdSlot slot ⟨none, key, k, s.time.tickCount⟩))) := by
  have h1 : slotGet ((countParityFault ring slot s).ring ring).slots slot = none := by
    rw [countParityFault_ring, if_pos rfl]
    exact h
  unfold takeFaultedWrite
  dsimp only
  split
  · rfl
  · next hs => rw [h1] at hs; cases hs

theorem takeFaultedWrite_held (h : slotGet (s.ring ring).slots slot = some old) : takeFaultedWrite ring slot key k s =
    countUntrackedArrival ring
      ((overwriteOld ring slot old (countParityFault ring slot s)).modRing ring
        (replaceSlot slot ⟨none, key, k, s.time.tickCount⟩)) := by
  have h1 : slotGet ((countParityFault ring slot s).ring ring).slots slot = some old := by
    rw [countParityFault_ring, if_pos rfl]
    exact h
  unfold takeFaultedWrite
  dsimp only
  split
  · next hs => rw [h1] at hs; cases hs
  · next hs => rw [h1] at hs; cases hs; rfl

/-- A parity-faulted write into an EMPTY slot holds it like an arrival (01 R15). -/
theorem takeFaultedWrite_ring_empty (h : slotGet (s.ring ring).slots slot = none) :
    ∃ p m n, (takeFaultedWrite ring slot key k s).ring q =
      if q = ring then { holdSlot slot p (s.ring ring) with untrackedArrivals := n, parityFaults := m } else s.ring q := by
  refine ⟨⟨none, key, k, s.time.tickCount⟩, bump32 (s.ring ring).parityFaults, bump32 (s.ring ring).untrackedArrivals, ?_⟩
  simp only [takeFaultedWrite_empty ring slot key k s h, countUntrackedArrival_ring, (notePeak_frame _).ring, State.modRing_ring,
    countParityFault_ring, if_true]
  split <;> rfl

/-- A parity-faulted write into a HELD slot throws its record away like an overwrite (01 R15). -/
theorem takeFaultedWrite_ring_held (h : slotGet (s.ring ring).slots slot = some old) :
    ∃ p l m n, (takeFaultedWrite ring slot key k s).ring q =
      if q = ring then
        { s.ring ring with
          slots := slotPut (slotErase (s.ring ring).slots slot) slot p
          enqueued := (s.ring ring).enqueued + 1, overwritten := (s.ring ring).overwritten + 1
          untrackedDepartures := m, untrackedArrivals := n, parityFaults := l }
      else { s.ring q with untrackedDepartures := m } := by
  obtain ⟨m, hm⟩ := overwriteOld_ring ring q slot old (countParityFault ring slot s)
  refine ⟨⟨none, key, k, s.time.tickCount⟩, bump32 (s.ring ring).parityFaults, m, bump32 (s.ring ring).untrackedArrivals, ?_⟩
  rw [takeFaultedWrite_held ring slot old key k s h, countUntrackedArrival_ring, State.modRing_ring_self, State.modRing_ring]
  by_cases hq : q = ring
  · subst hq
    rw [if_pos rfl] at hm ⊢
    rw [hm, countParityFault_ring, if_pos rfl, if_pos rfl]
    rfl
  · rw [if_neg hq] at hm ⊢
    rw [hm, if_neg hq, if_neg hq, countParityFault_ring, if_neg hq]

/-! ## Ring records under a descriptor read (01 R17, R20) -/

/-- A departure empties its slot and is counted with its residence (01 R17). -/
theorem takeDeparture_ring : ∃ m b, (takeDeparture ring slot old s).ring q =
    if q = ring then
      { s.ring ring with
        slots := slotErase (s.ring ring).slots slot, departed := (s.ring ring).departed + 1, held := (s.ring ring).held - 1
        untrackedDepartures := m, histogram := b }
    else { s.ring q with untrackedDepartures := m, histogram := b } := by
  unfold takeDeparture
  obtain ⟨m, b, hm⟩ := departureNotice_ring ring old s.time.tickCount (s.modRing ring (fun x =>
    { x with slots := slotErase x.slots slot, departed := x.departed + 1, held := x.held - 1 })) q
  refine ⟨m, b, hm.trans ?_⟩
  rw [State.modRing_ring]
  split <;> rfl

end

/-! ## Ring records under a bus reset (01 R25) -/

/-- The drop notices of a list of records count untracked departures of rings at most (01 R16). -/
theorem foldl_dropNotice_ring (r q : RingIx) (l : List (Nat × PendingRecord)) (s : State) :
    ∃ n, (l.foldl (fun u p => dropNotice r p.2 u) s).ring q = { s.ring q with untrackedDepartures := n } := by
  induction l generalizing s with
  | nil => exact ⟨_, rfl⟩
  | cons p rest ih =>
    obtain ⟨n, hn⟩ := ih (dropNotice r p.2 s)
    obtain ⟨m, hm⟩ := dropNotice_ring r p.2 s q
    exact ⟨n, by rw [List.foldl_cons, hn, hm]⟩

/-- A flush empties an enabled ring and adds its held count to flushed (01 R25). -/
theorem flushRing_ring (s : State) (r q : RingIx) : ∃ n, (flushRing s r).ring q =
    if q = r ∧ (s.ring r).enabled = true then
      { s.ring r with
        slots := [], flushed := (s.ring r).flushed + BitVec.ofNat 32 (s.ring r).held, held := 0, untrackedDepartures := n }
    else { s.ring q with untrackedDepartures := n } := by
  unfold flushRing
  split
  · next he =>
    obtain ⟨n, hn⟩ := foldl_dropNotice_ring r q (s.ring r).slots (s.modRing r (fun x => { x with slots := [] }))
    refine ⟨n, ?_⟩
    have hring : ∀ u : State, u.ring q = { (s.modRing r (fun x => { x with slots := [] })).ring q with untrackedDepartures := n } →
        (u.modRing r (fun x => { x with flushed := x.flushed + BitVec.ofNat 32 x.held, held := 0 })).ring q =
          if q = r ∧ (s.ring r).enabled = true then
            { s.ring r with
              slots := [], flushed := (s.ring r).flushed + BitVec.ofNat 32 (s.ring r).held, held := 0, untrackedDepartures := n }
          else { s.ring q with untrackedDepartures := n } := by
      intro u hu
      rw [State.modRing_ring] at hu ⊢
      by_cases hq : q = r
      · subst hq
        rw [if_pos rfl] at hu
        rw [if_pos rfl, if_pos ⟨rfl, he⟩, hu]
      · rw [if_neg hq] at hu
        rw [if_neg hq, if_neg (fun h => hq h.1), hu]
    dsimp only
    split
    · exact hring _ hn
    · rw [(raise_frame _ _ _ _).ring]
      exact hring _ hn
  · next he => exact ⟨_, by rw [if_neg (fun h => he h.2)]⟩

end Sys2Proof.Machine
end

