-- ==== Sys2Proof/Proofs/RingInvariants.lean ====
section
/-!
SUPPORT. A predicate that sees the ring records and the device state alone, from the events that change one of them; the conservation law
and the ring map as two such predicates (01 R2, R8, R21, R22, R24, R26, R29).
-/

namespace Sys2Proof.Machine

/-! ## Events that leave the ring records, the device state and the path stage -/

/-- t has the ring records and the device state of s. -/
structure RingsFrame (s t : State) : Prop where
  rings  : t.rings = s.rings
  device : t.device = s.device

/-- t has the ring records, the device state and the path stage of s. -/
structure BusFrame (s t : State) : Prop where
  rings  : t.rings = s.rings
  device : t.device = s.device
  path   : t.path = s.path

theorem BusFrame.ringsFrame {s t : State} (h : BusFrame s t) : RingsFrame s t := ⟨h.rings, h.device⟩

theorem BusFrame.refl (s : State) : BusFrame s s := ⟨rfl, rfl, rfl⟩

theorem BusFrame.trans {s t u : State} (h : BusFrame s t) (k : BusFrame t u) : BusFrame s u :=
  ⟨k.rings.trans h.rings, k.device.trans h.device, k.path.trans h.path⟩

theorem DirectoryFrame.busFrame {s t : State} (h : DirectoryFrame s t) : BusFrame s t := ⟨h.rings, h.device, h.path⟩

theorem seenRisingEdge_busFrame (s : State) : BusFrame s (seenRisingEdge s) := by
  unfold seenRisingEdge
  split <;> exact ⟨rfl, rfl, rfl⟩

theorem measurementCompletion_busFrame (s : State) : BusFrame s (measurementCompletion s) := by
  unfold measurementCompletion
  split
  · unfold takeMeasurement
    dsimp only
    split
    · split <;> exact ⟨rfl, rfl, rfl⟩
    · split <;> exact ⟨rfl, rfl, rfl⟩
  · exact BusFrame.refl s

theorem refLoss_busFrame (s : State) : BusFrame s (refLoss s) := by
  unfold refLoss
  split
  · dsimp only
    split <;> exact ⟨rfl, rfl, rfl⟩
  · exact BusFrame.refl s

theorem tick_busFrame (pins : Pins) (s : State) : BusFrame s (tick pins s) := by
  unfold tick
  split <;> exact ⟨rfl, rfl, rfl⟩

theorem debouncedStateChange_busFrame (i : PanelInput) (s : State) : BusFrame s (debouncedStateChange i s) := by
  unfold debouncedStateChange
  dsimp only
  split
  · cases i with
    | clrA => exact ⟨rfl, rfl, rfl⟩
    | clrB => exact ⟨rfl, rfl, rfl⟩
    | ack =>
      dsimp only
      split <;> exact ⟨rfl, rfl, rfl⟩
  · exact BusFrame.refl s

theorem sweepPace_busFrame (s : State) : BusFrame s (sweepPace s) := by
  have h := (sweepVisit_frame s.sweepNext { s with due := { s.due with sweepPace := false } }).busFrame
  unfold sweepPace
  split
  · dsimp only
    split
    · exact ⟨h.rings, h.device, h.path⟩
    · exact ⟨rfl, rfl, rfl⟩
  · exact BusFrame.refl s

theorem millisecondStrobe_busFrame (s : State) : BusFrame s (millisecondStrobe s) := by
  unfold millisecondStrobe
  split <;> exact ⟨rfl, rfl, rfl⟩

theorem boundary_busFrame (s : State) : BusFrame s (boundary s) := by
  unfold boundary
  split <;> exact ⟨rfl, rfl, rfl⟩

theorem createFlow_busFrame (ring : RingIx) (key : Half) (p : Nat) (params : FlowParams) (s : State) :
    BusFrame s (createFlow ring key p params s).1 := by
  unfold createFlow
  split <;> exact ⟨rfl, rfl, rfl⟩

theorem defineFlow_busFrame (ring : Nat) (key : Half) (a : FlowArgs) (s : State) : BusFrame s (defineFlow ring key a s).1 := by
  unfold defineFlow
  split
  · unfold defineFlowAt
    split
    · exact createFlow_busFrame _ _ _ _ s
    · next i _ =>
      have h := (rollIfLagging_frame i s).busFrame
      dsimp only
      split
      · exact h.trans (createFlow_busFrame _ _ _ _ _)
      · exact h.trans (setFlow_frame _ _ _).busFrame
  · exact BusFrame.refl s

theorem removeFlow_busFrame (i : FlowIx) (s : State) : BusFrame s (removeFlow i s).1 := by
  have h := (rollIfLagging_frame i s).busFrame
  unfold removeFlow
  split
  · exact BusFrame.refl s
  · dsimp only
    split
    · exact h
    · exact h.trans (vacate_frame _ _).busFrame

theorem setPeriod_busFrame (i : FlowIx) (n : Nat) (s : State) : BusFrame s (setPeriod i n s).1 := by
  unfold setPeriod
  split <;> exact ⟨rfl, rfl, rfl⟩

theorem readFlow_state (i p : Byte) (s : State) : (readFlow i p s).1 = s := by
  unfold readFlow
  split
  · rfl
  · split <;> rfl

theorem readRing_state (r p : Byte) (s : State) : (readRing r p s).1 = s := by
  unfold readRing
  split
  · split <;> rfl
  · rfl

theorem readSummary_state (n : Half) (p : Byte) (s : State) : (readSummary n p s).1 = s := by
  unfold readSummary
  split
  · rfl
  · split <;> rfl

theorem takeIncidents_busFrame (n : Byte) (s : State) : BusFrame s (takeIncidents n s).1 := by
  unfold takeIncidents removeOldest
  dsimp only
  split <;> exact ⟨rfl, rfl, rfl⟩

theorem setAlarmMap_busFrame (c : Vector Byte 14) (m p d : Byte) (s : State) : BusFrame s (setAlarmMap c m p d s).1 := by
  unfold setAlarmMap
  split <;> exact ⟨rfl, rfl, rfl⟩

theorem setTallyPeriod_busFrame (c : Byte) (s : State) : BusFrame s (setTallyPeriod c s).1 := by
  unfold setTallyPeriod
  split <;> exact ⟨rfl, rfl, rfl⟩

/-! ## Predicates of the ring records and the device state -/

/-- A predicate that sees the ring records and the device state alone, and that every event keeps which changes one of them. -/
structure RingInvariant (P : State → Prop) : Prop where
  frame    : ∀ s t, RingsFrame s t → P s → P t
  transfer : ∀ t s, P s → P (takeTransfer t s)
  check    : ∀ c data s, P s → P (checkReadData c data s)
  flush    : ∀ s r, P s → P (flushRing s r)
  silence  : ∀ s r, s.device = .monitoring → P s → P (stepSilence s r)
  clear    : ∀ s, P s → P (clearTallies s)
  fresh    : ∀ s, s.rings = Vector.replicate 16 RingRecord.init → P s
  define   : ∀ ring b n stamp enrol s, s.device ≠ .loading → P s → P (defineRing ring b n stamp enrol s).1
  off      : ∀ ring s, P s → P (ringOff ring s).1
  start    : ∀ s, P s → P (startPart s).1
  load     : ∀ image s, s.device = .loading → P s → P (endLoad image s)

namespace RingInvariant

variable {P : State → Prop} (h : RingInvariant P) {s : State}
include h

theorem perform (req : Request) (hd : s.device ≠ .loading) (hs : P s) : P (perform req s).1 := by
  cases req with
  | status => exact hs
  | readFlow i p => exact (readFlow_state i p s).symm ▸ hs
  | findFlow r k => exact hs
  | defineFlow r k a => exact h.frame _ _ (defineFlow_busFrame _ _ _ s).ringsFrame hs
  | removeFlow i => exact h.frame _ _ (removeFlow_busFrame _ s).ringsFrame hs
  | setPeriod i p => exact h.frame _ _ (setPeriod_busFrame _ _ s).ringsFrame hs
  | readRing r p => exact (readRing_state r p s).symm ▸ hs
  | defineRing r b n o => exact h.define _ _ _ _ _ _ hd hs
  | ringOff r => exact h.off _ _ hs
  | readSummary n p => exact (readSummary_state n p s).symm ▸ hs
  | takeIncidents n => exact h.frame _ _ (takeIncidents_busFrame _ s).ringsFrame hs
  | acknowledge c => exact h.frame s _ ⟨rfl, rfl⟩ hs
  | setAlarmMap c m p d => exact h.frame _ _ (setAlarmMap_busFrame _ _ _ _ s).ringsFrame hs
  | setTallyPeriod c => exact h.frame _ _ (setTallyPeriod_busFrame _ s).ringsFrame hs
  | clearTallies => exact h.clear _ hs
  | restart => exact hs
  | start => exact h.start _ hs

theorem secondsStrobe (hs : P s) : P (secondsStrobe s) := by
  unfold Machine.secondsStrobe
  split
  · unfold chordStrobe
    split
    · split
      · exact h.frame s _ ⟨rfl, rfl⟩ hs
      · unfold authoriseChord
        dsimp only
        split
        · exact h.clear _ (h.frame s _ ⟨rfl, rfl⟩ hs)
        · exact h.frame s _ ⟨rfl, rfl⟩ hs
    · exact h.frame s _ ⟨rfl, rfl⟩ hs
  · exact hs

theorem silenceTick (hs : P s) : P (silenceTick s) := by
  have fold : ∀ (l : List RingIx) (u : State), u.device = .monitoring → P u → P (l.foldl stepSilence u) := by
    intro l
    induction l with
    | nil => exact fun u _ hu => hu
    | cons r rest ih =>
      intro u hd hu
      exact ih _ ((stepSilence_frame u r).device.trans hd) (h.silence u r hd hu)
  unfold Machine.silenceTick
  split
  · dsimp only
    split
    · next hd => exact fold _ _ hd (h.frame s _ ⟨rfl, rfl⟩ hs)
    · exact h.frame s _ ⟨rfl, rfl⟩ hs
  · exact hs

theorem readDataCheck (data : List BusWord) (hs : P s) : P (readDataCheck data s) := by
  unfold Machine.readDataCheck
  split
  · exact h.frame s _ ⟨rfl, rfl⟩ hs
  · exact h.frame s _ ⟨rfl, rfl⟩ hs
  · next c rest _ =>
    have h1 : P { s with reads := rest } := h.frame s _ ⟨rfl, rfl⟩ hs
    exact h.frame (checkReadData c data { s with reads := rest }) _ ⟨rfl, rfl⟩ (h.check c data _ h1)

theorem busTransfer (t : Transfer) (hs : P s) : P (busTransfer t s) := by
  refine h.frame _ _ ?_ (h.transfer t s hs)
  unfold Machine.busTransfer carryOut awaitData
  split <;> exact ⟨rfl, rfl⟩

theorem busReset (hs : P s) : P (busReset s) := by
  have fold : ∀ (l : List RingIx) (u : State), P u → P (l.foldl flushRing u) := by
    intro l
    induction l with
    | nil => exact fun u hu => hu
    | cons r rest ih => exact fun u hu => ih _ (h.flush u r hu)
  unfold Machine.busReset
  split
  · exact hs
  · have h1 := fold ringOrder s hs
    generalize ringOrder.foldl flushRing s = u at h1 ⊢
    exact h.frame u _ ⟨rfl, rfl⟩ h1

theorem loadEnd (image : List Byte) (hs : P s) : P (loadEnd image s) := by
  unfold Machine.loadEnd
  split
  · next hd => exact h.load _ _ hd hs
  · exact hs

/-- Every command keeps such a predicate. -/
theorem kept : KeptByCommands P where
  seenRisingEdge s hs := h.frame _ _ (seenRisingEdge_busFrame s).ringsFrame hs
  measurementCompletion s hs := h.frame _ _ (measurementCompletion_busFrame s).ringsFrame hs
  refLoss s hs := h.frame _ _ (refLoss_busFrame s).ringsFrame hs
  tick pins s hs := h.frame _ _ (tick_busFrame pins s).ringsFrame hs
  loadEnd image _ hs := h.loadEnd image hs
  debouncedStateChange i s hs := h.frame _ _ (debouncedStateChange_busFrame i s).ringsFrame hs
  sweepPace s hs := h.frame _ _ (sweepPace_busFrame s).ringsFrame hs
  millisecondStrobe s hs := h.frame _ _ (millisecondStrobe_busFrame s).ringsFrame hs
  secondsStrobe _ hs := h.secondsStrobe hs
  silenceTick _ hs := h.silenceTick hs
  boundary s hs := h.frame _ _ (boundary_busFrame s).ringsFrame hs
  line _ s hs := h.frame s _ ⟨rfl, rfl⟩ hs
  restart _ _ := h.fresh _ rfl
  perform req _ hd hs := h.perform req hd hs
  pending _ s hs := h.frame s _ ⟨rfl, rfl⟩ hs
  powerOn _ _ _ := h.fresh _ rfl
  busTransfer t _ hs := h.busTransfer t hs
  readDataCheck data _ hs := h.readDataCheck data hs
  busReset _ hs := h.busReset hs
  releaseReset s hs := h.frame s _ ⟨rfl, rfl⟩ hs
  clock _ s hs := h.frame s _ ⟨rfl, rfl⟩ hs

end RingInvariant

end Sys2Proof.Machine
end

