-- ==== Sys2Proof/Proofs/ConservationLaw.lean ====
section
/-! The conservation law, the held count and the canonical slot store of every ring are kept by every step (01 R8, R21, R22, R27). -/

namespace Sys2Proof.Machine

namespace RingsOk

variable {s : State} (h : RingsOk s)
include h

theorem modRing (r : RingIx) {f : RingRecord → RingRecord} (hf : RingOk (f (s.ring r))) : RingsOk (s.modRing r f) := by
  intro q
  rw [State.modRing_ring]
  split
  · exact hf
  · exact h q

theorem of_rings {t : State} (ht : t.rings = s.rings) : RingsOk t := fun q => State.ring_eq_of_rings ht q ▸ h q

/-! ## Descriptor transfers -/

theorem resetSilence (r : RingIx) : RingsOk (resetSilence r s) := h.modRing r ((h r).counters ..)

theorem countStray (r : RingIx) : RingsOk (countStray r s) := h.modRing r ((h r).counters ..)

theorem countParityFault (r : RingIx) (i : Nat) : RingsOk (countParityFault r i s) :=
  (h.modRing r (f := fun x => { x with parityFaults := bump32 x.parityFaults }) ((h r).counters ..)).of_rings rfl

theorem takeArrival {r : RingIx} {i : Nat} (he : (s.ring r).enabled = true) (hi : i < (s.ring r).slotCount)
    (hg : slotGet (s.ring r).slots i = none) (key : Half) (k : BitVec 16) : RingsOk (takeArrival r i key k s) := by
  intro q
  obtain ⟨p, n, hq⟩ := takeArrival_ring r q i key k s
  rw [hq]
  split
  · exact ((h r).hold i p he hi hg).counters ..
  · exact (h q).counters ..

variable {r : RingIx} {i : Nat} {old : PendingRecord} (hg : slotGet (s.ring r).slots i = some old)

theorem takeOverwrite (key : Half) (k : BitVec 16) (hg : slotGet (s.ring r).slots i = some old) :
    RingsOk (takeOverwrite r i old key k s) := by
  intro q
  obtain ⟨p, m, n, hq⟩ := takeOverwrite_ring r q i old key k s
  rw [hq]
  split
  · rw [slotPut_slotErase (h r).slotForm]
    exact ((h r).replace i p old hg).counters ..
  · exact (h q).counters ..

theorem takeWithdrawal (hg : slotGet (s.ring r).slots i = some old) : RingsOk (takeWithdrawal r i old s) := by
  intro q
  obtain ⟨m, hq⟩ := takeWithdrawal_ring r q i old s
  rw [hq]
  split
  · exact ((h r).release i old hg _ _ (by ring)).counters ..
  · exact (h q).counters ..

theorem takeFaultedWrite_held (key : Half) (k : BitVec 16) (hg : slotGet (s.ring r).slots i = some old) :
    RingsOk (takeFaultedWrite r i key k s) := by
  intro q
  obtain ⟨p, l, m, n, hq⟩ := takeFaultedWrite_ring_held r q i old key k s hg
  rw [hq]
  split
  · rw [slotPut_slotErase (h r).slotForm]
    exact ((h r).replace i p old hg).counters ..
  · exact (h q).counters ..

theorem takeFaultedWrite_empty (he : (s.ring r).enabled = true) (hi : i < (s.ring r).slotCount)
    (hg : slotGet (s.ring r).slots i = none) (key : Half) (k : BitVec 16) : RingsOk (takeFaultedWrite r i key k s) := by
  intro q
  obtain ⟨p, m, n, hq⟩ := takeFaultedWrite_ring_empty r q i key k s hg
  rw [hq]
  split
  · exact ((h r).hold i p he hi hg).counters ..
  · exact h q

theorem takeDeparture (hg : slotGet (s.ring r).slots i = some old) : RingsOk (takeDeparture r i old s) := by
  intro q
  obtain ⟨m, b, hq⟩ := takeDeparture_ring r q i old s
  rw [hq]
  split
  · exact ((h r).release i old hg _ _ (by ring)).counters ..
  · exact (h q).counters ..

theorem descriptorWrite (he : (s.ring r).enabled = true) (hi : i < (s.ring r).slotCount) (data : List BusWord) :
    RingsOk (descriptorWrite r i data s) := by
  have h0 := h.resetSilence r
  have e0 : ((Machine.resetSilence r s).ring r).enabled = true := (resetSilence_frame r s).enabled r ▸ he
  have i0 : i < ((Machine.resetSilence r s).ring r).slotCount := (resetSilence_frame r s).slotCount r ▸ hi
  have g0 := congrArg (fun l => slotGet l i) (resetSilence_slots r s)
  cases hb : burstOk data with
  | false =>
    rw [descriptorWrite_faulted r i data s hb]
    cases hg : slotGet (s.ring r).slots i with
    | none => exact h0.takeFaultedWrite_empty e0 i0 (g0.trans hg) _ _
    | some p => exact h0.takeFaultedWrite_held _ _ (g0.trans hg)
  | true =>
    cases hg : slotGet (s.ring r).slots i with
    | none =>
      cases hv : isVoid s.values data with
      | false => exact descriptorWrite_arrival r i data s hb hg hv ▸ h0.takeArrival e0 i0 (g0.trans hg) _ _
      | true => exact descriptorWrite_void r i data s hb hg hv ▸ h0.countStray r
    | some p =>
      cases hv : isVoid s.values data with
      | true => exact descriptorWrite_withdrawal r i data s hb hg hv ▸ h0.takeWithdrawal (g0.trans hg)
      | false =>
        by_cases hk : maskedKeyOf s.values data = p.key ∧ sequenceOf s.values data = p.seq
        · exact descriptorWrite_update r i data s hb hg hv hk ▸ h0
        · exact descriptorWrite_overwrite r i data s hb hg hv hk ▸ h0.takeOverwrite _ _ (g0.trans hg)

theorem descriptorRead (r : RingIx) (i : Nat) : RingsOk (descriptorRead r i s) := by
  cases hg : slotGet (s.ring r).slots i with
  | some p => exact descriptorRead_held r i s hg ▸ h.takeDeparture hg
  | none => exact descriptorRead_empty r i s hg ▸ h.modRing r ((h r).counters ..)

theorem takeTransfer (t : Transfer) : RingsOk (takeTransfer t s) := by
  unfold Machine.takeTransfer
  split
  · next r i hr =>
    obtain ⟨-, he, hi⟩ := recognise_descriptor hr
    split
    · exact h.descriptorWrite he hi t.data
    · exact h.descriptorRead r i
  · refine List.foldlRecOn ringOrder _ h (fun u hu q _ => ?_)
    split
    · exact RingsOk.countStray hu q
    · exact hu
  · exact h

/-! ## The other events -/

theorem checkReadData (c : ReadCheck) (data : List BusWord) : RingsOk (checkReadData c data s) := by
  unfold Machine.checkReadData
  split
  · split
    · split
      · exact (h.modRing c.ring (f := fun x => { x with stampMismatches := bump32 x.stampMismatches })
          ((h c.ring).counters ..)).of_rings rfl
      · exact h
    · exact h
  · exact h.countParityFault c.ring c.slot

theorem flushRing (r : RingIx) : RingsOk (flushRing s r) := by
  intro q
  obtain ⟨n, hq⟩ := flushRing_ring s r q
  rw [hq]
  split
  · exact ((h r).flush _).counters ..
  · exact (h q).counters ..

theorem stepSilence (r : RingIx) : RingsOk (stepSilence s r) := by
  unfold Machine.stepSilence
  dsimp only
  split
  · split
    · exact h.modRing r (f := fun _ => _) ((h r).counters ..)
    · split
      · exact h.modRing r (f := fun _ => _) ((h r).counters ..)
      · exact h
  · exact h

theorem clearCounts : RingsOk (clearCounts s) := by
  intro q
  have hq : (Machine.clearCounts s).ring q = clearRing (s.ring q) := by simp [State.ring, Machine.clearCounts]
  rw [hq]
  exact (h q).clear

theorem clearTallies : RingsOk (clearTallies s) := by
  unfold Machine.clearTallies
  split
  · exact RingsOk.clearCounts (s := startPeriod [] s) h
  · exact h.clearCounts
  · exact h

theorem applyRing (r : RingIx) (b : BitVec 22) (n : Nat) (stamp enrol : Bool) : RingsOk (applyRing r b n stamp enrol s) :=
  h.modRing r (f := fun _ => definedRing b n stamp enrol)
    ⟨rfl, rfl, fun _ => rfl, Nat.le_refl 0, Nat.zero_le _, by simp [definedRing, RingRecord.init]⟩

theorem defineRing (ring : Nat) (b : BitVec 22) (n : Nat) (stamp enrol : Bool) : RingsOk (defineRing ring b n stamp enrol s).1 := by
  unfold Machine.defineRing
  split
  · dsimp only
    split
    · exact h.applyRing _ _ _ _ _
    · exact h
  · exact h

theorem ringOff (ring : Nat) : RingsOk (ringOff ring s).1 := by
  unfold Machine.ringOff
  split
  · dsimp only
    split
    · exact h.modRing _ ((h _).flush _)
    · exact h
  · exact h

theorem applyRingEntry (image : List Byte) (refused : Bool) (pos : Nat) : RingsOk (applyRingEntry image (s, refused) pos).1 := by
  unfold Machine.applyRingEntry
  dsimp only
  split
  · split
    · split
      · exact h
      · exact h.applyRing _ _ _ _ _
    · exact h
  · exact h

end RingsOk

/-! ## The load of an image (10 R166, R167) -/

/-- A flow entry of an image touches no ring (03 R60; 10 R167). -/
theorem applyFlowEntry_busFrame (image : List Byte) (acc : State × Bool) (pos : Nat) :
    BusFrame acc.1 (applyFlowEntry image acc pos).1 := by
  unfold applyFlowEntry
  dsimp only
  split
  · split
    · exact ⟨rfl, rfl, rfl⟩
    · split
      · next e => exact congrArg Prod.fst e ▸ createFlow_busFrame _ _ _ _ acc.1
      · next e => exact congrArg Prod.fst e ▸ createFlow_busFrame _ _ _ _ acc.1
  · exact ⟨rfl, rfl, rfl⟩

/-- The flow entries of an image touch no ring. -/
theorem foldl_applyFlowEntry_busFrame (image : List Byte) (l : List Nat) (acc : State × Bool) :
    BusFrame acc.1 (l.foldl (applyFlowEntry image) acc).1 := by
  induction l generalizing acc with
  | nil => exact BusFrame.refl _
  | cons pos rest ih => exact (applyFlowEntry_busFrame image acc pos).trans (ih _)

/-- Every ring entry of an image keeps the books. -/
theorem RingsOk.foldl_applyRingEntry {s : State} (h : RingsOk s) (image : List Byte) (l : List Nat) (refused : Bool) :
    RingsOk (l.foldl (Machine.applyRingEntry image) (s, refused)).1 :=
  List.foldlRecOn (motive := fun (acc : State × Bool) => RingsOk acc.1) l _ h
    (fun acc hacc pos _ => RingsOk.applyRingEntry hacc image acc.2 pos)

theorem applyImage_rings (image : List Byte) (s : State) : (applyImage image s).rings = (applyTables image s).1.rings := by
  unfold applyImage
  generalize applyTables image s = out
  rfl

theorem refuseImage_rings (r : ConfigResult) (s : State) : (refuseImage r s).rings = s.rings := rfl

theorem applyTables_rings (image : List Byte) (s : State) : (applyTables image s).1.rings =
    ((List.range (imageRings image)).foldl (applyRingEntry image) ({ s with values := imageValues image }, false)).1.rings :=
  (foldl_applyFlowEntry_busFrame image _ _).rings

theorem RingsOk.endLoad {s : State} (h : RingsOk s) (image : List Byte) : RingsOk (endLoad image s) := by
  have h1 : RingsOk { s with values := imageValues image } := h.of_rings rfl
  have h2 := h1.foldl_applyRingEntry image (List.range (imageRings image)) false
  unfold Machine.endLoad
  split
  · exact h2.of_rings ((applyImage_rings image s).trans (applyTables_rings image s))
  · exact h.of_rings (refuseImage_rings _ s)

theorem RingsOk.init {s : State} (hs : s.rings = Vector.replicate 16 RingRecord.init) : RingsOk s := by
  intro q
  rw [State.ring, hs, Fin.getElem_fin, Vector.getElem_replicate]
  exact RingOk.init

theorem ringsOk_invariant : RingInvariant RingsOk where
  frame _ _ ht h := h.of_rings ht.rings
  transfer t _ h := h.takeTransfer t
  check c data _ h := h.checkReadData c data
  flush _ r h := h.flushRing r
  silence _ r _ h := h.stepSilence r
  clear _ h := h.clearTallies
  fresh _ hs := RingsOk.init hs
  define ring b n stamp enrol _ _ h := h.defineRing ring b n stamp enrol
  off ring _ h := h.ringOff ring
  start s h := by
    unfold startPart
    split
    · exact h.of_rings rfl
    · exact h
  load image _ _ h := h.endLoad image

/-- Settles O54: every event keeps the books of every ring, up to counters that the conservation law does not name. -/
theorem stepKeepsRings : Obligations.StepKeepsRings := by
  unfold Obligations.StepKeepsRings
  exact fun _ _ h ht => ringsOk_invariant.kept.step h ht

end Sys2Proof.Machine
end

