-- ==== Sys2Proof/Proofs/RingMap.lean ====
section
/-! The ring map, and what stands still outside MONITORING, are kept by every step (01 R2, R8, R24, R26, R29). -/

namespace Sys2Proof.Machine

/-! ## Sums over the rings -/

/-- A sum over the rings, one ring taken out. -/
theorem sum_ringOrder (f : RingIx → Nat) (r : RingIx) :
    (ringOrder.map f).sum = (ringOrder.map (fun q => if q = r then 0 else f q)).sum + f r := by
  simp only [ringOrder, ← Fin.sum_univ_def]
  have h : ∀ q, f q = (if q = r then 0 else f q) + if q = r then f q else 0 := fun q => by split <;> simp
  rw [Finset.sum_congr rfl (fun q _ => h q), Finset.sum_add_distrib]
  simp

/-- Two sums over the rings that agree but for one ring. -/
theorem sum_ringOrder_update {f g : RingIx → Nat} (r : RingIx) (h : ∀ q, q ≠ r → g q = f q) :
    (ringOrder.map g).sum + f r = (ringOrder.map f).sum + g r := by
  rw [sum_ringOrder f r, sum_ringOrder g r]
  have e : (fun q => if q = r then 0 else g q) = fun q => if q = r then 0 else f q := by
    funext q
    split
    · rfl
    · next hq => exact h q hq
  rw [e]
  omega

theorem State.reserved_eq (s : State) (r : RingIx) :
    s.reserved = s.otherSlots r + if (s.ring r).enabled then (s.ring r).slotCount else 0 := by
  unfold State.reserved State.otherSlots
  rw [sum_ringOrder _ r]
  congr 3
  funext q
  by_cases hq : q = r <;> simp [hq]

/-- The slots of the other rings do not see a change of one. -/
theorem State.otherSlots_setRing (s : State) (r : RingIx) (x : RingRecord) : (s.setRing r x).otherSlots r = s.otherSlots r := by
  unfold State.otherSlots
  congr 2
  funext q
  by_cases hq : q = r
  · simp [hq]
  · rw [State.setRing_ring_ne _ _ hq]

/-! ## DEFINE RING's checks (01 R26) -/

/-- What an accepted definition of a ring has passed. -/
theorem ringStatus_ok {r : RingIx} {b : BitVec 22} {n : Nat} {stamp : Bool} {s : State} (h : ringStatus r b n stamp s = .ok) :
    slotCountOk n = true ∧ b.toNat % (4 * n) = 0 ∧ s.overlapsOther r b.toNat n = false ∧
      s.otherSlots r + n ≤ Config.slotStoreSize := by
  unfold ringStatus at h
  split at h
  · cases h
  · next h1 =>
    split at h
    · cases h
    · next h2 =>
      split at h
      · cases h
      · next h3 =>
        split at h
        · cases h
        · split at h
          · cases h
          · split at h
            · cases h
            · next h6 => exact ⟨by simpa using h1, by simpa using h2, by simpa using h3, by omega⟩

theorem overlaps_comm (a n b m : Nat) : overlaps a n b m = overlaps b m a n := Bool.and_comm _ _

theorem State.overlapsOther_false {s : State} {r : RingIx} {b n : Nat} (h : s.overlapsOther r b n = false) {q : RingIx} (hq : q ≠ r)
    (he : (s.ring q).enabled = true) : overlaps b (4 * n) (s.ring q).base.toNat (4 * (s.ring q).slotCount) = false := by
  have hn := List.any_eq_false.mp h q (List.mem_finRange q)
  simpa [hq, he] using hn

/-! ## The ring map -/

namespace RingMapOk

variable {s : State} (h : RingMapOk s)
include h

/-- The ring map is a matter of the rings' definitions. -/
theorem of_definitions {t : State} (ht : ∀ r, (t.ring r).definition = (s.ring r).definition) : RingMapOk t := by
  have he : ∀ r, (t.ring r).enabled = (s.ring r).enabled := fun r => congrArg (fun x => x.1) (ht r)
  have hb : ∀ r, (t.ring r).base = (s.ring r).base := fun r => congrArg (fun x => x.2.1) (ht r)
  have hc : ∀ r, (t.ring r).slotCount = (s.ring r).slotCount := fun r => congrArg (fun x => x.2.2.1) (ht r)
  constructor
  · exact fun r => by rw [hc]; exact h.counts r
  · exact fun r => by rw [hb, hc]; exact h.aligned r
  · exact fun q r hqr hq hr => by rw [hb, hb, hc, hc]; exact h.apart q r hqr ((he q).symm.trans hq) ((he r).symm.trans hr)
  · have hres : t.reserved = s.reserved := by simp only [State.reserved, he, hc]
    exact hres.trans_le h.places

theorem of_rings {t : State} (ht : t.rings = s.rings) : RingMapOk t :=
  h.of_definitions (fun r => by rw [State.ring_eq_of_rings ht r])

/-- One ring given another definition. -/
theorem setRing (r : RingIx) {x : RingRecord} (hcount : slotCountOk x.slotCount = true)
    (halign : x.base.toNat % (4 * x.slotCount) = 0)
    (hapart : x.enabled = true → ∀ q, q ≠ r → (s.ring q).enabled = true →
      overlaps x.base.toNat (4 * x.slotCount) (s.ring q).base.toNat (4 * (s.ring q).slotCount) = false)
    (hplaces : s.otherSlots r + (if x.enabled then x.slotCount else 0) ≤ Config.slotStoreSize) : RingMapOk (s.setRing r x) := by
  have hring := fun q => State.setRing_ring s r q x
  constructor
  · intro q
    rw [hring]
    split
    · exact hcount
    · exact h.counts q
  · intro q
    rw [hring]
    split
    · exact halign
    · exact h.aligned q
  · intro q p hqp hq hp
    rw [hring] at hq hp ⊢
    rw [hring]
    by_cases hqr : q = r
    · have hpr : p ≠ r := fun e => hqp (hqr.trans e.symm)
      rw [if_pos hqr] at hq ⊢
      rw [if_neg hpr] at hp ⊢
      exact hapart hq p hpr hp
    · rw [if_neg hqr] at hq ⊢
      by_cases hpr : p = r
      · rw [if_pos hpr] at hp ⊢
        rw [overlaps_comm]
        exact hapart hp q hqr hq
      · rw [if_neg hpr] at hp ⊢
        exact h.apart q p hqp hq hp
  · rw [State.reserved_eq _ r, State.otherSlots_setRing, State.setRing_ring_self]
    exact hplaces

/-- An accepted definition keeps the ring map (01 R26). -/
theorem applyRing {r : RingIx} {b : BitVec 22} {n : Nat} {stamp : Bool} (hok : ringStatus r b n stamp s = .ok) (enrol : Bool) :
    RingMapOk (applyRing r b n stamp enrol s) := by
  obtain ⟨hn, hb, ho, hp⟩ := ringStatus_ok hok
  exact (h.setRing r (x := definedRing b n stamp enrol) hn hb (fun _ q hq he => State.overlapsOther_false ho hq he) hp).of_rings rfl

theorem defineRing (ring : Nat) (b : BitVec 22) (n : Nat) (stamp enrol : Bool) :
    RingMapOk (defineRing ring b n stamp enrol s).1 := by
  unfold Machine.defineRing
  split
  · dsimp only
    split
    · next hok => exact h.applyRing hok enrol
    · exact h
  · exact h

theorem ringOff (ring : Nat) : RingMapOk (ringOff ring s).1 := by
  unfold Machine.ringOff
  split
  · next hr =>
    dsimp only
    split
    · have hp := h.places
      rw [State.reserved_eq s ⟨ring, hr⟩] at hp
      exact h.setRing _ (h.counts _) (h.aligned _) (fun e => absurd e Bool.false_ne_true)
        (Nat.le_trans (Nat.add_le_add_left (Nat.zero_le _) _) hp)
    · exact h
  · exact h

theorem clearCounts : RingMapOk (clearCounts s) :=
  h.of_definitions (fun r => by simp [State.ring, Machine.clearCounts, clearRing, RingRecord.definition])

theorem clearTallies : RingMapOk (clearTallies s) := by
  unfold Machine.clearTallies
  split
  · exact (h.of_rings (t := startPeriod [] s) rfl).clearCounts
  · exact h.clearCounts
  · exact h

theorem applyRingEntry (image : List Byte) (refused : Bool) (pos : Nat) : RingMapOk (applyRingEntry image (s, refused) pos).1 := by
  unfold Machine.applyRingEntry
  dsimp only
  split
  · split
    · next hok =>
      split
      · exact h.of_rings rfl
      · exact h.applyRing hok _
    · exact h.of_rings rfl
  · exact h.of_rings rfl

theorem endLoad (image : List Byte) : RingMapOk (endLoad image s) := by
  have h1 : RingMapOk { s with values := imageValues image } := h.of_rings rfl
  have h2 := List.foldlRecOn (motive := fun (acc : State × Bool) => RingMapOk acc.1) (List.range (imageRings image)) _ (b := (_, false))
    h1 (fun acc hacc pos _ => RingMapOk.applyRingEntry hacc image acc.2 pos)
  unfold Machine.endLoad
  split
  · exact h2.of_rings ((applyImage_rings image s).trans (applyTables_rings image s))
  · exact h.of_rings (refuseImage_rings _ s)

end RingMapOk

theorem RingMapOk.init {s : State} (hs : s.rings = Vector.replicate 16 RingRecord.init) : RingMapOk s := by
  have hr : ∀ r, s.ring r = RingRecord.init := fun r => by
    rw [State.ring, hs, Fin.getElem_fin, Vector.getElem_replicate]
  constructor
  · exact fun r => by rw [hr]; rfl
  · exact fun r => by rw [hr]; rfl
  · exact fun q r _ hq _ => by rw [hr] at hq; cases hq
  · have h0 : s.reserved = 0 := by simp [State.reserved, hr, RingRecord.init]
    exact h0 ▸ Nat.zero_le _

theorem ringMapOk_invariant : RingInvariant RingMapOk where
  frame _ _ ht h := h.of_rings ht.rings
  transfer t s h := h.of_definitions (takeTransfer_frame t s).definitions
  check c data s h := h.of_definitions (checkReadData_frame c data s).definitions
  flush s r h := h.of_definitions (flushRing_frame s r).definitions
  silence s r _ h := h.of_definitions (stepSilence_frame s r).definitions
  clear _ h := h.clearTallies
  fresh _ hs := RingMapOk.init hs
  define ring b n stamp enrol _ _ h := h.defineRing ring b n stamp enrol
  off ring _ h := h.ringOff ring
  start s h := by
    unfold startPart
    split
    · exact h.of_rings rfl
    · exact h
  load image _ _ h := h.endLoad image

/-! ## What stands still outside MONITORING -/

section
variable (r q : RingIx) (i : Nat) (s : State)

theorem resetSilence_silenceCounter : ((resetSilence r s).ring q).silenceCounter ≤ (s.ring q).silenceCounter := by
  rw [resetSilence, State.modRing_ring]
  split
  · exact Nat.zero_le _
  · exact Nat.le_refl _

theorem takeFaultedWrite_silenceCounter (key : Half) (k : BitVec 16) :
    ((takeFaultedWrite r i key k s).ring q).silenceCounter = (s.ring q).silenceCounter := by
  cases hg : slotGet (s.ring r).slots i with
  | none =>
    obtain ⟨p, m, n, h⟩ := takeFaultedWrite_ring_empty r q i key k s hg
    rw [h]
    split <;> simp [*, holdSlot]
  | some p =>
    obtain ⟨p, l, m, n, h⟩ := takeFaultedWrite_ring_held r q i p key k s hg
    rw [h]
    split <;> simp [*]

/-- A descriptor write resets the silence state of its ring and raises none (01 R23). -/
theorem descriptorWrite_silenceCounter (data : List BusWord) :
    ((descriptorWrite r i data s).ring q).silenceCounter ≤ (s.ring q).silenceCounter := by
  refine Nat.le_trans (Nat.le_of_eq ?_) (resetSilence_silenceCounter r q s)
  unfold descriptorWrite
  dsimp only
  generalize resetSilence r s = u
  split
  · exact takeFaultedWrite_silenceCounter r q i u _ _
  · obtain ⟨p, n, h⟩ := takeArrival_ring r q i (maskedKeyOf u.values data) (sequenceOf u.values data) u
    rw [h]
    split <;> simp [*, holdSlot]
  · rw [countStray, State.modRing_ring]
    split <;> simp [*]
  · rfl
  · next old _ =>
    obtain ⟨p, m, n, h⟩ := takeOverwrite_ring r q i old (maskedKeyOf u.values data) (sequenceOf u.values data) u
    rw [h]
    split <;> simp [*]
  · next old _ =>
    obtain ⟨m, h⟩ := takeWithdrawal_ring r q i old u
    rw [h]
    split <;> simp [*]

theorem descriptorRead_silenceCounter : ((descriptorRead r i s).ring q).silenceCounter = (s.ring q).silenceCounter := by
  unfold descriptorRead
  split
  · next p _ =>
    obtain ⟨m, b, h⟩ := takeDeparture_ring r q i p s
    rw [h]
    split <;> simp [*]
  · rw [State.modRing_ring]
    split <;> simp [*]

/-- No transfer moves a silence counter up (01 R23, R24). -/
theorem takeTransfer_silenceCounter (t : Transfer) : ((takeTransfer t s).ring q).silenceCounter ≤ (s.ring q).silenceCounter := by
  unfold takeTransfer
  split
  · split
    · exact descriptorWrite_silenceCounter _ q _ s t.data
    · exact (descriptorRead_silenceCounter _ q _ s).le
  · refine List.foldlRecOn (motive := fun (u : State) => (u.ring q).silenceCounter ≤ (s.ring q).silenceCounter) ringOrder _
      (Nat.le_refl _) (fun u hu r _ => ?_)
    split
    · rw [countStray, State.modRing_ring]
      split
      · next hq => exact hq ▸ hu
      · exact hu
    · exact hu
  · exact Nat.le_refl _

end

/-- The checks of read data count parity faults and stamp mismatches of a ring alone (01 R18, R19). -/
theorem checkReadData_ring (c : ReadCheck) (data : List BusWord) (s : State) (q : RingIx) :
    ∃ m n, (checkReadData c data s).ring q = { s.ring q with parityFaults := m, stampMismatches := n } := by
  unfold checkReadData
  split
  · split
    · split
      · rw [(raise_frame _ _ _ _).ring, State.modRing_ring]
        split
        · next hq => exact hq ▸ ⟨_, _, rfl⟩
        · exact ⟨_, _, rfl⟩
      · exact ⟨_, _, rfl⟩
    · exact ⟨_, _, rfl⟩
  · rw [countParityFault_ring]
    split
    · next hq => exact hq ▸ ⟨_, _, rfl⟩
    · exact ⟨_, _, rfl⟩

/-- In MONITORING only the silence counters have a range to keep. -/
theorem UntrackedOk.ofMonitoring {t : State} (hd : t.device = .monitoring) (hc : ∀ r, (t.ring r).silenceCounter ≤ 3) :
    UntrackedOk t where
  empty hn := absurd hd hn
  loading hl := by
    rw [hd] at hl
    cases hl
  counter := hc

namespace UntrackedOk

variable {s : State} (h : UntrackedOk s)
include h

theorem frame {t : State} (ht : RingsFrame s t) : UntrackedOk t where
  empty hd r := by rw [State.ring_eq_of_rings ht.rings]; exact h.empty (ht.device ▸ hd) r
  loading hd r := by rw [State.ring_eq_of_rings ht.rings]; exact h.loading (ht.device ▸ hd) r
  counter r := by rw [State.ring_eq_of_rings ht.rings]; exact h.counter r

/-- A transfer is taken in MONITORING alone, and moves no silence counter up (01 R3, R24). -/
theorem takeTransfer (t : Transfer) : UntrackedOk (takeTransfer t s) := by
  by_cases hd : s.device = .monitoring
  · exact .ofMonitoring ((takeTransfer_frame t s).device.trans hd)
      (fun r => Nat.le_trans (takeTransfer_silenceCounter r s t) (h.counter r))
  · have hu : Machine.takeTransfer t s = s := by simp only [Machine.takeTransfer, recognise_outside hd]
    rw [hu]
    exact h

theorem checkReadData (c : ReadCheck) (data : List BusWord) : UntrackedOk (checkReadData c data s) := by
  have hd := (checkReadData_frame c data s).device
  refine ⟨fun hn q => ?_, fun hl q => ?_, fun q => ?_⟩ <;> obtain ⟨m, n, hq⟩ := checkReadData_ring c data s q <;> rw [hq]
  · exact h.empty (hd ▸ hn) q
  · exact h.loading (hd ▸ hl) q
  · exact h.counter q

theorem flushRing (r : RingIx) : UntrackedOk (flushRing s r) := by
  have hd := (flushRing_frame s r).device
  have he := (flushRing_frame s r).enabled
  refine ⟨fun hn q => ?_, fun hl q => (he q).trans (h.loading (hd ▸ hl) q), fun q => ?_⟩
  · obtain ⟨h1, h2, h3, h4⟩ := h.empty (hd ▸ hn) q
    obtain ⟨n, hq⟩ := flushRing_ring s r q
    rw [hq]
    split
    · next hqr => exact ⟨rfl, rfl, hqr.1 ▸ h3, hqr.1 ▸ h4⟩
    · exact ⟨h1, h2, h3, h4⟩
  · obtain ⟨n, hq⟩ := flushRing_ring s r q
    rw [hq]
    split
    · exact h.counter r
    · exact h.counter q

/-- A silence tick steps a ring's counter up to 3 (01 R24). -/
theorem stepSilence (r : RingIx) (hm : s.device = .monitoring) : UntrackedOk (stepSilence s r) := by
  refine .ofMonitoring ((stepSilence_frame s r).device.trans hm) (fun q => ?_)
  unfold Machine.stepSilence
  dsimp only
  split
  · split
    · next hlt =>
      rw [State.setRing_ring]
      split
      · exact hlt
      · exact h.counter q
    · split
      · rw [(raise_frame _ _ _ _).ring, State.setRing_ring]
        split
        · exact h.counter r
        · exact h.counter q
      · exact h.counter q
  · exact h.counter q

theorem clearCounts : UntrackedOk (clearCounts s) := by
  have hq : ∀ q, (Machine.clearCounts s).ring q = clearRing (s.ring q) := fun q => by simp [State.ring, Machine.clearCounts]
  exact ⟨fun hd q => by rw [hq]; exact h.empty hd q, fun hd q => by rw [hq]; exact h.loading hd q,
    fun q => by rw [hq]; exact h.counter q⟩

theorem clearTallies : UntrackedOk (clearTallies s) := by
  unfold Machine.clearTallies
  split
  · exact (h.frame (t := startPeriod [] s) ⟨rfl, rfl⟩).clearCounts
  · exact h.clearCounts
  · exact h

theorem applyRing_counter (r : RingIx) (b : BitVec 22) (n : Nat) (stamp enrol : Bool) (q : RingIx) :
    ((applyRing r b n stamp enrol s).ring q).silenceCounter ≤ 3 := by
  have hq : (applyRing r b n stamp enrol s).ring q = if q = r then definedRing b n stamp enrol else s.ring q :=
    State.setRing_ring s r q _
  rw [hq]
  split
  · exact Nat.zero_le _
  · exact h.counter q

theorem defineRing (ring : Nat) (b : BitVec 22) (n : Nat) (stamp enrol : Bool) (hl : s.device ≠ .loading) :
    UntrackedOk (defineRing ring b n stamp enrol s).1 := by
  unfold Machine.defineRing
  split
  · next hr =>
    dsimp only
    split
    · refine ⟨fun hn q => ?_, fun hd => absurd hd hl, h.applyRing_counter _ _ _ _ _⟩
      have hq : (applyRing ⟨ring, hr⟩ b n stamp enrol s).ring q =
        if q = ⟨ring, hr⟩ then definedRing b n stamp enrol else s.ring q := State.setRing_ring s _ q _
      rw [hq]
      split
      · exact ⟨rfl, rfl, rfl, rfl⟩
      · exact h.empty hn q
    · exact h
  · exact h

theorem ringOff (ring : Nat) : UntrackedOk (ringOff ring s).1 := by
  unfold Machine.ringOff
  split
  · next hr =>
    dsimp only
    split
    · have hq := fun q => State.modRing_ring s ⟨ring, hr⟩ q turnOff
      refine ⟨fun hn q => ?_, fun hd q => ?_, fun q => ?_⟩
      · obtain ⟨-, -, h3, h4⟩ := h.empty hn ⟨ring, hr⟩
        rw [hq]
        split
        · exact ⟨rfl, rfl, h3, h4⟩
        · exact h.empty hn q
      · rw [hq]
        split
        · rfl
        · exact h.loading hd q
      · rw [hq]
        split
        · exact h.counter _
        · exact h.counter q
    · exact h
  · exact h

theorem startPart : UntrackedOk (startPart s).1 := by
  unfold Machine.startPart
  split
  · exact .ofMonitoring rfl h.counter
  · exact h

end UntrackedOk

/-- Ring entries of an image leave silence counters in range (10 R167). -/
theorem applyRingEntry_counter (image : List Byte) (acc : State × Bool) (pos : Nat)
    (h : ∀ q, (acc.1.ring q).silenceCounter ≤ 3) (q : RingIx) :
    ((applyRingEntry image acc pos).1.ring q).silenceCounter ≤ 3 := by
  unfold applyRingEntry
  dsimp only
  split
  · split
    · split
      · exact h q
      · refine (State.setRing_ring acc.1 _ q _).symm ▸ ?_
        split
        · exact Nat.zero_le _
        · exact h q
    · exact h q
  · exact h q

/-- The end of a load enters MONITORING, or UNCONFIGURED with every ring still empty (10 R166). -/
theorem UntrackedOk.endLoad {s : State} (h : UntrackedOk s) (hl : s.device = .loading) (image : List Byte) :
    UntrackedOk (endLoad image s) := by
  unfold Machine.endLoad
  split
  · have hr := (applyImage_rings image s).trans (applyTables_rings image s)
    have hc := List.foldlRecOn (motive := fun (acc : State × Bool) => ∀ q, (acc.1.ring q).silenceCounter ≤ 3)
      (List.range (imageRings image)) _ (b := ({ s with values := imageValues image }, false)) h.counter
      (fun acc hacc pos _ => applyRingEntry_counter image acc pos hacc)
    have hd : (applyImage image s).device = .monitoring := rfl
    generalize applyImage image s = t at hr hd ⊢
    exact .ofMonitoring hd (fun q => (congrArg RingRecord.silenceCounter (State.ring_eq_of_rings hr q)).trans_le (hc q))
  · have hn : s.device ≠ .monitoring := fun hm => by
      rw [hl] at hm
      cases hm
    have hr := fun q => State.ring_eq_of_rings (refuseImage_rings (readResult image) s) q
    have hd : (refuseImage (readResult image) s).device = .unconfigured := rfl
    generalize refuseImage (readResult image) s = t at hr hd ⊢
    refine ⟨fun _ q => ?_, fun hl => ?_, fun q => ?_⟩
    · rw [hr]
      exact h.empty hn q
    · rw [hd] at hl
      cases hl
    · rw [hr]
      exact h.counter q

theorem UntrackedOk.init {s : State} (hs : s.rings = Vector.replicate 16 RingRecord.init) : UntrackedOk s := by
  have hr : ∀ r, s.ring r = RingRecord.init := fun r => by
    rw [State.ring, hs, Fin.getElem_fin, Vector.getElem_replicate]
  exact ⟨fun _ r => by rw [hr]; exact ⟨rfl, rfl, rfl, rfl⟩, fun _ r => by rw [hr]; rfl, fun r => by rw [hr]; exact Nat.zero_le _⟩

theorem untrackedOk_invariant : RingInvariant UntrackedOk where
  frame _ _ ht h := h.frame ht
  transfer t _ h := h.takeTransfer t
  check c data _ h := h.checkReadData c data
  flush _ r h := h.flushRing r
  silence _ r hm h := h.stepSilence r hm
  clear _ h := h.clearTallies
  fresh _ hs := UntrackedOk.init hs
  define ring b n stamp enrol _ hl h := h.defineRing ring b n stamp enrol hl
  off ring _ h := h.ringOff ring
  start _ h := h.startPart
  load image _ hl h := h.endLoad hl image

/-- Settles O55: the ring map is changed by DEFINE RING, RING OFF and the load alone, whose checks are those of R26, and outside MONITORING
no transfer is seen and no silence stepped. -/
theorem stepKeepsRingMap : Obligations.StepKeepsRingMap := by
  unfold Obligations.StepKeepsRingMap
  exact fun _ _ hm hu ht => ⟨ringMapOk_invariant.kept.step hm ht, untrackedOk_invariant.kept.step hu ht⟩

end Sys2Proof.Machine
end

