-- ==== Sys2Proof/Proofs/Recognition.lean ====
section
/-! How a transfer is taken, which windows it touches, and what a write carries: fields and parity bit by bit (01 R2 to R5, R7). -/

namespace Sys2Proof.Machine

/-! ## Recognition (01 R3, R4) -/

theorem State.ringAt_unique {s : State} {a : Nat} {r : RingIx} (hr : (s.ring r).inWindow a = true)
    (h : ∀ q, q ≠ r → (s.ring q).inWindow a = false) : s.ringAt a = some r := by
  cases hq : s.ringAt a with
  | none =>
    have hn := State.ringAt_none hq r
    rw [hr] at hn
    cases hn
  | some q =>
    have hw := State.ringAt_some hq
    by_cases hqr : q = r
    · rw [hqr]
    · rw [h q hqr] at hw
      cases hw

/-- The words of a descriptor's slot, taken as a descriptor transfer. -/
theorem recognise_slot {s : State} {r : RingIx} {i : Nat} {addr : BitVec 22} (hd : s.device = .monitoring)
    (hrst : s.rstAsserted = false) (he : (s.ring r).enabled = true) (hi : i < (s.ring r).slotCount)
    (ha : addr.toNat = (s.ring r).base.toNat + 4 * i) (h : ∀ q, q ≠ r → (s.ring q).inWindow addr.toNat = false) :
    recognise addr 3 s = .descriptor r i := by
  have hr : s.ringAt addr.toNat = some r :=
    State.ringAt_unique ((RingRecord.inWindow_iff _ _).mpr ⟨he, by omega, by omega⟩) h
  have hn : burstWords 3#2 = 4 := rfl
  have hoff : addr.toNat - (s.ring r).base.toNat = 4 * i := by omega
  simp [recognise, hd, hrst, hr, hn, hoff]

/-- A window that holds the start address is touched. -/
theorem RingRecord.touched_of_inWindow {x : RingRecord} {a n : Nat} (hn : 0 < n) (h : x.inWindow a = true) : x.touched a n = true := by
  obtain ⟨he, hb, hw⟩ := (RingRecord.inWindow_iff _ _).mp h
  exact (RingRecord.touched_iff _ _ _).mpr ⟨he, by omega, hw⟩

theorem recognise_untouched {s : State} {addr : BitVec 22} {slen : BitVec 2}
    (h : ∀ r : RingIx, (s.ring r).touched addr.toNat (slen.toNat + 1) = false) : recognise addr slen s = .unseen := by
  have hr : s.ringAt addr.toNat = none := by
    cases hq : s.ringAt addr.toNat with
    | none => rfl
    | some q =>
      have ht := RingRecord.touched_of_inWindow (Nat.succ_pos slen.toNat) (State.ringAt_some hq)
      rw [h q] at ht
      cases ht
  simp [recognise, hr, burstWords, h]

theorem recognise_stray {s : State} {addr : BitVec 22} {slen : BitVec 2} {r : RingIx} (hd : s.device = .monitoring)
    (hrst : s.rstAsserted = false) (ht : (s.ring r).touched addr.toNat (slen.toNat + 1) = true)
    (h : slen ≠ 3 ∨ ∀ q : RingIx, (s.ring q).inWindow addr.toNat = true → (addr.toNat - (s.ring q).base.toNat) % 4 ≠ 0) :
    recognise addr slen s = .stray := by
  have h3 : burstWords slen = 4 → slen = 3 := fun e => BitVec.eq_of_toNat_eq (by
    show slen.toNat = 3
    unfold burstWords at e
    omega)
  unfold recognise
  dsimp only
  rw [if_pos ⟨hd, hrst⟩]
  split
  · next q hq =>
    refine if_neg (fun hc => ?_)
    rcases h with h | h
    · exact h (h3 hc.2)
    · exact h q (State.ringAt_some hq) hc.1
  · exact if_pos (List.any_eq_true.mpr ⟨r, List.mem_finRange r, ht⟩)

/-- A transfer touches a window when one of its words is inside it. -/
theorem RingRecord.touched_iff_word {x : RingRecord} (hx : 0 < x.slotCount) (a n : Nat) :
    x.touched a (n + 1) = true ↔ ∃ k, k ≤ n ∧ x.inWindow (a + k) = true := by
  rw [RingRecord.touched_iff]
  constructor
  · rintro ⟨he, hb, hw⟩
    exact ⟨x.base.toNat - a, by omega, (RingRecord.inWindow_iff _ _).mpr ⟨he, by omega, by omega⟩⟩
  · rintro ⟨k, hk, h⟩
    obtain ⟨he, hb, hw⟩ := (RingRecord.inWindow_iff _ _).mp h
    exact ⟨he, by omega, by omega⟩

/-! ## Fields (01 R5) -/

theorem wordAt_toList (w : Vector BusWord 4) (i : Fin 4) : wordAt w.toList i = w[i] := by simp [wordAt]

theorem getLsbD_halfOf (upper : Bool) (d : BitVec 32) {n : Nat} (hn : n < 16) :
    (halfOf upper d).getLsbD n = d.getLsbD (if upper then n + 16 else n) := by
  cases upper <;> simp [halfOf, hn, Nat.add_comm]

theorem isVoid_iff (v : DeviceValues) (w : Vector BusWord 4) : isVoid v w.toList = true ↔
    ∀ n : Nat, n < 4 → w[v.profile.dispWord].data.getLsbD (4 * v.profile.dispNibble.val + n) = v.profile.voidCode.getLsbD n := by
  rw [isVoid, wordAt_toList, beq_iff_eq, nibbleOf]
  constructor
  · intro h n hn
    rw [← h]
    simp [hn]
  · intro h
    refine BitVec.eq_of_getLsbD_eq (fun n hn => ?_)
    rw [← h n hn]
    simp [hn]

/-! ## Parity (01 R7) -/

/-- The parity of the first n bits is that of their number of ones. -/
theorem oddOnes_eq (n : Nat) (f : Nat → Bool) : oddOnes n f = decide ((List.range n).countP f % 2 = 1) := by
  induction n with
  | zero => rfl
  | succ n ih =>
    rw [oddOnes, ih, List.range_succ, List.countP_append, List.countP_singleton]
    cases f n
    · simp
    · rcases Nat.mod_two_eq_zero_or_one ((List.range n).countP f) with h | h <;> simp [Nat.add_mod, h]

/-- A byte with a parity bit has an even number of ones exactly when the bit is the byte's parity. -/
theorem even_with_parity_iff (d : BitVec 32) (b : Nat) (p : Bool) :
    ((List.range 8).countP (fun j => d.getLsbD (8 * b + j)) + if p then 1 else 0) % 2 = 0 ↔ p = byteParity d b := by
  rw [byteParity, oddOnes_eq]
  generalize (List.range 8).countP (fun j => d.getLsbD (8 * b + j)) = c
  cases p
  · simp
  · simp
    omega

theorem getLsbD_goodParity (d : BitVec 32) {b : Nat} (hb : b < 4) : (goodParity d).getLsbD b = byteParity d b := by
  have hl : (goodParity d).getLsbD b = [byteParity d 0, byteParity d 1, byteParity d 2, byteParity d 3].getD b false :=
    BitVec.getLsbD_ofBoolListLE
  obtain rfl | rfl | rfl | rfl : b = 0 ∨ b = 1 ∨ b = 2 ∨ b = 3 := by omega
  all_goals exact hl

theorem wordOk_iff (w : BusWord) : wordOk w = true ↔ ∀ b : Nat, b < 4 →
    ((List.range 8).countP (fun j => w.data.getLsbD (8 * b + j)) + if w.par.getLsbD b then 1 else 0) % 2 = 0 := by
  rw [wordOk, beq_iff_eq]
  constructor
  · intro h b hb
    rw [even_with_parity_iff, h, getLsbD_goodParity _ hb]
  · intro h
    refine BitVec.eq_of_getLsbD_eq (fun b hb => ?_)
    rw [getLsbD_goodParity _ hb]
    exact (even_with_parity_iff _ _ _).mp (h b hb)

theorem burstOk_iff (w : Vector BusWord 4) : burstOk w.toList = true ↔ ∀ i : Fin 4, wordOk w[i] = true := by
  simp only [burstOk, List.all_eq_true, wordAt_toList]
  constructor
  · intro h i
    exact h i (by fin_cases i <;> simp)
  · exact fun h i _ => h i

/-- Settles O6: recognition by its branches, the windows by arithmetic, fields and parity bit by bit. -/
theorem transfersAreRecognised : Obligations.TransfersAreRecognised := by
  unfold Obligations.TransfersAreRecognised
  refine ⟨?slot, ?unseen, ?stray, ?window, ?touched, ?fields, ?void, ?parity, ?good⟩
  case slot => exact fun s r i addr hd hrst he hi ha h => recognise_slot hd hrst he hi ha h
  case unseen =>
    rintro s addr slen (hd | hrst | h)
    · exact recognise_outside hd addr slen
    · simp [recognise, hrst]
    · exact recognise_untouched h
  case stray => exact fun s addr slen r hd hrst ht h => recognise_stray hd hrst ht h
  case window => exact RingRecord.inWindow_iff
  case touched => exact fun x addr slen => ⟨RingRecord.touched_iff _ _ _, fun hx => RingRecord.touched_iff_word hx _ _⟩
  case fields =>
    intro v w n hn
    rw [maskedKeyOf, sequenceOf, BitVec.getLsbD_and, wordAt_toList, wordAt_toList, getLsbD_halfOf _ _ hn, getLsbD_halfOf _ _ hn]
    exact ⟨rfl, rfl⟩
  case void => exact isVoid_iff
  case parity => exact fun w => (burstOk_iff w).trans (forall_congr' (fun i => wordOk_iff w[i]))
  case good =>
    intro d b hb
    rw [even_with_parity_iff, getLsbD_goodParity d hb]

end Sys2Proof.Machine
end

