-- ==== Sys2Proof/Proofs/Transfers.lean ====
section
/-!
SUPPORT. A BUS_TRANSFER as the recognition and the case of a write make it: what the ring decoder does, the data that leave with their
stamp, and the read that is awaited (01 R1, R3 to R7, R9).
-/

namespace Sys2Proof.Machine

/-! ## Changes of a ring -/

/-- Two changes of one ring are one. -/
theorem State.modRing_modRing (s : State) (r : RingIx) (f g : RingRecord → RingRecord) :
    (s.modRing r f).modRing r g = s.modRing r (fun x => g (f x)) := by
  simp only [State.modRing, State.setRing_ring_self]
  simp [State.setRing]

/-! ## Every ring stepped in turn -/

theorem foldl_rings {f : State → RingIx → State} {g : RingRecord → RingRecord}
    (hf : ∀ u r q, (f u r).ring q = if q = r then g (u.ring r) else u.ring q) (l : List RingIx) (hl : l.Nodup) (s : State)
    (q : RingIx) : (l.foldl f s).ring q = if q ∈ l then g (s.ring q) else s.ring q := by
  induction l generalizing s with
  | nil => rfl
  | cons r rest ih =>
    obtain ⟨hr, hrest⟩ := List.nodup_cons.mp hl
    rw [List.foldl_cons, ih hrest, hf]
    by_cases hq : q = r
    · subst hq
      simp [hr]
    · simp [hq]

/-- A change of each ring by its own record, made from ring 0 to ring 15. -/
theorem foldl_ringOrder {f : State → RingIx → State} {g : RingRecord → RingRecord}
    (hf : ∀ u r q, (f u r).ring q = if q = r then g (u.ring r) else u.ring q) (s : State) (q : RingIx) :
    (ringOrder.foldl f s).ring q = g (s.ring q) := by
  rw [foldl_rings hf ringOrder (List.nodup_finRange 16) s q]
  exact if_pos (List.mem_finRange q)

/-! ## A whole transfer -/

section
variable {addr : BitVec 22} {slen : BitVec 2} {data : List BusWord} {s : State}

/-- A transfer that is no descriptor transfer is carried unchanged, and a read of it awaits data without checks. -/
theorem busTransfer_untracked (write : Bool) (h : ∀ r i, recognise addr slen s ≠ .descriptor r i) :
    busTransfer ⟨write, addr, slen, data⟩ s = { takeTransfer ⟨write, addr, slen, data⟩ s with
      reads := if write then s.reads else s.reads ++ [none]
      path := s.sending ⟨write, addr, slen, data⟩ } := by
  have hp := (takeTransfer_frame ⟨write, addr, slen, data⟩ s).path
  have hr := (takeTransfer_frame ⟨write, addr, slen, data⟩ s).reads
  have ho : outgoingData ⟨write, addr, slen, data⟩ s = data := by
    unfold outgoingData
    split
    · next he => exact absurd he (h _ _)
    · rfl
  have hc : checksOf ⟨write, addr, slen, data⟩ s = none := by
    unfold checksOf
    split
    · next he => exact absurd he (h _ _)
    · rfl
  generalize ht : takeTransfer ⟨write, addr, slen, data⟩ s = t at hp hr ⊢
  unfold busTransfer
  rw [ht, ho, hc]
  cases write <;> simp [carryOut, State.sending, hp, hr]

variable {r : RingIx} {i : Nat}

theorem busTransfer_write (h : recognise addr slen s = .descriptor r i) :
    busTransfer ⟨true, addr, slen, data⟩ s = { descriptorWrite r i data s with
      path := s.sending ⟨true, addr, slen,
        substituted (s.ring r) s.values.profile (stampValue (s.writeCaseAt r i data) s.time.tickCount) data⟩ } := by
  have hp := (descriptorWrite_frame r i data s).path
  simp [busTransfer, outgoingData, takeTransfer, carryOut, State.sending, h, hp]

theorem busTransfer_read (h : recognise addr slen s = .descriptor r i) :
    busTransfer ⟨false, addr, slen, data⟩ s = { descriptorRead r i s with
      reads := s.reads ++ [some ⟨r, i, (slotGet (s.ring r).slots i).map (fun p => p.stamp)⟩]
      path := s.sending ⟨false, addr, slen, data⟩ } := by
  have hp := (descriptorRead_frame r i s).path
  have hr := (descriptorRead_frame r i s).reads
  simp [busTransfer, outgoingData, takeTransfer, checksOf, carryOut, State.sending, h, hp, hr]

/-! ## A descriptor write by its case (01 R6, R9) -/

theorem busTransfer_faulted (h : recognise addr slen s = .descriptor r i) (hb : burstOk data = false) :
    busTransfer ⟨true, addr, slen, data⟩ s =
      { takeFaultedWrite r i (maskedKeyOf s.values data) (sequenceOf s.values data) (resetSilence r s) with
        path := s.sending ⟨true, addr, slen, substituted (s.ring r) s.values.profile s.time.tickCount data⟩ } := by
  rw [busTransfer_write h, descriptorWrite_faulted r i data s hb]
  simp [State.writeCaseAt, writeCase, hb, stampValue]

theorem busTransfer_arrival (h : recognise addr slen s = .descriptor r i) (hb : burstOk data = true)
    (hg : slotGet (s.ring r).slots i = none) (hv : isVoid s.values data = false) :
    busTransfer ⟨true, addr, slen, data⟩ s =
      { takeArrival r i (maskedKeyOf s.values data) (sequenceOf s.values data) (resetSilence r s) with
        path := s.sending ⟨true, addr, slen, substituted (s.ring r) s.values.profile s.time.tickCount data⟩ } := by
  rw [busTransfer_write h, descriptorWrite_arrival r i data s hb hg hv]
  simp [State.writeCaseAt, writeCase, hb, hg, hv, stampValue]

theorem busTransfer_void (h : recognise addr slen s = .descriptor r i) (hb : burstOk data = true)
    (hg : slotGet (s.ring r).slots i = none) (hv : isVoid s.values data = true) :
    busTransfer ⟨true, addr, slen, data⟩ s =
      { countStray r (resetSilence r s) with
        path := s.sending ⟨true, addr, slen, substituted (s.ring r) s.values.profile s.time.tickCount data⟩ } := by
  rw [busTransfer_write h, descriptorWrite_void r i data s hb hg hv]
  simp [State.writeCaseAt, writeCase, hb, hg, hv, stampValue]

variable {p : PendingRecord}

theorem busTransfer_update (h : recognise addr slen s = .descriptor r i) (hb : burstOk data = true)
    (hg : slotGet (s.ring r).slots i = some p) (hv : isVoid s.values data = false)
    (hk : maskedKeyOf s.values data = p.key ∧ sequenceOf s.values data = p.seq) :
    busTransfer ⟨true, addr, slen, data⟩ s =
      { resetSilence r s with
        path := s.sending ⟨true, addr, slen, substituted (s.ring r) s.values.profile p.stamp data⟩ } := by
  rw [busTransfer_write h, descriptorWrite_update r i data s hb hg hv hk]
  simp [State.writeCaseAt, writeCase, hb, hg, hv, hk, stampValue]

theorem busTransfer_overwrite (h : recognise addr slen s = .descriptor r i) (hb : burstOk data = true)
    (hg : slotGet (s.ring r).slots i = some p) (hv : isVoid s.values data = false)
    (hk : ¬ (maskedKeyOf s.values data = p.key ∧ sequenceOf s.values data = p.seq)) :
    busTransfer ⟨true, addr, slen, data⟩ s =
      { takeOverwrite r i p (maskedKeyOf s.values data) (sequenceOf s.values data) (resetSilence r s) with
        path := s.sending ⟨true, addr, slen, substituted (s.ring r) s.values.profile s.time.tickCount data⟩ } := by
  rw [busTransfer_write h, descriptorWrite_overwrite r i data s hb hg hv hk]
  simp [State.writeCaseAt, writeCase, hb, hg, hv, hk, stampValue]

theorem busTransfer_withdrawal (h : recognise addr slen s = .descriptor r i) (hb : burstOk data = true)
    (hg : slotGet (s.ring r).slots i = some p) (hv : isVoid s.values data = true) :
    busTransfer ⟨true, addr, slen, data⟩ s =
      { takeWithdrawal r i p (resetSilence r s) with
        path := s.sending ⟨true, addr, slen, substituted (s.ring r) s.values.profile s.time.tickCount data⟩ } := by
  rw [busTransfer_write h, descriptorWrite_withdrawal r i data s hb hg hv]
  simp [State.writeCaseAt, writeCase, hb, hg, hv, stampValue]

end

/-! ## Transfers that touch no record -/

/-- One ring's part of a stray access (01 R4). -/
def strayCount (a n : Nat) (u : State) (r : RingIx) : State := if (u.ring r).touched a n then countStray r u else u

def RingRecord.strayCounted (x : RingRecord) (a n : Nat) : RingRecord :=
  if x.touched a n then { x with strayAccesses := bump32 x.strayAccesses } else x

theorem takeTransfer_stray {t : Transfer} {s : State} (h : recognise t.addr t.slen s = .stray) :
    takeTransfer t s = ringOrder.foldl (strayCount t.addr.toNat (burstWords t.slen)) s := by
  simp only [takeTransfer, h]
  rfl

theorem strayCount_ring (a n : Nat) (u : State) (r q : RingIx) : (strayCount a n u r).ring q =
    if q = r then (u.ring r).strayCounted a n else u.ring q := by
  unfold strayCount RingRecord.strayCounted
  split
  · exact State.modRing_ring u r q _
  · split
    · next hq => rw [hq]
    · rfl

theorem foldl_strayCount_rings (a n : Nat) (l : List RingIx) (s : State) :
    ∃ rings, l.foldl (strayCount a n) s = { s with rings := rings } := by
  refine List.foldlRecOn (motive := fun (u : State) => ∃ rings, u = { s with rings := rings }) l _ ⟨_, rfl⟩ ?_
  rintro u ⟨rings, rfl⟩ r -
  unfold strayCount
  split <;> exact ⟨_, rfl⟩

/-- Settles O7: a stray access steps each touched ring by its own record. -/
theorem untrackedTransfersAreCarried : Obligations.UntrackedTransfersAreCarried := by
  unfold Obligations.UntrackedTransfersAreCarried
  constructor
  · intro write addr slen data s h
    have hn : ∀ r i, recognise addr slen s ≠ .descriptor r i := fun r i e => by rw [h] at e; cases e
    have ht : takeTransfer ⟨write, addr, slen, data⟩ s = s := by simp only [takeTransfer, h]
    exact congrArg Host.Outcome.next ((busTransfer_untracked write hn).trans (by rw [ht]))
  · intro write addr slen data s h
    have hn : ∀ r i, recognise addr slen s ≠ .descriptor r i := fun r i e => by rw [h] at e; cases e
    have ht := takeTransfer_stray (t := ⟨write, addr, slen, data⟩) h
    have hring := foldl_ringOrder (g := fun x => x.strayCounted addr.toNat (burstWords slen)) (strayCount_ring _ _) s
    obtain ⟨rings, hs⟩ := foldl_strayCount_rings addr.toNat (burstWords slen) ringOrder s
    rw [hs] at hring
    exact ⟨rings, congrArg Host.Outcome.next ((busTransfer_untracked write hn).trans (by rw [ht, hs])), hring⟩

/-- The data of a substitution, word by word (01 R6). -/
theorem substituted_getElem? (x : RingRecord) (p : Profile) (v : Tick) (data : List BusWord) (j : Nat) :
    (substituted x p v data)[j]? =
      if x.stampOn = true ∧ p.stampWord.map Fin.val = some j ∧ j < data.length then some ⟨v, goodParity v⟩ else data[j]? := by
  unfold substituted
  split
  · next w hw =>
    rw [hw]
    by_cases hs : x.stampOn = true
    · simp only [hs, if_true, List.getElem?_set, Option.map_some, Option.some.injEq, true_and]
      by_cases hj : w.val = j
      · by_cases hlen : j < data.length
        · simp [hj, hlen]
        · simp [hj, hlen]
      · simp [hj]
    · simp [hs]
  · next hw => simp [hw]

/-- Settles O8: the two cases of a write that leave every slot, as whole states. -/
theorem updateAndVoidWriteKeepSlots : Obligations.UpdateAndVoidWriteKeepSlots := by
  unfold Obligations.UpdateAndVoidWriteKeepSlots
  refine ⟨?update, ?void, substituted_getElem?⟩
  case update =>
    intro addr slen data s r i p h hb hg hv hkey hseq
    exact congrArg Host.Outcome.next (busTransfer_update h hb hg hv ⟨hkey, hseq⟩)
  case void =>
    intro addr slen data s r i h hb hg hv
    refine congrArg Host.Outcome.next ((busTransfer_void h hb hg hv).trans ?_)
    rw [countStray, resetSilence, State.modRing_modRing]
    rfl

/-- Settles O16: a read of an EMPTY slot. -/
theorem phantomReadIsCounted : Obligations.PhantomReadIsCounted := by
  unfold Obligations.PhantomReadIsCounted
  intro addr slen data s r i h hg
  refine congrArg Host.Outcome.next ((busTransfer_read h).trans ?_)
  rw [descriptorRead_empty r i s hg, hg]
  rfl

/-! ## Read data (01 R17 to R20) -/

section
variable {data : List BusWord} {s : State} {c : ReadCheck}

theorem readDataCheck_checked {rest : List (Option ReadCheck)} (h : s.reads = some c :: rest) :
    readDataCheck data s = carryBack data (checkReadData c data { s with reads := rest }) := by
  simp only [readDataCheck, h]

theorem readDataCheck_unchecked {rest : List (Option ReadCheck)} (h : s.reads = none :: rest) :
    readDataCheck data s = carryBack data { s with reads := rest } := by
  simp only [readDataCheck, h]

theorem readDataCheck_none (h : s.reads = []) : readDataCheck data s = carryBack data s := by
  simp only [readDataCheck, h]

theorem checkReadData_parity (hb : burstOk data = false) : checkReadData c data s = countParityFault c.ring c.slot s := by
  simp [checkReadData, hb]

theorem checkReadData_mismatch {w : Fin 4} {stamp : Tick} (hb : burstOk data = true) (hon : (s.ring c.ring).stampOn = true)
    (hw : s.values.profile.stampWord = some w) (hs : c.stamp = some stamp) (hne : (wordAt data w).data ≠ stamp) :
    checkReadData c data s = raise .ringStamp (.ring c.ring) (BitVec.ofNat 32 c.slot)
      (s.modRing c.ring (fun x => { x with stampMismatches := bump32 x.stampMismatches })) := by
  simp only [checkReadData, hb, hw, hs, hon, hne, if_true, ne_eq, not_false_eq_true, and_self]

theorem checkReadData_good (hb : burstOk data = true)
    (h : (s.ring c.ring).stampOn = false ∨ s.values.profile.stampWord = none ∨ c.stamp = none ∨
      ∃ w, s.values.profile.stampWord = some w ∧ c.stamp = some (wordAt data w).data) : checkReadData c data s = s := by
  rcases h with h | h | h | ⟨w, hw, hs⟩
  · simp only [checkReadData, hb, h, if_true, Bool.false_eq_true, false_and, if_false]
    split <;> rfl
  · simp [checkReadData, hb, h]
  · simp [checkReadData, hb, h]
  · simp [checkReadData, hb, hw, hs]

end

/-- Settles O17: the checks by parity, then by stamp. -/
theorem readDataIsChecked : Obligations.ReadDataIsChecked := by
  unfold Obligations.ReadDataIsChecked
  intro data s
  refine ⟨?none, ?unchecked, ?parity, ?stamp, ?good⟩
  case none => exact fun h => congrArg Host.Outcome.next (readDataCheck_none h)
  case unchecked => exact fun rest h => congrArg Host.Outcome.next (readDataCheck_unchecked h)
  case parity =>
    intro c rest h hb
    refine ⟨_, _, rfl, congrArg Host.Outcome.next ((readDataCheck_checked h).trans ?_)⟩
    rw [checkReadData_parity hb]
    rfl
  case stamp =>
    intro c rest w stamp h hb hon hw hs hne
    refine ⟨_, _, rfl, congrArg Host.Outcome.next ((readDataCheck_checked h).trans ?_)⟩
    rw [checkReadData_mismatch (s := { s with reads := rest }) hb hon hw hs hne]
    rfl
  case good =>
    intro c rest h hb hgood
    refine congrArg Host.Outcome.next ((readDataCheck_checked h).trans ?_)
    rw [checkReadData_good (s := { s with reads := rest }) hb hgood]
    rfl

end Sys2Proof.Machine
end

