-- ==== Sys2Proof/Proofs/PathStage.lean ====
section
/-! The path stage is moved on by bus clocks alone (01 R1). -/

namespace Sys2Proof.Machine

/-! ## Events leave the path stage -/

theorem clearTallies_path (s : State) : (clearTallies s).path = s.path := by
  unfold clearTallies
  split <;> rfl

theorem secondsStrobe_path (s : State) : (secondsStrobe s).path = s.path := by
  unfold secondsStrobe
  split
  · unfold chordStrobe
    split
    · split
      · rfl
      · unfold authoriseChord
        dsimp only
        split
        · exact clearTallies_path _
        · rfl
    · rfl
  · rfl

theorem silenceTick_path (s : State) : (silenceTick s).path = s.path := by
  unfold silenceTick
  split
  · dsimp only
    split
    · exact (foldl_transferFrame ringOrder stepSilence stepSilence_frame _).path
    · rfl
  · rfl

theorem applyRingEntry_path (image : List Byte) (acc : State × Bool) (pos : Nat) :
    (applyRingEntry image acc pos).1.path = acc.1.path := by
  unfold applyRingEntry
  dsimp only
  split
  · split
    · split <;> rfl
    · rfl
  · rfl

theorem applyTables_path (image : List Byte) (s : State) : (applyTables image s).1.path = s.path := by
  have h := List.foldlRecOn (motive := fun (acc : State × Bool) => acc.1.path = s.path) (List.range (imageRings image))
    (applyRingEntry image) (b := ({ s with values := imageValues image }, false)) rfl
    (fun acc hacc pos _ => (applyRingEntry_path image acc pos).trans hacc)
  exact (foldl_applyFlowEntry_busFrame image _ _).path.trans h

theorem loadEnd_path (image : List Byte) (s : State) : (loadEnd image s).path = s.path := by
  unfold loadEnd
  split
  · unfold endLoad
    generalize s.load.bytes ++ image = img
    split
    · have h := applyTables_path img s
      unfold applyImage
      generalize applyTables img s = out at h ⊢
      exact h
    · rfl
  · rfl

theorem defineRing_path (ring : Nat) (b : BitVec 22) (n : Nat) (stamp enrol : Bool) (s : State) :
    (defineRing ring b n stamp enrol s).1.path = s.path := by
  unfold defineRing
  split
  · dsimp only
    split <;> rfl
  · rfl

theorem ringOff_path (ring : Nat) (s : State) : (ringOff ring s).1.path = s.path := by
  unfold ringOff
  split
  · dsimp only
    split <;> rfl
  · rfl

theorem startPart_path (s : State) : (startPart s).1.path = s.path := by
  unfold startPart
  split <;> rfl

theorem perform_path (req : Request) (s : State) : (perform req s).1.path = s.path := by
  cases req with
  | status => rfl
  | readFlow i p => exact congrArg State.path (readFlow_state i p s)
  | findFlow r k => rfl
  | defineFlow r k a => exact (defineFlow_busFrame _ _ _ s).path
  | removeFlow i => exact (removeFlow_busFrame _ s).path
  | setPeriod i p => exact (setPeriod_busFrame _ _ s).path
  | readRing r p => exact congrArg State.path (readRing_state r p s)
  | defineRing r b n o => exact defineRing_path _ _ _ _ _ s
  | ringOff r => exact ringOff_path _ s
  | readSummary n p => exact congrArg State.path (readSummary_state n p s)
  | takeIncidents n => exact (takeIncidents_busFrame _ s).path
  | acknowledge c => rfl
  | setAlarmMap c m p d => exact (setAlarmMap_busFrame _ _ _ _ s).path
  | setTallyPeriod c => exact (setTallyPeriod_busFrame _ s).path
  | clearTallies => exact clearTallies_path s
  | restart => rfl
  | start => exact startPart_path s

theorem path_keptByEvents (c : PathStage) : KeptByEvents (fun s => s.path = c) where
  seenRisingEdge s h := (seenRisingEdge_busFrame s).path.trans h
  measurementCompletion s h := (measurementCompletion_busFrame s).path.trans h
  refLoss s h := (refLoss_busFrame s).path.trans h
  tick pins s h := (tick_busFrame pins s).path.trans h
  loadEnd image s h := (loadEnd_path image s).trans h
  debouncedStateChange i s h := (debouncedStateChange_busFrame i s).path.trans h
  sweepPace s h := (sweepPace_busFrame s).path.trans h
  millisecondStrobe s h := (millisecondStrobe_busFrame s).path.trans h
  secondsStrobe s h := (secondsStrobe_path s).trans h
  silenceTick s h := (silenceTick_path s).trans h
  boundary s h := (boundary_busFrame s).path.trans h
  line _ _ h := h
  restart _ h := h
  perform req s _ h := (perform_path req s).trans h

/-- A bus clock moves the path stage on by one clock, whatever events it settles before. -/
theorem busClock_path (ref : Bool) (s : State) : (busClock ref s).path = clockPath s.path :=
  congrArg clockPath ((path_keptByEvents s.path).settle rfl)

/-! ## Two bus clocks of a delay line -/

section
variable {α : Type} {l : List (Nat × α)} (h : ∀ p ∈ l, p.1 = 1 ∨ p.1 = 2)
include h

theorem delayLeaving_first (x : α) : delayLeaving (l ++ [(2, x)]) = (l.filter (fun p => p.1 == 1)).map (fun p => p.2) := by
  have hf : l.filter (fun p => decide (p.1 ≤ 1)) = l.filter (fun p => p.1 == 1) :=
    List.filter_congr (fun p hp => by rcases h p hp with e | e <;> simp [e])
  simp [delayLeaving, hf]

theorem delayStaying_first (x : α) :
    delayStaying (l ++ [(2, x)]) = (l.filter (fun p => p.1 == 2)).map (fun p => (1, p.2)) ++ [(1, x)] := by
  have hf : l.filter (fun p => decide (1 < p.1)) = l.filter (fun p => p.1 == 2) :=
    List.filter_congr (fun p hp => by rcases h p hp with e | e <;> simp [e])
  have hm : (l.filter (fun p => p.1 == 2)).map (fun p => (p.1 - 1, p.2)) = (l.filter (fun p => p.1 == 2)).map (fun p => (1, p.2)) :=
    List.map_congr_left (fun p hp => by simp [beq_iff_eq.mp (List.mem_filter.mp hp).2])
  simp [delayStaying, hf, hm]

end

theorem delayLeaving_last {α : Type} (l : List α) : delayLeaving (l.map (fun x => (1, x))) = l := by
  simp [delayLeaving, List.filter_map, Function.comp_def]

theorem delayStaying_last {α : Type} (l : List α) : delayStaying (l.map (fun x => (1, x))) = [] := by
  simp [delayStaying, List.filter_map]

/-- What enters a delay line of at most two clocks leaves at the second, behind what entered before. -/
theorem delay_two {α : Type} {l : List (Nat × α)} (h : ∀ p ∈ l, p.1 = 1 ∨ p.1 = 2) (x : α) :
    delayLeaving (l ++ [(2, x)]) = (l.filter (fun p => p.1 == 1)).map (fun p => p.2) ∧
      delayLeaving (delayStaying (l ++ [(2, x)])) = (l.filter (fun p => p.1 == 2)).map (fun p => p.2) ++ [x] ∧
      delayStaying (delayStaying (l ++ [(2, x)])) = [] := by
  have e : delayStaying (l ++ [(2, x)]) = ((l.filter (fun p => p.1 == 2)).map (fun p => p.2) ++ [x]).map (fun y => (1, y)) := by
    rw [delayStaying_first h]
    simp
  exact ⟨delayLeaving_first h x, by rw [e, delayLeaving_last], by rw [e, delayStaying_last]⟩

/-- Settles O19: two bus clocks of the delay line, whose settling leaves it alone. -/
theorem pathStageAddsTwoClocks : Obligations.PathStageAddsTwoClocks := by
  unfold Obligations.PathStageAddsTwoClocks
  constructor
  · intro write addr slen data ref1 ref2 s h
    obtain ⟨h1, h2, h3⟩ := delay_two h ⟨write, addr, slen, outgoingData ⟨write, addr, slen, data⟩ s⟩
    have hp := (busTransfer_frame ⟨write, addr, slen, data⟩ s).path
    refine ⟨_, _, _, rfl, rfl, rfl, ?_, ?_, ?_⟩
    · rw [busClock_path, hp]
      exact h1
    · rw [busClock_path, busClock_path, hp]
      exact h2
    · rw [busClock_path, busClock_path, hp]
      exact h3
  · intro data ref1 ref2 s h
    obtain ⟨h1, h2, h3⟩ := delay_two h data
    have hp := (readDataCheck_frame data s).path
    refine ⟨_, _, _, rfl, rfl, rfl, ?_, ?_, ?_⟩
    · rw [busClock_path, hp]
      exact h1
    · rw [busClock_path, busClock_path, hp]
      exact h2
    · rw [busClock_path, busClock_path, hp]
      exact h3

end Sys2Proof.Machine
end

