-- ==== Sys2Proof/Proofs/Clocks.lean ====
section
/-! What a bus clock with no event outstanding and a silence tick do, and the values of reset and power-on (01 R1, R24; 02 R32 to R35;
10 R164). -/

namespace Sys2Proof.Machine

/-! ## Events that have not fallen due -/

section
variable {s : State}

theorem seenRisingEdge_notDue (h : s.due.seenEdge = false) : seenRisingEdge s = s := by simp [seenRisingEdge, h]

theorem measurementCompletion_notDue (h : s.due.measurement = none) : measurementCompletion s = s := by
  simp [measurementCompletion, h]

theorem refLoss_notDue (h : s.due.refLoss = false) : refLoss s = s := by simp [refLoss, h]

theorem tick_notDue (pins : Pins) (h : s.due.tick = false) : tick pins s = s := by simp [tick, h]

theorem sweepPace_notDue (h : s.due.sweepPace = false) : sweepPace s = s := by simp [sweepPace, h]

theorem millisecondStrobe_notDue (h : s.due.msStrobe = false) : millisecondStrobe s = s := by simp [millisecondStrobe, h]

theorem secondsStrobe_notDue (h : s.due.secondsStrobe = false) : secondsStrobe s = s := by simp [secondsStrobe, h]

theorem silenceTick_notDue (h : s.due.silenceTick = false) : silenceTick s = s := by simp [silenceTick, h]

theorem boundary_notDue (h : s.boundaryDue = false) : boundary s = s := by simp [boundary, h]

theorem debouncedStateChange_notDue (i : PanelInput) (h : (s.panel.input i).count ≠ Config.debounceTicks) :
    debouncedStateChange i s = s := by simp [debouncedStateChange, h]

theorem loadEnd_notLoading (image : List Byte) (h : s.device ≠ .loading) : loadEnd image s = s := by simp [loadEnd, h]

theorem finishLoad_notStopped (h : s.device = .loading → readStopped s.load.bytes = false) : finishLoad s = s := by
  by_cases hd : s.device = .loading
  · simp [finishLoad, h hd]
  · simp [finishLoad, loadEnd_notLoading [] hd]

theorem takeReceived_none (h : s.line.received = none) : takeReceived s = s := by simp [takeReceived, h]

theorem gapLimitExpiry_notDue (h : (∀ d l, s.line.rx ≠ .collecting d l) ∨ s.line.gapTicks < 4 * charTime s.straps) :
    gapLimitExpiry s = s := by
  unfold gapLimitExpiry
  split
  · next d l hrx => exact if_neg (fun hc => h.elim (fun hn => hn d l hrx) (Nat.not_lt.mpr hc))
  · rfl

theorem quietLimitExpiry_notDue (h : (∀ d c, s.line.rx ≠ .overlong d c) ∨ s.line.gapTicks < 4 * charTime s.straps) :
    quietLimitExpiry s = s := by
  unfold quietLimitExpiry
  split
  · next d c hrx => exact if_neg (fun hc => h.elim (fun hn => hn d c hrx) (Nat.not_lt.mpr hc))
  · rfl

theorem replyStart_notDue (h : ∀ r, s.line.reply = some r → r.sending = true ∨ r.ticks < 2 * charTime s.straps) :
    replyStart s = s := by
  unfold replyStart
  split
  · rfl
  · next r hr =>
    refine if_neg (fun hc => (h r hr).elim (fun hs => ?_) (Nat.not_lt.mpr hc.2))
    rw [hc.1] at hs
    cases hs

theorem replyEnd_notDue (h : ∀ r, s.line.reply = some r → r.sending = false ∨ r.ticks < r.stopAfter * charTime s.straps) :
    replyEnd s = s := by
  unfold replyEnd
  split
  · rfl
  · next r hr =>
    refine if_neg (fun hc => (h r hr).elim (fun hs => ?_) (Nat.not_lt.mpr hc.2))
    rw [hc.1] at hs
    cases hs

end

/-- With no event outstanding a bus clock settles nothing. -/
theorem settle_of_settled {s : State} (h : Settled s) : settle s = s := by
  obtain ⟨hdue, ⟨hA, hB, hack⟩, hload, hbound, hrec, hgap, hreply⟩ := h
  have hcollect : (∀ d l, s.line.rx ≠ .collecting d l) ∨ s.line.gapTicks < 4 * charTime s.straps :=
    hgap.imp_left (fun hw d l e => by rw [hw] at e; cases e)
  have hoverlong : (∀ d c, s.line.rx ≠ .overlong d c) ∨ s.line.gapTicks < 4 * charTime s.straps :=
    hgap.imp_left (fun hw d c e => by rw [hw] at e; cases e)
  have hstart : ∀ r, s.line.reply = some r → r.sending = true ∨ r.ticks < 2 * charTime s.straps := fun r hr => by
    cases hs : r.sending with
    | true => exact .inl rfl
    | false => exact .inr ((hreply r hr).1 hs)
  have hend : ∀ r, s.line.reply = some r → r.sending = false ∨ r.ticks < r.stopAfter * charTime s.straps := fun r hr => by
    cases hs : r.sending with
    | false => exact .inl rfl
    | true => exact .inr ((hreply r hr).2 hs)
  unfold settle
  dsimp only
  rw [seenRisingEdge_notDue (by rw [hdue]; rfl), measurementCompletion_notDue (by rw [hdue]; rfl),
    refLoss_notDue (by rw [hdue]; rfl), tick_notDue _ (by rw [hdue]; rfl), finishLoad_notStopped hload,
    debouncedStateChange_notDue .clrA hA, debouncedStateChange_notDue .clrB hB, debouncedStateChange_notDue .ack hack,
    sweepPace_notDue (by rw [hdue]; rfl), millisecondStrobe_notDue (by rw [hdue]; rfl),
    secondsStrobe_notDue (by rw [hdue]; rfl), silenceTick_notDue (by rw [hdue]; rfl), boundary_notDue hbound,
    takeReceived_none hrec, gapLimitExpiry_notDue hcollect, quietLimitExpiry_notDue hoverlong, replyEnd_notDue hend,
    replyStart_notDue hstart]

/-! ## A bus clock (02 R33, R35) -/

/-- The accumulator outside LOCKED (02 R33). -/
theorem accClock_unlocked {t : TimeBase} (h : t.source ≠ .locked) :
    accClock t = if t.acc + 256 < t.ratio then (t.acc + 256, false) else (t.acc + 256 - t.ratio, true) := by
  unfold accClock
  split
  · next hs => exact absurd hs h
  · rfl
  · rfl

/-- Settles O20: the settled state is clocked alone. -/
theorem busClockStepsTimeBase : Obligations.BusClockStepsTimeBase := by
  unfold Obligations.BusClockStepsTimeBase
  intro ref s h
  have hdue := h.due
  refine ⟨(accClock s.time).1, (accClock s.time).2,
    if (ref && !s.time.refLast) = true then s.time.loss else min Config.lossClocks (s.time.loss + 1),
    !(ref && !s.time.refLast) && s.time.loss + 1 == Config.lossClocks, ref && !s.time.refLast, meterClock s.time.meter,
    ?next, ?edge, ?locked, ?steps, ?ticks, ?seen, ?unseen, ?lost, ?past, ?waiting, ?counting⟩
  case next =>
    have he : exec (.busClock ref) s = .next (clockCore ref s) :=
      congrArg (fun u => Host.Outcome.next (clockCore ref u)) (settle_of_settled h)
    rw [he]
    simp only [clockCore, hdue, Due.none, Bool.false_or]
  case edge => simp
  case locked => exact fun hs => by simp [accClock, hs]
  case steps => exact fun hs hlt => by simp [accClock_unlocked hs, hlt]
  case ticks => exact fun hs hle => by simp [accClock_unlocked hs, Nat.not_lt.mpr hle]
  case seen => exact fun hedge => by simp [hedge]
  case unseen =>
    intro hedge hlt
    simp only [hedge, Config.lossClocks, Bool.false_eq_true, if_false, Bool.not_false, Bool.true_and, beq_eq_false_iff_ne]
    omega
  case lost => exact fun hedge heq => by simp [hedge, heq, Config.lossClocks]
  case past =>
    intro hedge hle
    simp only [hedge, Config.lossClocks, Bool.false_eq_true, if_false, Bool.not_false, Bool.true_and, beq_eq_false_iff_ne]
    omega
  case waiting => exact fun hm => by rw [hm]; rfl
  case counting => exact fun n p b hm => by rw [hm]; rfl

end Sys2Proof.Machine
end

