-- ==== Sys2Proof/Proofs/SilenceAndReset.lean ====
section
/-! A silence tick steps the rings in ring order (01 R24); the values of reset and of power-on (10 R164). -/

namespace Sys2Proof.Machine

/-! ## Raisings (07 R121) -/

/-- A list of raisings changes the log and the alarm state alone. -/
theorem raiseAll_eq (l : List (IncidentKind × Subject × BitVec 32)) (s : State) :
    raiseAll l s = { s with log := (raiseAll l s).log, alarm := (raiseAll l s).alarm } := by
  induction l generalizing s with
  | nil => rfl
  | cons p rest ih =>
    have h := ih (raise p.1 p.2.1 p.2.2 s)
    exact h

/-- What a list of raisings makes of the log and the alarm state is a matter of the tick count, the log and the alarm state. -/
theorem raiseAll_congr (l : List (IncidentKind × Subject × BitVec 32)) {s t : State}
    (htime : t.time.tickCount = s.time.tickCount) (hlog : t.log = s.log) (halarm : t.alarm = s.alarm) :
    (raiseAll l t).log = (raiseAll l s).log ∧ (raiseAll l t).alarm = (raiseAll l s).alarm := by
  induction l generalizing s t with
  | nil => exact ⟨hlog, halarm⟩
  | cons p rest ih =>
    refine ih (s := raise p.1 p.2.1 p.2.2 s) (t := raise p.1 p.2.1 p.2.2 t) htime ?_ ?_
    · simp only [raise, htime, hlog, halarm]
    · simp only [raise, htime, hlog, halarm]

/-- The ring records replaced. -/
def State.setRings (s : State) (rings : Vector RingRecord 16) : State := { s with rings := rings }

theorem State.setRing_eq (s : State) (r : RingIx) (x : RingRecord) : s.setRing r x = s.setRings (s.rings.set r x) := rfl

theorem State.setRings_setRings (s : State) (x y : Vector RingRecord 16) : (s.setRings x).setRings y = s.setRings y := rfl

theorem raiseAll_setRings (l : List (IncidentKind × Subject × BitVec 32)) (s : State) (rings : Vector RingRecord 16) :
    raiseAll l (s.setRings rings) = (raiseAll l s).setRings rings := by
  induction l generalizing s with
  | nil => rfl
  | cons p rest ih => exact ih (raise p.1 p.2.1 p.2.2 s)

theorem raiseAll_append (l m : List (IncidentKind × Subject × BitVec 32)) (s : State) :
    raiseAll (l ++ m) s = raiseAll m (raiseAll l s) := List.foldl_append

/-! ## A silence tick (01 R24) -/

/-- A ring after its silence step. -/
def RingRecord.silenceStepped (x : RingRecord) : RingRecord :=
  if x.enabled then
    if x.silenceCounter < 3 then { x with silenceCounter := x.silenceCounter + 1 } else { x with silence := .silent }
  else x

/-- Whether a silence step makes an ACTIVE ring SILENT. -/
def RingRecord.fallsSilent (x : RingRecord) : Bool :=
  x.enabled && decide (3 ≤ x.silenceCounter) && decide (x.silence = .active)

/-- The raisings of the rings of a list that fall silent, in its order. -/
def silentRaisings (l : List RingIx) (s : State) : List (IncidentKind × Subject × BitVec 32) :=
  (l.filter (fun r => (s.ring r).fallsSilent)).map (fun r =>
    (IncidentKind.ringSilent, Subject.ring r, BitVec.ofNat 32 (s.ring r).held))

theorem silentRaisings_congr {l : List RingIx} {s t : State} (h : ∀ r ∈ l, t.ring r = s.ring r) :
    silentRaisings l t = silentRaisings l s := by
  unfold silentRaisings
  rw [List.filter_congr (fun r hr => by rw [h r hr])]
  exact List.map_congr_left (fun r hr => by rw [h r (List.mem_filter.mp hr).1])

theorem State.setRing_self (s : State) (r : RingIx) : s.setRing r (s.ring r) = s := by
  simp [State.setRing, State.ring]

/-- One ring's silence step, with the incident it may raise. -/
theorem stepSilence_eq (s : State) (r : RingIx) :
    stepSilence s r = raiseAll (silentRaisings [r] s) (s.setRing r (s.ring r).silenceStepped) := by
  unfold stepSilence silentRaisings RingRecord.silenceStepped RingRecord.fallsSilent
  dsimp only
  split
  · next he =>
    split
    · next hlt => simp [he, Nat.not_le.mpr hlt, raiseAll]
    · next hge =>
      split
      · next ha => simp [he, Nat.not_lt.mp hge, ha, raiseAll]
      · next hs =>
        have hx : { s.ring r with silence := .silent } = s.ring r := by rw [← hs]
        simp [hs, raiseAll, hx, State.setRing_self]
  · next he => simp [he, raiseAll, State.setRing_self]

theorem stepSilence_ring (s : State) (r q : RingIx) :
    (stepSilence s r).ring q = if q = r then (s.ring r).silenceStepped else s.ring q := by
  rw [stepSilence_eq, (raiseAll_frame _ _).ring, State.setRing_ring]

/-- Silence steps of different rings raise in their order. -/
theorem foldl_stepSilence (l : List RingIx) (hl : l.Nodup) (s : State) :
    ∃ rings, l.foldl stepSilence s = (raiseAll (silentRaisings l s) s).setRings rings := by
  induction l generalizing s with
  | nil => exact ⟨_, rfl⟩
  | cons r rest ih =>
    obtain ⟨hr, hrest⟩ := List.nodup_cons.mp hl
    obtain ⟨rings, h⟩ := ih hrest (stepSilence s r)
    have hsame : silentRaisings rest (stepSilence s r) = silentRaisings rest s :=
      silentRaisings_congr (fun q hq => by
        rw [stepSilence_ring, if_neg]
        rintro rfl
        exact hr hq)
    have happ : silentRaisings (r :: rest) s = silentRaisings [r] s ++ silentRaisings rest s := by
      simp only [silentRaisings, ← List.map_append, ← List.filter_append]
      rfl
    refine ⟨rings, ?_⟩
    rw [List.foldl_cons, h, hsame, happ, raiseAll_append, stepSilence_eq, State.setRing_eq, raiseAll_setRings, raiseAll_setRings,
      State.setRings_setRings]

/-- Settles O28: the rings stepped one after another. -/
theorem silenceTickStepsRings : Obligations.SilenceTickStepsRings := by
  unfold Obligations.SilenceTickStepsRings
  intro s hdue
  constructor
  · intro hd
    exact congrArg Host.Outcome.next (by simp [silenceTick, hdue, hd])
  · intro hd
    have he : silenceTick s = ringOrder.foldl stepSilence { s with due := { s.due with silenceTick := false } } := by
      simp [silenceTick, hdue, hd]
    obtain ⟨rings, h⟩ := foldl_stepSilence ringOrder (List.nodup_finRange 16) { s with due := { s.due with silenceTick := false } }
    have hring := foldl_ringOrder (g := RingRecord.silenceStepped) stepSilence_ring { s with due := { s.due with silenceTick := false } }
    obtain ⟨hlog, halarm⟩ := raiseAll_congr (silentRaisings ringOrder s) (s := s)
      (t := { s with due := { s.due with silenceTick := false } }) rfl rfl rfl
    rw [h] at he hring
    refine ⟨rings, ?_, hring⟩
    refine congrArg Host.Outcome.next (he.trans ?_)
    rw [raiseAll_eq]
    exact congrArg₂ (fun l a => { s with
      due := { s.due with silenceTick := false }, rings := rings, log := l, alarm := a }) hlog halarm

/-! ## Reset and power-on -/

theorem reset_ring (r : RingIx) : State.reset.ring r = RingRecord.init := by
  rw [State.ring, State.reset, Fin.getElem_fin, Vector.getElem_replicate]

theorem reset_entry (i : FlowIx) : State.reset.entry i = FlowEntry.init := by
  rw [State.entry, State.reset, Fin.getElem_fin, Vector.getElem_replicate]

theorem reset_flowAt (i : FlowIx) : State.reset.flowAt i = none := by rw [State.flowAt, reset_entry]; rfl

/-- Settles O4: nothing is enabled, held, logged or outstanding at reset. -/
theorem resetMeetsInvariants : Obligations.ResetMeetsInvariants := by
  have hflow : ∀ (i : FlowIx) (f : FlowRecord), State.reset.flowAt i ≠ some f := fun i f h => by
    rw [reset_flowAt] at h
    cases h
  exact {
    rings := RingsOk.init rfl
    ringMap := RingMapOk.init rfl
    untracked := UntrackedOk.init rfl
    time := ⟨by decide, by decide, by decide, by decide, by decide, trivial, by decide, by decide, by decide, by decide, by decide⟩
    directory := fun i _ f _ hi _ _ _ => absurd hi (hflow i f)
    flows := ⟨by decide, by decide, by decide, by decide, fun _ => reset_flowAt, fun i f h => absurd h (hflow i f)⟩
    history := ⟨fun h => (nomatch h), fun _ => ⟨rfl, rfl, rfl⟩, fun _ i f h => absurd h (hflow i f), by decide,
      fun _ h => (nomatch h), by decide⟩
    log := ⟨by decide, by decide, fun _ h => (nomatch h), by decide⟩
    alarm := ⟨by decide, by decide, by decide⟩
    auto := fun c h _ => by
      have h0 : ClassSet.has (0 : ClassSet) c = false := by simp [ClassSet.has]
      exact absurd (h0.symm.trans h) Bool.false_ne_true
    panel := ⟨by decide, fun _ => rfl, fun _ h => (nomatch h)⟩
    line := ⟨fun _ _ h => (nomatch h), fun _ => ⟨rfl, rfl⟩, fun _ h => (nomatch h), by decide⟩
    load := LoadRead.init_ok }

/-- The strap ratio by the four levels of the BDIV straps (02 R31). -/
theorem strapRatioOf_cases (b : BitVec 2) :
    (b = 0 → strapRatioOf b = 2048) ∧ (b = 1 → strapRatioOf b = 3200) ∧ (b = 2 → strapRatioOf b = 4000) ∧
      (b = 3 → strapRatioOf b = 6400) := by
  refine ⟨?_, ?_, ?_, ?_⟩ <;> rintro rfl <;> rfl

/-- Settles O5: power-on starts from the state of reset, whatever came before. -/
theorem powerOnResetsEveryBlock : Obligations.PowerOnResetsEveryBlock := by
  unfold Obligations.PowerOnResetsEveryBlock
  intro x s
  obtain ⟨h0, h1, h2, h3⟩ := strapRatioOf_cases x.bdiv
  refine ⟨_, rfl, rfl, rfl, rfl, rfl, rfl, rfl, reset_ring, reset_entry, ⟨strapRatioOf x.bdiv, h0, h1, h2, h3, rfl⟩, rfl, rfl, rfl, rfl,
    rfl, rfl, rfl, rfl, rfl⟩

end Sys2Proof.Machine
end

