-- ==== Sys2Proof/Proofs/RingAndTallyRequests.lean ====
section
/-! A direct request as its handling and its reply; the requests of the ring map and of the tally periods (01 R26, R27; 06 R108, R118,
R120; 09 R150, R154, R155). -/

namespace Sys2Proof.Machine

/-! ## A direct request (09 R150, R154, R155) -/

/-- The state in which a direct request with no reply going on is handled. -/
def State.requested (s : State) : State := { s with line := { s.line with rx := .waiting, gapTicks := 0 } }

theorem takeAddress_idle {s : State} (h : s.line.reply = none) (d : Byte) :
    takeAddress d s = s.setRx (addressed s.straps.addr d) := by
  unfold takeAddress
  split
  · next hr => rw [h] at hr; cases hr
  · rfl

theorem beforeHandling_idle {s : State} (h : s.line.reply = none) (k : State → State) : beforeHandling s k = k s := by
  unfold beforeHandling
  split
  · next hr => rw [h] at hr; cases hr
  · rfl

/-- A direct request that finds no reply going on is handled, and its reply is captured. -/
theorem lineRequest_direct {addr : Byte} {s : State} (h : Direct addr s) (req : Request) :
    lineRequest addr req s = handleRequest true req s.requested := by
  obtain ⟨haddr, hne, hreply⟩ := h
  have ha : addressed s.straps.addr addr = .collecting true [] := by
    rw [addressed, if_neg hne, if_pos haddr]
  have ht := takeAddress_idle (s := { s with line := { s.line with gapTicks := 0 } }) hreply addr
  rw [ha] at ht
  unfold lineRequest
  simp only [ht, State.setRx_line_rx]
  exact beforeHandling_idle (by exact hreply) (handleRequest true req)

/-- A direct request answered outside LOADING with no restart: its effects, and its reply begun in its delay. -/
theorem lineRequest_answered {addr : Byte} {s : State} (h : Direct addr s) (hl : s.device ≠ .loading) {req : Request}
    (hreq : req ≠ .restart) {u : State} {st : Status} {payload : List Byte} (hp : perform req s.requested = (u, st, payload)) :
    lineRequest addr req s = u.setReply (some (newReply u.straps.addr st payload false)) := by
  have hd : s.requested.device ≠ .loading := hl
  have ha : answer req s.requested = (u, st, payload) := by
    rw [answer, if_neg (fun hc => hd hc.1), hp]
  have hr : restartsAfter req (u, st, payload) = false := by simp [restartsAfter, hreq]
  rw [lineRequest_direct h, handleRequest]
  simp only [ha, hr]
  rfl

/-! ## DEFINE RING and RING OFF (01 R26, R27) -/

theorem slotCountOk_iff (n : Nat) :
    slotCountOk n = true ↔ n = 8 ∨ n = 16 ∨ n = 32 ∨ n = 64 ∨ n = 128 ∨ n = 256 := by
  simp [slotCountOk]

theorem State.overlapsOther_iff (s : State) (r : RingIx) (b n : Nat) : s.overlapsOther r b n = true ↔
    ∃ q : RingIx, q ≠ r ∧ (s.ring q).enabled = true ∧ b < (s.ring q).base.toNat + 4 * (s.ring q).slotCount ∧
      (s.ring q).base.toNat < b + 4 * n := by
  simp [State.overlapsOther, overlaps, ringOrder, List.any_eq_true, and_assoc]

theorem Profile.stampClash_iff (p : Profile) :
    p.stampClash = true ↔ p.stampWord = some p.keyWord ∨ p.stampWord = some p.seqWord := by
  unfold Profile.stampClash
  split
  · next w hw => simp [hw]
  · next hw => simp [hw]

/-- The checks of DEFINE RING are those of R26 in their order. -/
theorem ringStatus_eq (r : RingIx) (b : BitVec 22) (n : Nat) (stamp : Bool) (s : State) :
    ringStatus r b n stamp s = s.ringChecks r b.toNat n stamp := by
  have hother : s.otherSlots r =
      (ringOrder.map (fun q => if q ≠ r ∧ (s.ring q).enabled = true then (s.ring q).slotCount else 0)).sum := by
    simp [State.otherSlots]
  unfold ringStatus State.ringChecks
  simp only [Bool.not_eq_true', Bool.and_eq_true, decide_eq_true_eq, ← slotCountOk_iff, ← State.overlapsOther_iff,
    ← Profile.stampClash_iff, Bool.not_eq_true, hother]

theorem cancelReads_eq (r : RingIx) (l : List (Option ReadCheck)) :
    cancelReads r l = l.map (fun c => c.bind (fun k => if k.ring = r then none else some k)) := by
  unfold cancelReads
  refine List.map_congr_left (fun c _ => ?_)
  cases c with
  | none => rfl
  | some k => by_cases hk : k.ring = r <;> simp [Option.filter, hk]

section
variable {ring : Nat} {r : RingIx} (h : ring = r.val) {s : State}
include h

theorem defineRing_of_index (b : BitVec 22) (n : Nat) (stamp enrol : Bool) : defineRing ring b n stamp enrol s =
    if ringStatus r b n stamp s = .ok then (applyRing r b n stamp enrol s, .ok) else (s, ringStatus r b n stamp s) := by
  subst h
  unfold defineRing
  rw [dif_pos r.isLt]
  dsimp only
  split
  · next hok => rw [if_pos hok]
  · next hne => rw [if_neg hne]

theorem ringOff_of_index : ringOff ring s = (if (s.ring r).enabled then s.modRing r turnOff else s, .ok) := by
  subst h
  unfold ringOff
  rw [dif_pos r.isLt]

end

/-- Settles O47: the checks by R26's order, then the ring's record. -/
theorem ringRequests : Obligations.RingRequests := by
  unfold Obligations.RingRequests
  intro addr s h hl
  refine ⟨?index, ?define, ?off⟩
  case index =>
    intro ring base slots options hring
    have hn : ¬ ring.toNat < 16 := by omega
    constructor
    · refine congrArg Host.Outcome.next (lineRequest_answered h hl (req := .defineRing ring base slots options) (by simp)
        (u := s.requested) (st := .badArgument) (payload := []) ?_)
      simp [perform, defineRing, hn, plainAnswer]
    · refine congrArg Host.Outcome.next (lineRequest_answered h hl (req := .ringOff ring) (by simp)
        (u := s.requested) (st := .badArgument) (payload := []) ?_)
      simp [perform, ringOff, hn, plainAnswer]
  case define =>
    intro r ring base slots options hring
    dsimp only
    have hb : (base.setWidth 22).toNat = base.toNat % 2 ^ 22 := BitVec.toNat_setWidth _ _
    have hof : BitVec.ofNat 22 (base.toNat % 2 ^ 22) = base.setWidth 22 := by
      rw [← hb, BitVec.ofNat_toNat, BitVec.setWidth_eq]
    have hst : ringStatus r (base.setWidth 22) slots.toNat (options.getLsbD 0) s.requested =
        s.ringChecks r (base.toNat % 2 ^ 22) slots.toNat (options.getLsbD 0) := by
      rw [← hb]
      exact ringStatus_eq r _ _ _ s
    have hp : perform (.defineRing ring base slots options) s.requested =
        plainAnswer (defineRing ring.toNat (base.setWidth 22) slots.toNat (options.getLsbD 0) (options.getLsbD 1) s.requested) := rfl
    rw [defineRing_of_index hring, hst] at hp
    constructor
    · intro hne
      rw [if_neg hne] at hp
      exact congrArg Host.Outcome.next (lineRequest_answered h hl (by simp) hp)
    · intro hok
      rw [if_pos hok] at hp
      refine congrArg Host.Outcome.next ((lineRequest_answered h hl (by simp) hp).trans ?_)
      have hreads : cancelReads r s.requested.reads = _ := cancelReads_eq r s.reads
      rw [State.ringDefined, hof]
      simp only [applyRing, hreads]
      rfl
  case off =>
    intro r ring hring
    have hp : perform (.ringOff ring) s.requested = plainAnswer (ringOff ring.toNat s.requested) := rfl
    rw [ringOff_of_index hring] at hp
    have hr : s.requested.ring r = s.ring r := rfl
    rw [hr] at hp
    constructor
    · intro he
      rw [he] at hp
      exact congrArg Host.Outcome.next (lineRequest_answered h hl (by simp) hp)
    · intro he
      rw [he] at hp
      exact congrArg Host.Outcome.next (lineRequest_answered h hl (by simp) hp)

/-! ## Tally requests (06 R108, R118, R120) -/

/-- STACK shows nothing when nothing is pending (08 R137). -/
theorem stackCode_empty (settings : AlarmSettings) : stackCode settings 0 = 0 := by
  have h : settings.priority.order.find? (fun c => ClassSet.has 0 c && !settings.mask.has c) = none := by
    rw [List.find?_eq_none]
    intro c _
    simp [ClassSet.has]
  unfold stackCode
  rw [h]

theorem clearPending_eq (a : AlarmState) : a.clearPending = ⟨a.settings, 0, 0, false⟩ := by
  rw [AlarmState.clearPending, AlarmState.resolve]
  simp only [stackCode_empty]
  rfl

theorem newSummary_eq (s : State) (number : BitVec 16) (code : Nat) : newSummary s number code = s.fresh number code := by
  simp [newSummary, State.fresh, TimeBase.quality]

/-- The clearing of counts in the words of R28, R84, R102 and R118. -/
theorem clearCounts_eq (s : State) : clearCounts s = { s with
    rings := s.rings.map RingRecord.cleared
    flows := s.flows.map (fun e => { e with flow := e.flow.map (fun f => f.cleared s.tally.periodNumber) })
    log := ⟨[], 0⟩
    alarm := ⟨s.alarm.settings, 0, 0, false⟩ } := by
  rw [clearCounts, clearPending_eq]
  rfl

theorem enterMonitoring_eq (s : State) : enterMonitoring s = { s with
    device := .monitoring
    sweepNext := 0
    tally := ⟨s.tally.periodNumber, 0, s.tally.pendingCode.getD s.tally.code, none,
      [s.fresh s.tally.periodNumber (s.tally.pendingCode.getD s.tally.code)]⟩ } := by
  simp only [enterMonitoring, newSummary_eq]

/-- Settles O49: each request as its answer in the state it is handled in. -/
theorem tallyRequests : Obligations.TallyRequests := by
  unfold Obligations.TallyRequests
  intro addr s h
  refine ⟨?period, ?clearMonitoring, ?clearUnconfigured, ?startMonitoring, ?startUnconfigured⟩
  case period =>
    intro code hl
    constructor
    · intro hc
      have hp : perform (.setTallyPeriod code) s.requested = (s.requested, .badArgument, []) := by
        simp [perform, setTallyPeriod, hc]
      exact congrArg Host.Outcome.next (lineRequest_answered h hl (by simp) hp)
    · intro hc
      have hp : perform (.setTallyPeriod code) s.requested =
          ({ s.requested with tally := { s.tally with pendingCode := some (min 5 code.toNat) } }, .ok, []) := by
        simp [perform, setTallyPeriod, Nat.not_lt.mpr hc, State.requested]
      exact congrArg Host.Outcome.next (lineRequest_answered h hl (by simp) hp)
  case clearMonitoring =>
    intro hd
    have hl : s.device ≠ .loading := by simp [hd]
    have hd' : s.requested.device = .monitoring := hd
    have hp : perform .clearTallies s.requested = (clearCounts (startPeriod [] s.requested), .ok, []) := by
      simp [perform, clearTallies, hd']
    refine congrArg Host.Outcome.next ((lineRequest_answered h hl (by simp) hp).trans ?_)
    rw [clearCounts_eq]
    simp only [startPeriod, newSummary_eq]
    rfl
  case clearUnconfigured =>
    intro hd
    have hl : s.device ≠ .loading := by simp [hd]
    have hd' : s.requested.device = .unconfigured := hd
    have hp : perform .clearTallies s.requested = (clearCounts s.requested, .ok, []) := by
      simp [perform, clearTallies, hd']
    refine congrArg Host.Outcome.next ((lineRequest_answered h hl (by simp) hp).trans ?_)
    rw [clearCounts_eq]
    rfl
  case startMonitoring =>
    intro hd
    have hl : s.device ≠ .loading := by simp [hd]
    have hd' : s.requested.device = .monitoring := hd
    have hp : perform .start s.requested = (s.requested, .ok, []) := by simp [perform, startPart, hd']
    exact congrArg Host.Outcome.next (lineRequest_answered h hl (by simp) hp)
  case startUnconfigured =>
    intro hd
    have hl : s.device ≠ .loading := by simp [hd]
    have hd' : s.requested.device = .unconfigured := hd
    have hp : perform .start s.requested = (enterMonitoring s.requested, .ok, []) := by simp [perform, startPart, hd']
    refine congrArg Host.Outcome.next ((lineRequest_answered h hl (by simp) hp).trans ?_)
    rw [enterMonitoring_eq]
    rfl

end Sys2Proof.Machine
end

