-- ==== Sys2Proof/Proofs/Notices.lean ====
section
/-!
SUPPORT. The order in which changes of a ring, of the OPEN summary, of a flow and raisings are made, brought to one form; lookups and
notices of flows that do not lag (01 R10, R16; 03 R49 to R51, R53; 04 R61; 05 R85, R86); the total held (01 R22).
-/

namespace Sys2Proof.Machine

/-! ## One order of updates: rings first, then the OPEN summary, then flows, then raisings -/

section
variable (s : State) (r : RingIx) (g : RingRecord → RingRecord) (h k : Summary → Summary) (j : FlowIx) (f : FlowRecord)

theorem State.modOpen_modRing : (s.modOpen h).modRing r g = (s.modRing r g).modOpen h := rfl

theorem State.setFlow_modRing : (s.setFlow j f).modRing r g = (s.modRing r g).setFlow j f := rfl

theorem State.setFlow_modOpen : (s.setFlow j f).modOpen h = (s.modOpen h).setFlow j f := rfl

theorem raise_modRing (i : IncidentKind) (x : Subject) (v : BitVec 32) : (raise i x v s).modRing r g = raise i x v (s.modRing r g) := rfl

theorem raise_modOpen (i : IncidentKind) (x : Subject) (v : BitVec 32) : (raise i x v s).modOpen h = raise i x v (s.modOpen h) := rfl

/-- Two changes of the OPEN summary, the first of which keeps it OPEN, are one. -/
theorem State.modOpen_modOpen (hh : ∀ q, (h q).phase = q.phase) : (s.modOpen h).modOpen k = s.modOpen (fun q => k (h q)) := by
  simp only [State.modOpen, State.setHistory, List.map_map]
  congr 2
  refine List.map_congr_left (fun q _ => ?_)
  simp only [Function.comp]
  by_cases ho : q.isOpen = true
  · simp [ho, (Summary.isOpen_congr (hh q)).trans ho]
  · simp [ho]

/-- A change of the OPEN summary in the words of the statements. -/
theorem State.modOpen_eq : s.modOpen h = { s with tally := { s.tally with history := openHistory h s.tally.history } } := by
  simp [State.modOpen, State.setHistory, openHistory, Summary.isOpen]

theorem State.setFlow_setFlow (f' : FlowRecord) : (s.setFlow j f).setFlow j f' = s.setFlow j f' := by
  simp only [State.setFlow, State.setEntry_entry, if_true]
  simp [State.setEntry]

end

/-! ## The total held (01 R22) -/

/-- What a ring adds to the total held. -/
def RingRecord.heldWhenEnabled (x : RingRecord) : Nat := if x.enabled then x.held else 0

theorem State.totalHeld_modRing (s : State) (r : RingIx) (g : RingRecord → RingRecord) :
    (s.modRing r g).totalHeld + (s.ring r).heldWhenEnabled = s.totalHeld + (g (s.ring r)).heldWhenEnabled := by
  have h := sum_ringOrder_update (f := fun q => (s.ring q).heldWhenEnabled) (g := fun q => ((s.modRing r g).ring q).heldWhenEnabled) r
    (fun q hq => by rw [State.modRing_ring_ne _ _ hq])
  simp only [State.modRing_ring_self] at h
  exact h

theorem resetSilence_totalHeld (r : RingIx) (s : State) : (resetSilence r s).totalHeld = s.totalHeld :=
  Nat.add_right_cancel (State.totalHeld_modRing s r _)

/-- A slot of an enabled ring that becomes HELD adds one to the total held. -/
theorem holdSlot_totalHeld {s : State} {r : RingIx} (he : (s.ring r).enabled = true) (i : Nat) (p : PendingRecord) :
    (s.modRing r (holdSlot i p)).totalHeld = s.totalHeld + 1 := by
  have h := State.totalHeld_modRing s r (holdSlot i p)
  simp only [RingRecord.heldWhenEnabled, holdSlot, he, if_true] at h
  omega

/-- The peak of the OPEN summary after a rise of the total held to n. -/
def Summary.peaked (n : Nat) (q : Summary) : Summary := { q with peakHeld := max q.peakHeld n }

theorem notePeak_holdSlot {s : State} {r : RingIx} (he : (s.ring r).enabled = true) (i : Nat) (p : PendingRecord) :
    notePeak (s.modRing r (holdSlot i p)) = (s.modRing r (holdSlot i p)).modOpen (Summary.peaked (s.totalHeld + 1)) := by
  rw [notePeak, holdSlot_totalHeld he]
  rfl

/-! ## Lookup and enrolment (03 R49 to R51) -/

section
variable {s : State} {r : RingIx} {key : Half} {j : FlowIx} {f : FlowRecord}

theorem lookup_current (hk : s.findKey r key = some j) (hf : s.flowAt j = some f) (ht : f.tag = s.tally.periodNumber) :
    lookup r key s = (s, some ⟨j, (s.entry j).gen⟩) := by
  simp only [lookup, hk, rollIfLagging_current hf ht, hf]
  rfl

theorem lookup_unknown (hk : s.findKey r key = none) : lookup r key s = enrolOrRefuse r key s := by
  simp only [lookup, hk]

theorem enrolOrRefuse_off (ha : (s.ring r).autoEnrol = false) : enrolOrRefuse r key s = (s, none) := by
  simp [enrolOrRefuse, ha]

theorem State.lowestVacant_none (h : ∀ i, s.flowAt i ≠ none) : s.lowestVacant = none := by
  rw [State.lowestVacant, List.find?_eq_none]
  intro i _
  simpa [Option.isNone_iff_eq_none] using h i

theorem State.lowestVacant_some (hj : s.flowAt j = none) (h : ∀ k : FlowIx, k.val < j.val → s.flowAt k ≠ none) :
    s.lowestVacant = some j := by
  rw [State.lowestVacant, flowOrder, List.find?_eq_some_iff_getElem]
  refine ⟨by simp [hj], j.val, by simp, by simp, fun k hk => ?_⟩
  have hn := h ⟨k, Nat.lt_trans hk j.isLt⟩ hk
  simpa [Option.isSome_iff_ne_none] using hn

theorem enrolOrRefuse_full (ha : (s.ring r).autoEnrol = true) (h : ∀ i, s.flowAt i ≠ none) :
    enrolOrRefuse r key s = (raise .directoryFull (.ring r) (key.setWidth 32) s, none) := by
  simp [enrolOrRefuse, ha, State.lowestVacant_none h]

/-- The record of a flow just enrolled, before its first arrival (03 R48, R50). -/
def State.learnt (s : State) (r : RingIx) (key : Half) : FlowRecord :=
  newFlow .learned r key (.learning LearningContext.fresh) s.values.learnedParams s.tally.periodNumber

theorem enrolOrRefuse_vacant (ha : (s.ring r).autoEnrol = true) (hj : s.flowAt j = none)
    (h : ∀ k : FlowIx, k.val < j.val → s.flowAt k ≠ none) :
    enrolOrRefuse r key s = (s.setFlow j (s.learnt r key), some ⟨j, (s.entry j).gen⟩) := by
  simp only [enrolOrRefuse, ha, State.lowestVacant_some hj h, if_true]
  rfl

/-- A lookup sees the rings and keys of the flows alone. -/
theorem State.findKey_congr {t : State} (h : ∀ i, (t.flowAt i).map (fun f => (f.ring, f.key)) =
    (s.flowAt i).map (fun f => (f.ring, f.key))) : t.findKey r key = s.findKey r key := by
  unfold State.findKey
  congr 1
  funext i
  have hi := h i
  cases ht : t.flowAt i <;> cases hs : s.flowAt i <;> rw [ht, hs] at hi <;> simp at hi ⊢
  rw [hi.1, hi.2]

/-! ## Arrival notices (04 R61) -/

theorem arrivalNotice_flow (hf : s.flowAt j = some f) (t : Tick) (q : BitVec 16) :
    arrivalNotice j t q s = raiseAll (flowRaisings j (flowArrival s.values.silenceCount t q f).2)
      (s.setFlow j (flowArrival s.values.silenceCount t q f).1) := by
  simp only [arrivalNotice, hf]
  rfl

/-- The first arrival of a flow just enrolled begins its learning context (04 R62). -/
theorem flowArrival_learnt (n : Nat) (t : Tick) (q : BitVec 16) : flowArrival n t q (s.learnt r key) = (s.enrolled r key t q, []) := rfl

end

/-! ## Notices of a record whose flow does not lag (01 R16; 03 R53; 05 R85, R86) -/

section
variable {s : State} {p : PendingRecord} {j : FlowIx} {f : FlowRecord}

/-- Whether a record's flow lags is a matter of the flows and the period number. -/
theorem CreditedCurrent.congr {t : State} (h : CreditedCurrent s p) (hf : t.flows = s.flows)
    (hn : t.tally.periodNumber = s.tally.periodNumber) : CreditedCurrent t p := by
  intro j f hc
  rw [State.credited_congr hf] at hc
  exact (h j f hc).trans hn.symm

theorem creditAndRoll_current (h : CreditedCurrent s p) : creditAndRoll p s = (s, s.credited p) := by
  unfold creditAndRoll
  split
  · next hc => rw [hc]
  · next i f hc =>
    rw [rollIfLagging_current (State.credited_some hc).1 (h i f hc)]

theorem dropNotice_credited (r : RingIx) (hc : s.credited p = some (j, f)) (ht : f.tag = s.tally.periodNumber) :
    dropNotice r p s = s.setFlow j (countDrop f) := by
  have h : CreditedCurrent s p := fun i g hg => by rw [hc] at hg; cases hg; exact ht
  simp only [dropNotice, creditAndRoll_current h, hc]

theorem dropNotice_uncredited (r : RingIx) (hc : s.credited p = none) : dropNotice r p s = countUntrackedDeparture r s := by
  have h : CreditedCurrent s p := fun i g hg => by rw [hc] at hg; cases hg
  simp only [dropNotice, creditAndRoll_current h, hc]

theorem departureNotice_credited (r : RingIx) (t : Tick) (hc : s.credited p = some (j, f)) (ht : f.tag = s.tally.periodNumber) :
    departureNotice r p t s =
      (s.modRing r (countBin (residence p t))).setFlow j (flowDeparture s.values.resync p.seq (residence p t) f) := by
  have hc' : (s.modRing r (countBin (residence p t))).credited p = some (j, f) := (State.credited_congr rfl p).trans hc
  have h : CreditedCurrent (s.modRing r (countBin (residence p t))) p := fun i g hg => by rw [hc'] at hg; cases hg; exact ht
  simp only [departureNotice, creditAndRoll_current h, hc']
  rfl

theorem departureNotice_uncredited (r : RingIx) (t : Tick) (hc : s.credited p = none) :
    departureNotice r p t s = countUntrackedDeparture r (s.modRing r (countBin (residence p t))) := by
  have hc' : (s.modRing r (countBin (residence p t))).credited p = none := (State.credited_congr rfl p).trans hc
  have h : CreditedCurrent (s.modRing r (countBin (residence p t))) p := fun i g hg => by rw [hc'] at hg; cases hg
  simp only [departureNotice, creditAndRoll_current h, hc']

end

/-! ## Untracked counts and the silence state of one ring (01 R10 step 4, R16, R23) -/

def RingRecord.silenceReset (x : RingRecord) : RingRecord := { x with silenceCounter := 0, silence := .active }

theorem resetSilence_eq (r : RingIx) (s : State) : resetSilence r s = s.modRing r RingRecord.silenceReset := rfl

def RingRecord.arrivalUntracked (x : RingRecord) : RingRecord := { x with untrackedArrivals := bump32 x.untrackedArrivals }
def RingRecord.departureUntracked (x : RingRecord) : RingRecord := { x with untrackedDepartures := bump32 x.untrackedDepartures }
def Summary.arrivalUntracked (q : Summary) : Summary := { q with untrackedArrivals := bump32 q.untrackedArrivals }
def Summary.departureUntracked (q : Summary) : Summary := { q with untrackedDepartures := bump32 q.untrackedDepartures }

theorem countUntrackedArrival_eq (r : RingIx) (s : State) :
    countUntrackedArrival r s = (s.modRing r RingRecord.arrivalUntracked).modOpen Summary.arrivalUntracked := rfl

theorem countUntrackedDeparture_eq (r : RingIx) (s : State) :
    countUntrackedDeparture r s = (s.modRing r RingRecord.departureUntracked).modOpen Summary.departureUntracked := rfl

end Sys2Proof.Machine
end

