-- ==== Sys2Proof/Proofs/Arrivals.lean ====
section
/-! Arrivals into an EMPTY slot: of a flow the directory has, of none, and of one that enrols (01 R10; 03 R48 to R51; 04 R61, R62). -/

namespace Sys2Proof.Machine

section
variable {s : State} {r : RingIx} {i : Nat} {key : Half} {q : BitVec 16} {j : FlowIx} {f : FlowRecord}

/-- An arrival after a lookup that leaves the rings, the tick count and the total held (01 R10). -/
theorem takeArrival_of_lookup {u : State} {ref : Option FlowRef} (hl : lookup r key s = (u, ref)) :
    takeArrival r i key q s =
      finishArrival r ref s.time.tickCount q (notePeak (u.modRing r (holdSlot i ⟨ref, key, q, s.time.tickCount⟩))) := by
  simp only [takeArrival, hl]

theorem takeArrival_tracked (he : (s.ring r).enabled = true) (hk : s.findKey r key = some j) (hf : s.flowAt j = some f)
    (ht : f.tag = s.tally.periodNumber) :
    takeArrival r i key q s =
      raiseAll (flowRaisings j (flowArrival s.values.silenceCount s.time.tickCount q f).2)
        (((s.modRing r (holdSlot i ⟨some ⟨j, (s.entry j).gen⟩, key, q, s.time.tickCount⟩)).modOpen
          (Summary.peaked (s.totalHeld + 1))).setFlow j (flowArrival s.values.silenceCount s.time.tickCount q f).1) := by
  rw [takeArrival_of_lookup (lookup_current hk hf ht), notePeak_holdSlot he]
  exact arrivalNotice_flow (s := (s.modRing r _).modOpen _) hf _ _

theorem takeArrival_unknown (he : (s.ring r).enabled = true) (hk : s.findKey r key = none) (ha : (s.ring r).autoEnrol = false) :
    takeArrival r i key q s =
      (s.modRing r (fun x => (holdSlot i ⟨none, key, q, s.time.tickCount⟩ x).arrivalUntracked)).modOpen
        (fun h => (h.peaked (s.totalHeld + 1)).arrivalUntracked) := by
  rw [takeArrival_of_lookup ((lookup_unknown hk).trans (enrolOrRefuse_off ha)), notePeak_holdSlot he]
  show countUntrackedArrival r _ = _
  rw [countUntrackedArrival_eq, State.modOpen_modRing, State.modRing_modRing, State.modOpen_modOpen _ (Summary.peaked _) _ (fun _ => rfl)]

theorem takeArrival_refused (he : (s.ring r).enabled = true) (hk : s.findKey r key = none) (ha : (s.ring r).autoEnrol = true)
    (hfull : ∀ k, s.flowAt k ≠ none) :
    takeArrival r i key q s =
      raise .directoryFull (.ring r) (key.setWidth 32)
        ((s.modRing r (fun x => (holdSlot i ⟨none, key, q, s.time.tickCount⟩ x).arrivalUntracked)).modOpen
          (fun h => (h.peaked (s.totalHeld + 1)).arrivalUntracked)) := by
  rw [takeArrival_of_lookup ((lookup_unknown hk).trans (enrolOrRefuse_full ha hfull)),
    notePeak_holdSlot (s := raise .directoryFull (.ring r) (key.setWidth 32) s) he]
  show countUntrackedArrival r _ = _
  rw [countUntrackedArrival_eq, State.modOpen_modRing, State.modRing_modRing, State.modOpen_modOpen _ (Summary.peaked _) _ (fun _ => rfl),
    raise_modRing, raise_modOpen]
  rfl

theorem takeArrival_enrolled (he : (s.ring r).enabled = true) (hk : s.findKey r key = none) (ha : (s.ring r).autoEnrol = true)
    (hj : s.flowAt j = none) (hlow : ∀ k : FlowIx, k.val < j.val → s.flowAt k ≠ none) :
    takeArrival r i key q s =
      ((s.modRing r (holdSlot i ⟨some ⟨j, (s.entry j).gen⟩, key, q, s.time.tickCount⟩)).modOpen
        (Summary.peaked (s.totalHeld + 1))).setFlow j (s.enrolled r key s.time.tickCount q) := by
  rw [takeArrival_of_lookup ((lookup_unknown hk).trans (enrolOrRefuse_vacant ha hj hlow)),
    notePeak_holdSlot (s := s.setFlow j (s.learnt r key)) he]
  show arrivalNotice j _ _ _ = _
  rw [State.setFlow_modRing, State.setFlow_modOpen, arrivalNotice_flow (State.setFlow_flowAt_self _ _ _), flowArrival_learnt,
    State.setFlow_setFlow]
  rfl

end

/-- Settles O9: lookup, slot, peak and notice in one form. -/
theorem trackedArrival : Obligations.TrackedArrival := by
  unfold Obligations.TrackedArrival
  intro addr slen data s r i j f h hb hg hv hk hf ht
  have he : ((resetSilence r s).ring r).enabled = true := ((resetSilence_frame r s).enabled r).trans (recognise_descriptor h).2.1
  have hbus := busTransfer_arrival h hb hg hv
  rw [takeArrival_tracked (s := resetSilence r s) he hk hf ht, resetSilence_totalHeld, raiseAll_eq] at hbus
  refine ⟨_, congrArg Host.Outcome.next hbus, ?_, ?_, ?_⟩
  · rw [resetSilence_eq, State.modRing_modRing, State.modOpen_eq]
    rfl
  · refine (raiseAll_congr _ ?_ ?_ ?_).1 <;> rfl
  · refine (raiseAll_congr _ ?_ ?_ ?_).2 <;> rfl

/-- Settles O10: the record untracked, with or without DIRECTORY_FULL. -/
theorem untrackedArrival : Obligations.UntrackedArrival := by
  unfold Obligations.UntrackedArrival
  intro addr slen data s r i h hb hg hv hk hfull
  have hreset := resetSilence_frame r s
  have he : ((resetSilence r s).ring r).enabled = true := (hreset.enabled r).trans (recognise_descriptor h).2.1
  have hbus := busTransfer_arrival h hb hg hv
  cases ha : (s.ring r).autoEnrol with
  | false =>
    rw [takeArrival_unknown (s := resetSilence r s) he hk ((hreset.autoEnrol r).trans ha), resetSilence_totalHeld, resetSilence_eq,
      State.modRing_modRing, State.modOpen_eq] at hbus
    exact ⟨s.log, s.alarm, congrArg Host.Outcome.next hbus, fun _ => ⟨rfl, rfl⟩, fun hc => nomatch hc⟩
  | true =>
    rw [takeArrival_refused (s := resetSilence r s) he hk ((hreset.autoEnrol r).trans ha) (hfull ha), resetSilence_totalHeld,
      resetSilence_eq, State.modRing_modRing, State.modOpen_eq] at hbus
    exact ⟨_, _, congrArg Host.Outcome.next hbus, fun hc => (nomatch hc), fun _ => rfl⟩

/-- Settles O11: the lowest VACANT entry enrolled, and its first arrival taken. -/
theorem enrolledArrival : Obligations.EnrolledArrival := by
  unfold Obligations.EnrolledArrival
  intro addr slen data s r i j h hb hg hv hk ha hj hlow
  have hreset := resetSilence_frame r s
  have he : ((resetSilence r s).ring r).enabled = true := (hreset.enabled r).trans (recognise_descriptor h).2.1
  have hbus := busTransfer_arrival h hb hg hv
  rw [takeArrival_enrolled (s := resetSilence r s) he hk ((hreset.autoEnrol r).trans ha) hj hlow, resetSilence_totalHeld, resetSilence_eq,
    State.modRing_modRing, State.modOpen_eq] at hbus
  exact congrArg Host.Outcome.next hbus

end Sys2Proof.Machine
end

