-- ==== Sys2Proof/Proofs/Departures.lean ====
section
/-! Records that leave their slot while no flow lags: overwritten, withdrawn, replaced by a faulted write, departed (01 R13 to R17; 05 R85
to R88). -/

namespace Sys2Proof.Machine

/-! ## A record thrown away (01 R13 steps 1 and 2) -/

/-- A ring record with a slot made EMPTY and counted as overwritten. -/
def RingRecord.thrown (i : Nat) (x : RingRecord) : RingRecord :=
  { x with slots := slotErase x.slots i, overwritten := x.overwritten + 1 }

section
variable {s : State} {r : RingIx} {i : Nat} {p : PendingRecord} {j : FlowIx} {f : FlowRecord}

theorem overwriteOld_credited (hc : s.credited p = some (j, f)) (ht : f.tag = s.tally.periodNumber) :
    overwriteOld r i p s = (s.modRing r (RingRecord.thrown i)).setFlow j (countDrop f) := by
  have hc' := (State.credited_congr (t := s.modRing r (fun x => { x with slots := slotErase x.slots i })) rfl p).trans hc
  rw [overwriteOld, dropNotice_credited r hc' ht, State.setFlow_modRing, State.modRing_modRing]
  rfl

theorem overwriteOld_uncredited (hc : s.credited p = none) : overwriteOld r i p s =
    (s.modRing r (fun x => (x.thrown i).departureUntracked)).modOpen Summary.departureUntracked := by
  have hc' := (State.credited_congr (t := s.modRing r (fun x => { x with slots := slotErase x.slots i })) rfl p).trans hc
  rw [overwriteOld, dropNotice_uncredited r hc', countUntrackedDeparture_eq, State.modOpen_modRing, State.modRing_modRing,
    State.modRing_modRing]
  rfl

theorem State.overwrote_credited (hc : s.credited p = some (j, f)) :
    s.overwrote r i p = (s.modRing r (fun x => x.silenceReset.thrown i)).setFlow j (countDrop f) := by
  unfold State.overwrote
  rw [hc]
  rfl

theorem State.overwrote_uncredited (hc : s.credited p = none) : s.overwrote r i p =
    (s.modRing r (fun x => (x.silenceReset.thrown i).departureUntracked)).modOpen Summary.departureUntracked := by
  rw [State.modOpen_eq]
  unfold State.overwrote
  rw [hc]
  rfl

/-- An overwrite's first two steps, when the old record's flow does not lag. -/
theorem overwriteOld_resetSilence (h : CreditedCurrent s p) : overwriteOld r i p (resetSilence r s) = s.overwrote r i p := by
  have hcongr : (resetSilence r s).credited p = s.credited p := State.credited_congr rfl p
  cases hc : s.credited p with
  | none => rw [overwriteOld_uncredited (hcongr.trans hc), State.overwrote_uncredited hc, resetSilence_eq, State.modRing_modRing]
  | some c =>
    obtain ⟨j, f⟩ := c
    rw [overwriteOld_credited (hcongr.trans hc) (h j f hc), State.overwrote_credited hc, resetSilence_eq, State.modRing_modRing]

end

/-! ## A withdrawal (01 R14) -/

/-- A ring record with a slot made EMPTY and counted as withdrawn. -/
def RingRecord.withdrew (i : Nat) (x : RingRecord) : RingRecord :=
  { x with slots := slotErase x.slots i, withdrawn := x.withdrawn + 1, held := x.held - 1 }

section
variable {s : State} {r : RingIx} {i : Nat} {p : PendingRecord} {j : FlowIx} {f : FlowRecord}

theorem takeWithdrawal_credited (hc : s.credited p = some (j, f)) (ht : f.tag = s.tally.periodNumber) :
    takeWithdrawal r i p s = (s.modRing r (RingRecord.withdrew i)).setFlow j (countDrop f) := by
  have hc' := (State.credited_congr (t := s.modRing r (fun x => { x with slots := slotErase x.slots i })) rfl p).trans hc
  rw [takeWithdrawal, dropNotice_credited r hc' ht, State.setFlow_modRing, State.modRing_modRing]
  rfl

theorem takeWithdrawal_uncredited (hc : s.credited p = none) : takeWithdrawal r i p s =
    (s.modRing r (fun x => (x.withdrew i).departureUntracked)).modOpen Summary.departureUntracked := by
  have hc' := (State.credited_congr (t := s.modRing r (fun x => { x with slots := slotErase x.slots i })) rfl p).trans hc
  rw [takeWithdrawal, dropNotice_uncredited r hc', countUntrackedDeparture_eq, State.modOpen_modRing, State.modRing_modRing,
    State.modRing_modRing]
  rfl

end

/-- Settles O13: the drop notice credited or counted untracked. -/
theorem withdrawalEmptiesSlot : Obligations.WithdrawalEmptiesSlot := by
  unfold Obligations.WithdrawalEmptiesSlot
  intro addr slen data s r i p h hb hg hv hcur
  have hcongr : (resetSilence r s).credited p = s.credited p := State.credited_congr rfl p
  have hbus := busTransfer_withdrawal h hb hg hv
  constructor
  · intro j f hc
    rw [takeWithdrawal_credited (hcongr.trans hc) (hcur j f hc), resetSilence_eq, State.modRing_modRing] at hbus
    exact congrArg Host.Outcome.next hbus
  · intro hc
    rw [takeWithdrawal_uncredited (hcongr.trans hc), resetSilence_eq, State.modRing_modRing, State.modOpen_eq] at hbus
    exact congrArg Host.Outcome.next hbus

/-! ## A parity-faulted write (01 R7, R15) -/

def RingRecord.parityCounted (x : RingRecord) : RingRecord := { x with parityFaults := bump32 x.parityFaults }

theorem countParityFault_eq (r : RingIx) (i : Nat) (s : State) : countParityFault r i s =
    raise .ringParity (.ring r) (BitVec.ofNat 32 i) (s.modRing r RingRecord.parityCounted) := rfl

/-- A parity-faulted write into an EMPTY slot in one form. -/
theorem takeFaultedWrite_empty_eq {s : State} {r : RingIx} {i : Nat} (key : Half) (q : BitVec 16)
    (he : (s.ring r).enabled = true) (hg : slotGet (s.ring r).slots i = none) : takeFaultedWrite r i key q s =
      raise .ringParity (.ring r) (BitVec.ofNat 32 i)
        ((s.modRing r (fun x => (holdSlot i ⟨none, key, q, s.time.tickCount⟩ x.parityCounted).arrivalUntracked)).modOpen
          (fun h => (h.peaked (s.totalHeld + 1)).arrivalUntracked)) := by
  have he' : ((countParityFault r i s).ring r).enabled = true := ((countParityFault_frame r i s).enabled r).trans he
  have htotal : (countParityFault r i s).totalHeld = s.totalHeld :=
    Nat.add_right_cancel (State.totalHeld_modRing s r RingRecord.parityCounted)
  rw [takeFaultedWrite_empty r i key q s hg, notePeak_holdSlot he', htotal, countUntrackedArrival_eq, State.modOpen_modRing,
    State.modRing_modRing, State.modOpen_modOpen _ (Summary.peaked _) _ (fun _ => rfl), countParityFault_eq, raise_modRing,
    State.modRing_modRing, raise_modOpen]

section
variable {s : State} {r : RingIx} {i : Nat} {p : PendingRecord}

/-- A parity fault counted before a record is thrown away, or after. -/
theorem overwriteOld_parityCounted (h : CreditedCurrent s p) :
    overwriteOld r i p (s.modRing r (fun x => x.silenceReset.parityCounted)) =
      (s.overwrote r i p).modRing r RingRecord.parityCounted := by
  have hcongr : (s.modRing r (fun x => x.silenceReset.parityCounted)).credited p = s.credited p := State.credited_congr rfl p
  cases hc : s.credited p with
  | none =>
    rw [overwriteOld_uncredited (hcongr.trans hc), State.overwrote_uncredited hc, State.modRing_modRing, State.modOpen_modRing,
      State.modRing_modRing]
    rfl
  | some c =>
    obtain ⟨j, f⟩ := c
    rw [overwriteOld_credited (hcongr.trans hc) (h j f hc), State.overwrote_credited hc, State.modRing_modRing, State.setFlow_modRing,
      State.modRing_modRing]
    rfl

/-- The counters of arrivals and parity faults do not see a record thrown away. -/
theorem State.overwrote_ring (s : State) (r : RingIx) :
    ((s.overwrote r i p).ring r).untrackedArrivals = (s.ring r).untrackedArrivals ∧
      ((s.overwrote r i p).ring r).parityFaults = (s.ring r).parityFaults ∧
      ((s.overwrote r i p).ring r).autoEnrol = (s.ring r).autoEnrol := by
  cases hc : s.credited p with
  | none =>
    rw [State.overwrote_uncredited hc, (modOpen_frame _ _).ring, State.modRing_ring_self]
    exact ⟨rfl, rfl, rfl⟩
  | some c =>
    obtain ⟨j, f⟩ := c
    rw [State.overwrote_credited hc, (setFlow_frame _ _ _).ring, State.modRing_ring_self]
    exact ⟨rfl, rfl, rfl⟩

theorem State.overwrote_raise (k : IncidentKind) (x : Subject) (v : BitVec 32) : (raise k x v s).overwrote r i p =
    { s.overwrote r i p with log := (raise k x v s).log, alarm := (raise k x v s).alarm } := by
  have hc : (raise k x v s).credited p = s.credited p := State.credited_congr rfl p
  unfold State.overwrote
  rw [hc]
  cases s.credited p <;> rfl

/-- A parity-faulted write into a HELD slot, from the state in which RING_PARITY is raised and the old record's notice rolls nothing. -/
theorem refill_faulted {v u : State} (hv : CreditedCurrent v p) (hring : v.ring r = s.ring r) (hu : v.overwrote r i p = u)
    (new : PendingRecord) :
    countUntrackedArrival r
        ((overwriteOld r i p (v.modRing r (fun x => x.silenceReset.parityCounted))).modRing r (replaceSlot i new)) =
      { u with
        rings := u.rings.set r { (u.ring r).refilled i new with
          untrackedArrivals := bump32 (s.ring r).untrackedArrivals
          parityFaults := bump32 (s.ring r).parityFaults }
        tally := { u.tally with
          history := openHistory (fun q => { q with untrackedArrivals := bump32 q.untrackedArrivals }) u.tally.history } } := by
  obtain ⟨hua, hpf, -⟩ := v.overwrote_ring (i := i) (p := p) r
  rw [hring] at hua hpf
  rw [overwriteOld_parityCounted hv, countUntrackedArrival_eq, State.modRing_modRing, State.modRing_modRing, State.modOpen_eq, ← hua,
    ← hpf, hu]
  rfl

end

/-- Settles O14: RING_PARITY raised, and the slot filled as by an arrival or an overwrite. -/
theorem parityFaultedWriteHoldsSlot : Obligations.ParityFaultedWriteHoldsSlot := by
  unfold Obligations.ParityFaultedWriteHoldsSlot
  intro addr slen data s r i h hb
  have he : ((resetSilence r s).ring r).enabled = true := ((resetSilence_frame r s).enabled r).trans (recognise_descriptor h).2.1
  have hslots := congrArg (fun l => slotGet l i) (resetSilence_slots r s)
  have hbus := busTransfer_faulted h hb
  constructor
  · intro hg
    rw [takeFaultedWrite_empty_eq _ _ he (hslots.trans hg), resetSilence_totalHeld, resetSilence_eq, State.modRing_modRing,
      State.modOpen_eq] at hbus
    exact ⟨_, _, rfl, congrArg Host.Outcome.next hbus⟩
  · intro p hg hcur
    have hv : CreditedCurrent (raise .ringParity (.ring r) (BitVec.ofNat 32 i) s) p := hcur.congr rfl rfl
    rw [takeFaultedWrite_held r i p _ _ _ (hslots.trans hg), countParityFault_eq, resetSilence_eq, State.modRing_modRing, ← raise_modRing,
      refill_faulted hv rfl rfl, State.overwrote_raise] at hbus
    exact ⟨_, _, rfl, congrArg Host.Outcome.next hbus⟩

/-! ## A departure (01 R17; 05 R85 to R88) -/

/-- A ring record with a slot made EMPTY and counted as departed. -/
def RingRecord.departedFrom (i : Nat) (x : RingRecord) : RingRecord :=
  { x with slots := slotErase x.slots i, departed := x.departed + 1, held := x.held - 1 }

/-- The bin of a residence is the one whose bounds it meets (05 R88). -/
theorem residenceBin_of_bounds {n : Nat} {b : Fin 8} (hlow : binLow[b] ≤ n) (hhigh : ∀ h : b.val + 1 < 8, n < binLow[b.val + 1]) :
    residenceBin n = b := by
  unfold residenceBin
  fin_cases b <;> simp [binLow] at hlow hhigh ⊢ <;> grind

section
variable {s : State} {r : RingIx} {i : Nat} {p : PendingRecord} {j : FlowIx} {f : FlowRecord}

theorem takeDeparture_credited (hc : s.credited p = some (j, f)) (ht : f.tag = s.tally.periodNumber) : takeDeparture r i p s =
    (s.modRing r (fun x => countBin (residence p s.time.tickCount) (x.departedFrom i))).setFlow j
      (flowDeparture s.values.resync p.seq (residence p s.time.tickCount) f) := by
  have hc' := (State.credited_congr (t := s.modRing r (RingRecord.departedFrom i)) rfl p).trans hc
  exact (departureNotice_credited r _ hc' ht).trans (by rw [State.modRing_modRing]; rfl)

theorem takeDeparture_uncredited (hc : s.credited p = none) : takeDeparture r i p s =
    (s.modRing r (fun x => (countBin (residence p s.time.tickCount) (x.departedFrom i)).departureUntracked)).modOpen
      Summary.departureUntracked := by
  have hc' := (State.credited_congr (t := s.modRing r (RingRecord.departedFrom i)) rfl p).trans hc
  exact (departureNotice_uncredited r _ hc').trans
    (by rw [countUntrackedDeparture_eq, State.modRing_modRing, State.modRing_modRing])

end

/-- Settles O15: the residence's bin by its bounds, the notice credited or counted untracked. -/
theorem departureCountsResidence : Obligations.DepartureCountsResidence := by
  unfold Obligations.DepartureCountsResidence
  intro addr slen data s r i p b h hg hcur hlow hhigh
  have hbin : residenceBin (residence p s.time.tickCount) = b := residenceBin_of_bounds hlow hhigh
  have hbus := busTransfer_read (data := data) h
  rw [descriptorRead_held r i s hg, hg] at hbus
  constructor
  · intro j f hc
    rw [takeDeparture_credited hc (hcur j f hc)] at hbus
    simp only [countBin, hbin] at hbus
    exact congrArg Host.Outcome.next hbus
  · intro hc
    rw [takeDeparture_uncredited hc, State.modOpen_eq] at hbus
    simp only [countBin, hbin] at hbus
    exact congrArg Host.Outcome.next hbus

end Sys2Proof.Machine
end

