-- ==== Sys2Proof/Proofs/Overwrites.lean ====
section
/-! Overwrites while no flow lags: the old record thrown away, and the write taken as an arrival (01 R13, R16; 03 R49 to R51; 04 R61). -/

namespace Sys2Proof.Machine

/-! ## What throwing a record away leaves (01 R13 steps 1 and 2) -/

section
variable (s : State) (r : RingIx) (i : Nat) (p : PendingRecord)

theorem State.overwrote_kept : (s.overwrote r i p).time = s.time ∧ (s.overwrote r i p).values = s.values ∧
    (s.overwrote r i p).log = s.log ∧ (s.overwrote r i p).alarm = s.alarm ∧
    (s.overwrote r i p).tally.periodNumber = s.tally.periodNumber := by
  unfold State.overwrote
  cases s.credited p <;> exact ⟨rfl, rfl, rfl, rfl, rfl⟩

theorem State.overwrote_gen (j : FlowIx) : ((s.overwrote r i p).entry j).gen = (s.entry j).gen := by
  cases hc : s.credited p with
  | none => rw [State.overwrote_uncredited hc]; rfl
  | some c =>
    rw [State.overwrote_credited hc]
    exact State.setFlow_gen _ _ _ _

theorem State.overwrote_flowKey (j : FlowIx) : ((s.overwrote r i p).flowAt j).map (fun f => (f.ring, f.key)) =
    (s.flowAt j).map (fun f => (f.ring, f.key)) := by
  cases hc : s.credited p with
  | none => rw [State.overwrote_uncredited hc]; rfl
  | some c =>
    obtain ⟨k, f⟩ := c
    rw [State.overwrote_credited hc, State.setFlow_flowAt]
    split
    · next h =>
      subst h
      rw [(State.credited_some hc).1]
      rfl
    · rfl

theorem State.overwrote_flowAt_none (j : FlowIx) : (s.overwrote r i p).flowAt j = none ↔ s.flowAt j = none := by
  have h := s.overwrote_flowKey r i p j
  rw [← Option.map_eq_none_iff, h, Option.map_eq_none_iff]

theorem State.overwrote_findKey (q : RingIx) (key : Half) : (s.overwrote r i p).findKey q key = s.findKey q key :=
  State.findKey_congr (s.overwrote_flowKey r i p)

theorem State.overwrote_enrolled (q : RingIx) (key : Half) (t : Tick) (n : BitVec 16) :
    (s.overwrote r i p).enrolled q key t n = s.enrolled q key t n := by
  obtain ⟨-, hvalues, -, -, hperiod⟩ := s.overwrote_kept r i p
  simp only [State.enrolled, hvalues, hperiod]

end

/-! ## The write taken as an arrival (01 R13 steps 3 and 4) -/

section
variable {s u : State} {r : RingIx} {i : Nat} {p : PendingRecord} {key : Half} {q : BitVec 16} {j : FlowIx} {f : FlowRecord}

theorem takeOverwrite_of_lookup {w : State} {ref : Option FlowRef} (hu : overwriteOld r i p s = u) (hl : lookup r key u = (w, ref)) :
    takeOverwrite r i p key q s =
      finishArrival r ref s.time.tickCount q (w.modRing r (replaceSlot i ⟨ref, key, q, s.time.tickCount⟩)) := by
  simp only [takeOverwrite, hu, hl]

theorem takeOverwrite_tracked (hu : overwriteOld r i p s = u) (hk : u.findKey r key = some j) (hf : u.flowAt j = some f)
    (ht : f.tag = u.tally.periodNumber) :
    takeOverwrite r i p key q s =
      raiseAll (flowRaisings j (flowArrival u.values.silenceCount s.time.tickCount q f).2)
        ((u.modRing r (replaceSlot i ⟨some ⟨j, (u.entry j).gen⟩, key, q, s.time.tickCount⟩)).setFlow j
          (flowArrival u.values.silenceCount s.time.tickCount q f).1) := by
  rw [takeOverwrite_of_lookup hu (lookup_current hk hf ht)]
  exact arrivalNotice_flow (s := u.modRing r _) hf _ _

theorem takeOverwrite_unknown (hu : overwriteOld r i p s = u) (hk : u.findKey r key = none) (ha : (u.ring r).autoEnrol = false) :
    takeOverwrite r i p key q s =
      (u.modRing r (fun x => (replaceSlot i ⟨none, key, q, s.time.tickCount⟩ x).arrivalUntracked)).modOpen
        Summary.arrivalUntracked := by
  rw [takeOverwrite_of_lookup hu ((lookup_unknown hk).trans (enrolOrRefuse_off ha))]
  show countUntrackedArrival r _ = _
  rw [countUntrackedArrival_eq, State.modRing_modRing]

theorem takeOverwrite_refused (hu : overwriteOld r i p s = u) (hk : u.findKey r key = none) (ha : (u.ring r).autoEnrol = true)
    (hfull : ∀ k, u.flowAt k ≠ none) :
    takeOverwrite r i p key q s =
      raise .directoryFull (.ring r) (key.setWidth 32)
        ((u.modRing r (fun x => (replaceSlot i ⟨none, key, q, s.time.tickCount⟩ x).arrivalUntracked)).modOpen
          Summary.arrivalUntracked) := by
  rw [takeOverwrite_of_lookup hu ((lookup_unknown hk).trans (enrolOrRefuse_full ha hfull))]
  show countUntrackedArrival r _ = _
  rw [countUntrackedArrival_eq, State.modRing_modRing, raise_modRing, raise_modOpen]

theorem takeOverwrite_enrolled (hu : overwriteOld r i p s = u) (hk : u.findKey r key = none) (ha : (u.ring r).autoEnrol = true)
    (hj : u.flowAt j = none) (hlow : ∀ k : FlowIx, k.val < j.val → u.flowAt k ≠ none) :
    takeOverwrite r i p key q s =
      (u.modRing r (replaceSlot i ⟨some ⟨j, (u.entry j).gen⟩, key, q, s.time.tickCount⟩)).setFlow j
        (u.enrolled r key s.time.tickCount q) := by
  rw [takeOverwrite_of_lookup hu ((lookup_unknown hk).trans (enrolOrRefuse_vacant ha hj hlow))]
  show arrivalNotice j _ _ _ = _
  rw [State.setFlow_modRing, arrivalNotice_flow (State.setFlow_flowAt_self _ _ _), flowArrival_learnt, State.setFlow_setFlow]
  rfl

end

/-- Settles O12: the old record thrown away first, and then the three arrivals of O9, O10 and O11 with held and peak left alone. -/
theorem overwriteReplacesRecord : Obligations.OverwriteReplacesRecord := by
  unfold Obligations.OverwriteReplacesRecord
  intro addr slen data s r i p h hb hg hv hne hcur u key q now path
  obtain ⟨htime, hvalues, hlog, halarm, hperiod⟩ := s.overwrote_kept r i p
  obtain ⟨huntracked, -, hauto⟩ := s.overwrote_ring (i := i) (p := p) r
  have hgen := s.overwrote_gen r i p
  have hnone := s.overwrote_flowAt_none r i p
  have hkey := s.overwrote_findKey r i p r key
  have hu : overwriteOld r i p (resetSilence r s) = u := overwriteOld_resetSilence hcur
  have hbus := busTransfer_overwrite h hb hg hv hne
  refine ⟨fun j f hk hf ht => ?_, fun hk hfull => ?_, fun j hk ha hj hlow => ?_⟩
  · rw [takeOverwrite_tracked hu (hkey.trans hk) hf (ht.trans hperiod.symm), raiseAll_eq, hgen, hvalues] at hbus
    have hraise := raiseAll_congr (flowRaisings j (flowArrival s.values.silenceCount now q f).2)
      (s := s) (t := (u.modRing r (replaceSlot i ⟨some ⟨j, (s.entry j).gen⟩, key, q, now⟩)).setFlow j
        (flowArrival s.values.silenceCount now q f).1) (congrArg TimeBase.tickCount htime) hlog halarm
    refine congrArg Host.Outcome.next (hbus.trans ?_)
    rw [← hraise.1, ← hraise.2, ← hgen j]
    rfl
  · cases ha : (s.ring r).autoEnrol with
    | false =>
      rw [takeOverwrite_unknown hu (hkey.trans hk) (hauto.trans ha), State.modOpen_eq] at hbus
      refine ⟨s.log, s.alarm, congrArg Host.Outcome.next (hbus.trans ?_), fun _ => ⟨rfl, rfl⟩, fun hc => nomatch hc⟩
      rw [← hlog, ← halarm, ← huntracked]
      rfl
    | true =>
      rw [takeOverwrite_refused hu (hkey.trans hk) (hauto.trans ha) (fun k hk' => hfull ha k ((hnone k).1 hk')), State.modOpen_eq] at hbus
      refine ⟨(raise .directoryFull (.ring r) (key.setWidth 32) u).log, (raise .directoryFull (.ring r) (key.setWidth 32) u).alarm,
        congrArg Host.Outcome.next (hbus.trans ?_), fun hc => (nomatch hc), fun _ => ?_⟩
      · rw [← huntracked]
        rfl
      · rw [← hlog, ← halarm, show now = u.time.tickCount from (congrArg TimeBase.tickCount htime).symm]
        rfl
  · rw [takeOverwrite_enrolled hu (hkey.trans hk) (hauto.trans ha) ((hnone j).2 hj) (fun k hlt hk' => hlow k hlt ((hnone k).1 hk')),
      hgen, s.overwrote_enrolled] at hbus
    refine congrArg Host.Outcome.next (hbus.trans ?_)
    rw [← hgen j]
    rfl

end Sys2Proof.Machine
end

