-- ==== Sys2Proof/Proofs/BusReset.lean ====
section
/-! A bus reset: the rings flushed in ring order, their records dropped, RING_FLUSH raised (01 R16, R25). -/

namespace Sys2Proof.Machine

/-! ## What a flush leaves -/

/-- A state that differs in what the descriptor path changes, written out. -/
theorem TransferFrame.eq {s t : State} (h : TransferFrame s t) : t = { s with
    rings := t.rings, flows := t.flows, tally := { s.tally with history := t.tally.history }, log := t.log, alarm := t.alarm } := by
  obtain ⟨h1, h2, h3, h4, h5, h6, h7, h8, h9, h10, -, h12, h13, h14, h15, h16, h17, h18, h19, h20⟩ := h
  dsimp only
  rw [← h1, ← h2, ← h3, ← h4, ← h5, ← h6, ← h7, ← h8, ← h9, ← h10, ← h12, ← h13, ← h14, ← h15, ← h16, ← h17, ← h18, ← h19, ← h20]

theorem dropNotice_ring_ne {r q : RingIx} (hq : q ≠ r) (p : PendingRecord) (s : State) : (dropNotice r p s).ring q = s.ring q := by
  have hroll := (creditAndRoll_frame p s).ring q
  unfold dropNotice
  split
  · next hc =>
    rw [hc] at hroll
    exact hroll
  · next hc =>
    rw [hc] at hroll
    rw [countUntrackedDeparture_eq, (modOpen_frame _ _).ring, State.modRing_ring_ne _ _ hq]
    exact hroll

theorem foldl_dropNotice_ring_ne {r q : RingIx} (hq : q ≠ r) (l : List (Nat × PendingRecord)) (s : State) :
    (l.foldl (fun u p => dropNotice r p.2 u) s).ring q = s.ring q := by
  induction l generalizing s with
  | nil => rfl
  | cons e rest ih => exact (ih _).trans (dropNotice_ring_ne hq e.2 s)

theorem flushRing_disabled {s : State} {r : RingIx} (h : (s.ring r).enabled = false) : flushRing s r = s := by
  simp [flushRing, h]

theorem flushRing_ring_ne {s : State} {r q : RingIx} (hq : q ≠ r) : (flushRing s r).ring q = s.ring q := by
  have hdrop := foldl_dropNotice_ring_ne hq (s.ring r).slots (s.modRing r (fun x => { x with slots := [] }))
  rw [State.modRing_ring_ne _ _ hq] at hdrop
  unfold flushRing
  split
  · dsimp only
    split
    · rw [State.modRing_ring_ne _ _ hq]
      exact hdrop
    · rw [(raise_frame _ _ _ _).ring, State.modRing_ring_ne _ _ hq]
      exact hdrop
  · rfl

/-- The rings after the flushes of a list of rings (01 R25). -/
theorem foldl_flushRing_ring (l : List RingIx) (hl : l.Nodup) (s : State) (q : RingIx) : ∃ n, (l.foldl flushRing s).ring q =
    if q ∈ l ∧ (s.ring q).enabled = true then
      { s.ring q with
        slots := [], held := 0, flushed := (s.ring q).flushed + BitVec.ofNat 32 (s.ring q).held, untrackedDepartures := n }
    else s.ring q := by
  induction l generalizing s with
  | nil => exact ⟨0, by simp⟩
  | cons r rest ih =>
    obtain ⟨hr, hrest⟩ := List.nodup_cons.mp hl
    obtain ⟨n, hn⟩ := ih hrest (flushRing s r)
    rw [List.foldl_cons, hn]
    by_cases hq : q = r
    · subst hq
      obtain ⟨m, hm⟩ := flushRing_ring s q q
      refine ⟨m, ?_⟩
      rw [if_neg (fun h => hr h.1)]
      cases he : (s.ring q).enabled with
      | true => rw [hm, if_pos ⟨rfl, he⟩, if_pos ⟨List.mem_cons_self, rfl⟩]
      | false => rw [flushRing_disabled he, if_neg (fun h => nomatch h.2)]
    · refine ⟨n, ?_⟩
      rw [flushRing_ring_ne hq]
      simp only [List.mem_cons, hq, false_or]

theorem foldl_flushRing_frame (l : List RingIx) (s : State) : TransferFrame s (l.foldl flushRing s) :=
  foldl_transferFrame l flushRing flushRing_frame s

/-! ## Flushes of rings with nothing HELD -/

/-- A ring record flushed (01 R25). -/
def RingRecord.flushedOut (x : RingRecord) : RingRecord :=
  { x with slots := [], flushed := x.flushed + BitVec.ofNat 32 x.held, held := 0 }

theorem flushRing_empty {s : State} {r : RingIx} (h : (s.ring r).enabled = true → (s.ring r).slots = []) :
    ∃ x, flushRing s r = s.setRing r x ∧ x.untrackedDepartures = (s.ring r).untrackedDepartures := by
  cases he : (s.ring r).enabled with
  | false => exact ⟨s.ring r, by rw [flushRing_disabled he, State.setRing_self], rfl⟩
  | true =>
    refine ⟨(s.ring r).flushedOut, ?_, rfl⟩
    simp only [flushRing, he, h he, if_true, List.foldl_nil, List.length_nil, State.modRing_modRing]
    rfl

theorem foldl_flushRing_empty (l : List RingIx) (s : State) (h : ∀ r, (s.ring r).enabled = true → (s.ring r).slots = []) :
    ∃ rings, l.foldl flushRing s = s.setRings rings ∧
      rings.map (fun x => x.untrackedDepartures) = s.rings.map (fun x => x.untrackedDepartures) := by
  induction l generalizing s with
  | nil => exact ⟨s.rings, rfl, rfl⟩
  | cons r rest ih =>
    obtain ⟨x, hx, hu⟩ := flushRing_empty (h r)
    have hnext : ∀ q, ((flushRing s r).ring q).enabled = true → ((flushRing s r).ring q).slots = [] := by
      intro q hq
      by_cases hqr : q = r
      · subst hqr
        rw [(flushRing_frame s q).enabled q] at hq
        obtain ⟨m, hm⟩ := flushRing_ring s q q
        rw [hm, if_pos ⟨rfl, hq⟩]
      · rw [flushRing_ring_ne hqr] at hq ⊢
        exact h q hq
    obtain ⟨rings, hrings, hmap⟩ := ih (flushRing s r) hnext
    refine ⟨rings, by rw [List.foldl_cons, hrings, hx]; rfl, hmap.trans ?_⟩
    rw [hx, State.setRing_rings]
    ext i hi
    by_cases hir : r.val = i
    · subst hir
      simpa [State.ring] using hu
    · simp [hir]

/-! ## What drops and flushes count when no flow lags (01 R16; 03 R53) -/

/-- A saturating counter after a number of counts. -/
def countTimes (cap x n : Nat) : Nat := if n = 0 then x else satAdd cap x n

theorem countTimes_countTimes (cap x m n : Nat) : countTimes cap (countTimes cap x m) n = countTimes cap x (m + n) := by
  unfold countTimes satAdd
  grind

def FlowRecord.dropped (f : FlowRecord) (n : Nat) : FlowRecord :=
  { f with
    running := { f.running with switchDrops := countTimes max32 f.running.switchDrops n }
    period := { f.period with switchDrops := countTimes max16 f.period.switchDrops n } }

theorem FlowRecord.dropped_dropped (f : FlowRecord) (m n : Nat) : (f.dropped m).dropped n = f.dropped (m + n) := by
  simp only [FlowRecord.dropped, countTimes_countTimes]

theorem FlowRecord.dropped_zero (f : FlowRecord) : f.dropped 0 = f := rfl

/-- A flow entry after a number of switch drops. -/
def FlowEntry.dropped (e : FlowEntry) (n : Nat) : FlowEntry := { e with flow := e.flow.map (fun f => f.dropped n) }

theorem FlowEntry.dropped_dropped (e : FlowEntry) (m n : Nat) : (e.dropped m).dropped n = e.dropped (m + n) := by
  simp [FlowEntry.dropped, Function.comp_def, FlowRecord.dropped_dropped]

theorem FlowEntry.dropped_zero (e : FlowEntry) : e.dropped 0 = e := by
  simp [FlowEntry.dropped, FlowRecord.dropped_zero]

def Summary.untracked (n : Nat) (q : Summary) : Summary :=
  { q with untrackedDepartures := countTimes max32 q.untrackedDepartures n }

theorem openHistory_untracked_untracked (h : List Summary) (m n : Nat) :
    openHistory (Summary.untracked n) (openHistory (Summary.untracked m) h) = openHistory (Summary.untracked (m + n)) h := by
  simp only [openHistory, List.map_map]
  refine List.map_congr_left (fun q _ => ?_)
  by_cases ho : q.phase = .opened
  · simp [ho, Summary.untracked, countTimes_countTimes]
  · simp [ho]

theorem openHistory_untracked_zero (h : List Summary) : openHistory (Summary.untracked 0) h = h := by
  have hid : ∀ q : Summary, (if q.phase = .opened then Summary.untracked 0 q else q) = q := fun q => ite_self q
  simp [openHistory, hid]

/-- t is s after drops: u untracked departures of each ring, n of the OPEN summary, c switch drops of each flow, and a list of raisings. -/
structure Charged (u : RingIx → Nat) (n : Nat) (c : FlowIx → Nat) (l : List (IncidentKind × Subject × BitVec 32)) (s t : State) :
    Prop where
  period : t.tally.periodNumber = s.tally.periodNumber
  time : t.time = s.time
  ring : ∀ r, (t.ring r).untrackedDepartures = countTimes max32 (s.ring r).untrackedDepartures (u r)
  history : t.tally.history = openHistory (Summary.untracked n) s.tally.history
  entry : ∀ j, t.entry j = (s.entry j).dropped (c j)
  log : t.log = (raiseAll l s).log
  alarm : t.alarm = (raiseAll l s).alarm

namespace Charged

variable {u u' : RingIx → Nat} {n n' : Nat} {c c' : FlowIx → Nat} {l l' : List (IncidentKind × Subject × BitVec 32)} {s t w : State}

theorem trans (h : Charged u n c l s t) (k : Charged u' n' c' l' t w) :
    Charged (fun r => u r + u' r) (n + n') (fun j => c j + c' j) (l ++ l') s w where
  period := k.period.trans h.period
  time := k.time.trans h.time
  ring r := by rw [k.ring, h.ring, countTimes_countTimes]
  history := by rw [k.history, h.history, openHistory_untracked_untracked]
  entry j := by rw [k.entry, h.entry, FlowEntry.dropped_dropped]
  log := by
    rw [k.log, raiseAll_append]
    refine (raiseAll_congr l' ?_ h.log h.alarm).1
    rw [h.time, (raiseAll_frame l s).time]
  alarm := by
    rw [k.alarm, raiseAll_append]
    refine (raiseAll_congr l' ?_ h.log h.alarm).2
    rw [h.time, (raiseAll_frame l s).time]

theorem of_eq (h : Charged u n c l s t) (hu : ∀ r, u r = u' r) (hn : n = n') (hc : ∀ j, c j = c' j) (hl : l = l') :
    Charged u' n' c' l' s t := by
  rw [← funext hu, ← hn, ← funext hc, ← hl]
  exact h

theorem refl (s : State) : Charged (fun _ => 0) 0 (fun _ => 0) [] s s where
  period := rfl
  time := rfl
  ring _ := rfl
  history := (openHistory_untracked_zero _).symm
  entry _ := (FlowEntry.dropped_zero _).symm
  log := rfl
  alarm := rfl

/-- A change of a ring that leaves its untracked departures. -/
theorem modRing (s : State) (r : RingIx) (g : RingRecord → RingRecord)
    (hg : (g (s.ring r)).untrackedDepartures = (s.ring r).untrackedDepartures) :
    Charged (fun _ => 0) 0 (fun _ => 0) [] s (s.modRing r g) where
  period := rfl
  time := rfl
  ring q := by
    rw [State.modRing_ring]
    split
    · next hq => subst hq; exact hg
    · rfl
  history := (openHistory_untracked_zero _).symm
  entry j := (FlowEntry.dropped_zero _).symm
  log := rfl
  alarm := rfl

theorem raised (k : IncidentKind) (x : Subject) (v : BitVec 32) (s : State) :
    Charged (fun _ => 0) 0 (fun _ => 0) [(k, x, v)] s (raise k x v s) where
  period := rfl
  time := rfl
  ring _ := rfl
  history := (openHistory_untracked_zero _).symm
  entry _ := (FlowEntry.dropped_zero _).symm
  log := rfl
  alarm := rfl

theorem flowAt (h : Charged u n c l s t) (j : FlowIx) : t.flowAt j = (s.flowAt j).map (fun f => f.dropped (c j)) := by
  rw [State.flowAt, h.entry]
  rfl

theorem noneLagging (h : Charged u n c l s t) (hs : NoneLagging s) : NoneLagging t := by
  intro j f hf
  rw [h.flowAt, Option.map_eq_some_iff] at hf
  obtain ⟨g, hg, rfl⟩ := hf
  exact (hs j g hg).trans h.period.symm

/-- Drops leave which flow a record is credited to. -/
theorem creditedIx (h : Charged u n c l s t) (p : PendingRecord) :
    (t.credited p).map (fun a => a.1) = (s.credited p).map (fun a => a.1) := by
  unfold State.credited
  cases p.flow with
  | none => rfl
  | some ref =>
    dsimp only
    rw [h.flowAt, h.entry]
    cases s.flowAt ref.index with
    | none => rfl
    | some f => by_cases hg : (s.entry ref.index).gen = ref.gen <;> simp [FlowEntry.dropped, hg]

end Charged

/-- The records of a slot store that are credited to the flow at an entry. -/
def State.creditedIn (s : State) (slots : List (Nat × PendingRecord)) (j : FlowIx) : Nat :=
  slots.countP (fun e => (s.credited e.2).map (fun c => c.1) == some j)

section
variable {s t : State} {r : RingIx} {p : PendingRecord}

theorem charged_dropNotice_credited {j : FlowIx} {f : FlowRecord} (hs : NoneLagging s) (hc : s.credited p = some (j, f)) :
    Charged (fun _ => 0) 0 (fun k => if k = j then 1 else 0) [] s (dropNotice r p s) := by
  have hf := (State.credited_some hc).1
  rw [dropNotice_credited r hc (hs j f hf)]
  refine ⟨rfl, rfl, fun _ => rfl, (openHistory_untracked_zero _).symm, fun k => ?_, rfl, rfl⟩
  rw [State.setFlow, State.setEntry_entry]
  split
  · next hk =>
    subst hk
    have he : (s.entry k).flow = some f := hf
    simp [FlowEntry.dropped, he, FlowRecord.dropped, countDrop, countTimes, bump32, bump16]
  · exact (FlowEntry.dropped_zero _).symm

theorem charged_dropNotice_uncredited (hc : s.credited p = none) :
    Charged (fun q => if q = r then 1 else 0) 1 (fun _ => 0) [] s (dropNotice r p s) := by
  rw [dropNotice_uncredited r hc, countUntrackedDeparture_eq]
  refine ⟨rfl, rfl, fun q => ?_, ?_, fun _ => (FlowEntry.dropped_zero _).symm, rfl, rfl⟩
  · rw [(modOpen_frame _ _).ring, State.modRing_ring]
    split
    · next hq => subst hq; rfl
    · rfl
  · rw [State.modOpen_eq]
    rfl

theorem charged_dropNotice (hs : NoneLagging s) (i : Nat) :
    Charged (fun q => if q = r then s.uncreditedIn [(i, p)] else 0) (s.uncreditedIn [(i, p)]) (s.creditedIn [(i, p)]) [] s
      (dropNotice r p s) := by
  cases hc : s.credited p with
  | none =>
    refine (charged_dropNotice_uncredited (r := r) hc).of_eq (fun q => ?_) ?_ (fun j => ?_) rfl
    · simp [State.uncreditedIn, hc]
    · simp [State.uncreditedIn, hc]
    · simp [State.creditedIn, hc]
  | some c =>
    obtain ⟨j, f⟩ := c
    refine (charged_dropNotice_credited (r := r) hs hc).of_eq (fun q => ?_) ?_ (fun k => ?_) rfl
    · simp [State.uncreditedIn, hc]
    · simp [State.uncreditedIn, hc]
    · simp [State.creditedIn, List.countP_singleton, hc, @eq_comm _ j k]

theorem Charged.uncreditedIn_eq {u : RingIx → Nat} {n : Nat} {c : FlowIx → Nat} {l : List (IncidentKind × Subject × BitVec 32)}
    (h : Charged u n c l s t) (slots : List (Nat × PendingRecord)) : t.uncreditedIn slots = s.uncreditedIn slots := by
  have hnone : ∀ p, (t.credited p).isNone = (s.credited p).isNone := fun p => by
    rw [← Option.isNone_map (f := fun a => a.1), h.creditedIx, Option.isNone_map]
  simp only [State.uncreditedIn, hnone]

theorem Charged.creditedIn_eq {u : RingIx → Nat} {n : Nat} {c : FlowIx → Nat} {l : List (IncidentKind × Subject × BitVec 32)}
    (h : Charged u n c l s t) (slots : List (Nat × PendingRecord)) : t.creditedIn slots = s.creditedIn slots := by
  funext j
  simp only [State.creditedIn, h.creditedIx]

theorem uncreditedIn_cons (e : Nat × PendingRecord) (rest : List (Nat × PendingRecord)) :
    s.uncreditedIn (e :: rest) = s.uncreditedIn [e] + s.uncreditedIn rest := by
  simp only [State.uncreditedIn, ← List.countP_append]
  rfl

theorem creditedIn_cons (e : Nat × PendingRecord) (rest : List (Nat × PendingRecord)) (j : FlowIx) :
    s.creditedIn (e :: rest) j = s.creditedIn [e] j + s.creditedIn rest j := by
  simp only [State.creditedIn, ← List.countP_append]
  rfl

/-- The drops of the records of one ring. -/
theorem charged_foldl_dropNotice (hs : NoneLagging s) (slots : List (Nat × PendingRecord)) :
    Charged (fun q => if q = r then s.uncreditedIn slots else 0) (s.uncreditedIn slots) (s.creditedIn slots) [] s
      (slots.foldl (fun u p => dropNotice r p.2 u) s) := by
  induction slots generalizing s with
  | nil => exact (Charged.refl s).of_eq (fun q => (ite_self _).symm) rfl (fun _ => rfl) rfl
  | cons e rest ih =>
    have hfirst := charged_dropNotice (r := r) (p := e.2) hs e.1
    have hrest := ih (hfirst.noneLagging hs)
    rw [hfirst.uncreditedIn_eq, hfirst.creditedIn_eq] at hrest
    refine (hfirst.trans hrest).of_eq (fun q => ?_) (uncreditedIn_cons e rest).symm (fun j => (creditedIn_cons e rest j).symm) rfl
    by_cases hq : q = r
    · simp only [if_pos hq, uncreditedIn_cons e rest]
    · simp only [if_neg hq]

end

/-! ## The flush of one ring, and of all in ring order (01 R25) -/

/-- A number for each ring of a list that is enabled, added up. -/
def State.overEnabled (s : State) (g : List (Nat × PendingRecord) → Nat) (l : List RingIx) : Nat :=
  (l.map (fun r => if (s.ring r).enabled then g (s.ring r).slots else 0)).sum

/-- The raisings of the flushes of a list of rings, in its order. -/
def flushRaisings (l : List RingIx) (s : State) : List (IncidentKind × Subject × BitVec 32) :=
  (l.filter (fun r => (s.ring r).enabled && decide ((s.ring r).slots ≠ []))).map (fun r =>
    (IncidentKind.ringFlush, Subject.ring r, BitVec.ofNat 32 (s.ring r).slots.length))

/-- What flushes of a list of rings count and raise when no flow lags. -/
def Flushed (l : List RingIx) (s t : State) : Prop :=
  Charged (fun q => if q ∈ l ∧ (s.ring q).enabled = true then s.uncreditedIn (s.ring q).slots else 0)
    (s.overEnabled s.uncreditedIn l) (fun j => s.overEnabled (fun slots => s.creditedIn slots j) l) (flushRaisings l s) s t

theorem flushed_flushRing {s : State} (hs : NoneLagging s) (r : RingIx) : Flushed [r] s (flushRing s r) := by
  cases he : (s.ring r).enabled with
  | false =>
    rw [flushRing_disabled he]
    refine (Charged.refl s).of_eq (fun q => ?_) ?_ (fun j => ?_) ?_
    · rw [if_neg]
      rintro ⟨hq, hqe⟩
      rw [List.mem_singleton.mp hq, he] at hqe
      cases hqe
    · simp [State.overEnabled, he]
    · simp [State.overEnabled, he]
    · simp [flushRaisings, he]
  | true =>
    have hclear := Charged.modRing s r (fun x => { x with slots := [] }) rfl
    have hdrops := charged_foldl_dropNotice (r := r) (hclear.noneLagging hs) (s.ring r).slots
    rw [hclear.uncreditedIn_eq, hclear.creditedIn_eq] at hdrops
    unfold flushRing
    simp only [he, if_true]
    generalize List.foldl _ _ _ = u at hdrops ⊢
    have hcount := (hclear.trans hdrops).trans
      (Charged.modRing u r (fun x => { x with flushed := x.flushed + BitVec.ofNat 32 x.held, held := 0 }) rfl)
    have hu : ∀ q, (if q = r then s.uncreditedIn (s.ring r).slots else 0) =
        if q ∈ [r] ∧ (s.ring q).enabled = true then s.uncreditedIn (s.ring q).slots else 0 := by
      intro q
      by_cases hq : q = r
      · subst hq
        simp [he]
      · simp [hq]
    split
    · next hlen =>
      refine hcount.of_eq (fun q => ?_) ?_ (fun j => ?_) ?_
      · simpa using hu q
      · simp [State.overEnabled, he]
      · simp [State.overEnabled, he]
      · simp [flushRaisings, List.eq_nil_of_length_eq_zero hlen]
    · next hlen =>
      refine (hcount.trans (Charged.raised _ _ _ _)).of_eq (fun q => ?_) ?_ (fun j => ?_) ?_
      · simpa using hu q
      · simp [State.overEnabled, he]
      · simp [State.overEnabled, he]
      · simp [flushRaisings, he, List.length_eq_zero_iff.not.mp hlen]

theorem flushed_foldl_flushRing (l : List RingIx) (hl : l.Nodup) {s : State} (hs : NoneLagging s) :
    Flushed l s (l.foldl flushRing s) := by
  induction l generalizing s with
  | nil => exact (Charged.refl s).of_eq (fun q => by simp) rfl (fun _ => rfl) rfl
  | cons r rest ih =>
    obtain ⟨hr, hrest⟩ := List.nodup_cons.mp hl
    have hfirst := flushed_flushRing hs r
    have hlast := ih hrest (hfirst.noneLagging hs)
    have hring : ∀ q ∈ rest, (flushRing s r).ring q = s.ring q := fun q hq => flushRing_ring_ne (by rintro rfl; exact hr hq)
    have hover : ∀ g, (flushRing s r).overEnabled g rest = s.overEnabled g rest := fun g => by
      unfold State.overEnabled
      rw [List.map_congr_left (fun q hq => by rw [hring q hq])]
    have hraise : flushRaisings rest (flushRing s r) = flushRaisings rest s := by
      unfold flushRaisings
      rw [List.filter_congr (fun q hq => by rw [hring q hq])]
      exact List.map_congr_left (fun q hq => by rw [hring q (List.mem_filter.mp hq).1])
    refine (hfirst.trans hlast).of_eq (fun q => ?_) ?_ (fun j => ?_) ?_
    · rw [hfirst.uncreditedIn_eq]
      by_cases hq : q = r
      · subst hq
        simp [hr]
      · simp only [flushRing_ring_ne hq, List.mem_cons, hq, List.not_mem_nil, false_or, false_and, if_false, Nat.zero_add]
    · rw [hover, funext hfirst.uncreditedIn_eq]
      simp [State.overEnabled]
    · rw [hover]
      simp only [hfirst.creditedIn_eq]
      simp [State.overEnabled]
    · rw [hraise]
      simp only [flushRaisings, ← List.map_append, ← List.filter_append]
      rfl

/-- Settles O18: the rings flushed one after another, each with the drops of its records. -/
theorem busResetFlushesRings : Obligations.BusResetFlushesRings := by
  unfold Obligations.BusResetFlushesRings
  refine ⟨fun s hrst => ?_, fun s => rfl⟩
  have hnodup : ringOrder.Nodup := List.nodup_finRange 16
  have hmem : ∀ r, r ∈ ringOrder := List.mem_finRange
  have hring := foldl_flushRing_ring ringOrder hnodup s
  have hframe := (foldl_flushRing_frame ringOrder s).eq
  have hempty := foldl_flushRing_empty ringOrder s
  have hcharge := flushed_foldl_flushRing ringOrder hnodup (s := s)
  have hexec : exec .busReset s = .next { ringOrder.foldl flushRing s with
      rstAsserted := true
      startRec := { (ringOrder.foldl flushRing s).startRec with busResets := bump16 (ringOrder.foldl flushRing s).startRec.busResets } } := by
    refine congrArg Host.Outcome.next ?_
    rw [busReset, hrst]
    rfl
  generalize ringOrder.foldl flushRing s = u at *
  refine ⟨_, hexec, fun r => ?_, ?_, fun hslots => ?_, fun hs => ?_⟩
  · obtain ⟨n, hn⟩ := hring r
    simp only [hmem, true_and] at hn
    exact ⟨n, hn⟩
  · rw [hframe]
  · obtain ⟨rings, hu, hmap⟩ := hempty hslots
    subst hu
    exact ⟨hmap, rfl, rfl, rfl, rfl⟩
  · have h := hcharge hs
    refine ⟨fun r he => ?_, h.entry, h.history, h.log, h.alarm⟩
    have hr := h.ring r
    rw [if_pos ⟨hmem r, he⟩] at hr
    exact hr

end Sys2Proof.Machine
end

