-- ==== Sys2Proof/Proofs/LaggingFlows.lean ====
section
/-! A lagging flow is rolled before the event that touches it: lookups, notices, requests, and whole transfers (01 R7, R13 to R17; 03 R49,
R53, R57; 05 R85; 06 R113). -/

namespace Sys2Proof.Machine

/-! ## What a lagging flow is found by -/

/-- The flow at an entry has a period tag that lags the period number (06 R113). -/
structure Lagging (s : State) (i : FlowIx) (f : FlowRecord) : Prop where
  flow : s.flowAt i = some f
  tag : f.tag ≠ s.tally.periodNumber

/-- No other entry has the ring and the key. -/
def SoleKey (s : State) (i : FlowIx) (r : RingIx) (key : Half) : Prop :=
  ∀ j, (s.flowAt j).map (fun f => (f.ring, f.key)) = some (r, key) → j = i

theorem SoleKey.congr {s t : State} {i : FlowIx} {r : RingIx} {key : Half} (h : SoleKey s i r key)
    (ht : ∀ j, (t.flowAt j).map (fun f => (f.ring, f.key)) = (s.flowAt j).map (fun f => (f.ring, f.key))) : SoleKey t i r key :=
  fun j hj => h j ((ht j).symm.trans hj)

theorem State.findKey_some {s : State} {r : RingIx} {key : Half} {i : FlowIx} (h : s.findKey r key = some i) :
    (s.flowAt i).map (fun f => (f.ring, f.key)) = some (r, key) := by
  have hi := List.find?_some h
  cases hf : s.flowAt i with
  | none => simp [hf] at hi
  | some f =>
    simp only [hf, Bool.and_eq_true, beq_iff_eq] at hi
    simp [hi.1, hi.2]

theorem State.findKey_none {s : State} {r : RingIx} {key : Half}
    (h : ∀ j, (s.flowAt j).map (fun f => (f.ring, f.key)) ≠ some (r, key)) : s.findKey r key = none := by
  rw [State.findKey, List.find?_eq_none]
  intro j _ hj
  cases hf : s.flowAt j with
  | none => simp [hf] at hj
  | some f =>
    simp only [hf, Bool.and_eq_true, beq_iff_eq] at hj
    exact h j (by simp [hf, hj.1, hj.2])

/-- In a directory without double keys the entry that a lookup finds is the only one. -/
theorem DirectoryOk.soleKey {s : State} (h : DirectoryOk s) {r : RingIx} {key : Half} {i : FlowIx} (hk : s.findKey r key = some i) :
    SoleKey s i r key := by
  intro j hj
  obtain ⟨f, hf, hfk⟩ := Option.map_eq_some_iff.mp hj
  obtain ⟨g, hg, hgk⟩ := Option.map_eq_some_iff.mp (State.findKey_some hk)
  have hsame := hfk.trans hgk.symm
  exact h j i f g hf hg (congrArg Prod.fst hsame) (congrArg Prod.snd hsame)

section
variable {s : State} {i : FlowIx} {f : FlowRecord} {r : RingIx} {key : Half} {p : PendingRecord} {n : Nat}

/-! ## Lookups (03 R49) -/

/-- A roll that keeps its flow leaves every lookup's answer; one that retires it leaves its key without an entry. -/
theorem rollFlow_findKey_kept {g : FlowRecord} (hs : Lagging s i f) (hg : (rollFlow i f s).flowAt i = some g) :
    (rollFlow i f s).findKey r key = s.findKey r key := by
  refine State.findKey_congr (fun j => ?_)
  by_cases hj : j = i
  · subst hj
    obtain ⟨-, hring, hkey, -⟩ := rollFlow_kept hg
    simp [hg, hs.flow, hring, hkey]
  · rw [rollFlow_flowAt_other hj]

theorem rollFlow_findKey_retired (h : SoleKey s i r key) (hn : (rollFlow i f s).flowAt i = none) :
    (rollFlow i f s).findKey r key = none := by
  refine State.findKey_none (fun j hj => ?_)
  by_cases hji : j = i
  · rw [hji, hn] at hj
    cases hj
  · rw [rollFlow_flowAt_other hji] at hj
    exact hji (h j hj)

theorem lookup_lagging_kept (hs : Lagging s i f) (hk : s.findKey r key = some i) {g : FlowRecord}
    (hg : (rollFlow i f s).flowAt i = some g) : lookup r key s = (rollFlow i f s, some ⟨i, (s.entry i).gen⟩) := by
  obtain ⟨-, -, -, hgen⟩ := rollFlow_kept hg
  simp only [lookup, hk, rollIfLagging_lagging hs.flow hs.tag, hg, State.refOf, hgen]

theorem lookup_lagging_retired (hs : Lagging s i f) (hk : s.findKey r key = some i) (hn : (rollFlow i f s).flowAt i = none) :
    lookup r key s = enrolOrRefuse r key (rollFlow i f s) := by
  simp only [lookup, hk, rollIfLagging_lagging hs.flow hs.tag, hn]

/-- A lookup of a lagging flow answers as in the state after the roll. -/
theorem lookup_rollFlow (hs : Lagging s i f) (hk : s.findKey r key = some i) (hsole : SoleKey s i r key) :
    lookup r key s = lookup r key (rollFlow i f s) := by
  cases hg : (rollFlow i f s).flowAt i with
  | none => rw [lookup_lagging_retired hs hk hg, lookup_unknown (rollFlow_findKey_retired hsole hg)]
  | some g =>
    obtain ⟨htag, -, -, hgen⟩ := rollFlow_kept hg
    rw [lookup_lagging_kept hs hk hg, lookup_current ((rollFlow_findKey_kept hs hg).trans hk) hg
      (htag.trans (rollFlow_frame i f s).periodNumber.symm), hgen]

/-! ## Notices (01 R16; 03 R53; 05 R85) -/

/-- After the roll the flow of the record lags no more. -/
theorem creditedCurrent_rollFlow (hc : s.credited p = some (i, f)) : CreditedCurrent (rollFlow i f s) p := by
  intro j g hg
  obtain ⟨-, hflow⟩ := State.credited_some hc
  obtain ⟨hat, hflow'⟩ := State.credited_some hg
  have hji : j = i := congrArg FlowRef.index (Option.some.inj (hflow'.symm.trans hflow))
  subst hji
  exact (rollFlow_kept hat).1.trans (rollFlow_frame j f s).periodNumber.symm

theorem creditAndRoll_rollFlow (hs : Lagging s i f) (hc : s.credited p = some (i, f)) :
    creditAndRoll p s = creditAndRoll p (rollFlow i f s) := by
  rw [creditAndRoll_current (creditedCurrent_rollFlow hc)]
  simp only [creditAndRoll, hc, rollIfLagging_lagging hs.flow hs.tag]

theorem dropNotice_rollFlow (hs : Lagging s i f) (hc : s.credited p = some (i, f)) (r : RingIx) :
    dropNotice r p s = dropNotice r p (rollFlow i f s) := by
  simp only [dropNotice, creditAndRoll_rollFlow hs hc]

theorem departureNotice_rollFlow (hs : Lagging s i f) (hc : s.credited p = some (i, f)) (r : RingIx) (t : Tick) :
    departureNotice r p t s = departureNotice r p t (rollFlow i f s) := by
  have hs' : Lagging (s.modRing r (countBin (residence p t))) i f := ⟨hs.flow, hs.tag⟩
  have hc' : (s.modRing r (countBin (residence p t))).credited p = some (i, f) := (State.credited_congr rfl p).trans hc
  simp only [departureNotice, creditAndRoll_rollFlow hs' hc', rollFlow_modRing]

/-! ## Records of other flows -/

/-- A roll leaves whether a record is credited, when it is not to the flow rolled. -/
theorem rollFlow_credited (hs : Lagging s i f) (hc : s.credited p ≠ some (i, f)) : (rollFlow i f s).credited p = s.credited p := by
  unfold State.credited at hc ⊢
  cases hp : p.flow with
  | none => rfl
  | some ref =>
    rw [hp] at hc
    dsimp only at hc ⊢
    by_cases hi : ref.index = i
    · have hgen : (s.entry i).gen ≠ ref.gen := fun hgen => by simp [hi, hs.flow, hgen] at hc
      cases hg : (rollFlow i f s).flowAt i with
      | none => simp [hi, hg, hs.flow, hgen]
      | some g =>
        obtain ⟨-, -, -, hsame⟩ := rollFlow_kept hg
        simp [hi, hg, hs.flow, hsame, hgen]
    · rw [rollFlow_flowAt_other hi, rollFlow_entry, if_neg hi]

theorem CreditedCurrent.ne_lagging (hs : Lagging s i f) (h : CreditedCurrent s p) : s.credited p ≠ some (i, f) :=
  fun hc => hs.tag (h i f hc)

theorem CreditedCurrent.rollFlow (hs : Lagging s i f) (h : CreditedCurrent s p) : CreditedCurrent (rollFlow i f s) p := by
  intro j g hc
  rw [rollFlow_credited hs (h.ne_lagging hs)] at hc
  exact (h j g hc).trans (rollFlow_frame i f s).periodNumber.symm

/-- A record thrown away before the roll of another flow, or after. -/
theorem overwrote_rollFlow (hs : Lagging s i f) (h : CreditedCurrent s p) (r : RingIx) (n : Nat) :
    (rollFlow i f s).overwrote r n p = rollFlow i f (s.overwrote r n p) := by
  have hcredited := rollFlow_credited hs (h.ne_lagging hs)
  cases hc : s.credited p with
  | none =>
    rw [State.overwrote_uncredited (hcredited.trans hc), State.overwrote_uncredited hc,
      rollFlow_modOpen _ _ _ Summary.departureUntracked (fun _ => rfl), rollFlow_modRing]
  | some c =>
    obtain ⟨j, g⟩ := c
    have hj : j ≠ i := by
      rintro rfl
      obtain ⟨hat, -⟩ := State.credited_some hc
      rw [hs.flow] at hat
      cases hat
      exact h.ne_lagging hs hc
    rw [State.overwrote_credited (hcredited.trans hc), State.overwrote_credited hc, State.setFlow, State.setFlow, rollFlow_setEntry hj,
      rollFlow_modRing]
    show State.setEntry _ j ⟨((rollFlow i f s).entry j).gen, _⟩ = _
    rw [rollFlow_entry, if_neg hj]
    rfl

theorem Lagging.overwrote (hs : Lagging s i f) (h : CreditedCurrent s p) (r : RingIx) (n : Nat) : Lagging (s.overwrote r n p) i f := by
  obtain ⟨-, -, -, -, hperiod⟩ := s.overwrote_kept r n p
  refine ⟨?_, fun ht => hs.tag (ht.trans hperiod)⟩
  cases hc : s.credited p with
  | none => rw [State.overwrote_uncredited hc]; exact hs.flow
  | some c =>
    obtain ⟨j, g⟩ := c
    rw [State.overwrote_credited hc, State.setFlow_flowAt]
    split
    · next hj =>
      subst hj
      obtain ⟨hat, -⟩ := State.credited_some hc
      rw [hs.flow] at hat
      cases hat
      exact absurd hc (h.ne_lagging hs)
    · exact hs.flow

/-! ## Whole transfers (01 R7, R10, R13 to R17) -/

theorem resetSilence_rollFlow (r : RingIx) (i : FlowIx) (f : FlowRecord) (s : State) :
    resetSilence r (rollFlow i f s) = rollFlow i f (resetSilence r s) := (rollFlow_modRing i f s r _).symm

/-- A change of a ring leaves a lagging flow. -/
theorem Lagging.modRing (hs : Lagging s i f) (r : RingIx) (g : RingRecord → RingRecord) : Lagging (s.modRing r g) i f :=
  ⟨hs.flow, hs.tag⟩

theorem takeArrival_rollFlow (hs : Lagging s i f) (hk : s.findKey r key = some i) (hsole : SoleKey s i r key) (q : BitVec 16) :
    takeArrival r n key q s = takeArrival r n key q (rollFlow i f s) := by
  simp only [takeArrival, ← lookup_rollFlow hs hk hsole, (rollFlow_frame i f s).time]

/-- An overwrite over a record whose own flow does not lag. -/
theorem takeOverwrite_rollFlow (hs : Lagging s i f) (hk : s.findKey r key = some i) (hsole : SoleKey s i r key)
    (hcur : CreditedCurrent s p) (q : BitVec 16) :
    takeOverwrite r n p key q (resetSilence r s) = takeOverwrite r n p key q (resetSilence r (rollFlow i f s)) := by
  have hlookup := lookup_rollFlow (hs.overwrote hcur r n) ((s.overwrote_findKey r n p r key).trans hk)
    (hsole.congr (s.overwrote_flowKey r n p))
  simp only [takeOverwrite, overwriteOld_resetSilence hcur, overwriteOld_resetSilence (hcur.rollFlow hs), overwrote_rollFlow hs hcur,
    ← hlookup]
  rw [resetSilence_rollFlow, (rollFlow_frame i f _).time]

/-- A record of the lagging flow thrown away, withdrawn, departed. -/
theorem overwriteOld_lagging (hs : Lagging s i f) (hc : s.credited p = some (i, f)) (r : RingIx) (n : Nat) :
    overwriteOld r n p s = overwriteOld r n p (rollFlow i f s) := by
  rw [overwriteOld, dropNotice_rollFlow (hs.modRing r _) ((State.credited_congr rfl p).trans hc), rollFlow_modRing]
  rfl

theorem takeOverwrite_lagging (hs : Lagging s i f) (hc : s.credited p = some (i, f)) (r : RingIx) (n : Nat) (key : Half)
    (q : BitVec 16) : takeOverwrite r n p key q s = takeOverwrite r n p key q (rollFlow i f s) := by
  simp only [takeOverwrite, overwriteOld_lagging hs hc, (rollFlow_frame i f s).time]

theorem takeWithdrawal_lagging (hs : Lagging s i f) (hc : s.credited p = some (i, f)) (r : RingIx) (n : Nat) :
    takeWithdrawal r n p s = takeWithdrawal r n p (rollFlow i f s) := by
  rw [takeWithdrawal, dropNotice_rollFlow (hs.modRing r _) ((State.credited_congr rfl p).trans hc), rollFlow_modRing]
  rfl

theorem takeDeparture_lagging (hs : Lagging s i f) (hc : s.credited p = some (i, f)) (r : RingIx) (n : Nat) :
    takeDeparture r n p s = takeDeparture r n p (rollFlow i f s) := by
  rw [takeDeparture, departureNotice_rollFlow (hs.modRing r _) ((State.credited_congr rfl p).trans hc), rollFlow_modRing, takeDeparture,
    (rollFlow_frame i f s).time]

variable {addr : BitVec 22} {slen : BitVec 2} {data : List BusWord} {t : State}

/-- Two states that differ in the directory take a transfer alike when their descriptor writes, or reads, are one. -/
theorem busTransfer_write_congr (hframe : DirectoryFrame s t) (h : recognise addr slen s = .descriptor r n)
    (hd : descriptorWrite r n data s = descriptorWrite r n data t) :
    busTransfer ⟨true, addr, slen, data⟩ s = busTransfer ⟨true, addr, slen, data⟩ t := by
  rw [busTransfer_write h, busTransfer_write ((recognise_frame hframe addr slen).trans h), hd]
  simp only [State.sending, State.writeCaseAt, hframe.path, hframe.ring, hframe.values, hframe.time]

theorem busTransfer_read_congr (hframe : DirectoryFrame s t) (h : recognise addr slen s = .descriptor r n)
    (hd : descriptorRead r n s = descriptorRead r n t) :
    busTransfer ⟨false, addr, slen, data⟩ s = busTransfer ⟨false, addr, slen, data⟩ t := by
  rw [busTransfer_read h, busTransfer_read ((recognise_frame hframe addr slen).trans h), hd]
  simp only [State.sending, hframe.path, hframe.ring, hframe.reads]

/-- A forward write of the lagging flow's key, into an EMPTY slot or over a record whose own flow does not lag. -/
theorem descriptorWrite_rollFlow (hs : Lagging s i f) (hb : burstOk data = true) (hv : isVoid s.values data = false)
    (hk : s.findKey r (maskedKeyOf s.values data) = some i) (hsole : SoleKey s i r (maskedKeyOf s.values data))
    (hheld : ∀ p, slotGet (s.ring r).slots n = some p →
      CreditedCurrent s p ∧ ¬ (maskedKeyOf s.values data = p.key ∧ sequenceOf s.values data = p.seq)) :
    descriptorWrite r n data s = descriptorWrite r n data (rollFlow i f s) := by
  have hframe := rollFlow_frame i f s
  have hvalues := hframe.values
  have hring := hframe.ring r
  cases hg : slotGet (s.ring r).slots n with
  | none =>
    rw [descriptorWrite_arrival r n data s hb hg hv,
      descriptorWrite_arrival r n data _ hb (by rw [hring]; exact hg) (by rw [hvalues]; exact hv),
      hvalues, resetSilence_rollFlow]
    exact takeArrival_rollFlow (hs.modRing r _) hk hsole _
  | some p =>
    obtain ⟨hcur, hne⟩ := hheld p hg
    rw [descriptorWrite_overwrite r n data s hb hg hv hne,
      descriptorWrite_overwrite r n data _ hb (by rw [hring]; exact hg) (by rw [hvalues]; exact hv) (by rw [hvalues]; exact hne),
      hvalues]
    exact takeOverwrite_rollFlow hs hk hsole hcur _

/-- An overwrite or a withdrawal of a record of the lagging flow. -/
theorem descriptorWrite_lagging (hs : Lagging s i f) (hg : slotGet (s.ring r).slots n = some p) (hc : s.credited p = some (i, f))
    (hb : burstOk data = true)
    (hw : isVoid s.values data = true ∨ ¬ (maskedKeyOf s.values data = p.key ∧ sequenceOf s.values data = p.seq)) :
    descriptorWrite r n data s = descriptorWrite r n data (rollFlow i f s) := by
  have hframe := rollFlow_frame i f s
  have hvalues := hframe.values
  have hg' : slotGet ((rollFlow i f s).ring r).slots n = some p := by rw [hframe.ring]; exact hg
  have hs' : Lagging (resetSilence r s) i f := hs.modRing r _
  have hc' : (resetSilence r s).credited p = some (i, f) := (State.credited_congr rfl p).trans hc
  cases hv : isVoid s.values data with
  | true =>
    rw [descriptorWrite_withdrawal r n data s hb hg hv, descriptorWrite_withdrawal r n data _ hb hg' (by rw [hvalues]; exact hv),
      resetSilence_rollFlow]
    exact takeWithdrawal_lagging hs' hc' r n
  | false =>
    have hne := hw.resolve_left (by rw [hv]; exact Bool.false_ne_true)
    rw [descriptorWrite_overwrite r n data s hb hg hv hne,
      descriptorWrite_overwrite r n data _ hb hg' (by rw [hvalues]; exact hv) (by rw [hvalues]; exact hne), hvalues,
      resetSilence_rollFlow]
    exact takeOverwrite_lagging hs' hc' r n _ _

theorem descriptorRead_lagging (hs : Lagging s i f) (hg : slotGet (s.ring r).slots n = some p) (hc : s.credited p = some (i, f)) :
    descriptorRead r n s = descriptorRead r n (rollFlow i f s) := by
  rw [descriptorRead_held r n s hg, descriptorRead_held r n _ (by rw [(rollFlow_frame i f s).ring]; exact hg)]
  exact takeDeparture_lagging hs hc r n

/-- A parity-faulted write over a record of the lagging flow. -/
theorem takeFaultedWrite_lagging (hs : Lagging s i f) (hg : slotGet (s.ring r).slots n = some p) (hc : s.credited p = some (i, f))
    (q : BitVec 16) {v u : State} (hv : rollFlow i f (raise .ringParity (.ring r) (BitVec.ofNat 32 n) s) = v)
    (hu : v.overwrote r n p = u) :
    takeFaultedWrite r n key q (resetSilence r s) =
      { u with
        rings := u.rings.set r { (u.ring r).refilled n ⟨none, key, q, s.time.tickCount⟩ with
          untrackedArrivals := bump32 (s.ring r).untrackedArrivals
          parityFaults := bump32 (s.ring r).parityFaults }
        tally := { u.tally with
          history := openHistory (fun h => { h with untrackedArrivals := bump32 h.untrackedArrivals }) u.tally.history } } := by
  subst hv
  have hc' : (raise .ringParity (.ring r) (BitVec.ofNat 32 n) s).credited p = some (i, f) := (State.credited_congr rfl p).trans hc
  have hs' : Lagging (raise .ringParity (.ring r) (BitVec.ofNat 32 n) s) i f := ⟨hs.flow, hs.tag⟩
  have hslots := congrArg (fun l => slotGet l n) (resetSilence_slots r s)
  rw [takeFaultedWrite_held r n p _ _ _ (hslots.trans hg), countParityFault_eq, resetSilence_eq, State.modRing_modRing, ← raise_modRing,
    overwriteOld_lagging (hs'.modRing r _) ((State.credited_congr rfl p).trans hc'), rollFlow_modRing,
    refill_faulted (creditedCurrent_rollFlow hc') ((rollFlow_frame _ _ _).ring r) hu]
  rfl

/-! ## REMOVE FLOW (03 R57) -/

theorem removeFlow_lagging_retired (hs : Lagging s i f) (hn : (rollFlow i f s).flowAt i = none) :
    removeFlow i s = (rollFlow i f s, .ok) := by
  simp only [removeFlow, hs.flow, rollIfLagging_lagging hs.flow hs.tag, hn]

theorem removeFlow_lagging_kept (hs : Lagging s i f) {g : FlowRecord} (hg : (rollFlow i f s).flowAt i = some g) :
    removeFlow i s = ((rollFlow i f s).vacate i, .ok) := by
  simp only [removeFlow, hs.flow, rollIfLagging_lagging hs.flow hs.tag, hg]

theorem removeFlow_rolled {g : FlowRecord} (hg : (rollFlow i f s).flowAt i = some g) :
    removeFlow i (rollFlow i f s) = ((rollFlow i f s).vacate i, .ok) := by
  simp only [removeFlow, hg, rollIfLagging_rollFlow hg]

theorem raiseAll_requested (l : List (IncidentKind × Subject × BitVec 32)) (s : State) :
    raiseAll l s.requested = (raiseAll l s).requested := by
  induction l generalizing s with
  | nil => rfl
  | cons e rest ih => exact ih (raise e.1 e.2.1 e.2.2 s)

/-- A roll does not see the line. -/
theorem requested_rollFlow (i : FlowIx) (f : FlowRecord) (s : State) : (rollFlow i f s).requested = rollFlow i f s.requested := by
  rw [rollFlow_eq, rollFlow_eq]
  show _ = (raiseAll _ (s.modClosing (foldInto f i)).requested).setEntry _ _
  rw [raiseAll_requested]
  rfl

/-- A direct REMOVE FLOW that is answered OK. -/
theorem lineRequest_removeFlow {addr index : Byte} (h : Direct addr s) (hl : s.device ≠ .loading) (hi : index.toFin = i) {u : State}
    (hu : removeFlow i s.requested = (u, .ok)) :
    lineRequest addr (.removeFlow index) s = u.setReply (some (newReply u.straps.addr .ok [] false)) := by
  refine lineRequest_answered h hl (by exact fun hc => nomatch hc) ?_
  rw [perform, hi, hu]
  rfl

theorem lineRequest_removeFlow_retired {addr index : Byte} (hs : Lagging s i f) (h : Direct addr s) (hl : s.device ≠ .loading)
    (hi : index.toFin = i) (hn : (rollFlow i f s).flowAt i = none) :
    lineRequest addr (.removeFlow index) s = (rollFlow i f s).replied .ok [] := by
  have hs' : Lagging s.requested i f := ⟨hs.flow, hs.tag⟩
  have hn' : (rollFlow i f s.requested).flowAt i = none := by rw [← requested_rollFlow]; exact hn
  rw [lineRequest_removeFlow h hl hi (removeFlow_lagging_retired hs' hn'), ← requested_rollFlow]
  rfl

theorem lineRequest_removeFlow_kept {addr index : Byte} (hs : Lagging s i f) (h : Direct addr s) (hl : s.device ≠ .loading)
    (hi : index.toFin = i) {g : FlowRecord} (hg : (rollFlow i f s).flowAt i = some g) :
    lineRequest addr (.removeFlow index) s = lineRequest addr (.removeFlow index) (rollFlow i f s) := by
  have hframe := rollFlow_frame i f s
  have hs' : Lagging s.requested i f := ⟨hs.flow, hs.tag⟩
  have hg' : (rollFlow i f s.requested).flowAt i = some g := by rw [← requested_rollFlow]; exact hg
  obtain ⟨haddr, hne, hreply⟩ := h
  have hdirect : Direct addr (rollFlow i f s) := ⟨by rw [hframe.straps]; exact haddr, hne, by rw [hframe.line]; exact hreply⟩
  have hrolled : removeFlow i (rollFlow i f s).requested = ((rollFlow i f s.requested).vacate i, .ok) := by
    rw [requested_rollFlow]
    exact removeFlow_rolled hg'
  rw [lineRequest_removeFlow ⟨haddr, hne, hreply⟩ hl hi (removeFlow_lagging_kept hs' hg'),
    lineRequest_removeFlow hdirect (by rw [hframe.device]; exact hl) hi hrolled]

end

/-- Settles O36: every event that touches the lagging flow, by the operation that rolls it. -/
theorem laggingFlowIsRolledFirst : Obligations.LaggingFlowIsRolledFirst := by
  unfold Obligations.LaggingFlowIsRolledFirst
  intro i f s hf ht
  have hs : Lagging s i f := ⟨hf, ht⟩
  have hframe := rollFlow_frame i f s
  refine ⟨fun hk g hg => lookup_lagging_kept hs hk hg, fun hk hn => lookup_lagging_retired hs hk hn,
    fun r p hc => dropNotice_rollFlow hs hc r, fun r p t hc => departureNotice_rollFlow hs hc r t,
    fun hn => removeFlow_lagging_retired hs hn, fun g hg => removeFlow_lagging_kept hs hg, ?_, ?_, ?_, ?_⟩
  · intro addr slen data r n hdir h hb hv hk hheld
    exact congrArg Host.Outcome.next
      (busTransfer_write_congr hframe h (descriptorWrite_rollFlow hs hb hv hk (hdir.soleKey hk) hheld))
  · intro write addr slen data r n p h hg hc hw
    cases write with
    | true =>
      obtain ⟨hb, hcase⟩ := hw rfl
      exact congrArg Host.Outcome.next (busTransfer_write_congr hframe h (descriptorWrite_lagging hs hg hc hb hcase))
    | false => exact congrArg Host.Outcome.next (busTransfer_read_congr hframe h (descriptorRead_lagging hs hg hc))
  · intro addr slen data r n p h hb hg hc
    have hbus := busTransfer_faulted h hb
    rw [takeFaultedWrite_lagging hs hg hc _ rfl rfl] at hbus
    exact congrArg Host.Outcome.next hbus
  · intro addr index hdirect hl hi
    exact ⟨fun hn => congrArg Host.Outcome.next (lineRequest_removeFlow_retired hs hdirect hl hi hn),
      fun g hg => congrArg Host.Outcome.next (lineRequest_removeFlow_kept hs hdirect hl hi hg)⟩

end Sys2Proof.Machine
end

