-- ==== Sys2Proof/Proofs/TimeInvariant.lean ====
section
/-! The ranges of the time base and of the read of the configuration memory are kept by every step (02 R31, R33 to R36, R39,
R40; 10 R165). -/

namespace Sys2Proof.Machine

/-! ## Counters of strobes (02 section 2.7) -/

theorem stepCounter_of_lt {n c : Nat} (h : c + 1 < n) : stepCounter n c = (c + 1, false) := if_pos h

theorem stepCounter_last {n c : Nat} (h : n ≤ c + 1) : stepCounter n c = (0, true) := if_neg (Nat.not_lt.mpr h)

theorem stepCounter_lt {n : Nat} (hn : 0 < n) (c : Nat) : (stepCounter n c).1 < n := by
  by_cases h : c + 1 < n
  · rw [stepCounter_of_lt h]
    exact h
  · rw [stepCounter_last (Nat.not_lt.mp h)]
    exact hn

theorem silenceStrobes_pos (code : BitVec 2) : 0 < silenceStrobes code := by
  unfold silenceStrobes
  split_ifs <;> decide

/-! ## The meter and the accumulator (02 R33, R34) -/

theorem meterEdge_waiting : meterEdge .waiting = (.counting 0 0 0, none) := rfl

theorem meterEdge_period {n p b : Nat} (hp : p < 1023) : meterEdge (.counting n p b) = (.counting n (p + 1) b, none) :=
  if_pos (Nat.succ_lt_succ hp)

theorem meterEdge_block {n b : Nat} (hb : b < 3) : meterEdge (.counting n 1023 b) = (.counting n 0 (b + 1), none) :=
  if_pos (Nat.succ_lt_succ hb)

theorem meterEdge_complete (n : Nat) : meterEdge (.counting n 1023 3) = (.counting 0 0 0, some n) := rfl

/-- The four cases of a seen edge are all there are for counts in their ranges. -/
theorem Meter.ok.edge {m : Meter} (h : m.ok) : (meterEdge m).1.ok := by
  cases m with
  | waiting => exact ⟨by decide, by decide⟩
  | counting n p b =>
    obtain ⟨hp, hb⟩ := h
    by_cases hp' : p < 1023
    · rw [meterEdge_period hp']
      exact ⟨Nat.succ_lt_succ hp', hb⟩
    · obtain rfl : p = 1023 := by omega
      by_cases hb' : b < 3
      · rw [meterEdge_block hb']
        exact ⟨by decide, Nat.succ_lt_succ hb'⟩
      · obtain rfl : b = 3 := by omega
        exact ⟨by decide, by decide⟩

theorem Meter.ok.clock {m : Meter} (h : m.ok) : (meterClock m).ok := by
  cases m with
  | waiting => exact h
  | counting n p b => exact h

/-- In LOCKED the accumulator stands (02 R33). -/
theorem accClock_locked {t : TimeBase} (h : t.source = .locked) : accClock t = (t.acc, false) := by
  unfold accClock
  rw [h]

theorem ratioValid_iff (r : Nat) : ratioValid r = true ↔ 1024 ≤ r ∧ r ≤ 16383 := by simp [ratioValid]

/-! ## The time base through its changes -/

namespace TimeOk

variable {t : TimeBase} (h : TimeOk t)
include h

theorem meterSet {m : Meter} (hm : m.ok) : TimeOk { t with meter := m } := { h with meter := hm }

theorem seenEdge : TimeOk { t with loss := 0, meter := (meterEdge t.meter).1 } :=
  { h with loss := Nat.zero_le _, meter := h.meter.edge }

theorem lock {r : Nat} (hr : 1024 ≤ r ∧ r ≤ 16383) : TimeOk { t with ratio := r, source := .locked, acc := 0 } :=
  { h with ratioMin := hr.1, ratioMax := hr.2, accumulator := Nat.lt_of_lt_of_le (by decide : 0 < 1024) hr.1, locked := fun _ => rfl }

/-- In LOCKED a new ratio is above the accumulator, which stands at 0 (log entry 17). -/
theorem relock {r : Nat} (hr : 1024 ≤ r ∧ r ≤ 16383) (hl : t.source = .locked) : TimeOk { t with ratio := r } :=
  { h with ratioMin := hr.1, ratioMax := hr.2, accumulator := h.locked hl ▸ Nat.lt_of_lt_of_le (by decide : 0 < 1024) hr.1 }

theorem holdover : TimeOk { t with source := .holdover, acc := 0 } :=
  { h with accumulator := Nat.lt_of_lt_of_le (by decide : 0 < 1024) h.ratioMin, locked := fun _ => rfl }

theorem tick (n : Tick) : TimeOk { t with
    tickCount := n, msCounter := (stepCounter 10000 t.msCounter).1, sweepCounter := (stepCounter 400 t.sweepCounter).1 } :=
  { h with ms := stepCounter_lt (by decide) _, sweep := stepCounter_lt (by decide) _ }

theorem strobe : TimeOk { t with
    secondsCounter := (stepCounter 1000 t.secondsCounter).1
    silenceCounter := (stepCounter (silenceStrobes t.silenceCode) t.silenceCounter).1 } :=
  { h with seconds := stepCounter_lt (by decide) _, silence := stepCounter_lt (silenceStrobes_pos _) _ }

theorem codeSet (code : BitVec 2) : TimeOk { t with silenceCode := code, silenceCounter := 0 } :=
  { h with silence := silenceStrobes_pos code }

/-- The accumulator stays below the ratio, since 256 is below every ratio (02 R31, R33). -/
theorem accClock_lt : (accClock t).1 < t.ratio := by
  have hacc := h.accumulator
  have hmin := h.ratioMin
  by_cases hl : t.source = .locked
  · rw [accClock_locked hl]
    exact hacc
  · rw [accClock_unlocked hl]
    split <;> dsimp only <;> omega

theorem clock (ref edge : Bool) : TimeOk { t with
    refLast := ref
    acc := (accClock t).1
    loss := if edge then t.loss else min Config.lossClocks (t.loss + 1)
    meter := meterClock t.meter } where
  ratioMin := h.ratioMin
  ratioMax := h.ratioMax
  accumulator := h.accClock_lt
  locked hl := by
    have hstands : accClock t = (t.acc, false) := accClock_locked hl
    exact (congrArg Prod.fst hstands).trans (h.locked hl)
  loss := by
    dsimp only
    split
    · exact h.loss
    · exact Nat.min_le_left _ _
  meter := h.meter.clock
  ms := h.ms
  seconds := h.seconds
  sweep := h.sweep
  silence := h.silence
  straps := h.straps

end TimeOk

theorem TimeOk.init (bdiv : BitVec 2) : TimeOk (TimeBase.init bdiv) := by
  have hstrap : strapRatioOf bdiv = 2048 ∨ strapRatioOf bdiv = 3200 ∨ strapRatioOf bdiv = 4000 ∨ strapRatioOf bdiv = 6400 := by
    unfold strapRatioOf
    split_ifs <;> decide
  have hrange : 1024 ≤ strapRatioOf bdiv ∧ strapRatioOf bdiv ≤ 16383 := by omega
  exact {
    ratioMin := hrange.1
    ratioMax := hrange.2
    accumulator := Nat.lt_of_lt_of_le (by decide : 0 < 1024) hrange.1
    locked := fun _ => rfl
    loss := Nat.zero_le _
    meter := trivial
    ms := Nat.zero_lt_succ _
    seconds := Nat.zero_lt_succ _
    sweep := Nat.zero_lt_succ _
    silence := silenceStrobes_pos _
    straps := hstrap }

/-! ## Events that leave the time base and the loader -/

/-- t has the time base and the read of the configuration memory of s. -/
structure TimeFrame (s t : State) : Prop where
  time : t.time = s.time
  load : t.load = s.load

theorem TimeFrame.refl (s : State) : TimeFrame s s := ⟨rfl, rfl⟩

theorem TimeFrame.trans {s t u : State} (h : TimeFrame s t) (k : TimeFrame t u) : TimeFrame s u :=
  ⟨k.time.trans h.time, k.load.trans h.load⟩

theorem DirectoryFrame.timeFrame {s t : State} (h : DirectoryFrame s t) : TimeFrame s t := ⟨h.time, h.load⟩

theorem TransferFrame.timeFrame {s t : State} (h : TransferFrame s t) : TimeFrame s t := ⟨h.time, h.load⟩

theorem debouncedStateChange_timeFrame (i : PanelInput) (s : State) : TimeFrame s (debouncedStateChange i s) := by
  unfold debouncedStateChange
  dsimp only
  split
  · cases i with
    | clrA => exact ⟨rfl, rfl⟩
    | clrB => exact ⟨rfl, rfl⟩
    | ack =>
      dsimp only
      split <;> exact ⟨rfl, rfl⟩
  · exact TimeFrame.refl s

theorem sweepPace_timeFrame (s : State) : TimeFrame s (sweepPace s) := by
  have h := (sweepVisit_frame s.sweepNext { s with due := { s.due with sweepPace := false } }).timeFrame
  unfold sweepPace
  split
  · dsimp only
    split
    · exact ⟨h.time, h.load⟩
    · exact ⟨rfl, rfl⟩
  · exact TimeFrame.refl s

theorem clearTallies_timeFrame (s : State) : TimeFrame s (clearTallies s) := by
  unfold clearTallies
  split <;> exact ⟨rfl, rfl⟩

theorem chordStrobe_timeFrame (s : State) : TimeFrame s (chordStrobe s) := by
  unfold chordStrobe
  split
  · split
    · exact ⟨rfl, rfl⟩
    · unfold authoriseChord
      dsimp only
      split
      · refine .trans ?_ (clearTallies_timeFrame _)
        exact ⟨rfl, rfl⟩
      · exact ⟨rfl, rfl⟩
  · exact TimeFrame.refl s

theorem secondsStrobe_timeFrame (s : State) : TimeFrame s (secondsStrobe s) := by
  unfold secondsStrobe
  split
  · refine .trans ?_ (chordStrobe_timeFrame _)
    exact ⟨rfl, rfl⟩
  · exact TimeFrame.refl s

theorem silenceTick_timeFrame (s : State) : TimeFrame s (silenceTick s) := by
  have h := (foldl_transferFrame ringOrder stepSilence stepSilence_frame { s with due := { s.due with silenceTick := false } }).timeFrame
  unfold silenceTick
  split
  · dsimp only
    split
    · exact ⟨h.time, h.load⟩
    · exact ⟨rfl, rfl⟩
  · exact TimeFrame.refl s

theorem boundary_timeFrame (s : State) : TimeFrame s (boundary s) := by
  unfold boundary
  split <;> exact ⟨rfl, rfl⟩

theorem busTransfer_timeFrame (t : Transfer) (s : State) : TimeFrame s (busTransfer t s) :=
  ⟨(busTransfer_frame t s).time, (busTransfer_frame t s).load⟩

theorem readDataCheck_timeFrame (data : List BusWord) (s : State) : TimeFrame s (readDataCheck data s) :=
  ⟨(readDataCheck_frame data s).time, (readDataCheck_frame data s).load⟩

theorem busReset_timeFrame (s : State) : TimeFrame s (busReset s) := by
  have h := (foldl_transferFrame ringOrder flushRing flushRing_frame s).timeFrame
  unfold busReset
  split
  · exact TimeFrame.refl s
  · generalize ringOrder.foldl flushRing s = u at h ⊢
    exact ⟨h.time, h.load⟩

/-! ## Requests -/

theorem createFlow_frame (ring : RingIx) (key : Half) (p : Nat) (params : FlowParams) (s : State) :
    DirectoryFrame s (createFlow ring key p params s).1 := by
  unfold createFlow
  split
  · exact DirectoryFrame.refl s
  · exact setFlow_frame _ _ _

theorem defineFlow_frame (ring : Nat) (key : Half) (a : FlowArgs) (s : State) : DirectoryFrame s (defineFlow ring key a s).1 := by
  unfold defineFlow
  split
  · unfold defineFlowAt
    split
    · exact createFlow_frame _ _ _ _ s
    · next i _ =>
      have h := rollIfLagging_frame i s
      dsimp only
      split
      · exact h.trans (createFlow_frame _ _ _ _ _)
      · exact h.trans (setFlow_frame _ _ _)
  · exact DirectoryFrame.refl s

theorem removeFlow_frame (i : FlowIx) (s : State) : DirectoryFrame s (removeFlow i s).1 := by
  have h := rollIfLagging_frame i s
  unfold removeFlow
  split
  · exact DirectoryFrame.refl s
  · dsimp only
    split
    · exact h
    · exact h.trans (vacate_frame _ _)

theorem setPeriod_frame (i : FlowIx) (n : Nat) (s : State) : DirectoryFrame s (setPeriod i n s).1 := by
  unfold setPeriod
  split
  · exact DirectoryFrame.refl s
  · exact setFlow_frame _ _ _

theorem defineRing_timeFrame (ring : Nat) (b : BitVec 22) (n : Nat) (stamp enrol : Bool) (s : State) :
    TimeFrame s (defineRing ring b n stamp enrol s).1 := by
  unfold defineRing
  split
  · dsimp only
    split <;> exact ⟨rfl, rfl⟩
  · exact TimeFrame.refl s

theorem ringOff_timeFrame (ring : Nat) (s : State) : TimeFrame s (ringOff ring s).1 := by
  unfold ringOff
  split
  · dsimp only
    split <;> exact ⟨rfl, rfl⟩
  · exact TimeFrame.refl s

theorem takeIncidents_timeFrame (n : Byte) (s : State) : TimeFrame s (takeIncidents n s).1 := by
  unfold takeIncidents removeOldest
  dsimp only
  split <;> exact ⟨rfl, rfl⟩

theorem setAlarmMap_timeFrame (c : Vector Byte 14) (m p d : Byte) (s : State) : TimeFrame s (setAlarmMap c m p d s).1 := by
  unfold setAlarmMap
  split <;> exact ⟨rfl, rfl⟩

theorem setTallyPeriod_timeFrame (c : Byte) (s : State) : TimeFrame s (setTallyPeriod c s).1 := by
  unfold setTallyPeriod
  split <;> exact ⟨rfl, rfl⟩

theorem startPart_timeFrame (s : State) : TimeFrame s (startPart s).1 := by
  unfold startPart
  split <;> exact ⟨rfl, rfl⟩

/-- No request sees to the time base or the loader while it is handled; a RESTART comes after its reply (09 R163). -/
theorem perform_timeFrame (req : Request) (s : State) : TimeFrame s (perform req s).1 := by
  cases req with
  | status => exact TimeFrame.refl s
  | readFlow i p => exact (readFlow_state i p s).symm ▸ TimeFrame.refl s
  | findFlow r k => exact TimeFrame.refl s
  | defineFlow r k a => exact (defineFlow_frame _ _ _ s).timeFrame
  | removeFlow i => exact (removeFlow_frame _ s).timeFrame
  | setPeriod i p => exact (setPeriod_frame _ _ s).timeFrame
  | readRing r p => exact (readRing_state r p s).symm ▸ TimeFrame.refl s
  | defineRing r b n o => exact defineRing_timeFrame _ _ _ _ _ s
  | ringOff r => exact ringOff_timeFrame _ s
  | readSummary n p => exact (readSummary_state n p s).symm ▸ TimeFrame.refl s
  | takeIncidents n => exact takeIncidents_timeFrame _ s
  | acknowledge c => exact ⟨rfl, rfl⟩
  | setAlarmMap c m p d => exact setAlarmMap_timeFrame _ _ _ _ s
  | setTallyPeriod c => exact setTallyPeriod_timeFrame _ s
  | clearTallies => exact clearTallies_timeFrame s
  | restart => exact TimeFrame.refl s
  | start => exact startPart_timeFrame s

/-! ## The tables of an image (10 R166, R167) -/

theorem applyRingEntry_timeFrame (image : List Byte) (acc : State × Bool) (pos : Nat) :
    TimeFrame acc.1 (applyRingEntry image acc pos).1 := by
  unfold applyRingEntry
  dsimp only
  split
  · split
    · split <;> exact ⟨rfl, rfl⟩
    · exact ⟨rfl, rfl⟩
  · exact ⟨rfl, rfl⟩

theorem applyFlowEntry_frame (image : List Byte) (acc : State × Bool) (pos : Nat) :
    DirectoryFrame acc.1 (applyFlowEntry image acc pos).1 := by
  unfold applyFlowEntry
  dsimp only
  split
  · split
    · exact raise_frame _ _ _ _
    · split
      · next e => exact congrArg Prod.fst e ▸ createFlow_frame _ _ _ _ acc.1
      · next e => exact congrArg Prod.fst e ▸ createFlow_frame _ _ _ _ acc.1
  · exact raise_frame _ _ _ _

theorem foldl_entries_timeFrame {f : State × Bool → Nat → State × Bool} (hf : ∀ acc pos, TimeFrame acc.1 (f acc pos).1)
    (l : List Nat) (acc : State × Bool) : TimeFrame acc.1 (l.foldl f acc).1 := by
  induction l generalizing acc with
  | nil => exact TimeFrame.refl _
  | cons pos rest ih => exact (hf acc pos).trans (ih _)

theorem applyTables_timeFrame (image : List Byte) (s : State) : TimeFrame s (applyTables image s).1 := by
  refine .trans ?_ (foldl_entries_timeFrame (fun acc pos => (applyFlowEntry_frame image acc pos).timeFrame) _ _)
  refine .trans ?_ (foldl_entries_timeFrame (applyRingEntry_timeFrame image) _ _)
  exact ⟨rfl, rfl⟩

/-! ## The invariant -/

/-- The time base and the read of the configuration memory in their ranges. -/
structure TimeAndLoadOk (s : State) : Prop where
  time : TimeOk s.time
  load : LoadOk s.load

namespace TimeAndLoadOk

variable {s : State} (h : TimeAndLoadOk s)
include h

theorem frame {t : State} (k : TimeFrame s t) : TimeAndLoadOk t := ⟨k.time ▸ h.time, k.load ▸ h.load⟩

theorem enterHoldover (v : BitVec 32) : TimeAndLoadOk (enterHoldover v s) := ⟨h.time.holdover, h.load⟩

theorem takeMeasurement (m : Nat) : TimeAndLoadOk (takeMeasurement m s) := by
  unfold Machine.takeMeasurement
  dsimp only
  split
  · next hv =>
    have hr := (ratioValid_iff _).mp hv
    split
    · next hl => exact ⟨h.time.relock hr hl, h.load⟩
    · exact ⟨h.time.lock hr, h.load⟩
    · exact ⟨h.time.lock hr, h.load⟩
  · split
    · exact h.enterHoldover _
    · exact h
    · exact h

theorem measurementCompletion : TimeAndLoadOk (measurementCompletion s) := by
  unfold Machine.measurementCompletion
  split
  · exact takeMeasurement (s := { s with due := { s.due with measurement := none } }) ⟨h.time, h.load⟩ _
  · exact h

theorem refLoss : TimeAndLoadOk (refLoss s) := by
  have h1 : TimeAndLoadOk { s with due := { s.due with refLoss := false }, time := { s.time with meter := .waiting } } :=
    ⟨h.time.meterSet trivial, h.load⟩
  unfold Machine.refLoss
  split
  · dsimp only
    split
    · exact h1.enterHoldover 0
    · exact h1
    · exact h1
  · exact h

theorem seenRisingEdge : TimeAndLoadOk (seenRisingEdge s) := by
  unfold Machine.seenRisingEdge
  split
  · exact ⟨h.time.seenEdge, h.load⟩
  · exact h

theorem tick (pins : Pins) : TimeAndLoadOk (tick pins s) := by
  unfold Machine.tick
  split
  · exact ⟨h.time.tick _, loadTick_ok _ _ _ h.load⟩
  · exact h

theorem millisecondStrobe : TimeAndLoadOk (millisecondStrobe s) := by
  unfold Machine.millisecondStrobe
  split
  · exact ⟨h.time.strobe, h.load⟩
  · exact h

theorem setCodes (code : Nat) (silence : BitVec 2) : TimeAndLoadOk (setCodes code silence s) := ⟨h.time.codeSet silence, h.load⟩

/-- At the end of a load the silence code alone is set in the time base (02 R40; 10 R166). -/
theorem endLoad (image : List Byte) : TimeAndLoadOk (endLoad image s) := by
  unfold Machine.endLoad
  split
  · have htables := h.frame (applyTables_timeFrame image s)
    unfold applyImage
    generalize applyTables image s = out at htables ⊢
    exact (htables.setCodes (imageTallyCode image) (imageSilenceCode image)).frame ⟨rfl, rfl⟩
  · exact (h.setCodes 1 1).frame ⟨rfl, rfl⟩

theorem loadEnd (image : List Byte) : TimeAndLoadOk (loadEnd image s) := by
  unfold Machine.loadEnd
  split
  · exact h.endLoad _
  · exact h

theorem clockCore (ref : Bool) : TimeAndLoadOk (clockCore ref s) := ⟨h.time.clock ref _, h.load⟩

end TimeAndLoadOk

theorem timeAndLoadOk_kept : KeptByCommands TimeAndLoadOk where
  seenRisingEdge _ h := h.seenRisingEdge
  measurementCompletion _ h := h.measurementCompletion
  refLoss _ h := h.refLoss
  tick pins _ h := h.tick pins
  loadEnd image _ h := h.loadEnd image
  debouncedStateChange i s h := h.frame (debouncedStateChange_timeFrame i s)
  sweepPace s h := h.frame (sweepPace_timeFrame s)
  millisecondStrobe _ h := h.millisecondStrobe
  secondsStrobe s h := h.frame (secondsStrobe_timeFrame s)
  silenceTick s h := h.frame (silenceTick_timeFrame s)
  boundary s h := h.frame (boundary_timeFrame s)
  line _ _ h := ⟨h.time, h.load⟩
  restart _ h := ⟨h.time, LoadRead.init_ok⟩
  perform req s _ h := h.frame (perform_timeFrame req s)
  pending _ _ h := ⟨h.time, h.load⟩
  powerOn x _ _ := ⟨TimeOk.init x.bdiv, LoadRead.init_ok⟩
  busTransfer t s h := h.frame (busTransfer_timeFrame t s)
  readDataCheck data s h := h.frame (readDataCheck_timeFrame data s)
  busReset s h := h.frame (busReset_timeFrame s)
  releaseReset _ h := ⟨h.time, h.load⟩
  clock ref _ h := h.clockCore ref

/-- Settles O56: each change of the time base and each tick of the read keeps the ranges, and no other event touches them. -/
theorem stepKeepsTimeBase : Obligations.StepKeepsTimeBase := by
  unfold Obligations.StepKeepsTimeBase
  intro s t htime hload ht
  have h := timeAndLoadOk_kept.step ⟨htime, hload⟩ ht
  exact ⟨h.time, h.load⟩

end Sys2Proof.Machine
end

