-- ==== Sys2Proof/Proofs/TimeSources.lean ====
section
/-! Seen edges, measurements and REF losses: what each does to the meter and the source state (02 R32, R34 to R38, R43). -/

namespace Sys2Proof.Machine

/-! ## Seen edges (02 R32, R34, R35) -/

theorem seenRisingEdge_due {s : State} (h : s.due.seenEdge = true) : seenRisingEdge s = { s with
    time := { s.time with loss := 0, meter := (meterEdge s.time.meter).1 }
    due := { s.due with
      seenEdge := false
      tick := s.due.tick || decide (s.time.source = .locked)
      measurement := (meterEdge s.time.meter).2.or s.due.measurement } } := if_pos h

/-- Settles O21: the meter by its context and counts, the rest as the edge leaves it. -/
theorem seenEdgeFeedsMeter : Obligations.SeenEdgeFeedsMeter := by
  unfold Obligations.SeenEdgeFeedsMeter
  intro s h
  refine ⟨_, _, congrArg Host.Outcome.next (seenRisingEdge_due h), ?waiting, ?period, ?block, ?complete⟩
  case waiting => exact fun hm => by simp [hm, meterEdge_waiting]
  case period => exact fun n p b hm hp => by simp [hm, meterEdge_period hp]
  case block => exact fun n b hm hb => by simp [hm, meterEdge_block hb]
  case complete => exact fun n hm => by simp [hm, meterEdge_complete]

/-! ## Entry to HOLDOVER (02 R36, R38, R43) -/

/-- The OPEN summary is DEGRADED and TIME_HOLDOVER raised, and the accumulator starts from 0. -/
theorem enterHoldover_eq (v : BitVec 32) (s : State) : enterHoldover v s = { s with
    time := { s.time with source := .holdover, acc := 0 }
    tally := { s.tally with history := openHistory (fun q => { q with quality := .degraded }) s.tally.history }
    log := (raiseInto s.time.tickCount .timeHoldover .device v s.log s.alarm).1
    alarm := (raiseInto s.time.tickCount .timeHoldover .device v s.log s.alarm).2 } := by
  rw [enterHoldover, degradeOpen, State.modOpen_eq]
  rfl

/-! ## Measurements (02 R36, R37) -/

section
variable {m : Nat} {s : State}

theorem measurementCompletion_due (h : s.due.measurement = some m) :
    measurementCompletion s = takeMeasurement m { s with due := { s.due with measurement := none } } := by
  rw [measurementCompletion, h]

theorem takeMeasurement_valid (h : ratioValid (measuredRatio m) = true) : takeMeasurement m s = { s with
    time := { s.time with
      ratio := measuredRatio m, source := .locked, acc := if s.time.source = .locked then s.time.acc else 0 } } := by
  unfold takeMeasurement
  rw [if_pos h]
  split
  · next hs => rw [if_pos hs, ← hs]
  · next hs => rw [if_neg (by rw [hs]; decide)]
  · next hs => rw [if_neg (by rw [hs]; decide)]

theorem takeMeasurement_rejected (h : ratioValid (measuredRatio m) = false) (hs : s.time.source ≠ .locked) :
    takeMeasurement m s = s := by
  unfold takeMeasurement
  rw [if_neg (by rw [h]; decide)]
  split
  · next hl => exact absurd hl hs
  · rfl
  · rfl

theorem takeMeasurement_departs (h : ratioValid (measuredRatio m) = false) (hs : s.time.source = .locked) :
    takeMeasurement m s = enterHoldover (BitVec.ofNat 32 (measuredRatio m)) s := by
  unfold takeMeasurement
  rw [if_neg (by rw [h]; decide), hs]

theorem ratioValid_false {r : Nat} (h : r < 1024 ∨ 16383 < r) : ratioValid r = false := by
  rw [← Bool.not_eq_true, ratioValid_iff]
  omega

end

/-- Settles O22: a valid ratio locks; a rejected one leads from LOCKED alone to HOLDOVER. -/
theorem measurementDecidesSource : Obligations.MeasurementDecidesSource := by
  unfold Obligations.MeasurementDecidesSource
  intro m s h
  refine ⟨fun hmin hmax => ?_, fun hr hs => ?_, fun hr hs => ⟨_, _, rfl, ?_⟩⟩
  · exact congrArg Host.Outcome.next
      ((measurementCompletion_due h).trans (takeMeasurement_valid ((ratioValid_iff _).mpr ⟨hmin, hmax⟩)))
  · exact congrArg Host.Outcome.next ((measurementCompletion_due h).trans (takeMeasurement_rejected (ratioValid_false hr) hs))
  · have hd := measurementCompletion_due h
    rw [takeMeasurement_departs (ratioValid_false hr) (by exact hs), enterHoldover_eq] at hd
    exact congrArg Host.Outcome.next hd

/-! ## REF losses (02 R35, R38) -/

section
variable {s : State}

theorem refLoss_unlocked (h : s.due.refLoss = true) (hs : s.time.source ≠ .locked) :
    refLoss s = { s with time := { s.time with meter := .waiting }, due := { s.due with refLoss := false } } := by
  unfold refLoss
  rw [if_pos h]
  dsimp only
  split
  · next hl => exact absurd hl hs
  · rfl
  · rfl

theorem refLoss_locked (h : s.due.refLoss = true) (hs : s.time.source = .locked) : refLoss s =
    enterHoldover 0 { s with time := { s.time with meter := .waiting }, due := { s.due with refLoss := false } } := by
  unfold refLoss
  rw [if_pos h]
  dsimp only
  rw [hs]

end

/-- Settles O23: the measurement goes in every source state, and LOCKED gives way to HOLDOVER. -/
theorem refLossEntersHoldover : Obligations.RefLossEntersHoldover := by
  unfold Obligations.RefLossEntersHoldover
  intro s h
  refine ⟨fun hs => congrArg Host.Outcome.next (refLoss_unlocked h hs), fun hs => ⟨_, _, rfl, ?_⟩⟩
  exact congrArg Host.Outcome.next ((refLoss_locked h hs).trans (enterHoldover_eq _ _))

end Sys2Proof.Machine
end

