-- ==== Sys2Proof/Proofs/TicksAndStrobes.lean ====
section
/-! What a tick, a millisecond strobe and a seconds strobe do (02 R30, R39, R40; 06 R107, R108; 08 R143, R145; 09 R149, R151,
R155; 10 R165). -/

namespace Sys2Proof.Machine

/-! ## The panel inputs at a tick (08 R143, R145) -/

theorem sampleInput_sampled (level : Bool) (x : InputState) : Sampled level x (sampleInput level x) := by
  unfold Sampled sampleInput Config.debounceTicks
  split
  · next h => exact ⟨rfl, fun _ => rfl, fun hn => absurd h hn, fun hn => absurd h hn⟩
  · next h => exact ⟨rfl, fun hp => absurd hp h, fun _ hlt => Nat.min_eq_right hlt, fun _ hle => Nat.min_eq_left (by omega)⟩

/-- The chord alone may change, from SPENT to IDLE. -/
theorem chordIdle_eq (p : Panel) : chordIdle p =
    { p with chord := if p.chord = .spent ∧ p.clrA = ⟨false, 0⟩ ∧ p.clrB = ⟨false, 0⟩ then .idle else p.chord } := by
  unfold chordIdle
  split <;> rfl

theorem panelTick_eq (pins : Pins) (p : Panel) : panelTick pins p =
    { clrA := sampleInput pins.clrA p.clrA
      clrB := sampleInput pins.clrB p.clrB
      ack := sampleInput pins.ack p.ack
      chord :=
        if p.chord = .spent ∧ sampleInput pins.clrA p.clrA = ⟨false, 0⟩ ∧ sampleInput pins.clrB p.clrB = ⟨false, 0⟩ then .idle
        else p.chord } := chordIdle_eq _

/-! ## A reply at a tick (09 R155) -/

theorem replyTick_delay {r : Reply} (h : r.sending = false) (x : Straps) :
    replyTick x r = { r with ticks := min (2 * charTime x) (r.ticks + 1) } := by simp [replyTick, h]

theorem replyTick_sending {r : Reply} (h : r.sending = true) (x : Straps) :
    replyTick x r = { r with ticks := min (r.stopAfter * charTime x) (r.ticks + 1) } := by simp [replyTick, h]

/-! ## The read of the configuration memory at a tick (10 R165) -/

theorem imageWord_eq_iff (bytes : List Byte) (i : Nat) (v : Half) : imageWord bytes i = v ↔
    (bytes.getD (2 * i) 0xFF).toNat * 256 + (bytes.getD (2 * i + 1) 0xFF).toNat = v.toNat := by
  rw [← BitVec.toNat_inj, imageWord_toNat]
  rfl

/-- The loader stops the read as the words that have come say; a word not there yet stops nothing (10 R165). -/
theorem readStopped_iff (bytes : List Byte) : readStopped bytes = true ↔ loaderStops bytes := by
  have hmark := imageWord_eq_iff bytes 0 0x444B
  have hversion := imageWord_eq_iff bytes 1 1
  have hrings : imageRings bytes = _ := imageWord_toNat bytes 2
  have hflows : imageFlows bytes = _ := imageWord_toNat bytes 3
  simp only [BitVec.reduceToNat] at hmark hversion
  simp only [imageByte] at hrings hflows
  simp only [readStopped, decide_eq_true_eq, loaderStops, wordsRead, imageWords, hrings, hflows, ne_eq, hmark, hversion]
  split_ifs <;> omega

theorem cfgSelected_iff (s : State) : s.cfgSelected = true ↔ s.device = .loading ∧ ¬ loaderStops s.load.bytes := by
  rw [← readStopped_iff]
  simp [State.cfgSelected]

theorem loadTick_unselected {s : State} (h : s.cfgSelected = false) (level : Bool) : loadTick s.device level s.load = s.load := by
  unfold loadTick LoadRead.tick
  split
  · next hd =>
    have hs : readStopped s.load.bytes = true := by simpa [State.cfgSelected, hd] using h
    rw [if_pos hs]
  · rfl

/-- While the memory is selected every tick counts, and the last one of an SPI clock after the first 24 brings a bit. -/
theorem loadTick_selected {s : State} (h : s.cfgSelected = true) (level : Bool) : loadTick s.device level s.load =
    if (s.load.ticks + 1) % 4 = 0 ∧ 100 ≤ s.load.ticks + 1 then clockBit level { s.load with ticks := s.load.ticks + 1 }
    else { s.load with ticks := s.load.ticks + 1 } := by
  obtain ⟨hd, hs⟩ := (cfgSelected_iff s).mp h
  rw [← readStopped_iff] at hs
  have hclocks : (s.load.ticks + 1) % 4 = 0 ∧ 24 < (s.load.ticks + 1) / 4 ↔
      (s.load.ticks + 1) % 4 = 0 ∧ 100 ≤ s.load.ticks + 1 := by
    omega
  unfold loadTick LoadRead.tick
  rw [if_pos hd, if_neg hs]
  simp only [hclocks]

/-- A bit that does not fill a byte is kept. -/
theorem clockBit_partial {x : LoadRead} (h : x.bits.length < 7) (level : Bool) :
    clockBit level x = { x with bits := x.bits ++ [level] } := by
  have hlen : (x.bits ++ [level]).length < 8 := by
    rw [List.length_append]
    exact Nat.succ_lt_succ h
  exact if_pos hlen

/-- The eighth bit makes a byte of which the first bit is the most significant (log entry 23). -/
theorem clockBit_full {x : LoadRead} (h : x.bits.length = 7) (level : Bool) :
    ∃ b : Byte, clockBit level x = { x with bits := [], bytes := x.bytes ++ [b] } ∧
      ∀ k : Nat, k < 8 → b.getLsbD (7 - k) = (x.bits ++ [level]).getD k false := by
  have hlen : ¬ (x.bits ++ [level]).length < 8 := by simp [h]
  refine ⟨_, if_neg hlen, fun k hk => ?_⟩
  rw [byteOfBits_bit]
  interval_cases k <;> rfl

theorem clockBit_ticks (level : Bool) (x : LoadRead) : (clockBit level x).ticks = x.ticks := by
  unfold clockBit
  dsimp only
  split <;> rfl

/-! ## A tick (02 R30) -/

theorem tick_due {s : State} (h : s.due.tick = true) (pins : Pins) : tick pins s = tickCore pins s := if_pos h

/-- Settles O24: the counters, inputs, limits and the read each step by themselves. -/
theorem tickAdvancesCounters : Obligations.TickAdvancesCounters := by
  unfold Obligations.TickAdvancesCounters
  intro pins s h
  refine ⟨tickCore pins s, _, _, _, _, congrArg Host.Outcome.next (tick_due h pins), rfl, ?ms, ?msTick, ?sweep, ?sweepTick,
    ?clrA, ?clrB, ?ack, ?chord, rfl, rfl, rfl, rfl, ?idle, ?reply, ⟨_, rfl, rfl⟩, cfgSelected_iff s, ?unselected, ?selected⟩
  case ms => exact fun hlt => by simp [stepCounter_of_lt (n := 10000) (c := s.time.msCounter) (by omega)]
  case msTick => exact fun heq => by simp [stepCounter_last (n := 10000) (c := s.time.msCounter) (by omega)]
  case sweep => exact fun hlt => by simp [stepCounter_of_lt (n := 400) (c := s.time.sweepCounter) (by omega)]
  case sweepTick => exact fun heq => by simp [stepCounter_last (n := 400) (c := s.time.sweepCounter) (by omega)]
  case clrA => exact congrArg Panel.clrA (panelTick_eq pins s.panel) ▸ sampleInput_sampled _ _
  case clrB => exact congrArg Panel.clrB (panelTick_eq pins s.panel) ▸ sampleInput_sampled _ _
  case ack => exact congrArg Panel.ack (panelTick_eq pins s.panel) ▸ sampleInput_sampled _ _
  case chord =>
    have hpanel : (tickCore pins s).panel = _ := panelTick_eq pins s.panel
    rw [hpanel]
  case idle => exact fun hr => congrArg (Option.map (replyTick s.straps)) hr
  case reply =>
    intro r hr
    have htick : (tickCore pins s).line.reply = some (replyTick s.straps r) := congrArg (Option.map (replyTick s.straps)) hr
    refine ⟨(replyTick s.straps r).ticks, htick, fun hd => ?_, fun hs => ?_⟩
    · rw [replyTick_delay hd]
    · rw [replyTick_sending hs]
  case unselected => exact fun hu => loadTick_unselected hu pins.cfgMiso
  case selected =>
    intro hsel
    have hload : (tickCore pins s).load = _ := loadTick_selected hsel pins.cfgMiso
    rw [hload]
    refine ⟨?_, fun hn => ?_, fun h4 h100 hb => ?_, fun h4 h100 hb => ?_⟩
    · split
      · exact clockBit_ticks _ _
      · rfl
    · rw [if_neg (by omega)]
      exact ⟨rfl, rfl⟩
    · rw [if_pos ⟨h4, h100⟩, clockBit_partial (by exact hb)]
      exact ⟨rfl, rfl⟩
    · obtain ⟨b, hbyte, hbits⟩ := clockBit_full (x := { s.load with ticks := s.load.ticks + 1 }) hb pins.cfgMiso
      rw [if_pos ⟨h4, h100⟩, hbyte]
      exact ⟨rfl, b, rfl, hbits⟩

/-! ## A millisecond strobe (02 R39, R40; 06 R107) -/

theorem timerStrobe_eq (d : DeviceState) (t : TallyState) : timerStrobe d t =
    { t with timer := if d = .monitoring then min (periodLength t.code) (t.timer + 1) else t.timer } := by
  unfold timerStrobe
  split <;> rfl

theorem millisecondStrobe_due {s : State} (h : s.due.msStrobe = true) : millisecondStrobe s = { s with
    time := { s.time with
      secondsCounter := (stepCounter 1000 s.time.secondsCounter).1
      silenceCounter := (stepCounter (silenceStrobes s.time.silenceCode) s.time.silenceCounter).1 }
    due := { s.due with
      msStrobe := false
      secondsStrobe := s.due.secondsStrobe || (stepCounter 1000 s.time.secondsCounter).2
      silenceTick := s.due.silenceTick || (stepCounter (silenceStrobes s.time.silenceCode) s.time.silenceCounter).2 }
    tally := { s.tally with
      timer := if s.device = .monitoring then min (periodLength s.tally.code) (s.tally.timer + 1) else s.tally.timer } } := by
  rw [← timerStrobe_eq]
  exact if_pos h

/-- The strobes of a silence tick, by the four codes (02 R40). -/
theorem eq_silenceStrobes {code : BitVec 2} {n : Nat} (h0 : code = 0 → n = 10) (h1 : code = 1 → n = 100) (h2 : code = 2 → n = 1000)
    (h3 : code = 3 → n = 10000) : n = silenceStrobes code := by
  have hcases : ∀ c : BitVec 2, c = 0 ∨ c = 1 ∨ c = 2 ∨ c = 3 := by decide
  rcases hcases code with hc | hc | hc | hc
  · rw [h0 hc, hc]; rfl
  · rw [h1 hc, hc]; rfl
  · rw [h2 hc, hc]; rfl
  · rw [h3 hc, hc]; rfl

/-- Settles O25: two counters of strobes and the tally timer. -/
theorem millisecondStrobeCounts : Obligations.MillisecondStrobeCounts := by
  unfold Obligations.MillisecondStrobeCounts
  intro s h
  refine ⟨_, _, _, _, _, congrArg Host.Outcome.next (millisecondStrobe_due h), ?sec, ?secTick, ?silence, ?timer, ?still, rfl⟩
  case sec => exact fun hlt => by simp [stepCounter_of_lt (n := 1000) (c := s.time.secondsCounter) (by omega)]
  case secTick => exact fun heq => by simp [stepCounter_last (n := 1000) (c := s.time.secondsCounter) (by omega)]
  case silence =>
    intro n h0 h1 h2 h3
    rw [← eq_silenceStrobes h0 h1 h2 h3]
    exact ⟨fun hlt => by simp [stepCounter_of_lt hlt], fun heq => by simp [stepCounter_last heq.ge]⟩
  case timer => exact fun hd => if_pos hd
  case still => exact fun hd => if_neg hd

/-! ## A seconds strobe (08 R145) -/

theorem secondsStrobe_due {s : State} (h : s.due.secondsStrobe = true) :
    secondsStrobe s = chordStrobe { s with due := { s.due with secondsStrobe := false } } := if_pos h

section
variable {s : State}

theorem chordStrobe_first (h : s.panel.chord = .timing 0) :
    chordStrobe s = { s with panel := { s.panel with chord := .timing 1 } } := by
  unfold chordStrobe
  rw [h]
  rfl

theorem chordStrobe_second (h : s.panel.chord = .timing 1) (hd : s.device = .monitoring) :
    chordStrobe s = clearTallies { s with panel := { s.panel with chord := .spent } } := by
  unfold chordStrobe
  rw [h]
  exact if_pos hd

theorem chordStrobe_untimed (h : ∀ n, s.panel.chord ≠ .timing n) : chordStrobe s = s := by
  unfold chordStrobe
  split
  · next n hn => exact absurd hn (h n)
  · rfl

end

/-- Settles O26: the chord by its strobe count. -/
theorem secondsStrobePacesChord : Obligations.SecondsStrobePacesChord := by
  unfold Obligations.SecondsStrobePacesChord
  intro s h
  refine ⟨fun hc => ?_, fun hc hd => ?_, fun hc => ?_⟩
  · exact congrArg Host.Outcome.next ((secondsStrobe_due h).trans (chordStrobe_first hc))
  · exact congrArg Host.Outcome.next ((secondsStrobe_due h).trans (chordStrobe_second hc hd))
  · exact congrArg Host.Outcome.next ((secondsStrobe_due h).trans (chordStrobe_untimed hc))

end Sys2Proof.Machine
end

