-- ==== Sys2Proof/Proofs/CharacterReceiver.lean ====
section
/-! A character as it is sent is received at the sample of its stop bit (09 R148, R149; 02 R41). -/

namespace Sys2Proof.Machine

/-! ## The bits of a character (09 R148) -/

theorem charBits_ge (par : Bool) : 11 ≤ charBits par := by
  cases par <;> decide

section
variable (par mark stop flip : Bool) (b : Byte)

/-- Bit n of a character whose stop bit has a level of its own and whose parity bit may be turned over. -/
def sentBit (n : Nat) : Bool :=
  if n + 1 = charBits par then stop else xor (charBit par mark b n) (decide (n = 10) && flip)

theorem sentBit_start : sentBit par mark stop flip b 0 = false := by
  cases par <;> rfl

theorem sentBit_data {n : Nat} (h : n < 8) : sentBit par mark stop flip b (n + 1) = b.getLsbD n := by
  have hbits := charBits_ge par
  have hstop : n + 1 + 1 ≠ charBits par := by omega
  simp [sentBit, charBit, hstop, show n + 1 ≤ 8 by omega, show n ≠ 9 by omega]

theorem sentBit_mark : sentBit par mark stop flip b 9 = mark := by
  cases par <;> simp [sentBit, charBit, charBits]

theorem sentBit_parity : sentBit true mark stop flip b 10 = xor (xor mark (oddOnes 8 (fun j => b.getLsbD j))) flip := by
  simp [sentBit, charBit, charBits]

end

/-- The first n bits after the start bit. -/
def bitsAfterStart (bit : Nat → Bool) (n : Nat) : List Bool := (List.range n).map (fun i => bit (i + 1))

theorem bitsAfterStart_length (bit : Nat → Bool) (n : Nat) : (bitsAfterStart bit n).length = n := by simp [bitsAfterStart]

theorem bitsAfterStart_succ (bit : Nat → Bool) (n : Nat) : bitsAfterStart bit (n + 1) = bitsAfterStart bit n ++ [bit (n + 1)] := by
  simp [bitsAfterStart, List.range_succ]

theorem bitsAfterStart_getD (bit : Nat → Bool) {n i : Nat} (h : i < n) : (bitsAfterStart bit n).getD i false = bit (i + 1) := by
  simp [bitsAfterStart, h]

/-- A byte from its bits, bit 0 first. -/
theorem byteOfBits_getLsbD (b : Byte) : byteOfBits (b.getLsbD 0) (b.getLsbD 1) (b.getLsbD 2) (b.getLsbD 3) (b.getLsbD 4)
    (b.getLsbD 5) (b.getLsbD 6) (b.getLsbD 7) = b := by
  refine BitVec.eq_of_getLsbD_eq (fun i hi => ?_)
  rw [byteOfBits_bit]
  interval_cases i <;> rfl

/-- A parity bit turned over is all that a parity check sees. -/
theorem xor_parity (m odd flip : Bool) : xor (xor m (xor (xor m odd) flip)) odd = flip := by
  revert m odd flip
  decide

/-- The bits of a character after its start bit are read back as it, with an error for a low stop bit or a wrong parity bit. -/
theorem charOfBits_sent (par mark stop flip : Bool) (b : Byte) :
    charOfBits par (bitsAfterStart (sentBit par mark stop flip b) (charBits par - 1)) = ⟨b, mark, !stop || (par && flip)⟩ := by
  have hbits := charBits_ge par
  have hdata : ∀ i, i < 8 →
      (bitsAfterStart (sentBit par mark stop flip b) (charBits par - 1)).getD i false = b.getLsbD i := fun i hi => by
    rw [bitsAfterStart_getD _ (by omega), sentBit_data par mark stop flip b hi]
  have hmark : (bitsAfterStart (sentBit par mark stop flip b) (charBits par - 1)).getD 8 false = mark := by
    rw [bitsAfterStart_getD _ (by omega), sentBit_mark]
  have hstop : (bitsAfterStart (sentBit par mark stop flip b) (charBits par - 1)).getD (if par then 10 else 9) false = stop := by
    rw [bitsAfterStart_getD _ (by cases par <;> decide)]
    cases par <;> rfl
  have hparity : (par && xor (xor mark ((bitsAfterStart (sentBit par mark stop flip b) (charBits par - 1)).getD 9 false))
      (oddOnes 8 (fun j => b.getLsbD j))) = (par && flip) := by
    cases par with
    | false => rfl
    | true =>
      rw [bitsAfterStart_getD _ (by decide), sentBit_parity, xor_parity]
  simp only [charOfBits, hdata _ (by decide : 0 < 8), hdata _ (by decide : 1 < 8), hdata _ (by decide : 2 < 8),
    hdata _ (by decide : 3 < 8), hdata _ (by decide : 4 < 8), hdata _ (by decide : 5 < 8), hdata _ (by decide : 6 < 8),
    hdata _ (by decide : 7 < 8), byteOfBits_getLsbD, hmark, hstop, hparity]

/-! ## The receiver from tick to tick (09 R149) -/

theorem bitTime_ge (baud : BitVec 2) : 87 ≤ bitTime baud := by
  unfold bitTime
  split_ifs <;> decide

section
variable (x : Straps) (bit : Nat → Bool)

/-- The receiver's run over bits that are each held for a bit time. -/
def bitRun (n : Nat) : BitReceiver × Option RxChar := receiverRun x (fun k => bit (k / bitTime x.baud)) n

theorem bitRun_succ (n : Nat) : bitRun x bit (n + 1) =
    receiverTick x (bit (n / bitTime x.baud)) (bit ((n + 1) / bitTime x.baud)) (bitRun x bit n).1 := rfl

variable (hstart : bit 0 = false)
include hstart

/-- After the leading edge the receiver waits for the start check, half a bit time later. -/
theorem bitRun_startCheck (n : Nat) (hn : n < bitTime x.baud / 2) : bitRun x bit n = (.startCheck n, none) := by
  induction n with
  | zero => simp [bitRun, receiverRun, receiverTick, hstart]
  | succ n ih =>
    rw [bitRun_succ, ih (by omega)]
    exact if_pos hn

/-- At the start check the line is still low, and sampling begins. -/
theorem bitRun_started : bitRun x bit (bitTime x.baud / 2) = (.sampling 0 [], none) := by
  have hT := bitTime_ge x.baud
  obtain ⟨h, hh⟩ : ∃ h, bitTime x.baud / 2 = h + 1 := ⟨bitTime x.baud / 2 - 1, by omega⟩
  have hlow : bit ((h + 1) / bitTime x.baud) = false := by rw [Nat.div_eq_of_lt (by omega), hstart]
  rw [hh, bitRun_succ, bitRun_startCheck x bit hstart h (by omega), hlow]
  simp [receiverTick, hh]

end

section
variable (x : Straps) (bit : Nat → Bool)

/-- Between two samples the receiver counts the ticks of a bit time. -/
theorem bitRun_between {n : Nat} {bits : List Bool} (h : bitRun x bit n = (.sampling 0 bits, none)) (j : Nat)
    (hj : j < bitTime x.baud) : bitRun x bit (n + j) = (.sampling j bits, none) := by
  induction j with
  | zero => exact h
  | succ j ih =>
    rw [← Nat.add_assoc, bitRun_succ, ih (by omega)]
    exact if_pos hj

/-- A bit time after a sample the next bit is sampled, in its middle. -/
theorem bitRun_sample {k : Nat}
    (h : bitRun x bit (bitTime x.baud / 2 + k * bitTime x.baud) = (.sampling 0 (bitsAfterStart bit k), none)) :
    bitRun x bit (bitTime x.baud / 2 + (k + 1) * bitTime x.baud) =
      if k + 1 < charBits x.par - 1 then (.sampling 0 (bitsAfterStart bit (k + 1)), none)
      else (.idle, some (charOfBits x.par (bitsAfterStart bit (k + 1)))) := by
  have hT := bitTime_ge x.baud
  have hbefore := bitRun_between x bit h (bitTime x.baud - 1) (by omega)
  have htick : bitTime x.baud / 2 + (k + 1) * bitTime x.baud =
      bitTime x.baud / 2 + k * bitTime x.baud + (bitTime x.baud - 1) + 1 := by
    rw [Nat.succ_mul]
    omega
  have hmiddle : (bitTime x.baud / 2 + (k + 1) * bitTime x.baud) / bitTime x.baud = k + 1 := by
    rw [Nat.add_mul_div_right _ _ (by omega), Nat.div_eq_of_lt (by omega), Nat.zero_add]
  have hend : ¬ bitTime x.baud - 1 + 1 < bitTime x.baud := by omega
  rw [htick, bitRun_succ, hbefore, ← htick, hmiddle]
  simp only [receiverTick, if_neg hend, ← bitsAfterStart_succ, bitsAfterStart_length]

variable (hstart : bit 0 = false)
include hstart

/-- The receiver after the sample of bit k, before the stop bit. -/
theorem bitRun_sampled (k : Nat) (hk : k < charBits x.par - 1) :
    bitRun x bit (bitTime x.baud / 2 + k * bitTime x.baud) = (.sampling 0 (bitsAfterStart bit k), none) := by
  induction k with
  | zero =>
    rw [Nat.zero_mul]
    exact bitRun_started x bit hstart
  | succ k ih =>
    rw [bitRun_sample x bit (ih (by omega))]
    exact if_pos hk

/-- The stop bit's sample makes the character. -/
theorem bitRun_received : bitRun x bit (bitTime x.baud / 2 + (charBits x.par - 1) * bitTime x.baud) =
    (.idle, some (charOfBits x.par (bitsAfterStart bit (charBits x.par - 1)))) := by
  have hbits := charBits_ge x.par
  obtain ⟨k, hk⟩ : ∃ k, charBits x.par - 1 = k + 1 := ⟨charBits x.par - 2, by omega⟩
  rw [hk, bitRun_sample x bit (bitRun_sampled x bit hstart k (by omega)), hk]
  exact if_neg (Nat.lt_irrefl _)

/-- Nothing is received before the stop bit's sample: each tick before it is one of the start check or of the bit time after a sample. -/
theorem bitRun_unreceived {n : Nat} (hn : n < bitTime x.baud / 2 + (charBits x.par - 1) * bitTime x.baud) :
    (bitRun x bit n).2 = none := by
  have hT := bitTime_ge x.baud
  by_cases hhalf : n < bitTime x.baud / 2
  · rw [bitRun_startCheck x bit hstart n hhalf]
  · obtain ⟨m, rfl⟩ := Nat.exists_eq_add_of_le (Nat.not_lt.mp hhalf)
    have hk : m / bitTime x.baud < charBits x.par - 1 := Nat.div_lt_of_lt_mul (by rw [Nat.mul_comm]; omega)
    have hsplit : bitTime x.baud / 2 + m = bitTime x.baud / 2 + m / bitTime x.baud * bitTime x.baud + m % bitTime x.baud := by
      rw [Nat.add_assoc, Nat.div_add_mod']
    rw [hsplit, bitRun_between x bit (bitRun_sampled x bit hstart _ hk) _ (Nat.mod_lt _ (by omega))]

end

/-- Settles O43: the run over the bits as they are sent, read back at the stop bit's sample. -/
theorem sentCharacterIsReceived : Obligations.SentCharacterIsReceived := by
  unfold Obligations.SentCharacterIsReceived
  intro x mark b stop flip
  have hstart := sentBit_start x.par mark stop flip b
  have hreceived := bitRun_received x _ hstart
  rw [charOfBits_sent] at hreceived
  exact ⟨hreceived, fun _ hn => bitRun_unreceived x _ hstart hn⟩

end Sys2Proof.Machine
end

