-- ==== Sys2Proof/Proofs/FlowRanges.lean ====
section
/-!
SUPPORT. What the events of one flow do to its record: none moves it to another key pair, and each keeps its cycle part, its misses and its
idle periods in their ranges (03 R47, R48, R55, R59; 04 R61 to R82; 05 R85 to R99; 06 R113).
-/

namespace Sys2Proof.Machine

/-! ## Records that take the place of one another -/

/-- What the cycle work and the notices leave of a flow record: ring, key, origin and idle periods. -/
def FlowRecord.standing (f : FlowRecord) : RingIx × Half × Origin × Nat := (f.ring, f.key, f.origin, f.idle)

/-- The cycle part and the misses of a flow in their ranges (04 R68, R81). -/
structure TrackOk (n : Nat) (f : FlowRecord) : Prop where
  cycle  : CycleOk n f.misses f.cycle
  misses : f.misses ≤ n

/-- A record that may take the place of another in its entry: of the same key pair, and in its ranges when the other is. -/
structure FlowKept (n : Nat) (f g : FlowRecord) : Prop where
  ring : g.ring = f.ring
  key  : g.key = f.key
  ok   : FlowOk n f → FlowOk n g

section
variable {n : Nat} {f g : FlowRecord}

theorem FlowKept.trans {k : FlowRecord} (h : FlowKept n f g) (hk : FlowKept n g k) : FlowKept n f k :=
  ⟨hk.ring.trans h.ring, hk.key.trans h.key, fun hf => hk.ok (h.ok hf)⟩

theorem FlowKept.of_standing (h : g.standing = f.standing) (ht : TrackOk n f → TrackOk n g) : FlowKept n f g := by
  simp only [FlowRecord.standing, Prod.mk.injEq] at h
  obtain ⟨hring, hkey, horigin, hidle⟩ := h
  refine ⟨hring, hkey, fun hf => ?_⟩
  obtain ⟨hcycle, hmisses⟩ := ht ⟨hf.cycle, hf.misses⟩
  exact ⟨hcycle, hmisses, hidle.trans_le hf.idle, fun ho => hidle.trans_lt (hf.learned (horigin.symm.trans ho))⟩

/-- A record that differs in tallies, worst values, order window and tag alone. -/
theorem FlowKept.of_cycle (h : g.standing = f.standing) (hc : g.cycle = f.cycle) (hm : g.misses = f.misses) : FlowKept n f g :=
  .of_standing h (fun ht => ⟨by rw [hc, hm]; exact ht.cycle, hm.trans_le ht.misses⟩)

/-! ## Learning (04 R62 to R66) -/

theorem learnArrival_standing (f : FlowRecord) (ctx : LearningContext) (t : Tick) (q : BitVec 16) :
    (learnArrival f ctx t q).1.standing = f.standing := by
  unfold learnArrival
  split
  · rfl
  · dsimp only
    split_ifs <;> rfl

theorem attemptSucceeds_period {l : List Nat} {avg : Nat} (h : attemptSucceeds l avg = true) : periodOk avg := by
  simp only [attemptSucceeds, Bool.and_eq_true, decide_eq_true_eq] at h
  obtain ⟨hrange, -⟩ := h
  exact hrange

theorem learnArrival_track {ctx : LearningContext} (hn : 1 ≤ n) (h : TrackOk n f) (hc : f.cycle = .learning ctx) (t : Tick)
    (q : BitVec 16) : TrackOk n (learnArrival f ctx t q).1 := by
  obtain ⟨hcycle, hmisses⟩ := h
  have hctx : CycleOk n f.misses (.learning ctx) := hc ▸ hcycle
  obtain ⟨hlength, hmin, hmax⟩ := hctx
  unfold learnArrival
  split
  · exact ⟨⟨by simp, hmin, hmax⟩, hmisses⟩
  · split
    · exact ⟨hcycle, hmisses⟩
    · dsimp only
      split
      · next hshort => exact ⟨⟨hshort, hmin, hmax⟩, hmisses⟩
      · split
        · next hsucceeds => exact ⟨⟨attemptSucceeds_period hsucceeds, nofun, hn⟩, Nat.zero_le _⟩
        · split
          · next hattempt => exact ⟨⟨by simp, Nat.succ_pos _, hattempt⟩, hmisses⟩
          · exact ⟨trivial, hmisses⟩

theorem learningTimeout_ok {m : Nat} {ctx : LearningContext} (h : CycleOk n m (.learning ctx)) (now : Tick) :
    CycleOk n m (.learning (learningTimeout now ctx)) := by
  obtain ⟨hlength, hmin, hmax⟩ := h
  unfold learningTimeout
  split
  · exact ⟨hlength, hmin, hmax⟩
  · split
    · exact ⟨by simp, hmin, hmax⟩
    · exact ⟨hlength, hmin, hmax⟩

/-! ## Elapsed cycles and arrivals in TRACKING and SILENT (04 R67 to R75) -/

theorem nextCycle_ok (hn : 1 ≤ n) {p : Nat} {pend : Option Nat} (hp : periodOk p) (hq : ∀ q, pend = some q → periodOk q) (e : Tick) :
    CycleOk n 0 (nextCycle p pend e) := by
  cases pend with
  | none => exact ⟨hp, nofun, hn⟩
  | some q => exact ⟨hq q rfl, nofun, hn⟩

theorem accountCycles_standing (k p : Nat) (pend : Option Nat) (e : Tick) (f : FlowRecord) :
    (accountCycles n k p pend e f).1.standing = f.standing := by
  unfold accountCycles
  dsimp only
  split <;> rfl

/-- The accounting step ends in TRACKING below the silence count or in SILENT at it, with its periods (04 R68). -/
theorem accountCycles_cycle {m : Nat} (hm : f.misses < n) (p : Nat) (pend : Option Nat) (e : Tick) :
    (∃ e', (accountCycles n m p pend e f).1.cycle = .tracking p pend e' ∧ (accountCycles n m p pend e f).1.misses < n) ∨
    (∃ e', (accountCycles n m p pend e f).1.cycle = .silent p pend e' ∧ (accountCycles n m p pend e f).1.misses = n) := by
  unfold accountCycles
  dsimp only
  split
  · next hsilent => exact .inr ⟨_, rfl, hsilent⟩
  · next hbelow => exact .inl ⟨_, rfl, by dsimp only; omega⟩

theorem accountCycles_track {p : Nat} {pend : Option Nat} (hm : f.misses < n) (hp : periodOk p)
    (hq : ∀ q, pend = some q → periodOk q) (k : Nat) (e : Tick) : TrackOk n (accountCycles n k p pend e f).1 := by
  obtain ⟨e', hc, hmisses⟩ | ⟨e', hc, hmisses⟩ := accountCycles_cycle (m := k) hm p pend e
  · exact ⟨by rw [hc]; exact ⟨hp, hq, hmisses⟩, hmisses.le⟩
  · exact ⟨by rw [hc]; exact ⟨hp, hq, hmisses⟩, hmisses.le⟩

theorem classifyArrival_standing (p : Nat) (pend : Option Nat) (e t : Tick) (f : FlowRecord) :
    (classifyArrival p pend e t f).standing = f.standing := by
  unfold classifyArrival
  dsimp only
  cases phaseClass f.params p (tickDiffSigned t e) <;> rfl

theorem classifyArrival_track (hn : 1 ≤ n) {p : Nat} {pend : Option Nat} (hp : periodOk p) (hq : ∀ q, pend = some q → periodOk q)
    (e t : Tick) (f : FlowRecord) : TrackOk n (classifyArrival p pend e t f) :=
  ⟨nextCycle_ok hn hp hq e, Nat.zero_le n⟩

theorem relock_track (hn : 1 ≤ n) {p : Nat} {pend : Option Nat} (hp : periodOk p) (hq : ∀ q, pend = some q → periodOk q)
    (t : Tick) (f : FlowRecord) : TrackOk n (relock p pend t f) :=
  ⟨nextCycle_ok hn hp hq t, Nat.zero_le n⟩

theorem trackArrival_standing (p : Nat) (pend : Option Nat) (e t : Tick) (f : FlowRecord) :
    (trackArrival n p pend e t f).1.standing = f.standing := by
  unfold trackArrival
  dsimp only
  split
  · rfl
  · split
    · exact classifyArrival_standing p pend e t f
    · have h := accountCycles_standing (n := n) (elapsedCycles p e t).toNat p pend e f
      split
      · exact (classifyArrival_standing _ _ _ _ _).trans h
      · exact h
      · exact h

theorem trackArrival_track (hn : 1 ≤ n) {p : Nat} {pend : Option Nat} {e : Tick} (h : TrackOk n f)
    (hc : f.cycle = .tracking p pend e) (t : Tick) : TrackOk n (trackArrival n p pend e t f).1 := by
  obtain ⟨hcycle, hmisses⟩ := h
  have htracking : CycleOk n f.misses (.tracking p pend e) := hc ▸ hcycle
  obtain ⟨hp, hq, hbelow⟩ := htracking
  unfold trackArrival
  dsimp only
  split
  · exact ⟨hcycle, hmisses⟩
  · split
    · exact classifyArrival_track hn hp hq e t f
    · obtain ⟨e', hout, -⟩ | ⟨e', hout, -⟩ := accountCycles_cycle (m := (elapsedCycles p e t).toNat) hbelow p pend e
      · simp only [hout]
        exact classifyArrival_track hn hp hq e' t _
      · simp only [hout]
        exact relock_track hn hp hq t _

/-! ## Arrivals, sweep visits, departures and drops (01 R16; 04 R61, R77 to R79; 05 R85) -/

theorem flowArrival_standing (t : Tick) (q : BitVec 16) (f : FlowRecord) : (flowArrival n t q f).1.standing = f.standing := by
  have h : (countArrival f).standing = f.standing := rfl
  unfold flowArrival
  dsimp only
  split
  · exact (learnArrival_standing _ _ _ _).trans h
  · exact h
  · exact (trackArrival_standing _ _ _ _ _).trans h
  · exact h
  · exact h

theorem flowArrival_track (hn : 1 ≤ n) (h : TrackOk n f) (t : Tick) (q : BitVec 16) : TrackOk n (flowArrival n t q f).1 := by
  have h' : TrackOk n (countArrival f) := ⟨h.cycle, h.misses⟩
  unfold flowArrival
  dsimp only
  split
  · next hc => exact learnArrival_track hn h' hc t q
  · next p hc =>
    have hp : CycleOk n f.misses (.waiting p) := hc ▸ h'.cycle
    exact ⟨⟨hp, nofun, hn⟩, Nat.zero_le n⟩
  · next hc => exact trackArrival_track hn h' hc t
  · next p pend e hc =>
    have hsilent : CycleOk n f.misses (.silent p pend e) := hc ▸ h'.cycle
    obtain ⟨hp, hq, -⟩ := hsilent
    exact relock_track hn hp hq t _
  · exact h'

theorem flowArrival_kept (hn : 1 ≤ n) (t : Tick) (q : BitVec 16) (f : FlowRecord) : FlowKept n f (flowArrival n t q f).1 :=
  .of_standing (flowArrival_standing t q f) (fun h => flowArrival_track hn h t q)

theorem visitFlow_standing (now : Tick) (f : FlowRecord) : (visitFlow n now f).1.standing = f.standing := by
  unfold visitFlow
  split
  · rfl
  · dsimp only
    split
    · exact accountCycles_standing _ _ _ _ _
    · rfl
  · dsimp only
    split <;> rfl
  · rfl
  · rfl

theorem visitFlow_track (h : TrackOk n f) (now : Tick) : TrackOk n (visitFlow n now f).1 := by
  have hcycle := h.cycle
  unfold visitFlow
  split
  · next ctx hc => exact ⟨learningTimeout_ok (hc ▸ hcycle) now, h.misses⟩
  · next p pend e hc =>
    have htracking : CycleOk n f.misses (.tracking p pend e) := hc ▸ hcycle
    obtain ⟨hp, hq, hbelow⟩ := htracking
    dsimp only
    split
    · exact accountCycles_track hbelow hp hq _ e
    · exact h
  · next p pend e hc =>
    have hsilent : CycleOk n f.misses (.silent p pend e) := hc ▸ hcycle
    dsimp only
    split
    · exact ⟨hsilent, h.misses⟩
    · exact h
  · exact h
  · exact h

theorem visitFlow_kept (now : Tick) (f : FlowRecord) : FlowKept n f (visitFlow n now f).1 :=
  .of_standing (visitFlow_standing now f) (fun h => visitFlow_track h now)

theorem countDrop_kept (f : FlowRecord) : FlowKept n f (countDrop f) := .of_cycle rfl rfl rfl

/-- The order window and the departure tallies are all a departure changes (05 R85). -/
theorem flowDeparture_kept (resync : Nat) (q : BitVec 16) (r : Nat) (f : FlowRecord) : FlowKept n f (flowDeparture resync q r f) := by
  have h : FlowKept n f (countDeparture r f) := .of_cycle rfl rfl rfl
  unfold flowDeparture judgeSequence
  refine h.trans ?_
  split
  · split
    · exact .of_cycle rfl rfl rfl
    · exact .of_cycle rfl rfl rfl
    · exact .of_cycle rfl rfl rfl
    · split <;> exact .of_cycle rfl rfl rfl
    · exact .of_cycle rfl rfl rfl
  · exact .of_cycle rfl rfl rfl

/-! ## Rolls and the clearing of tallies (03 R59; 06 R113, R118) -/

theorem idleAfter_le (f : FlowRecord) : idleAfter f ≤ Config.idleLimit := by
  unfold idleAfter
  split
  · exact Nat.min_le_left _ _
  · exact Nat.zero_le _

/-- A learned flow that its roll does not retire is below the limit of idle periods (03 R59). -/
theorem idleAfter_lt (h : retires f = false) (ho : f.origin = .learned) : idleAfter f < Config.idleLimit := by
  have hne : idleAfter f ≠ Config.idleLimit := by simpa [retires, ho] using h
  exact lt_of_le_of_ne (idleAfter_le f) hne

theorem rolled_kept (h : retires f = false) (tag : BitVec 16) :
    FlowKept n f { f with period := Tallies.zero, periodWorst := none, tag := tag, idle := idleAfter f } :=
  ⟨rfl, rfl, fun hf => ⟨hf.cycle, hf.misses, idleAfter_le f, idleAfter_lt h⟩⟩

theorem clearFlow_kept (number : BitVec 16) (f : FlowRecord) : FlowKept n f (clearFlow number f) := .of_cycle rfl rfl rfl

/-! ## Requested periods and flows new in the directory (03 R48, R54 to R56; 04 R82) -/

theorem clampPeriod_ok (p : Nat) : clampPeriod p = 0 ∨ periodOk (clampPeriod p) := by
  unfold clampPeriod clamp periodOk
  split <;> omega

theorem changePeriod_standing (p : Nat) (f : FlowRecord) : (changePeriod p f).standing = f.standing := by
  unfold changePeriod
  split
  · split <;> rfl
  · split
    · split <;> rfl
    · split <;> rfl
    · rfl
    · rfl
    · rfl

theorem changePeriod_track {p : Nat} (hp : p = 0 ∨ periodOk p) (h : TrackOk n f) : TrackOk n (changePeriod p f) := by
  have hcycle := h.cycle
  unfold changePeriod
  split
  · split
    · exact h
    · exact ⟨⟨by decide, by decide, by decide⟩, Nat.zero_le n⟩
  · next hne =>
    have hperiod := hp.resolve_left hne
    have hpend : ∀ q, some p = some q → periodOk q := fun q hq => Option.some.inj hq ▸ hperiod
    split
    · next q pend e hc =>
      split
      · exact h
      · have htracking : CycleOk n f.misses (.tracking q pend e) := hc ▸ hcycle
        obtain ⟨hq, -, hbelow⟩ := htracking
        exact ⟨⟨hq, hpend, hbelow⟩, h.misses⟩
    · next q pend e hc =>
      split
      · exact h
      · have hsilent : CycleOk n f.misses (.silent q pend e) := hc ▸ hcycle
        obtain ⟨hq, -, hat⟩ := hsilent
        exact ⟨⟨hq, hpend, hat⟩, h.misses⟩
    · exact ⟨hperiod, h.misses⟩
    · exact ⟨hperiod, Nat.zero_le n⟩
    · exact ⟨hperiod, Nat.zero_le n⟩

theorem changePeriod_kept {p : Nat} (hp : p = 0 ∨ periodOk p) (f : FlowRecord) : FlowKept n f (changePeriod p f) :=
  .of_standing (changePeriod_standing p f) (changePeriod_track hp)

theorem redefineFlow_kept {p : Nat} (hp : p = 0 ∨ periodOk p) (params : FlowParams) (f : FlowRecord) :
    FlowKept n f (redefineFlow p params f) := by
  have h : FlowKept n f { f with origin := .static, params := params } :=
    ⟨rfl, rfl, fun hf => ⟨hf.cycle, hf.misses, hf.idle, nofun⟩⟩
  exact h.trans (changePeriod_kept hp _)

theorem newFlow_ok {c : Cycle} (hc : CycleOk n 0 c) (o : Origin) (r : RingIx) (key : Half) (params : FlowParams) (tag : BitVec 16) :
    FlowOk n (newFlow o r key c params tag) :=
  ⟨hc, Nat.zero_le n, Nat.zero_le _, fun _ => Nat.zero_lt_succ _⟩

theorem LearningContext.fresh_ok (n : Nat) : CycleOk n 0 (.learning LearningContext.fresh) := ⟨by decide, by decide, by decide⟩

theorem definedCycle_ok {p : Nat} (hp : p = 0 ∨ periodOk p) (n : Nat) : CycleOk n 0 (definedCycle p) := by
  unfold definedCycle
  split
  · exact LearningContext.fresh_ok n
  · next hne => exact hp.resolve_left hne

end

end Sys2Proof.Machine
end

