-- ==== Sys2Proof/Proofs/DirectoryInvariant.lean ====
section
/-! The key pairs of the directory stay apart, and every flow in its ranges, through every step (03 R45, R48, R59; 04 R68, R81). -/

namespace Sys2Proof.Machine

/-! ## The directory with the device values it is judged by -/

/-- The entries of the directory: no key pair twice, and every flow in its ranges. -/
structure EntriesOk (s : State) : Prop where
  directory : DirectoryOk s
  flows     : ∀ i f, s.flowAt i = some f → FlowOk s.values.silenceCount f

/-- The silence count and the resync distance in their ranges (04 R68; 05 R92). -/
structure CountsOk (v : DeviceValues) : Prop where
  silenceMin : 1 ≤ v.silenceCount
  silenceMax : v.silenceCount ≤ 255
  resyncMin  : 64 ≤ v.resync
  resyncMax  : v.resync ≤ 32767

/-- What every step keeps of the directory: its entries, the device values, and that it is empty in LOADING. -/
structure DirectoryKept (s : State) : Prop where
  entries : EntriesOk s
  counts  : CountsOk s.values
  loading : s.device = .loading → ∀ i, s.flowAt i = none

theorem directoryKept_iff (s : State) : DirectoryKept s ↔ DirectoryOk s ∧ FlowsOk s := by
  constructor
  · intro h
    obtain ⟨hdir, hflows⟩ := h.entries
    obtain ⟨hsmin, hsmax, hrmin, hrmax⟩ := h.counts
    exact ⟨hdir, hsmin, hsmax, hrmin, hrmax, h.loading, hflows⟩
  · rintro ⟨hdir, hflows⟩
    exact ⟨⟨hdir, hflows.flows⟩, ⟨hflows.silenceMin, hflows.silenceMax, hflows.resyncMin, hflows.resyncMax⟩, hflows.loading⟩

/-! ## Events that leave the directory -/

/-- t has the flows and the device values of s, and is not newly in LOADING. -/
structure FlowsFrame (s t : State) : Prop where
  flows   : t.flows = s.flows
  values  : t.values = s.values
  loading : t.device = .loading → s.device = .loading

theorem FlowsFrame.refl (s : State) : FlowsFrame s s := ⟨rfl, rfl, id⟩

theorem FlowsFrame.trans {s t u : State} (h : FlowsFrame s t) (k : FlowsFrame t u) : FlowsFrame s u :=
  ⟨k.flows.trans h.flows, k.values.trans h.values, fun hu => h.loading (k.loading hu)⟩

theorem DirectoryFrame.flowsFrame {s t : State} (h : DirectoryFrame s t) (hf : t.flows = s.flows) : FlowsFrame s t :=
  ⟨hf, h.values, fun ht => h.device.symm.trans ht⟩

theorem raise_flowsFrame (k : IncidentKind) (x : Subject) (v : BitVec 32) (s : State) : FlowsFrame s (raise k x v s) := ⟨rfl, rfl, id⟩

theorem raiseAll_flowsFrame (l : List (IncidentKind × Subject × BitVec 32)) (s : State) : FlowsFrame s (raiseAll l s) :=
  (raiseAll_frame l s).flowsFrame (raiseAll_flows l s)

theorem seenRisingEdge_flowsFrame (s : State) : FlowsFrame s (seenRisingEdge s) := by
  unfold seenRisingEdge
  split <;> exact ⟨rfl, rfl, id⟩

theorem measurementCompletion_flowsFrame (s : State) : FlowsFrame s (measurementCompletion s) := by
  unfold measurementCompletion
  split
  · unfold takeMeasurement
    dsimp only
    split
    · split <;> exact ⟨rfl, rfl, id⟩
    · split <;> exact ⟨rfl, rfl, id⟩
  · exact FlowsFrame.refl s

theorem refLoss_flowsFrame (s : State) : FlowsFrame s (refLoss s) := by
  unfold refLoss
  split
  · dsimp only
    split <;> exact ⟨rfl, rfl, id⟩
  · exact FlowsFrame.refl s

theorem tick_flowsFrame (pins : Pins) (s : State) : FlowsFrame s (tick pins s) := by
  unfold tick
  split <;> exact ⟨rfl, rfl, id⟩

theorem debouncedStateChange_flowsFrame (i : PanelInput) (s : State) : FlowsFrame s (debouncedStateChange i s) := by
  unfold debouncedStateChange
  dsimp only
  split
  · cases i with
    | clrA => exact ⟨rfl, rfl, id⟩
    | clrB => exact ⟨rfl, rfl, id⟩
    | ack =>
      dsimp only
      split <;> exact ⟨rfl, rfl, id⟩
  · exact FlowsFrame.refl s

theorem millisecondStrobe_flowsFrame (s : State) : FlowsFrame s (millisecondStrobe s) := by
  unfold millisecondStrobe
  split <;> exact ⟨rfl, rfl, id⟩

theorem boundary_flowsFrame (s : State) : FlowsFrame s (boundary s) := by
  unfold boundary
  split <;> exact ⟨rfl, rfl, id⟩

theorem stepSilence_flowsFrame (s : State) (r : RingIx) : FlowsFrame s (stepSilence s r) := by
  unfold stepSilence
  dsimp only
  split
  · split
    · exact ⟨rfl, rfl, id⟩
    · split <;> exact ⟨rfl, rfl, id⟩
  · exact FlowsFrame.refl s

/-- A step made on each element of a list in turn, each leaving the directory. -/
theorem foldl_flowsFrame {α : Type} (l : List α) {f : State → α → State} (hf : ∀ s a, FlowsFrame s (f s a)) (s : State) :
    FlowsFrame s (l.foldl f s) :=
  List.foldlRecOn (motive := FlowsFrame s) l f (FlowsFrame.refl s) (fun u hu a _ => hu.trans (hf u a))

theorem silenceTick_flowsFrame (s : State) : FlowsFrame s (silenceTick s) := by
  unfold silenceTick
  split
  · dsimp only
    split
    · refine .trans ?_ (foldl_flowsFrame ringOrder stepSilence_flowsFrame _)
      exact ⟨rfl, rfl, id⟩
    · exact ⟨rfl, rfl, id⟩
  · exact FlowsFrame.refl s

theorem checkReadData_flowsFrame (c : ReadCheck) (data : List BusWord) (s : State) : FlowsFrame s (checkReadData c data s) := by
  unfold checkReadData
  split
  · split
    · split
      · exact ⟨rfl, rfl, id⟩
      · exact FlowsFrame.refl s
    · exact FlowsFrame.refl s
  · exact ⟨rfl, rfl, id⟩

theorem readDataCheck_flowsFrame (data : List BusWord) (s : State) : FlowsFrame s (readDataCheck data s) := by
  unfold readDataCheck
  split
  · exact ⟨rfl, rfl, id⟩
  · exact ⟨rfl, rfl, id⟩
  · next c rest _ =>
    have h := checkReadData_flowsFrame c data { s with reads := rest }
    exact ⟨h.flows, h.values, h.loading⟩

theorem defineRing_flowsFrame (ring : Nat) (b : BitVec 22) (n : Nat) (stamp enrol : Bool) (s : State) :
    FlowsFrame s (defineRing ring b n stamp enrol s).1 := by
  unfold defineRing
  split
  · dsimp only
    split <;> exact ⟨rfl, rfl, id⟩
  · exact FlowsFrame.refl s

theorem ringOff_flowsFrame (ring : Nat) (s : State) : FlowsFrame s (ringOff ring s).1 := by
  unfold ringOff
  split
  · dsimp only
    split <;> exact ⟨rfl, rfl, id⟩
  · exact FlowsFrame.refl s

theorem takeIncidents_flowsFrame (n : Byte) (s : State) : FlowsFrame s (takeIncidents n s).1 := by
  unfold takeIncidents removeOldest
  dsimp only
  split <;> exact ⟨rfl, rfl, id⟩

theorem setAlarmMap_flowsFrame (c : Vector Byte 14) (m p d : Byte) (s : State) : FlowsFrame s (setAlarmMap c m p d s).1 := by
  unfold setAlarmMap
  split <;> exact ⟨rfl, rfl, id⟩

theorem setTallyPeriod_flowsFrame (c : Byte) (s : State) : FlowsFrame s (setTallyPeriod c s).1 := by
  unfold setTallyPeriod
  split <;> exact ⟨rfl, rfl, id⟩

theorem startPart_flowsFrame (s : State) : FlowsFrame s (startPart s).1 := by
  unfold startPart
  split
  · exact ⟨rfl, rfl, nofun⟩
  · exact FlowsFrame.refl s

theorem applyRingEntry_flowsFrame (image : List Byte) (acc : State × Bool) (pos : Nat) :
    FlowsFrame acc.1 (applyRingEntry image acc pos).1 := by
  unfold applyRingEntry
  dsimp only
  split
  · split
    · split <;> exact ⟨rfl, rfl, id⟩
    · exact ⟨rfl, rfl, id⟩
  · exact ⟨rfl, rfl, id⟩

theorem refuseImage_flowsFrame (r : ConfigResult) (s : State) : FlowsFrame s (refuseImage r s) := ⟨rfl, rfl, nofun⟩

/-! ## What a lookup finds (03 R49) -/

theorem State.findKey_none_iff (s : State) (r : RingIx) (key : Half) :
    s.findKey r key = none ↔ ∀ j f, s.flowAt j = some f → ¬ (f.ring = r ∧ f.key = key) := by
  constructor
  · rintro h j f hf ⟨rfl, rfl⟩
    have hj := List.find?_eq_none.mp h j (List.mem_finRange j)
    simp [hf] at hj
  · intro h
    refine State.findKey_none (fun j hj => ?_)
    obtain ⟨f, hf, hk⟩ := Option.map_eq_some_iff.mp hj
    exact h j f hf ⟨congrArg Prod.fst hk, congrArg Prod.snd hk⟩

theorem State.findKey_flow {s : State} {r : RingIx} {key : Half} {i : FlowIx} (h : s.findKey r key = some i) :
    ∃ f, s.flowAt i = some f ∧ f.ring = r ∧ f.key = key := by
  obtain ⟨f, hf, hk⟩ := Option.map_eq_some_iff.mp (State.findKey_some h)
  exact ⟨f, hf, congrArg Prod.fst hk, congrArg Prod.snd hk⟩

/-- A flow that a lookup finds and its roll retires leaves its key pair to no entry (03 R45, R59). -/
theorem rollIfLagging_findKey_retired {s : State} (h : DirectoryOk s) {r : RingIx} {key : Half} {i : FlowIx}
    (hk : s.findKey r key = some i) (hn : (rollIfLagging i s).flowAt i = none) : (rollIfLagging i s).findKey r key = none := by
  obtain ⟨f, hf, -⟩ := State.findKey_flow hk
  by_cases ht : f.tag = s.tally.periodNumber
  · rw [rollIfLagging_current hf ht, hf] at hn
    cases hn
  · rw [rollIfLagging_lagging hf ht] at hn ⊢
    exact rollFlow_findKey_retired (h.soleKey hk) hn

/-! ## Single writes of an entry -/

namespace EntriesOk

variable {s : State} (h : EntriesOk s)
include h

theorem of_flows {t : State} (hf : t.flows = s.flows) (hv : t.values.silenceCount = s.values.silenceCount) : EntriesOk t := by
  have hat := fun i => State.flowAt_eq_of_flows hf i
  refine ⟨fun i j f g hi hj => ?_, fun i f hi => ?_⟩
  · rw [hat] at hi hj
    exact h.directory i j f g hi hj
  · rw [hat] at hi
    rw [hv]
    exact h.flows i f hi

/-- A record in its ranges, whose key pair no other entry has. -/
theorem setFlow {i : FlowIx} {g : FlowRecord} (hg : FlowOk s.values.silenceCount g)
    (hsole : ∀ j f, s.flowAt j = some f → f.ring = g.ring → f.key = g.key → j = i) : EntriesOk (s.setFlow i g) := by
  refine ⟨fun j k a b hj hk hring hkey => ?_, fun j a hj => ?_⟩
  · rw [State.setFlow_flowAt] at hj hk
    split at hj
    · next hji =>
      cases hj
      split at hk
      · next hki => exact hji.trans hki.symm
      · exact hji.trans (hsole k b hk hring.symm hkey.symm).symm
    · split at hk
      · next hki =>
        cases hk
        exact (hsole j a hj hring hkey).trans hki.symm
      · exact h.directory j k a b hj hk hring hkey
  · rw [State.setFlow_flowAt] at hj
    split at hj
    · cases hj
      exact hg
    · exact h.flows j a hj

/-- A flow's record rewritten. -/
theorem rewrite {i : FlowIx} {f g : FlowRecord} (hf : s.flowAt i = some f) (hk : FlowKept s.values.silenceCount f g) :
    EntriesOk (s.setFlow i g) :=
  h.setFlow (hk.ok (h.flows i f hf))
    (fun j a ha hring hkey => h.directory j i a f ha hf (hring.trans hk.ring) (hkey.trans hk.key))

/-- A flow of a key pair that no entry has. -/
theorem enter {i : FlowIx} {g : FlowRecord} (hg : FlowOk s.values.silenceCount g) (hn : s.findKey g.ring g.key = none) :
    EntriesOk (s.setFlow i g) :=
  h.setFlow hg (fun j f hf hring hkey => absurd ⟨hring, hkey⟩ ((State.findKey_none_iff s _ _).mp hn j f hf))

theorem vacate (i : FlowIx) : EntriesOk (s.vacate i) := by
  have hat : ∀ j f, (s.vacate i).flowAt j = some f → s.flowAt j = some f := by
    intro j f hf
    rw [State.vacate_flowAt] at hf
    split at hf
    · cases hf
    · exact hf
  exact ⟨fun j k a b hj hk => h.directory j k a b (hat j a hj) (hat k b hk), fun j a hj => h.flows j a (hat j a hj)⟩

/-- A STATIC flow created with a clamped period (03 R56). -/
theorem createFlow {r : RingIx} {key : Half} (hn : s.findKey r key = none) {p : Nat} (hp : p = 0 ∨ periodOk p)
    (params : FlowParams) : EntriesOk (createFlow r key p params s).1 := by
  unfold Machine.createFlow
  split
  · exact h
  · exact h.enter (newFlow_ok (definedCycle_ok hp _) _ _ _ _ _) hn

end EntriesOk

/-- The flow that the crediting test answers with is the one its entry then holds (03 R53). -/
theorem creditAndRoll_flowAt {p : PendingRecord} {s u : State} {i : FlowIx} {f : FlowRecord}
    (h : creditAndRoll p s = (u, some (i, f))) : u.flowAt i = some f := by
  unfold creditAndRoll at h
  split at h
  · cases h
  · obtain ⟨rfl, hc⟩ := Prod.mk.inj h
    exact (State.credited_some hc).1

namespace DirectoryKept

variable {s : State} (h : DirectoryKept s)
include h

theorem frame {t : State} (ht : FlowsFrame s t) : DirectoryKept t where
  entries := h.entries.of_flows ht.flows (congrArg DeviceValues.silenceCount ht.values)
  counts := by rw [ht.values]; exact h.counts
  loading hl i := (State.flowAt_eq_of_flows ht.flows i).trans (h.loading (ht.loading hl) i)

theorem rewrite {i : FlowIx} {f g : FlowRecord} (hf : s.flowAt i = some f) (hk : FlowKept s.values.silenceCount f g) :
    DirectoryKept (s.setFlow i g) where
  entries := h.entries.rewrite hf hk
  counts := h.counts
  loading hl := absurd (hf.symm.trans (h.loading hl i)) (Option.some_ne_none f)

theorem enter (hd : s.device ≠ .loading) {i : FlowIx} {g : FlowRecord} (hg : FlowOk s.values.silenceCount g)
    (hn : s.findKey g.ring g.key = none) : DirectoryKept (s.setFlow i g) :=
  ⟨h.entries.enter hg hn, h.counts, fun hl => absurd hl hd⟩

theorem vacate (i : FlowIx) : DirectoryKept (s.vacate i) where
  entries := h.entries.vacate i
  counts := h.counts
  loading hl j := by
    rw [State.vacate_flowAt]
    split
    · rfl
    · exact h.loading hl j

/-! ## Rolls, lookups and the crediting test (03 R49 to R53, R59; 06 R113) -/

theorem rollFlow {i : FlowIx} {f : FlowRecord} (hf : s.flowAt i = some f) : DirectoryKept (rollFlow i f s) := by
  have hfold : FlowsFrame s (s.modClosing (foldInto f i)) := ⟨rfl, rfl, id⟩
  have hraised := hfold.trans (raiseAll_flowsFrame (flowRaisings i (limitIncidents f.params f.period)) _)
  have h1 := h.frame hraised
  unfold Machine.rollFlow
  dsimp only
  split
  · exact vacate (h1.frame (raise_flowsFrame _ _ _ _)) i
  · next hkeep =>
    exact h1.rewrite ((State.flowAt_eq_of_flows hraised.flows i).trans hf) (rolled_kept (by simpa using hkeep) _)

theorem rollIfLagging (i : FlowIx) : DirectoryKept (rollIfLagging i s) := by
  unfold Machine.rollIfLagging
  split
  · exact h
  · next hf =>
    split
    · exact h
    · exact h.rollFlow hf

theorem enrolOrRefuse (hd : s.device ≠ .loading) {r : RingIx} {key : Half} (hn : s.findKey r key = none) :
    DirectoryKept (enrolOrRefuse r key s).1 := by
  unfold Machine.enrolOrRefuse
  split
  · split
    · exact h.enter hd (newFlow_ok (LearningContext.fresh_ok _) _ _ _ _ _) hn
    · exact h.frame ⟨rfl, rfl, id⟩
  · exact h

theorem lookup (hd : s.device ≠ .loading) (r : RingIx) (key : Half) : DirectoryKept (lookup r key s).1 := by
  unfold Machine.lookup
  split
  · next i hk =>
    have h1 := h.rollIfLagging i
    dsimp only
    split
    · exact h1
    · next hn =>
      exact h1.enrolOrRefuse ((rollIfLagging_frame i s).device.trans_ne hd)
        (rollIfLagging_findKey_retired h.entries.directory hk hn)
  · next hk => exact h.enrolOrRefuse hd hk

theorem creditAndRoll (p : PendingRecord) : DirectoryKept (creditAndRoll p s).1 := by
  unfold Machine.creditAndRoll
  split
  · exact h
  · exact h.rollIfLagging _

/-! ## Notices (01 R16; 04 R61; 05 R85, R86) -/

theorem countUntrackedDeparture (r : RingIx) : DirectoryKept (countUntrackedDeparture r s) := h.frame ⟨rfl, rfl, id⟩

theorem countUntrackedArrival (r : RingIx) : DirectoryKept (countUntrackedArrival r s) := h.frame ⟨rfl, rfl, id⟩

theorem notePeak : DirectoryKept (notePeak s) := h.frame ⟨rfl, rfl, id⟩

theorem modRing (r : RingIx) (g : RingRecord → RingRecord) : DirectoryKept (s.modRing r g) := h.frame ⟨rfl, rfl, id⟩

theorem dropNotice (r : RingIx) (p : PendingRecord) : DirectoryKept (dropNotice r p s) := by
  have h1 := h.creditAndRoll p
  unfold Machine.dropNotice
  split
  · next e =>
    rw [e] at h1
    exact h1.rewrite (creditAndRoll_flowAt e) (countDrop_kept _)
  · next e =>
    rw [e] at h1
    exact h1.countUntrackedDeparture r

theorem departureNotice (r : RingIx) (p : PendingRecord) (t : Tick) : DirectoryKept (departureNotice r p t s) := by
  have h1 := (h.modRing r (countBin (residence p t))).creditAndRoll p
  unfold Machine.departureNotice
  dsimp only
  split
  · next e =>
    rw [e] at h1
    exact h1.rewrite (creditAndRoll_flowAt e) (flowDeparture_kept _ _ _ _)
  · next e =>
    rw [e] at h1
    exact h1.countUntrackedDeparture r

theorem applyFlowOutcome {i : FlowIx} {f : FlowRecord} (hf : s.flowAt i = some f) {out : FlowOutcome}
    (hk : FlowKept s.values.silenceCount f out.1) : DirectoryKept (applyFlowOutcome i out s) :=
  (h.rewrite hf hk).frame (raiseAll_flowsFrame _ _)

theorem arrivalNotice (i : FlowIx) (t : Tick) (q : BitVec 16) : DirectoryKept (arrivalNotice i t q s) := by
  unfold Machine.arrivalNotice
  split
  · exact h
  · next f hf => exact h.applyFlowOutcome hf (flowArrival_kept h.counts.silenceMin t q f)

theorem finishArrival (r : RingIx) (ref : Option FlowRef) (t : Tick) (q : BitVec 16) : DirectoryKept (finishArrival r ref t q s) := by
  unfold Machine.finishArrival
  split
  · exact h.countUntrackedArrival r
  · exact h.arrivalNotice _ t q

/-! ## Descriptor transfers (01 R9 to R17) -/

theorem takeArrival (hd : s.device ≠ .loading) (r : RingIx) (i : Nat) (key : Half) (q : BitVec 16) :
    DirectoryKept (takeArrival r i key q s) := by
  have h1 := h.lookup hd r key
  unfold Machine.takeArrival
  dsimp only
  exact (h1.modRing r _).notePeak.finishArrival r _ _ q

theorem overwriteOld (r : RingIx) (i : Nat) (p : PendingRecord) : DirectoryKept (overwriteOld r i p s) :=
  ((h.modRing r _).dropNotice r p).modRing r _

theorem takeOverwrite (hd : s.device ≠ .loading) (r : RingIx) (i : Nat) (p : PendingRecord) (key : Half) (q : BitVec 16) :
    DirectoryKept (takeOverwrite r i p key q s) := by
  have h1 := (h.overwriteOld r i p).lookup ((overwriteOld_frame r i p s).device.trans_ne hd) r key
  unfold Machine.takeOverwrite
  exact (h1.modRing r _).finishArrival r _ _ q

theorem takeWithdrawal (r : RingIx) (i : Nat) (p : PendingRecord) : DirectoryKept (takeWithdrawal r i p s) :=
  ((h.modRing r _).dropNotice r p).modRing r _

theorem takeFaultedWrite (r : RingIx) (i : Nat) (key : Half) (q : BitVec 16) : DirectoryKept (takeFaultedWrite r i key q s) := by
  have h1 : DirectoryKept (countParityFault r i s) := h.frame ⟨rfl, rfl, id⟩
  cases hg : slotGet (s.ring r).slots i with
  | none =>
    rw [takeFaultedWrite_empty r i key q s hg]
    exact (h1.modRing r _).notePeak.countUntrackedArrival r
  | some p =>
    rw [takeFaultedWrite_held r i p key q s hg]
    exact ((h1.overwriteOld r i p).modRing r _).countUntrackedArrival r

theorem descriptorWrite (hd : s.device ≠ .loading) (r : RingIx) (i : Nat) (data : List BusWord) :
    DirectoryKept (descriptorWrite r i data s) := by
  have h1 : DirectoryKept (resetSilence r s) := h.modRing r _
  unfold Machine.descriptorWrite
  dsimp only
  split
  · exact h1.takeFaultedWrite r i _ _
  · exact h1.takeArrival hd r i _ _
  · exact h1.modRing r _
  · exact h1
  · exact h1.takeOverwrite hd r i _ _ _
  · exact h1.takeWithdrawal r i _

theorem descriptorRead (r : RingIx) (i : Nat) : DirectoryKept (descriptorRead r i s) := by
  unfold Machine.descriptorRead
  split
  · exact (h.modRing r _).departureNotice r _ _
  · exact h.modRing r _

/-- A descriptor transfer is taken in MONITORING alone (01 R3), so that no flow is enrolled in LOADING. -/
theorem busTransfer (t : Transfer) : DirectoryKept (busTransfer t s) := by
  have h1 : DirectoryKept (takeTransfer t s) := by
    unfold takeTransfer
    split
    · next r i hr =>
      obtain ⟨hm, -, -⟩ := recognise_descriptor hr
      split
      · exact h.descriptorWrite (by rw [hm]; decide) r i _
      · exact h.descriptorRead r i
    · refine h.frame (foldl_flowsFrame ringOrder (fun u r => ?_) s)
      split <;> exact ⟨rfl, rfl, id⟩
    · exact h
  refine h1.frame ?_
  unfold Machine.busTransfer carryOut awaitData
  split <;> exact ⟨rfl, rfl, id⟩

/-! ## Bus resets, sweep visits and the clearing of tallies (01 R25; 06 R105, R118) -/

theorem flushRing (r : RingIx) : DirectoryKept (flushRing s r) := by
  have hdrops : ∀ (l : List (Nat × PendingRecord)) (u : State), DirectoryKept u →
      DirectoryKept (l.foldl (fun u p => Machine.dropNotice r p.2 u) u) := fun l u hu =>
    List.foldlRecOn l _ hu (fun u hu p _ => hu.dropNotice r p.2)
  unfold Machine.flushRing
  split
  · have h1 := (hdrops (s.ring r).slots _ (h.modRing r (fun x => { x with slots := [] }))).modRing r
      (fun x => { x with flushed := x.flushed + BitVec.ofNat 32 x.held, held := 0 })
    dsimp only
    split
    · exact h1
    · exact h1.frame (raise_flowsFrame _ _ _ _)
  · exact h

theorem busReset : DirectoryKept (busReset s) := by
  have h1 := List.foldlRecOn ringOrder Machine.flushRing h (fun u hu r _ => hu.flushRing r)
  unfold Machine.busReset
  split
  · exact h
  · generalize ringOrder.foldl Machine.flushRing s = u at h1 ⊢
    exact h1.frame ⟨rfl, rfl, id⟩

theorem sweepVisit (i : FlowIx) : DirectoryKept (sweepVisit i s) := by
  have h1 := h.rollIfLagging i
  unfold Machine.sweepVisit visitCycle
  dsimp only
  split
  · exact h1.frame ⟨rfl, rfl, id⟩
  · next f hf => exact (h1.applyFlowOutcome hf (visitFlow_kept _ f)).frame ⟨rfl, rfl, id⟩

theorem sweepPace : DirectoryKept (sweepPace s) := by
  unfold Machine.sweepPace
  split
  · have h1 : DirectoryKept { s with due := { s.due with sweepPace := false } } := h.frame ⟨rfl, rfl, id⟩
    dsimp only
    split
    · exact (h1.sweepVisit s.sweepNext).frame ⟨rfl, rfl, id⟩
    · exact h1
  · exact h

theorem clearCounts : DirectoryKept (clearCounts s) := by
  have hat : ∀ i, (Machine.clearCounts s).flowAt i = (s.flowAt i).map (clearFlow s.tally.periodNumber) := fun i => by
    simp [State.flowAt, State.entry, Machine.clearCounts, clearEntry]
  refine ⟨⟨fun i j f g hf hg hring hkey => ?_, fun i f hf => ?_⟩, h.counts, fun hl i => ?_⟩
  · rw [hat] at hf hg
    obtain ⟨a, ha, rfl⟩ := Option.map_eq_some_iff.mp hf
    obtain ⟨b, hb, rfl⟩ := Option.map_eq_some_iff.mp hg
    exact h.entries.directory i j a b ha hb hring hkey
  · rw [hat] at hf
    obtain ⟨a, ha, rfl⟩ := Option.map_eq_some_iff.mp hf
    exact (clearFlow_kept _ a).ok (h.entries.flows i a ha)
  · rw [hat, h.loading hl i]
    rfl

theorem clearTallies : DirectoryKept (clearTallies s) := by
  have h1 : DirectoryKept (startPeriod [] s) := h.frame ⟨rfl, rfl, id⟩
  unfold Machine.clearTallies
  split
  · exact h1.clearCounts
  · exact h.clearCounts
  · exact h

theorem secondsStrobe : DirectoryKept (secondsStrobe s) := by
  unfold Machine.secondsStrobe
  split
  · unfold chordStrobe
    split
    · split
      · exact h.frame ⟨rfl, rfl, id⟩
      · unfold authoriseChord
        dsimp only
        split
        · refine clearTallies (h.frame ?_)
          exact ⟨rfl, rfl, id⟩
        · exact h.frame ⟨rfl, rfl, id⟩
    · exact h.frame ⟨rfl, rfl, id⟩
  · exact h

/-! ## Requests (03 R54 to R57; 04 R82) -/

theorem createFlow (hd : s.device ≠ .loading) {r : RingIx} {key : Half} (hn : s.findKey r key = none) {p : Nat}
    (hp : p = 0 ∨ periodOk p) (params : FlowParams) : DirectoryKept (createFlow r key p params s).1 := by
  have hframe := createFlow_frame r key p params s
  exact ⟨h.entries.createFlow hn hp params, by rw [hframe.values]; exact h.counts,
    fun hl => absurd (hframe.device.symm.trans hl) hd⟩

theorem defineFlow (hd : s.device ≠ .loading) (ring : Nat) (key : Half) (a : FlowArgs) :
    DirectoryKept (defineFlow ring key a s).1 := by
  have hp := clampPeriod_ok a.period.toNat
  unfold Machine.defineFlow
  split
  · unfold defineFlowAt
    split
    · next hk => exact h.createFlow hd hk hp _
    · next i hk =>
      have h1 := h.rollIfLagging i
      dsimp only
      split
      · next hn =>
        exact h1.createFlow ((rollIfLagging_frame i s).device.trans_ne hd)
          (rollIfLagging_findKey_retired h.entries.directory hk hn) hp _
      · next f hf => exact h1.rewrite hf (redefineFlow_kept hp _ f)
  · exact h

theorem removeFlow (i : FlowIx) : DirectoryKept (removeFlow i s).1 := by
  unfold Machine.removeFlow
  split
  · exact h
  · dsimp only
    split
    · exact h.rollIfLagging i
    · exact (h.rollIfLagging i).vacate i

theorem setPeriod (i : FlowIx) (p : Nat) : DirectoryKept (setPeriod i p s).1 := by
  unfold Machine.setPeriod
  split
  · exact h
  · next f hf => exact h.rewrite hf (changePeriod_kept (clampPeriod_ok p) f)

theorem perform (req : Request) (hd : s.device ≠ .loading) : DirectoryKept (perform req s).1 := by
  cases req with
  | status => exact h
  | readFlow i p => exact (readFlow_state i p s).symm ▸ h
  | findFlow r k => exact h
  | defineFlow r k a => exact h.defineFlow hd _ _ _
  | removeFlow i => exact h.removeFlow _
  | setPeriod i p => exact h.setPeriod _ _
  | readRing r p => exact (readRing_state r p s).symm ▸ h
  | defineRing r b n o => exact h.frame (defineRing_flowsFrame _ _ _ _ _ s)
  | ringOff r => exact h.frame (ringOff_flowsFrame _ s)
  | readSummary n p => exact (readSummary_state n p s).symm ▸ h
  | takeIncidents n => exact h.frame (takeIncidents_flowsFrame n s)
  | acknowledge c => exact h.frame ⟨rfl, rfl, id⟩
  | setAlarmMap c m p d => exact h.frame (setAlarmMap_flowsFrame c m p d s)
  | setTallyPeriod c => exact h.frame (setTallyPeriod_flowsFrame c s)
  | clearTallies => exact h.clearTallies
  | restart => exact h
  | start => exact h.frame (startPart_flowsFrame s)

end DirectoryKept

/-! ## Power-on, restart and the load of an image (03 R60; 09 R163; 10 R164 to R167) -/

theorem DirectoryKept.init {s : State} (hf : s.flows = Vector.replicate 256 FlowEntry.init) (hv : s.values = DeviceValues.preload) :
    DirectoryKept s := by
  have hn : ∀ i, s.flowAt i = none := fun i => by
    rw [State.flowAt, State.entry, hf, Fin.getElem_fin, Vector.getElem_replicate]
    rfl
  refine ⟨⟨fun i _ f _ hi => ?_, fun i f hi => ?_⟩, ?_, fun _ => hn⟩
  · rw [hn] at hi
    cases hi
  · rw [hn] at hi
    cases hi
  · rw [hv]
    exact ⟨by decide, by decide, by decide, by decide⟩

theorem imageValues_counts (image : List Byte) : CountsOk (imageValues image) := by
  have hsilence := ((imageWord image 7).extractLsb' 8 8).isLt
  refine ⟨Nat.le_max_left _ _, ?_, Nat.le_max_left _ _, ?_⟩
  · simp only [imageValues]
    omega
  · simp only [imageValues, clamp]
    omega

/-- A flow entry of an image is refused, or defines a flow of a key pair that no entry has (03 R60; 10 R167). -/
theorem applyFlowEntry_entries (image : List Byte) (acc : State × Bool) (pos : Nat) (h : EntriesOk acc.1) :
    EntriesOk (applyFlowEntry image acc pos).1 := by
  unfold applyFlowEntry
  dsimp only
  split
  · split
    · exact h.of_flows rfl rfl
    · next hn =>
      split
      · next e => exact congrArg Prod.fst e ▸ h.createFlow hn (clampPeriod_ok _) _
      · next e => exact congrArg Prod.fst e ▸ h.createFlow hn (clampPeriod_ok _) _
  · exact h.of_flows rfl rfl

theorem applyFlowEntry_values (image : List Byte) (acc : State × Bool) (pos : Nat) :
    (applyFlowEntry image acc pos).1.values = acc.1.values := by
  unfold applyFlowEntry
  dsimp only
  split
  · split
    · rfl
    · split
      · next e => exact congrArg Prod.fst e ▸ (createFlow_frame _ _ _ _ acc.1).values
      · next e => exact congrArg Prod.fst e ▸ (createFlow_frame _ _ _ _ acc.1).values
  · rfl

/-- The tables of an image applied to an empty directory. -/
theorem applyTables_entries (image : List Byte) {s : State} (hn : ∀ i, s.flowAt i = none) :
    EntriesOk (applyTables image s).1 ∧ (applyTables image s).1.values = imageValues image := by
  have hrings := List.foldlRecOn (motive := fun acc : State × Bool => FlowsFrame { s with values := imageValues image } acc.1)
    (List.range (imageRings image)) (applyRingEntry image) (b := ({ s with values := imageValues image }, false)) (FlowsFrame.refl _)
    (fun acc hacc pos _ => hacc.trans (applyRingEntry_flowsFrame image acc pos))
  unfold applyTables
  dsimp only
  generalize (List.range (imageRings image)).foldl (applyRingEntry image) ({ s with values := imageValues image }, false) = rings
    at hrings ⊢
  have hempty : ∀ i, rings.1.flowAt i = none := fun i => (State.flowAt_eq_of_flows hrings.flows i).trans (hn i)
  refine List.foldlRecOn (motive := fun acc : State × Bool => EntriesOk acc.1 ∧ acc.1.values = imageValues image)
    (List.range (imageFlows image)) (applyFlowEntry image) ⟨⟨fun i _ f _ hi => ?_, fun i f hi => ?_⟩, hrings.values⟩
    (fun acc hacc pos _ => ⟨applyFlowEntry_entries image acc pos hacc.1, (applyFlowEntry_values image acc pos).trans hacc.2⟩)
  · rw [hempty] at hi
    cases hi
  · rw [hempty] at hi
    cases hi

theorem DirectoryKept.loadEnd {s : State} (h : DirectoryKept s) (image : List Byte) : DirectoryKept (loadEnd image s) := by
  unfold Machine.loadEnd endLoad
  split
  · next hl =>
    split
    · obtain ⟨hentries, hvalues⟩ := applyTables_entries (s.load.bytes ++ image) (h.loading hl)
      have hcounts := imageValues_counts (s.load.bytes ++ image)
      unfold applyImage
      generalize applyTables (s.load.bytes ++ image) s = out at hentries hvalues ⊢
      exact ⟨hentries.of_flows rfl rfl, hvalues ▸ hcounts, nofun⟩
    · exact h.frame (refuseImage_flowsFrame _ s)
  · exact h

theorem directoryKept_kept : KeptByCommands DirectoryKept where
  seenRisingEdge s h := h.frame (seenRisingEdge_flowsFrame s)
  measurementCompletion s h := h.frame (measurementCompletion_flowsFrame s)
  refLoss s h := h.frame (refLoss_flowsFrame s)
  tick pins s h := h.frame (tick_flowsFrame pins s)
  loadEnd image _ h := h.loadEnd image
  debouncedStateChange i s h := h.frame (debouncedStateChange_flowsFrame i s)
  sweepPace _ h := h.sweepPace
  millisecondStrobe s h := h.frame (millisecondStrobe_flowsFrame s)
  secondsStrobe _ h := h.secondsStrobe
  silenceTick s h := h.frame (silenceTick_flowsFrame s)
  boundary s h := h.frame (boundary_flowsFrame s)
  line _ _ h := h.frame ⟨rfl, rfl, id⟩
  restart _ _ := DirectoryKept.init rfl rfl
  perform req _ hd h := h.perform req hd
  pending _ _ h := h.frame ⟨rfl, rfl, id⟩
  powerOn _ _ _ := DirectoryKept.init rfl rfl
  busTransfer t _ h := h.busTransfer t
  readDataCheck data s h := h.frame (readDataCheck_flowsFrame data s)
  busReset _ h := h.busReset
  releaseReset _ h := h.frame ⟨rfl, rfl, id⟩
  clock _ _ h := h.frame ⟨rfl, rfl, id⟩

/-- Settles O57: a flow is written back by its own events, enters under a key pair that no entry has, or leaves. -/
theorem stepKeepsDirectory : Obligations.StepKeepsDirectory := by
  unfold Obligations.StepKeepsDirectory
  exact fun s t hdir hflows ht =>
    (directoryKept_iff t).mp (directoryKept_kept.step ((directoryKept_iff s).mpr ⟨hdir, hflows⟩) ht)

end Sys2Proof.Machine
end

