-- ==== Sys2Proof/Proofs/FlowRequests.lean ====
section
/-! DEFINE FLOW, REMOVE FLOW and SET PERIOD, and what a requested period does to a flow by its state (03 R46, R48, R52, R54 to R57;
04 R81, R82; 09 R161). -/

namespace Sys2Proof.Machine

/-! ## A requested period, by the state of the flow (03 R55; 04 R82) -/

section
variable {p q : Nat} {pend : Option Nat} {e : Tick} {f : FlowRecord}

theorem changePeriod_tracking (hp : p ≠ 0) (hc : f.cycle = .tracking q pend e) :
    changePeriod p f = if p = q ∧ pend = none then f else { f with cycle := .tracking q (some p) e } := by
  simp only [changePeriod, hp, if_false, hc]

theorem changePeriod_silent (hp : p ≠ 0) (hc : f.cycle = .silent q pend e) :
    changePeriod p f = if p = q ∧ pend = none then f else { f with cycle := .silent q (some p) e } := by
  simp only [changePeriod, hp, if_false, hc]

theorem changePeriod_waiting (hp : p ≠ 0) (hc : f.cycle = .waiting q) : changePeriod p f = { f with cycle := .waiting p } := by
  simp only [changePeriod, hp, if_false, hc]

theorem changePeriod_unperiodic (hp : p ≠ 0) (hc : (∃ ctx, f.cycle = .learning ctx) ∨ f.cycle = .acyclic) :
    changePeriod p f = { f with cycle := .waiting p, misses := 0 } := by
  obtain ⟨ctx, hc⟩ | hc := hc <;> simp only [changePeriod, hp, if_false, hc]

theorem changePeriod_zero_learning {ctx : LearningContext} (hc : f.cycle = .learning ctx) : changePeriod 0 f = f := by
  simp only [changePeriod, if_true, hc]

theorem changePeriod_zero (hc : ∀ ctx, f.cycle ≠ .learning ctx) :
    changePeriod 0 f = { f with cycle := .learning LearningContext.fresh, misses := 0 } := by
  unfold changePeriod
  rw [if_pos rfl]
  split
  · next ctx h => exact absurd h (hc ctx)
  · rfl

/-- The period of a flow changes alike before and after its origin and its parameters (03 R55 steps 2 to 4). -/
theorem redefineFlow_eq (p : Nat) (params : FlowParams) (f : FlowRecord) :
    redefineFlow p params f = { changePeriod p f with origin := .static, params := params } := by
  unfold redefineFlow changePeriod
  dsimp only
  split
  · split <;> rfl
  · split
    · split <;> rfl
    · split <;> rfl
    · rfl
    · rfl
    · rfl

end

/-! ## DEFINE FLOW on a key pair (03 R55, R56) -/

/-- In a directory without double keys a lookup of a flow's key pair finds its entry (03 R45). -/
theorem DirectoryOk.findKey {s : State} (h : DirectoryOk s) {i : FlowIx} {f : FlowRecord} (hf : s.flowAt i = some f) :
    s.findKey f.ring f.key = some i := by
  cases hk : s.findKey f.ring f.key with
  | none => exact absurd ⟨rfl, rfl⟩ ((State.findKey_none_iff s _ _).mp hk i f hf)
  | some j =>
    obtain ⟨g, hg, hring, hkey⟩ := State.findKey_flow hk
    rw [h j i g f hg hf hring hkey]

section
variable {s : State} {i : FlowIx} {f : FlowRecord} {r : RingIx} {key : Half} (p : Nat) (params : FlowParams)

theorem createFlow_full (h : ∀ i, s.flowAt i ≠ none) : createFlow r key p params s = (s, .full, []) := by
  simp only [createFlow, State.lowestVacant_none h]

theorem createFlow_vacant (hi : s.flowAt i = none) (h : ∀ k : FlowIx, k.val < i.val → s.flowAt k ≠ none) :
    createFlow r key p params s =
      (s.setFlow i (newFlow .static r key (definedCycle p) params s.tally.periodNumber), .ok, bytes1 i.val) := by
  simp only [createFlow, State.lowestVacant_some hi h]

theorem defineFlowAt_unknown (hk : s.findKey r key = none) : defineFlowAt r key p params s = createFlow r key p params s := by
  simp only [defineFlowAt, hk]

theorem defineFlowAt_current (hk : s.findKey r key = some i) (hf : s.flowAt i = some f) (ht : f.tag = s.tally.periodNumber) :
    defineFlowAt r key p params s = (s.setFlow i (redefineFlow p params f), .ok, bytes1 i.val) := by
  simp only [defineFlowAt, hk, rollIfLagging_current hf ht, hf]

/-- DEFINE FLOW of a lagging flow answers as in the state after the roll, whether the roll keeps the flow or retires it. -/
theorem defineFlowAt_rollFlow (hs : Lagging s i f) (hk : s.findKey r key = some i) (hsole : SoleKey s i r key) :
    defineFlowAt r key p params s = defineFlowAt r key p params (rollFlow i f s) := by
  cases hg : (rollFlow i f s).flowAt i with
  | none =>
    rw [defineFlowAt_unknown p params (rollFlow_findKey_retired hsole hg)]
    simp only [defineFlowAt, hk, rollIfLagging_lagging hs.flow hs.tag, hg]
  | some g =>
    have hkept := (rollFlow_findKey_kept (r := r) (key := key) hs hg).trans hk
    simp only [defineFlowAt, hk, hkept, rollIfLagging_lagging hs.flow hs.tag, rollIfLagging_rollFlow hg]

end

/-! ## Direct requests -/

section
variable {addr ring : Byte} {s : State} {r : RingIx} {key : Half} {args : FlowArgs}

theorem defineFlow_of_index {n : Nat} (h : r.val = n) : defineFlow n key args s =
    defineFlowAt r (key &&& s.values.keyMask) (clampedPeriod args.period.toNat) (clampedParams args) s := by
  subst h
  unfold defineFlow
  rw [dif_pos r.isLt]
  rfl

/-- A direct DEFINE FLOW on a ring that there is, by its answer in the state it is handled in. -/
theorem exec_defineFlow (h : Direct addr s) (hl : s.device ≠ .loading) (hr : r.val = ring.toNat) {u : State} {st : Status}
    {payload : List Byte}
    (hu : defineFlowAt r (key &&& s.values.keyMask) (clampedPeriod args.period.toNat) (clampedParams args) s.requested =
      (u, st, payload)) :
    exec (.defineFlow addr ring key args) s = .next (u.setReply (some (newReply u.straps.addr st payload false))) := by
  refine congrArg Host.Outcome.next (lineRequest_answered h hl (req := .defineFlow ring key args) nofun ?_)
  exact (defineFlow_of_index hr).trans hu

/-- A roll leaves a request direct. -/
theorem Direct.rollFlow (h : Direct addr s) (i : FlowIx) (f : FlowRecord) : Direct addr (rollFlow i f s) := by
  have hframe := rollFlow_frame i f s
  obtain ⟨haddr, hne, hreply⟩ := h
  exact ⟨by rw [hframe.straps]; exact haddr, hne, by rw [hframe.line]; exact hreply⟩

/-- A direct DEFINE FLOW that finds a lagging flow rolls it first. -/
theorem exec_defineFlow_rollFlow (h : Direct addr s) (hl : s.device ≠ .loading) (hr : r.val = ring.toNat) {i : FlowIx} {f : FlowRecord}
    (hs : Lagging s i f) (hk : s.findKey r (key &&& s.values.keyMask) = some i) (hsole : SoleKey s i r (key &&& s.values.keyMask)) :
    exec (.defineFlow addr ring key args) s = exec (.defineFlow addr ring key args) (rollFlow i f s) := by
  have hframe := rollFlow_frame i f s
  have hs' : Lagging s.requested i f := ⟨hs.flow, hs.tag⟩
  have hanswer := defineFlowAt_rollFlow (clampedPeriod args.period.toNat) (clampedParams args) hs' hk hsole
  have hrolled : defineFlowAt r (key &&& (rollFlow i f s).values.keyMask) (clampedPeriod args.period.toNat) (clampedParams args)
      (rollFlow i f s).requested = defineFlowAt r (key &&& s.values.keyMask) (clampedPeriod args.period.toNat) (clampedParams args)
      (rollFlow i f s.requested) := by rw [hframe.values, requested_rollFlow]
  generalize defineFlowAt r _ _ _ (rollFlow i f s.requested) = out at hanswer hrolled
  obtain ⟨u, st, payload⟩ := out
  rw [exec_defineFlow h hl hr hanswer, exec_defineFlow (h.rollFlow i f) (hframe.device.trans_ne hl) hr hrolled]

end

/-- Settles O45: DEFINE FLOW by what the directory holds of the key pair. -/
theorem defineFlowRequest : Obligations.DefineFlowRequest := by
  unfold Obligations.DefineFlowRequest
  intro addr s ring key args h hl
  refine ⟨?noRing, ?full, ?created, ?changed, ?lagging⟩
  case noRing =>
    intro hring
    have hn : ¬ ring.toNat < 16 := by omega
    refine congrArg Host.Outcome.next (lineRequest_answered h hl (req := .defineFlow ring key args) nofun
      (u := s.requested) (st := .badArgument) (payload := []) ?_)
    simp [perform, defineFlow, hn]
  case full =>
    intro hring hfree hall
    have hk := (State.findKey_none_iff s.requested _ _).mpr (hfree ⟨ring.toNat, by omega⟩ rfl)
    exact exec_defineFlow h hl rfl ((defineFlowAt_unknown _ _ hk).trans (createFlow_full _ _ hall))
  case created =>
    intro r j hr hfree hj hlow
    have hk := (State.findKey_none_iff s.requested _ _).mpr (hfree r hr)
    exact exec_defineFlow h hl hr ((defineFlowAt_unknown _ _ hk).trans (createFlow_vacant _ _ hj hlow))
  case changed =>
    intro r i f hdir hr hf hring hkey ht
    have hk := hdir.findKey hf
    rw [hring, hkey] at hk
    have hu := defineFlowAt_current (s := s.requested) (clampedPeriod args.period.toNat) (clampedParams args) hk hf ht
    rw [redefineFlow_eq] at hu
    exact exec_defineFlow h hl hr hu
  case lagging =>
    intro r i f hdir hr hf hring hkey ht
    have hk := hdir.findKey hf
    rw [hring, hkey] at hk
    exact exec_defineFlow_rollFlow h hl hr ⟨hf, ht⟩ hk (hdir.soleKey hk)

/-! ## REMOVE FLOW and SET PERIOD (03 R57; 04 R82) -/

section
variable {s : State} {i : FlowIx} {f : FlowRecord}

theorem removeFlow_vacant (h : s.flowAt i = none) : removeFlow i s = (s, .notFound) := by simp only [removeFlow, h]

theorem removeFlow_current (hf : s.flowAt i = some f) (ht : f.tag = s.tally.periodNumber) : removeFlow i s = (s.vacate i, .ok) := by
  simp only [removeFlow, hf, rollIfLagging_current hf ht]

theorem setPeriod_vacant (h : s.flowAt i = none) (p : Nat) : setPeriod i p s = (s, .notFound) := by simp only [setPeriod, h]

theorem setPeriod_flow (hf : s.flowAt i = some f) (p : Nat) :
    setPeriod i p s = (s.setFlow i (changePeriod (clampedPeriod p) f), .ok) := by
  simp only [setPeriod, hf]
  rfl

end

section
variable {addr index : Byte} {s u : State} {st : Status}

theorem exec_removeFlow (h : Direct addr s) (hl : s.device ≠ .loading) (hu : removeFlow index.toFin s.requested = (u, st)) :
    exec (.removeFlow addr index) s = .next (u.setReply (some (newReply u.straps.addr st [] false))) := by
  refine congrArg Host.Outcome.next (lineRequest_answered h hl (req := .removeFlow index) nofun ?_)
  rw [perform, hu]
  rfl

theorem exec_setPeriod (h : Direct addr s) (hl : s.device ≠ .loading) {period : BitVec 32}
    (hu : setPeriod index.toFin period.toNat s.requested = (u, st)) :
    exec (.setPeriod addr index period) s = .next (u.setReply (some (newReply u.straps.addr st [] false))) := by
  refine congrArg Host.Outcome.next (lineRequest_answered h hl (req := .setPeriod index period) nofun ?_)
  rw [perform, hu]
  rfl

end

/-- Settles O46: the two requests by the entry, and the table of R55 by the state of the flow. -/
theorem removeFlowAndSetPeriod : Obligations.RemoveFlowAndSetPeriod := by
  unfold Obligations.RemoveFlowAndSetPeriod
  refine ⟨?requests, ?periods, ?learn⟩
  case requests =>
    intro addr s index period h hl
    exact ⟨fun hn => ⟨exec_removeFlow h hl (removeFlow_vacant (s := s.requested) hn),
        exec_setPeriod h hl (setPeriod_vacant (s := s.requested) hn _)⟩,
      fun f hf => ⟨fun ht => exec_removeFlow h hl (removeFlow_current (s := s.requested) hf ht),
        exec_setPeriod h hl (setPeriod_flow (s := s.requested) hf _)⟩⟩
  case periods =>
    intro p f hp
    refine ⟨fun q e hc hq => ?_, fun q pend e hc hne => ?_, fun q e hc hq => ?_, fun q pend e hc hne => ?_,
      fun q hc => changePeriod_waiting hp hc, changePeriod_unperiodic hp⟩
    · rw [changePeriod_tracking hp hc, if_pos ⟨hq, rfl⟩]
    · rw [changePeriod_tracking hp hc, if_neg hne]
    · rw [changePeriod_silent hp hc, if_pos ⟨hq, rfl⟩]
    · rw [changePeriod_silent hp hc, if_neg hne]
  case learn =>
    exact fun f => ⟨fun ctx hc => changePeriod_zero_learning hc, changePeriod_zero⟩

end Sys2Proof.Machine
end

