-- ==== Sys2Proof/Proofs/ReplyLayouts.lean ====
section
/-! SUPPORT. The reply payloads of the read requests as the layouts give their fields, and their lengths (09 R157 to R160; 10 R169). -/

namespace Sys2Proof.Machine

/-! ## Codes, flags and optional fields (10 R169) -/

theorem DeviceState.code_eq (d : DeviceState) : d.code = [DeviceState.loading, .unconfigured, .monitoring].idxOf d := by
  cases d <;> rfl

theorem Cause.code_eq (c : Cause) : c.code = [Cause.powerOn, .restart].idxOf c := by cases c <;> rfl

theorem ConfigResult.code_eq (r : ConfigResult) :
    r.code = [ConfigResult.good, .partly, .absent, .badMark, .badSum, .badContent, .none].idxOf r := by
  cases r <;> rfl

theorem SourceState.code_eq (x : SourceState) : x.code = [SourceState.nominal, .locked, .holdover].idxOf x := by cases x <;> rfl

theorem Origin.code_eq (o : Origin) : o.code = [Origin.static, .learned].idxOf o := by cases o <;> rfl

theorem SilenceState.code_eq (x : SilenceState) : x.code = [SilenceState.active, .silent].idxOf x := by cases x <;> rfl

theorem Quality.code_eq (q : Quality) : q.code = [Quality.locked, .degraded].idxOf q := by cases q <;> rfl

theorem flag_eq (b : Bool) : flag b = b.toNat := by cases b <;> rfl

theorem presence_one (a : Bool) : presence [a] = bytes1 a.toNat := by simp [presence, flag_eq]

theorem presence_two (a b : Bool) : presence [a, b] = bytes1 (a.toNat + 2 * b.toNat) := by
  simp [presence, flag_eq, Nat.mul_comm]

theorem presence_three (a b c : Bool) : presence [a, b, c] = bytes1 (a.toNat + 2 * b.toNat + 4 * c.toNat) := by
  simp [presence, flag_eq, Nat.mul_comm, Nat.add_assoc]

/-- An absent tick count value is sent as 0. -/
theorem getD_tick (x : Option Tick) : (x.map (fun t => t.toNat)).getD 0 = (x.getD 0).toNat := by cases x <;> rfl

theorem byte_cons (b : Byte) (l : List Byte) : b :: l = bytes1 b.toNat ++ l := by simp [bytes1]

theorem Cycle.shown_eq (c : Cycle) : c.shown = (c.code, c.periodInForce, c.pendingPeriod, c.anchor,
    orZero (c.context.map (fun x => x.intervals.length)), orZero (c.context.map (fun x => x.attempt))) := by
  cases c <;> rfl

/-! ## Payloads field by field -/

theorem layout_length (l : List (Nat × Nat)) : (layout l).length = (l.map Prod.fst).sum := by
  simp [layout, List.length_flatMap]

theorem layout_words (l : List Nat) : layout (l.map (fun n => (4, n))) = l.flatMap bytes4 := by
  induction l with
  | nil => rfl
  | cons n rest ih => rw [List.map_cons, layout_four, ih, List.flatMap_cons]

/-- STATUS (09 R157). -/
theorem statusPayload_eq (s : State) : statusPayload s = layout s.statusFields := by
  unfold statusPayload State.statusFields
  simp only [layout_one, layout_two, layout_four, layout_nil, List.append_assoc, List.append_nil,
    DeviceState.code_eq, Cause.code_eq, ConfigResult.code_eq, SourceState.code_eq, Priority.toByte, flag_eq, byte_cons]
  rfl

theorem statusFields_length (s : State) : (layout s.statusFields).length = 28 := by
  rw [layout_length]
  simp [State.statusFields]

section
variable (f : FlowRecord) (i : Nat) (gen : BitVec 4)

theorem flowPart0_eq : flowPart0 i gen f = layout (f.shownFields 0 i gen) := by
  unfold flowPart0 FlowRecord.shownFields
  rw [Cycle.shown_eq]
  simp only [Origin.code_eq, presence_three, flag_eq, orZero, getD_tick]
  simp only [layout_one, layout_two, layout_four, layout_nil, List.append_assoc, List.append_nil]

theorem flowPart1_eq : flowPart1 i f = layout (f.shownFields 1 i gen) := by
  unfold flowPart1 FlowRecord.shownFields
  simp only [layout_one, layout_four, layout_nil, List.append_assoc, List.append_nil, bytesInt4,
    presence_two]

theorem flowPart2_eq : flowPart2 i f = layout (f.shownFields 2 i gen) := by
  unfold flowPart2 FlowRecord.shownFields
  simp only [layout_one, layout_four, layout_nil, List.append_assoc, List.append_nil, presence_one,
    orZero]

theorem flowPart3_eq : flowPart3 i f = layout (f.shownFields 3 i gen) := by
  unfold flowPart3 FlowRecord.shownFields
  simp only [layout_one, layout_two, layout_four, layout_nil, List.append_assoc, List.append_nil,
    presence_one, orZero]

/-- READ FLOW, each of its four parts (09 R158). -/
theorem flowPart_eq {n : Nat} (hn : n ≤ 3) : flowPart n i gen f = layout (f.shownFields n i gen) := by
  match n, hn with
  | 0, _ => exact flowPart0_eq f i gen
  | 1, _ => exact flowPart1_eq f i gen
  | 2, _ => exact flowPart2_eq f i gen
  | 3, _ => exact flowPart3_eq f i gen

theorem flowFields_length {n : Nat} (hn : n ≤ 3) : (layout (f.shownFields n i gen)).length =
    if n = 0 then 48 else if n = 1 then 43 else if n = 2 then 35 else 33 := by
  rw [layout_length]
  unfold FlowRecord.shownFields
  rw [Cycle.shown_eq]
  match n, hn with
  | 0, _ => simp
  | 1, _ => simp
  | 2, _ => simp
  | 3, _ => simp

/-- FIND FLOW (03 R58; 09 R161). -/
theorem findPayload_eq (j : FlowIx) : findPayload j gen f =
    layout [(1, j.val), (1, f.cycle.shown.1), (1, [Origin.static, .learned].idxOf f.origin), (1, gen.toNat)] := by
  simp only [findPayload, Cycle.shown_eq, Origin.code_eq, layout_one, layout_nil, List.append_assoc, List.append_nil]

end

theorem Vector.toList_eq_map_finRange {n : Nat} (v : Vector Nat n) : v.toList = (List.finRange n).map (fun i => v[i]) := by
  refine List.ext_getElem (by simp) (fun i _ _ => by simp)

section
variable (x : RingRecord) (r : RingIx)

/-- READ RING, each of its three parts (09 R159). -/
theorem ringPart_eq {n : Nat} (hn : n ≤ 2) : ringPart n r.val x = layout (x.shownFields n r) := by
  unfold ringPart RingRecord.shownFields
  match n, hn with
  | 0, _ =>
    simp only [layout_one, layout_two, layout_three, layout_four, layout_nil, List.append_assoc, List.append_nil, flag_eq]
  | 1, _ =>
    simp only [layout_one, layout_four, layout_nil, List.append_assoc, List.append_nil, SilenceState.code_eq]
  | 2, _ =>
    have hwords := layout_words ((List.finRange 8).map (fun b => x.histogram[b]))
    rw [List.map_map, ← Vector.toList_eq_map_finRange] at hwords
    simp only [layout_one, List.append_assoc, ← hwords, Function.comp_def]

theorem ringFields_length {n : Nat} (hn : n ≤ 2) : (layout (x.shownFields n r)).length =
    if n = 0 then 32 else if n = 1 then 28 else 34 := by
  rw [layout_length]
  unfold RingRecord.shownFields
  match n, hn with
  | 0, _ => simp
  | 1, _ => simp
  | 2, _ => simp [Function.comp_def]

end

section
variable (q : Summary)

/-- READ SUMMARY, both its parts (09 R160). -/
theorem summaryPart_eq {n : Nat} (hn : n ≤ 1) : summaryPart n q = layout (q.shownFields n) := by
  unfold summaryPart Summary.shownFields
  match n, hn with
  | 0, _ =>
    unfold summaryPart0
    cases q.phase <;>
      simp only [if_true, layout_one, layout_two, layout_four, layout_nil, List.append_assoc, List.append_nil, SummaryPhase.code,
        Quality.code_eq, presence_three, orZero, getD_tick, Option.getD_none, Option.getD_some]
  | 1, _ =>
    unfold summaryPart1
    simp only [Nat.one_ne_zero, if_false, layout_one, layout_two, layout_four, layout_nil, List.append_assoc, List.append_nil]

theorem summaryFields_length {n : Nat} (hn : n ≤ 1) : (layout (q.shownFields n)).length = if n = 0 then 35 else 51 := by
  rw [layout_length]
  unfold Summary.shownFields
  match n, hn with
  | 0, _ => simp
  | 1, _ => simp

end

end Sys2Proof.Machine
end

