-- ==== Sys2Proof/Proofs/ReadRequests.lean ====
section
/-! STATUS, READ FLOW, FIND FLOW, READ RING and READ SUMMARY: what each is refused for, and the payload it is answered with (03 R58;
09 R157 to R160; 10 R169). -/

namespace Sys2Proof.Machine

/-! ## Requests that change nothing but the line (09 R154, R155) -/

section
variable {addr : Byte} {s : State}

theorem exec_request (addr : Byte) (req : Request) (s : State) : exec (req.command addr) s = .next (lineRequest addr req s) := by
  cases req <;> rfl

/-- A direct request that leaves the state it is handled in. -/
theorem exec_read (h : Direct addr s) (hl : s.device ≠ .loading) (req : Request) (hreq : req ≠ .restart) {st : Status}
    {payload : List Byte} (hp : perform req s.requested = (s.requested, st, payload)) :
    exec (req.command addr) s = .next (s.replied st payload) := by
  rw [exec_request, lineRequest_answered h hl hreq hp]
  rfl

/-- STATUS is answered in LOADING too (09 R153). -/
theorem exec_status (h : Direct addr s) : exec (.status addr) s = .next (s.replied .ok (statusPayload s)) := by
  show Host.Outcome.next (lineRequest addr .status s) = _
  rw [lineRequest_direct h, handleRequest]
  have ha : answer .status s.requested = (s.requested, .ok, statusPayload s) := by
    rw [answer, if_neg (fun hc => Bool.noConfusion hc.2)]
    rfl
  simp only [ha]
  rfl

end

/-! ## The checks and the answers of each request -/

section
variable {s : State} {index part : Byte}

theorem readFlow_badPart (h : 3 < part.toNat) : readFlow index part s = (s, .badArgument, []) := if_pos h

theorem readFlow_vacant (h : part.toNat ≤ 3) (hf : s.flowAt index.toFin = none) : readFlow index part s = (s, .notFound, []) := by
  simp only [readFlow, Nat.not_lt.mpr h, if_false, hf]

theorem readFlow_flow (h : part.toNat ≤ 3) {f : FlowRecord} (hf : s.flowAt index.toFin = some f) : readFlow index part s =
    (s, .ok, layout (f.shownFields part.toNat index.toNat (s.entry index.toFin).gen)) := by
  simp only [readFlow, Nat.not_lt.mpr h, if_false, hf, flowPart_eq f _ _ h]

variable {n : Nat} {key : Half}

theorem findFlow_badRing (h : 15 < n) : findFlow n key s = (.badArgument, []) := dif_neg (by omega)

theorem findFlow_unknown {r : RingIx} (hr : n = r.val) (hk : s.findKey r (key &&& s.values.keyMask) = none) :
    findFlow n key s = (.notFound, []) := by
  subst hr
  simp only [findFlow, r.isLt, dite_true, hk]

theorem findFlow_flow {r : RingIx} (hr : n = r.val) {i : FlowIx} {f : FlowRecord}
    (hk : s.findKey r (key &&& s.values.keyMask) = some i) (hf : s.flowAt i = some f) : findFlow n key s =
    (.ok, layout [(1, i.val), (1, f.cycle.shown.1), (1, [Origin.static, .learned].idxOf f.origin), (1, (s.entry i).gen.toNat)]) := by
  subst hr
  simp only [findFlow, r.isLt, dite_true, hk, hf, findPayload_eq]

variable {ring : Byte}

theorem readRing_refused (h : 15 < ring.toNat ∨ 2 < part.toNat) : readRing ring part s = (s, .badArgument, []) := by
  unfold readRing
  split
  · next hr => rw [if_pos (h.resolve_left (by omega))]
  · rfl

theorem readRing_ring {r : RingIx} (hr : ring.toNat = r.val) (h : part.toNat ≤ 2) :
    readRing ring part s = (s, .ok, layout ((s.ring r).shownFields part.toNat r)) := by
  have hlt : ring.toNat < 16 := hr ▸ r.isLt
  have hix : (⟨ring.toNat, hlt⟩ : RingIx) = r := Fin.ext hr
  rw [readRing, dif_pos hlt, if_neg (Nat.not_lt.mpr h), hix, hr, ringPart_eq _ _ h]

variable {number : Half}

theorem readSummary_badPart (h : 1 < part.toNat) : readSummary number part s = (s, .badArgument, []) := if_pos h

theorem readSummary_unknown (h : part.toNat ≤ 1) (hn : ∀ q ∈ s.tally.history, q.number ≠ number) :
    readSummary number part s = (s, .notFound, []) := by
  have hfind : s.tally.history.find? (fun q => q.number == number) = none := by simpa using hn
  simp only [readSummary, Nat.not_lt.mpr h, if_false, hfind]

/-- The oldest summary of the number is the one shown. -/
theorem readSummary_summary (h : part.toNat ≤ 1) {q : Summary} {before after : List Summary}
    (hh : s.tally.history = before ++ q :: after) (hq : q.number = number) (hn : ∀ p ∈ before, p.number ≠ number) :
    readSummary number part s = (s, .ok, layout (q.shownFields part.toNat)) := by
  have hfind : s.tally.history.find? (fun q => q.number == number) = some q := by
    rw [List.find?_eq_some_iff_append]
    exact ⟨by simpa using hq, before, after, hh, fun p hp => by simpa using hn p hp⟩
  simp only [readSummary, Nat.not_lt.mpr h, if_false, hfind, summaryPart_eq q h]

end

/-! ## The part of a request as a byte and as a number -/

theorem byte_eq_zero (b : Byte) : b = 0 ↔ b.toNat = 0 := BitVec.toNat_inj.symm

theorem byte_eq_one (b : Byte) : b = 1 ↔ b.toNat = 1 := BitVec.toNat_inj.symm

theorem byte_eq_two (b : Byte) : b = 2 ↔ b.toNat = 2 := BitVec.toNat_inj.symm

/-- Settles O44: each request by its checks in their order, and its payload by the layout of its part. -/
theorem readRequestsAnswer : Obligations.ReadRequestsAnswer := by
  unfold Obligations.ReadRequestsAnswer
  intro addr s h
  refine ⟨⟨statusPayload_eq s ▸ exec_status h, statusFields_length s⟩, fun hl => ?_⟩
  refine ⟨?flowPart, ?flowVacant, ?flow, ?findRing, ?findUnknown, ?find, ?ringRefused, ?ring, ?summaryPart, ?summaryUnknown, ?summary⟩
  case flowPart => exact fun index part hpart => exec_read h hl (.readFlow index part) nofun (readFlow_badPart hpart)
  case flowVacant =>
    intro index part hpart hf
    exact exec_read h hl (.readFlow index part) nofun (readFlow_vacant (s := s.requested) hpart hf)
  case flow =>
    intro index part f hpart hf
    exact ⟨exec_read h hl (.readFlow index part) nofun (readFlow_flow (s := s.requested) hpart hf),
      by simpa only [byte_eq_zero, byte_eq_one, byte_eq_two] using flowFields_length f index.toNat (s.entry index.toFin).gen hpart⟩
  case findRing =>
    intro ring key hring
    exact exec_read h hl (.findFlow ring key) nofun (congrArg (Prod.mk s.requested) (findFlow_badRing hring))
  case findUnknown =>
    intro ring r key hr hfree
    have hk := (State.findKey_none_iff s.requested _ _).mpr hfree
    exact exec_read h hl (.findFlow ring key) nofun (congrArg (Prod.mk s.requested) (findFlow_unknown hr hk))
  case find =>
    intro ring r key i f hdir hr hf hring hkey
    have hk := hdir.findKey hf
    rw [hring, hkey] at hk
    exact exec_read h hl (.findFlow ring key) nofun (congrArg (Prod.mk s.requested) (findFlow_flow (s := s.requested) hr hk hf))
  case ringRefused => exact fun ring part hp => exec_read h hl (.readRing ring part) nofun (readRing_refused hp)
  case ring =>
    intro ring r part hr hpart
    exact ⟨exec_read h hl (.readRing ring part) nofun (readRing_ring (s := s.requested) hr hpart),
      by simpa only [byte_eq_zero, byte_eq_one] using ringFields_length (s.ring r) r hpart⟩
  case summaryPart => exact fun number part hpart => exec_read h hl (.readSummary number part) nofun (readSummary_badPart hpart)
  case summaryUnknown =>
    intro number part hpart hn
    exact exec_read h hl (.readSummary number part) nofun (readSummary_unknown (s := s.requested) hpart hn)
  case summary =>
    intro number part q before after hpart hh hq hn
    exact ⟨exec_read h hl (.readSummary number part) nofun (readSummary_summary (s := s.requested) hpart hh hq hn),
      by simpa only [byte_eq_zero] using summaryFields_length q hpart⟩

end Sys2Proof.Machine
end

