-- ==== Sys2Proof/Proofs/CycleArrivals.lean ====
section
/-! What an arrival notice does to the cycle of a flow, state by state (04 R61 to R76). -/

namespace Sys2Proof.Machine

/-! ## Elapsed cycles and the phase error (04 R67, R70) -/

section
variable {p n : Nat} {anchor t : Tick}

/-- The distance from an anchor moved on, where it still reads as a signed 32-bit number. -/
theorem tickDiffSigned_advanceAnchor (hlow : -2147483648 ≤ tickDiffSigned t anchor - (n * p : Nat))
    (hhigh : tickDiffSigned t anchor - (n * p : Nat) < 2147483648) :
    tickDiffSigned t (advanceAnchor anchor p n) = tickDiffSigned t anchor - (n * p : Nat) := by
  have hsub : t - advanceAnchor anchor p n = (t - anchor) - BitVec.ofNat 32 (n * p) := (BitVec.sub_sub _ _ _).symm
  simp only [tickDiffSigned] at hlow hhigh ⊢
  rw [hsub, BitVec.toInt_sub, BitVec.toInt_ofNat', Int.sub_bmod_bmod]
  exact Int.bmod_eq_of_le (by omega) (by omega)

/-- A time k cycles on is inside the window of cycle k: its phase error there is from -h to P - h - 1. -/
theorem elapsedCycles_window (hp : 0 < p) :
    -((p / 2 : Nat) : Int) ≤ tickDiffSigned t anchor - elapsedCycles p anchor t * p ∧
      tickDiffSigned t anchor - elapsedCycles p anchor t * p ≤ ((p - p / 2 - 1 : Nat) : Int) := by
  have hpos : 0 < (p : Int) := by omega
  have hle := Int.ediv_mul_le (tickDiffSigned t anchor + (p / 2 : Nat)) hpos.ne'
  have hlt := Int.lt_ediv_add_one_mul_self (tickDiffSigned t anchor + (p / 2 : Nat)) hpos
  rw [Int.add_mul, Int.one_mul] at hlt
  simp only [elapsedCycles]
  omega

/-- The anchor moved on by no more cycles than have elapsed. -/
theorem tickDiffSigned_elapsed (hp : 0 < p) (hmax : p ≤ 16777215) (hn : (n : Int) ≤ elapsedCycles p anchor t) :
    tickDiffSigned t (advanceAnchor anchor p n) = tickDiffSigned t anchor - n * p := by
  have hlow := (elapsedCycles_window (anchor := anchor) (t := t) hp).1
  have hmul : (n : Int) * p ≤ elapsedCycles p anchor t * p := Int.mul_le_mul_of_nonneg_right hn (by omega)
  have hnonneg : 0 ≤ (n : Int) * p := by positivity
  have hdist : tickDiffSigned t anchor < 2147483648 := BitVec.toInt_lt (x := t - anchor)
  rw [tickDiffSigned_advanceAnchor] <;> push_cast <;> omega

theorem elapsedCycles_advanceAnchor (hp : 0 < p) (hmax : p ≤ 16777215) (hn : (n : Int) ≤ elapsedCycles p anchor t) :
    elapsedCycles p (advanceAnchor anchor p n) t = elapsedCycles p anchor t - n := by
  have hpos : (p : Int) ≠ 0 := by omega
  rw [elapsedCycles, tickDiffSigned_elapsed hp hmax hn, elapsedCycles, sub_add_eq_add_sub, Int.sub_mul_ediv_right _ _ hpos]

theorem elapsedCycles_mono {now : Tick} (hp : 0 < p) (h : tickDiffSigned now anchor ≤ tickDiffSigned t anchor) :
    elapsedCycles p anchor now ≤ elapsedCycles p anchor t := by
  simp only [elapsedCycles]
  exact Int.ediv_le_ediv (Int.natCast_pos.mpr hp) (by omega)

theorem advanceAnchor_zero : advanceAnchor anchor p 0 = anchor := by simp [advanceAnchor]

theorem advanceAnchor_advanceAnchor (m : Nat) : advanceAnchor (advanceAnchor anchor p n) p m = advanceAnchor anchor p (n + m) := by
  simp only [advanceAnchor, Nat.add_mul, BitVec.ofNat_add, BitVec.add_assoc]

end

/-! ## The accounting step (04 R68) -/

theorem satAdd_satAdd (cap n a b : Nat) : satAdd cap (satAdd cap n a) b = satAdd cap n (a + b) := by
  simp only [satAdd]
  omega

/-- A flow record with n cycles counted missed; none leaves it as it is. -/
def FlowRecord.missing (n : Nat) (f : FlowRecord) : FlowRecord :=
  if n = 0 then f
  else { f with
    running := { f.running with missed := satAdd max32 f.running.missed n }
    period := { f.period with missed := satAdd max16 f.period.missed n }
    misses := f.misses + n }

theorem FlowRecord.missing_zero (f : FlowRecord) : f.missing 0 = f := if_pos rfl

theorem FlowRecord.missing_pos {n : Nat} (hn : n ≠ 0) (f : FlowRecord) : f.missing n = { f with
    running := { f.running with missed := satAdd max32 f.running.missed n }
    period := { f.period with missed := satAdd max16 f.period.missed n }
    misses := f.misses + n } := if_neg hn

theorem FlowRecord.missing_missing (a b : Nat) (f : FlowRecord) : (f.missing a).missing b = f.missing (a + b) := by
  rcases Nat.eq_zero_or_pos a with rfl | ha
  · rw [missing_zero, Nat.zero_add]
  · rcases Nat.eq_zero_or_pos b with rfl | hb
    · rw [missing_zero, Nat.add_zero]
    · rw [missing_pos ha.ne', missing_pos hb.ne', missing_pos (by omega)]
      simp only [satAdd_satAdd, Nat.add_assoc]

theorem FlowRecord.missing_misses (n : Nat) (f : FlowRecord) : (f.missing n).misses = f.misses + n := by
  unfold missing
  split
  · next hn => rw [hn, Nat.add_zero]
  · rfl

theorem FlowRecord.missing_cycle (n : Nat) (f : FlowRecord) (c : Cycle) :
    ({ f with cycle := c } : FlowRecord).missing n = { f.missing n with cycle := c } := by
  unfold missing
  split <;> rfl

theorem countArrival_missing (n : Nat) (f : FlowRecord) : countArrival (f.missing n) = (countArrival f).missing n := by
  unfold FlowRecord.missing
  split <;> rfl

section
variable {silenceCount n p : Nat} {pend : Option Nat} {anchor : Tick} {f : FlowRecord}

theorem accountCycles_eq :
    accountCycles silenceCount n p pend anchor f =
      let counted := min n (silenceCount - f.misses)
      ({ f with
        running := { f.running with missed := satAdd max32 f.running.missed counted }
        period := { f.period with missed := satAdd max16 f.period.missed counted }
        misses := f.misses + counted
        cycle := if f.misses + counted = silenceCount then .silent p pend (advanceAnchor anchor p n)
          else .tracking p pend (advanceAnchor anchor p n) },
        if f.misses + counted = silenceCount then [(.flowSilent, p)] else []) := by
  unfold accountCycles
  dsimp only
  split <;> rfl

/-- Below the silence count all n cycles are counted missed, and the flow stays in TRACKING. -/
theorem accountCycles_below (hn : 0 < n) (h : f.misses + n < silenceCount) :
    accountCycles silenceCount n p pend anchor f =
      ({ f.missing n with cycle := .tracking p pend (advanceAnchor anchor p n) }, []) := by
  have hcounted : min n (silenceCount - f.misses) = n := by omega
  simp only [accountCycles_eq, hcounted, FlowRecord.missing_pos hn.ne', if_neg h.ne]

/-- At the silence count only the cycles up to it are counted missed, and the flow falls SILENT. -/
theorem accountCycles_silence (hm : f.misses < silenceCount) (h : silenceCount ≤ f.misses + n) :
    accountCycles silenceCount n p pend anchor f =
      ({ f.missing (silenceCount - f.misses) with cycle := .silent p pend (advanceAnchor anchor p n) }, [(.flowSilent, p)]) := by
  have hcounted : min n (silenceCount - f.misses) = silenceCount - f.misses := by omega
  have hsum : f.misses + (silenceCount - f.misses) = silenceCount := by omega
  have hsome : silenceCount - f.misses ≠ 0 := by omega
  simp only [accountCycles_eq, hcounted, FlowRecord.missing_pos hsome, hsum, if_true]

end

/-! ## Classified arrivals (04 R70 to R72) -/

theorem nextCycle_eq (p : Nat) (pend : Option Nat) (anchor : Tick) :
    nextCycle p pend anchor = .tracking (pend.getD p) none (anchor + BitVec.ofNat 32 (pend.getD p)) := by
  cases pend <;> rfl

theorem worstEarlyAfter_eq (w : Option Int) (e : Int) :
    worstEarlyAfter w e = if e < 0 then some (min e (w.getD e)) else w := by
  unfold worstEarlyAfter
  split
  · cases w with
    | none => simp
    | some x => dsimp only; split <;> simp <;> omega
  · rfl

theorem worstLateAfter_eq (w : Option Int) (e : Int) :
    worstLateAfter w e = if 0 < e then some (max e (w.getD e)) else w := by
  unfold worstLateAfter
  split
  · cases w with
    | none => simp
    | some x => dsimp only; split <;> simp <;> omega
  · rfl

/-- The tallies of a classified arrival, by the two comparisons of its phase error: never both EARLY and LATE. -/
theorem countClass_phaseClass (f : FlowRecord) (p : Nat) (e : Int) :
    let early := e < -((min f.params.early (p / 2) : Nat) : Int)
    let late := ((min f.params.late (p - p / 2 - 1) : Nat) : Int) < e
    countClass (phaseClass f.params p e) f = { f with
      running := { f.running with
        early := if early then bump32 f.running.early else f.running.early
        lateArrivals := if late then bump32 f.running.lateArrivals else f.running.lateArrivals
        onTime := if ¬ early ∧ ¬ late then bump32 f.running.onTime else f.running.onTime }
      period := { f.period with
        early := if early then bump16 f.period.early else f.period.early
        lateArrivals := if late then bump16 f.period.lateArrivals else f.period.lateArrivals } } := by
  intro early late
  unfold phaseClass
  dsimp only
  by_cases hearly : early
  · have hlate : ¬ late := by simp only [early, late] at *; omega
    rw [if_pos hearly]
    simp only [hearly, hlate, if_true, if_false, not_true, false_and]
    rfl
  · rw [if_neg hearly]
    by_cases hlate : late
    · rw [if_pos hlate]
      simp only [hearly, hlate, if_true, if_false, not_true, and_false]
      rfl
    · rw [if_neg hlate]
      simp only [hearly, hlate, if_true, if_false, not_false_eq_true, and_true]
      rfl

/-- A classified arrival puts the flow into its next cycle, whatever cycle the record named. -/
theorem classifyArrival_cycle (p : Nat) (pend : Option Nat) (anchor t : Tick) (f : FlowRecord) (c : Cycle) :
    classifyArrival p pend anchor t { f with cycle := c } = classifyArrival p pend anchor t f := by
  simp only [classifyArrival]
  cases phaseClass f.params p (tickDiffSigned t anchor) <;> rfl

/-! ## An arrival in TRACKING (04 R67 to R73, R75) -/

section
variable {silenceCount p k : Nat} {pend : Option Nat} {anchor t : Tick} {f : FlowRecord}

theorem trackArrival_surplus (h : elapsedCycles p anchor t < 0) :
    trackArrival silenceCount p pend anchor t f = (surplusArrival f, []) := by
  simp only [trackArrival, if_pos h]

/-- Below the silence count the arrival is classified in the cycle k periods on, with k cycles counted missed. -/
theorem trackArrival_below (hk : elapsedCycles p anchor t = k) (h : f.misses + k < silenceCount) :
    trackArrival silenceCount p pend anchor t f =
      (classifyArrival p pend (advanceAnchor anchor p k) t (f.missing k), []) := by
  have hnonneg : ¬ ((k : Int) < 0) := by omega
  rcases Nat.eq_zero_or_pos k with rfl | hpos
  · simp only [trackArrival, hk, Nat.cast_zero, lt_irrefl, if_true, if_false, advanceAnchor_zero, FlowRecord.missing_zero]
  · have hne : ¬ ((k : Int) = 0) := by omega
    simp only [trackArrival, hk, if_neg hnonneg, if_neg hne, Int.toNat_natCast, accountCycles_below hpos h, classifyArrival_cycle]

/-- At the silence count the flow falls silent, and the arrival relocks it. -/
theorem trackArrival_silence (hk : elapsedCycles p anchor t = k) (hm : f.misses < silenceCount) (h : silenceCount ≤ f.misses + k) :
    trackArrival silenceCount p pend anchor t f =
      (relock p pend t (f.missing (silenceCount - f.misses)), [(.flowSilent, p)]) := by
  have hnonneg : ¬ ((k : Int) < 0) := by omega
  have hne : ¬ ((k : Int) = 0) := by omega
  simp only [trackArrival, hk, if_neg hnonneg, if_neg hne, Int.toNat_natCast, accountCycles_silence hm h]
  rfl

theorem flowArrival_tracking (hc : f.cycle = .tracking p pend anchor) (q : BitVec 16) :
    flowArrival silenceCount t q f = trackArrival silenceCount p pend anchor t (countArrival f) := by
  have hcounted : (countArrival f).cycle = .tracking p pend anchor := hc
  simp only [flowArrival, hcounted]

theorem flowArrival_silent (hc : f.cycle = .silent p pend anchor) (q : BitVec 16) :
    flowArrival silenceCount t q f = (relock p pend t (countArrival f), []) := by
  have hcounted : (countArrival f).cycle = .silent p pend anchor := hc
  simp only [flowArrival, hcounted]

theorem flowArrival_waiting (hc : f.cycle = .waiting p) (q : BitVec 16) :
    flowArrival silenceCount t q f =
      ({ countArrival f with cycle := .tracking p none (t + BitVec.ofNat 32 p), misses := 0 }, []) := by
  have hcounted : (countArrival f).cycle = .waiting p := hc
  simp only [flowArrival, hcounted]

theorem flowArrival_acyclic (hc : f.cycle = .acyclic) (q : BitVec 16) : flowArrival silenceCount t q f = (countArrival f, []) := by
  have hcounted : (countArrival f).cycle = .acyclic := hc
  simp only [flowArrival, hcounted]

theorem flowArrival_learning {ctx : LearningContext} (hc : f.cycle = .learning ctx) (q : BitVec 16) :
    flowArrival silenceCount t q f = learnArrival (countArrival f) ctx t q := by
  have hcounted : (countArrival f).cycle = .learning ctx := hc
  simp only [flowArrival, hcounted]

end

/-- Settles O32: by the number of cycles elapsed, and for a classified arrival by the window of its cycle. -/
theorem arrivalInTracking : Obligations.ArrivalInTracking := by
  unfold Obligations.ArrivalInTracking
  intro silenceCount f p pend anchor t q k hc hmin hmax hm hk
  have helapsed : elapsedCycles p anchor t = k := hk.symm
  have hp : 0 < p := by omega
  dsimp only
  rw [flowArrival_tracking hc]
  refine ⟨?surplus, ?classified, ?relocked⟩
  case surplus =>
    intro hneg
    rw [trackArrival_surplus (helapsed.trans_lt hneg)]
    rfl
  case classified =>
    intro hnonneg hbelow
    obtain ⟨n, rfl⟩ := Int.eq_ofNat_of_zero_le hnonneg
    rw [Int.toNat_natCast] at hbelow
    obtain ⟨hlow, hhigh⟩ := elapsedCycles_window (anchor := anchor) (t := t) hp
    rw [helapsed] at hlow hhigh
    refine ⟨_, rfl, hlow, hhigh, ?_⟩
    have herror : tickDiffSigned t (advanceAnchor anchor p n) = (t - anchor).toInt - n * p :=
      tickDiffSigned_elapsed hp hmax helapsed.ge
    rw [trackArrival_below (f := countArrival f) helapsed hbelow, classifyArrival, herror, countClass_phaseClass,
      worstEarlyAfter_eq, worstLateAfter_eq, nextCycle_eq]
    rcases Nat.eq_zero_or_pos n with rfl | hpos
    · rfl
    · simp only [FlowRecord.missing_pos hpos.ne', Int.toNat_natCast, if_neg (Int.natCast_ne_zero.mpr hpos.ne')]
      rfl
  case relocked =>
    intro hnonneg hsilence
    have hsome : silenceCount - (countArrival f).misses ≠ 0 := Nat.sub_ne_zero_of_lt hm
    rw [trackArrival_silence (f := countArrival f) (helapsed.trans (Int.toNat_of_nonneg hnonneg).symm) hm hsilence,
      FlowRecord.missing_pos hsome, relock, nextCycle_eq]
    rfl

/-! ## An arrival in LEARNING (04 R62 to R65) -/

/-- The test of a complete attempt as inequalities (04 R64). -/
theorem attemptSucceeds_iff (l : List Nat) (a : Nat) :
    attemptSucceeds l a = true ↔ 100 ≤ a ∧ a ≤ 16777215 ∧ ∀ i ∈ l, i ≤ a + a / 8 ∧ a ≤ i + a / 8 := by
  simp only [attemptSucceeds, within, Bool.and_eq_true, decide_eq_true_eq, List.all_eq_true, and_assoc]

section
variable {f : FlowRecord} {ctx : LearningContext} {t t0 : Tick} {q : BitVec 16}

theorem learnArrival_first (h : ctx.lastTime = none) :
    learnArrival f ctx t q = ({ f with cycle := .learning ⟨some t, q, [], 0, ctx.attempt⟩ }, []) := by
  simp only [learnArrival, h]

theorem learnArrival_copy (h : ctx.lastTime = some t0) (hq : q = ctx.lastSeq) : learnArrival f ctx t q = (f, []) := by
  simp only [learnArrival, h, if_pos hq]

theorem learnArrival_interval (h : ctx.lastTime = some t0) (hq : q ≠ ctx.lastSeq) (hshort : ctx.intervals.length < 3) :
    learnArrival f ctx t q = ({ f with
      cycle := .learning ⟨some t, q, ctx.intervals ++ [(t - t0).toNat], ctx.sum + (t - t0).toNat, ctx.attempt⟩ }, []) := by
  have hlength : (ctx.intervals ++ [tickDiff t t0]).length < 4 := by simp; omega
  simp only [learnArrival, h, if_neg hq, if_pos hlength]
  rfl

/-- The fourth interval completes the attempt: three outcomes. -/
theorem learnArrival_complete (h : ctx.lastTime = some t0) (hq : q ≠ ctx.lastSeq) (hlong : 3 ≤ ctx.intervals.length) {a : Nat}
    (ha : a = (ctx.sum + (t - t0).toNat + 2) / 4) :
    learnArrival f ctx t q =
      if attemptSucceeds (ctx.intervals ++ [(t - t0).toNat]) a then
        ({ f with cycle := .tracking a none (t + BitVec.ofNat 32 a), misses := 0 }, [])
      else if ctx.attempt < 3 then ({ f with cycle := .learning ⟨some t, q, [], 0, ctx.attempt + 1⟩ }, [])
      else ({ f with cycle := .acyclic }, [(.flowAcyclic, a)]) := by
  have hlength : ¬ (ctx.intervals ++ [tickDiff t t0]).length < 4 := by simp; omega
  subst ha
  simp only [learnArrival, h, if_neg hq, if_neg hlength]
  rfl

end

/-- Settles O33: the handling of each state after the arrivals tallies. -/
theorem arrivalOutsideTracking : Obligations.ArrivalOutsideTracking := by
  unfold Obligations.ArrivalOutsideTracking
  intro silenceCount f t q
  refine ⟨?first, ?copy, ?interval, ?complete, ?waiting, ?silent, ?acyclic⟩
  case first => exact fun ctx hc hlast => (flowArrival_learning hc q).trans (learnArrival_first hlast)
  case copy => exact fun ctx t0 hc hlast hq => (flowArrival_learning hc q).trans (learnArrival_copy hlast hq)
  case interval =>
    exact fun ctx t0 hc hlast hq hshort => (flowArrival_learning hc q).trans (learnArrival_interval hlast hq hshort)
  case complete =>
    intro ctx t0 a hc hlast hq hlong ha
    dsimp only
    rw [← attemptSucceeds_iff, flowArrival_learning hc, learnArrival_complete hlast hq hlong ha]
    exact ⟨fun hgood => if_pos hgood, fun hfail hattempt => (if_neg hfail).trans (if_pos hattempt),
      fun hfail hattempt => (if_neg hfail).trans (if_neg (not_lt.mpr hattempt))⟩
  case waiting => exact fun p hc => flowArrival_waiting hc q
  case silent =>
    intro p pend e hc
    dsimp only
    rw [flowArrival_silent hc, relock, nextCycle_eq]
    rfl
  case acyclic => exact fun hc => flowArrival_acyclic hc q

end Sys2Proof.Machine
end

