-- ==== Sys2Proof/Proofs/SweepVisits.lean ====
section
/-! A sweep visit: the cycle work it does on a flow, by the flow's state (04 R66, R77 to R79), that an arrival after it has the same
outcome as without it (04 R80), and the sweep pace that makes it (06 R104, R105, R116). -/

namespace Sys2Proof.Machine

/-! ## The cycle work of a visit (04 R66, R77 to R79) -/

section
variable {silenceCount p : Nat} {pend : Option Nat} {anchor now : Tick} {f : FlowRecord}

theorem visitFlow_waiting (hc : f.cycle = .waiting p) : visitFlow silenceCount now f = (f, []) := by simp only [visitFlow, hc]

theorem visitFlow_acyclic (hc : f.cycle = .acyclic) : visitFlow silenceCount now f = (f, []) := by simp only [visitFlow, hc]

/-- A visit to a flow in TRACKING with no window closed since its anchor. -/
theorem visitFlow_tracking_idle (hc : f.cycle = .tracking p pend anchor) (hj : elapsedCycles p anchor now ≤ 0) :
    visitFlow silenceCount now f = (f, []) := by
  have hidle : ¬ 1 ≤ elapsedCycles p anchor now := by omega
  simp only [visitFlow, hc, if_neg hidle]

theorem visitFlow_tracking_due (hc : f.cycle = .tracking p pend anchor) (hj : 1 ≤ elapsedCycles p anchor now) :
    visitFlow silenceCount now f = accountCycles silenceCount (elapsedCycles p anchor now).toNat p pend anchor f := by
  simp only [visitFlow, hc, if_pos hj]

theorem visitFlow_silent_idle (hc : f.cycle = .silent p pend anchor) (hj : elapsedCycles p anchor now ≤ 0) :
    visitFlow silenceCount now f = (f, []) := by
  have hidle : ¬ 1 ≤ elapsedCycles p anchor now := by omega
  simp only [visitFlow, hc, if_neg hidle]

theorem visitFlow_silent_due (hc : f.cycle = .silent p pend anchor) (hj : 1 ≤ elapsedCycles p anchor now) :
    visitFlow silenceCount now f =
      ({ f with cycle := .silent p pend (advanceAnchor anchor p (elapsedCycles p anchor now).toNat) }, []) := by
  simp only [visitFlow, hc, if_pos hj]

end

section
variable {silenceCount : Nat} {now t : Tick} {f : FlowRecord} {ctx : LearningContext}

theorem visitFlow_learning (hc : f.cycle = .learning ctx) :
    visitFlow silenceCount now f = ({ f with cycle := .learning (learningTimeout now ctx) }, []) := by
  simp only [visitFlow, hc]

/-- A learning context that is not too old stays. -/
theorem visitFlow_learning_kept (hc : f.cycle = .learning ctx) (hage : ∀ t, ctx.lastTime = some t → (now - t).toNat ≤ 16777215) :
    visitFlow silenceCount now f = (f, []) := by
  have hkept : learningTimeout now ctx = ctx := by
    unfold learningTimeout
    split
    · rfl
    · next t hlast => exact if_neg (not_lt.mpr (hage t hlast))
  rw [visitFlow_learning hc, hkept, ← hc]

theorem visitFlow_learning_timeout (hc : f.cycle = .learning ctx) (hlast : ctx.lastTime = some t) (hage : 16777215 < (now - t).toNat) :
    visitFlow silenceCount now f = ({ f with cycle := .learning ⟨none, ctx.lastSeq, [], 0, ctx.attempt⟩ }, []) := by
  have hcleared : learningTimeout now ctx = ⟨none, ctx.lastSeq, [], 0, ctx.attempt⟩ := by
    simp only [learningTimeout, hlast]
    exact if_pos hage
  rw [visitFlow_learning hc, hcleared]

end

/-! ## A sweep visit before an arrival (04 R80) -/

section
variable {silenceCount p : Nat} {pend : Option Nat} {anchor : Tick} {f : FlowRecord}

/-- The cycles a visit accounts are no longer there for the arrival; the rest is, from the anchor moved on. -/
theorem trackArrival_accounted {j k : Nat} {t : Tick} (hp : 0 < p) (hmax : p ≤ 16777215) (hk : elapsedCycles p anchor t = k)
    (hjk : j ≤ k) (hbelow : f.misses + j < silenceCount) (c : Cycle) :
    trackArrival silenceCount p pend (advanceAnchor anchor p j) t { f.missing j with cycle := c } =
      trackArrival silenceCount p pend anchor t f := by
  have hrest : elapsedCycles p (advanceAnchor anchor p j) t = (k - j : Nat) := by
    rw [elapsedCycles_advanceAnchor hp hmax (by omega), hk]
    omega
  have hmisses : ({ f.missing j with cycle := c } : FlowRecord).misses = f.misses + j := f.missing_misses j
  rcases lt_or_ge (f.misses + k) silenceCount with hlt | hge
  · rw [trackArrival_below hrest (by omega), trackArrival_below hk hlt, FlowRecord.missing_cycle, classifyArrival_cycle,
      FlowRecord.missing_missing, advanceAnchor_advanceAnchor, Nat.add_sub_cancel' hjk]
  · rw [trackArrival_silence hrest (by omega) (by omega), trackArrival_silence hk (by omega) hge, FlowRecord.missing_cycle,
      FlowRecord.missing_missing, hmisses]
    have hsum : j + (silenceCount - (f.misses + j)) = silenceCount - f.misses := by omega
    rw [hsum]
    rfl

end

/-- Settles O31: what the visit accounts, the arrival accounts without it. -/
theorem visitBeforeArrivalAgrees : Obligations.VisitBeforeArrivalAgrees := by
  unfold Obligations.VisitBeforeArrivalAgrees
  intro silenceCount f p pend anchor now t q hc hmin hmax hm hbefore
  have hp : 0 < p := by omega
  rcases le_or_gt (elapsedCycles p anchor now) 0 with hidle | hdue
  · rw [visitFlow_tracking_idle hc hidle]
    exact ⟨rfl, rfl⟩
  · have hle : elapsedCycles p anchor now ≤ elapsedCycles p anchor t := elapsedCycles_mono hp hbefore
    rw [visitFlow_tracking_due hc hdue, flowArrival_tracking hc]
    obtain ⟨j, hj⟩ := Int.eq_ofNat_of_zero_le (zero_le_one.trans hdue)
    obtain ⟨k, hk⟩ := Int.eq_ofNat_of_zero_le ((zero_le_one.trans hdue).trans hle)
    rw [hj, Int.toNat_natCast]
    rcases lt_or_ge (f.misses + j) silenceCount with hbelow | hsilence
    · have hagrees : flowArrival silenceCount t q { f.missing j with cycle := .tracking p pend (advanceAnchor anchor p j) } =
          trackArrival silenceCount p pend anchor t (countArrival f) := by
        rw [flowArrival_tracking rfl]
        show trackArrival _ _ _ _ _ { countArrival (f.missing j) with cycle := .tracking p pend (advanceAnchor anchor p j) } = _
        rw [countArrival_missing]
        exact trackArrival_accounted (f := countArrival f) hp hmax hk (by omega) hbelow _
      rw [accountCycles_below (by omega) hbelow, hagrees]
      exact ⟨rfl, List.nil_append _⟩
    · have hagrees : flowArrival silenceCount t q
            { f.missing (silenceCount - f.misses) with cycle := .silent p pend (advanceAnchor anchor p j) } =
          (relock p pend t ((countArrival f).missing (silenceCount - f.misses)), []) := by
        rw [flowArrival_silent rfl, ← countArrival_missing]
        rfl
      have hlate : silenceCount ≤ (countArrival f).misses + k := hsilence.trans (Nat.add_le_add_left (by omega) _)
      rw [accountCycles_silence hm hsilence, hagrees, trackArrival_silence (f := countArrival f) hk hm hlate]
      exact ⟨rfl, rfl⟩

/-! ## The visit to an entry (06 R105, R116) -/

section
variable {s : State} {i : FlowIx} {f : FlowRecord}

theorem rollIfLagging_vacant (hf : s.flowAt i = none) : rollIfLagging i s = s := by simp only [rollIfLagging, hf]

/-- A flow just rolled, kept or retired, is not rolled again. -/
theorem rollIfLagging_rolled (i : FlowIx) (f : FlowRecord) (s : State) : rollIfLagging i (rollFlow i f s) = rollFlow i f s := by
  cases hg : (rollFlow i f s).flowAt i with
  | none => exact rollIfLagging_vacant hg
  | some g => exact rollIfLagging_rollFlow hg

theorem sweepVisit_vacant (hf : s.flowAt i = none) : sweepVisit i s = s.setHistory (s.tally.history.map (passCheck i)) := by
  simp only [sweepVisit, rollIfLagging_vacant hf, visitCycle, hf]

/-- The visit to a flow that does not lag: its cycle work, its incidents, the pass check. -/
theorem sweepVisit_current (hf : s.flowAt i = some f) (ht : f.tag = s.tally.periodNumber) {g : FlowRecord}
    {incidents : List (IncidentKind × Nat)} (hout : visitFlow s.values.silenceCount s.time.tickCount f = (g, incidents)) :
    sweepVisit i s =
      (raiseAll (flowRaisings i incidents) (s.setFlow i g)).setHistory (s.tally.history.map (passCheck i)) := by
  simp only [sweepVisit, rollIfLagging_current hf ht, visitCycle, hf, hout, applyFlowOutcome, raiseAll_tally, State.setFlow_tally]

theorem sweepVisit_lagging (hs : Lagging s i f) : sweepVisit i s = sweepVisit i (rollFlow i f s) := by
  simp only [sweepVisit, rollIfLagging_lagging hs.flow hs.tag, rollIfLagging_rolled]

end

/-! ## The sweep pace (06 R104) -/

/-- The sweep pace no longer due. -/
def State.paceTaken (s : State) : State := { s with due := { s.due with sweepPace := false } }

theorem raiseAll_paceTaken (l : List (IncidentKind × Subject × BitVec 32)) (s : State) :
    raiseAll l s.paceTaken = (raiseAll l s).paceTaken := by
  induction l generalizing s with
  | nil => rfl
  | cons e rest ih => exact ih (raise e.1 e.2.1 e.2.2 s)

/-- A roll does not see what is due. -/
theorem rollFlow_paceTaken (i : FlowIx) (f : FlowRecord) (s : State) : rollFlow i f s.paceTaken = (rollFlow i f s).paceTaken := by
  rw [rollFlow_eq, rollFlow_eq]
  show (raiseAll _ (s.modClosing (foldInto f i)).paceTaken).setEntry _ _ = _
  rw [raiseAll_paceTaken]
  rfl

theorem exec_sweepPace (s : State) : exec .sweepPace s = .next (sweepPace s) := rfl

section
variable {s : State} {f : FlowRecord}

theorem sweepPace_outside (hdue : s.due.sweepPace = true) (hd : s.device ≠ .monitoring) :
    sweepPace s = s.paceTaken := by
  simp only [sweepPace, if_pos hdue, if_neg hd]
  rfl

/-- In MONITORING the entry at the next index is visited, and the index goes up by 1. -/
theorem sweepPace_monitoring (hdue : s.due.sweepPace = true) (hd : s.device = .monitoring) :
    sweepPace s = { sweepVisit s.sweepNext s.paceTaken with sweepNext := s.sweepNext + 1 } := by
  simp only [sweepPace, if_pos hdue, if_pos hd]
  rfl

/-- A sweep pace at a flow that does not lag, with the outcome of its cycle work written out in the state. -/
theorem sweepPace_current (hdue : s.due.sweepPace = true) (hd : s.device = .monitoring) (hf : s.flowAt s.sweepNext = some f)
    (ht : f.tag = s.tally.periodNumber) {g : FlowRecord} {incidents : List (IncidentKind × Nat)}
    (hout : visitFlow s.values.silenceCount s.time.tickCount f = (g, incidents)) :
    sweepPace s = { s with
      due := { s.due with sweepPace := false }
      sweepNext := s.sweepNext + 1
      flows := s.flows.set s.sweepNext ⟨(s.entry s.sweepNext).gen, some g⟩
      tally := { s.tally with history := s.tally.history.map (passCheck s.sweepNext) }
      log := (raiseAll (flowRaisings s.sweepNext incidents) s).log
      alarm := (raiseAll (flowRaisings s.sweepNext incidents) s).alarm } := by
  have hvisit := sweepVisit_current (s := s.paceTaken) hf ht hout
  obtain ⟨hlog, halarm⟩ := raiseAll_congr (flowRaisings s.sweepNext incidents) (s := s) (t := s.paceTaken.setFlow s.sweepNext g)
    rfl rfl rfl
  rw [sweepPace_monitoring hdue hd, hvisit, raiseAll_eq, hlog, halarm]
  rfl

theorem sweepPace_lagging (hdue : s.due.sweepPace = true) (hd : s.device = .monitoring) (hs : Lagging s s.sweepNext f) :
    sweepPace s = sweepPace (rollFlow s.sweepNext f s) := by
  have hframe := rollFlow_frame s.sweepNext f s
  have hs' : Lagging s.paceTaken s.sweepNext f := ⟨hs.flow, hs.tag⟩
  rw [sweepPace_monitoring hdue hd,
    sweepPace_monitoring ((congrArg Due.sweepPace hframe.due).trans hdue) (hframe.device.trans hd), hframe.sweepNext,
    ← rollFlow_paceTaken, ← sweepVisit_lagging hs']

end

/-- Settles O27: a sweep pace by the device state and the entry it visits, and the cycle work by the state of the flow. -/
theorem sweepPaceVisitsEntry : Obligations.SweepPaceVisitsEntry := by
  unfold Obligations.SweepPaceVisitsEntry
  intro s hdue
  dsimp only
  refine ⟨?outside, ?vacant, ?current, ?lagging⟩
  case outside => exact fun hd => congrArg Host.Outcome.next (sweepPace_outside hdue hd)
  case vacant =>
    intro hd hf
    rw [exec_sweepPace, sweepPace_monitoring hdue hd, sweepVisit_vacant (s := s.paceTaken) hf]
    rfl
  case lagging => exact fun f hd hf ht => congrArg Host.Outcome.next (sweepPace_lagging hdue hd ⟨hf, ht⟩)
  case current =>
    intro f hd hf ht
    generalize hout : visitFlow s.values.silenceCount s.time.tickCount f = out
    obtain ⟨g, incidents⟩ := out
    have visited {g' incidents'} (h : visitFlow s.values.silenceCount s.time.tickCount f = (g', incidents')) :
        g = g' ∧ incidents = incidents' := Prod.mk.inj (hout.symm.trans h)
    refine ⟨g, incidents, congrArg Host.Outcome.next (sweepPace_current hdue hd hf ht hout), ?still, ?learning, ?tracking, ?silent⟩
    case still =>
      rintro (⟨p, hc⟩ | hc)
      · exact visited (visitFlow_waiting hc)
      · exact visited (visitFlow_acyclic hc)
    case learning =>
      intro ctx hc
      refine ⟨(visited (visitFlow_learning hc)).2, fun hfresh => ?_, fun t hlast hage => ?_, fun t hlast hage => ?_⟩
      · exact (visited (visitFlow_learning_kept hc (fun t hlast => nomatch hfresh.symm.trans hlast))).1
      · exact (visited (visitFlow_learning_kept hc (fun t' hlast' => Option.some.inj (hlast.symm.trans hlast') ▸ hage))).1
      · exact (visited (visitFlow_learning_timeout hc hlast hage)).1
    case tracking =>
      rintro p pend e j hc rfl
      exact ⟨fun hidle => visited (visitFlow_tracking_idle hc hidle),
        fun hclosed => visited ((visitFlow_tracking_due hc hclosed).trans accountCycles_eq)⟩
    case silent =>
      rintro p pend e j hc rfl
      refine ⟨?_, fun hidle => (visited (visitFlow_silent_idle hc hidle)).1, fun hclosed => (visited (visitFlow_silent_due hc hclosed)).1⟩
      rcases le_or_gt (elapsedCycles p e s.time.tickCount) 0 with hidle | hclosed
      · exact (visited (visitFlow_silent_idle hc hidle)).2
      · exact (visited (visitFlow_silent_due hc hclosed)).2

end Sys2Proof.Machine
end

