-- ==== Sys2Proof/Proofs/DepartureOrder.lean ====
section
/-! A credited departure: its count, budget check and worst residences (05 R85, R89, R90), and the judgement of its sequence against the
order window, by the rows of R94 (R93 to R99). -/

namespace Sys2Proof.Machine

/-! ## The count, the budget check and the worst residences (05 R85 step 5, R89, R90) -/

theorem isLateDeparture_iff {budget r : Nat} : isLateDeparture budget r = true ↔ budget ≠ 0 ∧ budget < r := by
  simp only [isLateDeparture, Bool.and_eq_true, decide_eq_true_eq]

theorem worstAfter_eq_max (w : Option Nat) (r : Nat) : worstAfter w r = some (max r (w.getD r)) := by
  cases w with
  | none => exact congrArg some (max_self r).symm
  | some x =>
    show (if x < r then some r else some x) = some (max r x)
    split
    case isTrue hgreater => rw [max_eq_left hgreater.le]
    case isFalse hle => rw [max_eq_right (not_lt.mp hle)]

theorem countDeparture_eq (r : Nat) (f : FlowRecord) : countDeparture r f = { f with
    running := { f.running with
      departures := bump32 f.running.departures
      lateDepartures := if f.params.budget ≠ 0 ∧ f.params.budget < r then bump32 f.running.lateDepartures
        else f.running.lateDepartures }
    period := { f.period with
      departures := bump16 f.period.departures
      lateDepartures := if f.params.budget ≠ 0 ∧ f.params.budget < r then bump16 f.period.lateDepartures
        else f.period.lateDepartures }
    worstResidence := some (max r (f.worstResidence.getD r))
    periodWorst := some (max r (f.periodWorst.getD r)) } := by
  simp only [countDeparture, isLateDeparture_iff, worstAfter_eq_max]

/-! ## The rows of the distance (05 R94) -/

section
variable {resync : Nat} {d : Int}

theorem orderCase_resync (h : (resync : Int) ≤ d ∨ d ≤ -(resync : Int)) : orderCase resync d = .resync := if_pos h

/-- Nearer than the resync distance either way, the rows below the first decide. -/
theorem orderCase_near (hlow : -(resync : Int) < d) (hhigh : d < (resync : Int)) : orderCase resync d =
    if 1 ≤ d then .advance d.toNat else if d = 0 then .duplicate else if -32 ≤ d then .inside (32 + d).toNat else .straggler :=
  if_neg (by omega)

theorem orderCase_advance (hlow : 1 ≤ d) (hhigh : d < (resync : Int)) : orderCase resync d = .advance d.toNat := by
  rw [orderCase_near (by omega) hhigh, if_pos hlow]

theorem orderCase_duplicate (hresync : 0 < resync) : orderCase resync 0 = .duplicate := by
  rw [orderCase_near (by omega) (by omega), if_neg (by decide), if_pos rfl]

theorem orderCase_inside (hresync : 32 < resync) (hlow : -32 ≤ d) (hhigh : d ≤ -1) :
    orderCase resync d = .inside (32 + d).toNat := by
  rw [orderCase_near (by omega) (by omega), if_neg (by omega), if_neg (by omega), if_pos hlow]

theorem orderCase_straggler (hlow : -(resync : Int) < d) (hhigh : d < -32) : orderCase resync d = .straggler := by
  rw [orderCase_near hlow (by omega), if_neg (by omega), if_neg (by omega), if_neg (by omega)]

end

/-! ## The window, bit by bit (05 R95, R97) -/

/-- Of the 32 positions those below d leave. -/
theorem lostByAdvance_eq (w : OrderWindow) (d : Nat) : lostByAdvance w d =
    (List.range 32).countP (fun i => decide (i < d) && !w.departed.getLsbD i) + (d - 33) := by
  have hleaving : List.range (min d 32) = (List.range 32).filter (fun i => decide (i < d)) := by
    rw [← List.Ico.zero_bot, ← List.Ico.zero_bot, List.Ico.filter_lt, min_comm]
  rw [lostByAdvance, hleaving, List.countP_filter]
  simp only [Bool.and_comm]

theorem getLsbD_one_shiftLeft {n i : Nat} (hi : i < 32) : ((1 : BitVec 32) <<< n).getLsbD i = decide (i = n) := by
  rw [BitVec.ofNat_eq_ofNat, ← BitVec.twoPow_eq, BitVec.getLsbD_twoPow, ← Bool.decide_and]
  exact decide_eq_decide.mpr (by omega)

/-- A position of the window after an advance keeps its mark, is the old top, or is new and not departed. -/
theorem getLsbD_advanced (w : OrderWindow) (d : Nat) (q : BitVec 16) {i : Nat} (hi : i < 32) :
    (advanced w d q).departed.getLsbD i = if i + d < 32 then w.departed.getLsbD (i + d) else decide (i + d = 32) := by
  rcases le_or_gt d 32 with hnear | hfar
  · have hmark : (advanced w d q).departed.getLsbD i = (w.departed.getLsbD (i + d) || decide (i + d = 32)) := by
      have htop : i = 32 - d ↔ i + d = 32 := by omega
      simp only [advanced, if_pos hnear, BitVec.getLsbD_or, BitVec.getLsbD_ushiftRight, getLsbD_one_shiftLeft hi,
        Nat.add_comm d i, htop]
    rw [hmark]
    split
    case isTrue hkept => rw [decide_eq_false hkept.ne, Bool.or_false]
    case isFalse hnew => rw [BitVec.getLsbD_of_ge _ _ (not_lt.mp hnew), Bool.false_or]
  · have hnew : ¬ i + d < 32 := by omega
    have hgone : i + d ≠ 32 := by omega
    simp only [advanced, if_neg (not_le.mpr hfar), if_neg hnew, decide_eq_false hgone, BitVec.ofNat_eq_ofNat, BitVec.getLsbD_zero]

theorem getLsbD_marked (w : OrderWindow) {n i : Nat} (hi : i < 32) :
    (marked w n).departed.getLsbD i = (w.departed.getLsbD i || decide (i = n)) := by
  rw [marked, BitVec.getLsbD_or, getLsbD_one_shiftLeft hi]

theorem advanced_of_synced {w : OrderWindow} (hs : w.synced = true) (d : Nat) (q : BitVec 16) :
    advanced w d q = ⟨true, q, (advanced w d q).departed⟩ := by
  rw [← hs]; rfl

theorem marked_of_synced {w : OrderWindow} (hs : w.synced = true) (n : Nat) :
    marked w n = ⟨true, w.top, (marked w n).departed⟩ := by
  rw [← hs]; rfl

/-! ## The judgement of a sequence, by its case (05 R93 to R99) -/

section
variable {resync : Nat} {q : BitVec 16} {f : FlowRecord}

theorem judgeSequence_unsynced (hs : f.window.synced = false) :
    judgeSequence resync q f = { f with window := syncedOn q } := by
  rw [judgeSequence, hs]; rfl

variable (hs : f.window.synced = true)
include hs

theorem judgeSequence_resync (hcase : orderCase resync (q - f.window.top).toInt = .resync) :
    judgeSequence resync q f =
      { f with window := syncedOn q, running := { f.running with resyncs := bump32 f.running.resyncs } } := by
  simp only [judgeSequence, seqDiffSigned, if_pos hs, hcase]

theorem judgeSequence_advance {d : Nat} (hcase : orderCase resync (q - f.window.top).toInt = .advance d) :
    judgeSequence resync q f = { f with
      window := advanced f.window d q
      running := { f.running with lost := satAdd max32 f.running.lost (lostByAdvance f.window d) }
      period := { f.period with lost := satAdd max16 f.period.lost (lostByAdvance f.window d) } } := by
  simp only [judgeSequence, seqDiffSigned, if_pos hs, hcase]

theorem judgeSequence_duplicate (hcase : orderCase resync (q - f.window.top).toInt = .duplicate) :
    judgeSequence resync q f = countDuplicate f := by
  simp only [judgeSequence, seqDiffSigned, if_pos hs, hcase]

theorem judgeSequence_departed {n : Nat} (hcase : orderCase resync (q - f.window.top).toInt = .inside n)
    (hmark : f.window.departed.getLsbD n = true) : judgeSequence resync q f = countDuplicate f := by
  simp only [judgeSequence, seqDiffSigned, if_pos hs, hcase, if_pos hmark]

theorem judgeSequence_reordered {n : Nat} (hcase : orderCase resync (q - f.window.top).toInt = .inside n)
    (hmark : f.window.departed.getLsbD n = false) : judgeSequence resync q f = { f with
      window := marked f.window n
      running := { f.running with reordered := bump32 f.running.reordered }
      period := { f.period with reordered := bump16 f.period.reordered } } := by
  simp only [judgeSequence, seqDiffSigned, if_pos hs, hcase, hmark, Bool.false_eq_true, if_false]

theorem judgeSequence_straggler (hcase : orderCase resync (q - f.window.top).toInt = .straggler) :
    judgeSequence resync q f = { f with
      running := { f.running with stragglers := bump32 f.running.stragglers }
      period := { f.period with stragglers := bump16 f.period.stragglers } } := by
  simp only [judgeSequence, seqDiffSigned, if_pos hs, hcase]

end

/-- Settles O34: the departure's count as one record, and its sequence by the rows of R94. -/
theorem creditedDepartureIsJudged : Obligations.CreditedDepartureIsJudged := by
  unfold Obligations.CreditedDepartureIsJudged
  refine ⟨fun _ _ _ _ => rfl, countDeparture_eq, ?_⟩
  intro resync q f hresync _
  dsimp only
  generalize hd : (q - f.window.top).toInt = d
  have hrow : orderCase resync (q - f.window.top).toInt = orderCase resync d := congrArg _ hd
  refine ⟨judgeSequence_unsynced, fun hs => ⟨?resync, ?advance, ?top, ?departed, ?reordered, ?straggler⟩⟩
  case resync => exact fun hfar => judgeSequence_resync hs (hrow.trans <| orderCase_resync hfar)
  case advance =>
    intro hlow hhigh
    obtain ⟨n, rfl⟩ := Int.eq_ofNat_of_zero_le (show 0 ≤ d by omega)
    refine ⟨(advanced f.window n q).departed, lostByAdvance f.window n, ?_, ?_, fun i hi => ?_⟩
    · rw [← advanced_of_synced hs]
      exact judgeSequence_advance hs (hrow.trans <| orderCase_advance hlow hhigh)
    · simpa only [Int.ofNat_lt, Int.toNat_natCast] using lostByAdvance_eq f.window n
    · rw [getLsbD_advanced f.window n q hi]
      norm_cast
  case top =>
    rintro rfl
    exact judgeSequence_duplicate hs (hrow.trans <| orderCase_duplicate (by omega))
  case departed =>
    exact fun hlow hhigh => judgeSequence_departed hs (hrow.trans <| orderCase_inside (by omega) hlow hhigh)
  case reordered =>
    intro hlow hhigh hmark
    refine ⟨(marked f.window (32 + d).toNat).departed, ?_, fun i hi => getLsbD_marked f.window hi⟩
    rw [← marked_of_synced hs]
    exact judgeSequence_reordered hs (hrow.trans <| orderCase_inside (by omega) hlow hhigh) hmark
  case straggler => exact fun hlow hhigh => judgeSequence_straggler hs (hrow.trans <| orderCase_straggler hlow hhigh)

end Sys2Proof.Machine
end

