-- ==== Sys2Proof/Proofs/UpdatesKept.lean ====
section
/-!
SUPPORT. A predicate that the named updates of rings, flow entries, history and log keep is kept by the directory's operations, descriptor
transfers, bus resets, sweep visits and requests on flows, which are made of them (01 R9 to R25; 03 R49 to R59; 05 R85; 06 R105, R113).
-/

namespace Sys2Proof.Machine

/-! ## Period tags (06 R113) -/

/-- What may be written into a flow entry: a VACANT one, or a flow under the current tag or under the tag of the flow that was there. -/
def TagKept (s : State) (i : FlowIx) (e : FlowEntry) : Prop :=
  ∀ f, e.flow = some f → f.tag = s.tally.periodNumber ∨ (s.flowAt i).map FlowRecord.tag = some f.tag

theorem TagKept.vacant (s : State) (i : FlowIx) (gen : BitVec 4) : TagKept s i ⟨gen, none⟩ :=
  fun f hf => absurd hf.symm (Option.some_ne_none f)

theorem TagKept.current {s : State} {g : FlowRecord} (h : g.tag = s.tally.periodNumber) (i : FlowIx) (gen : BitVec 4) :
    TagKept s i ⟨gen, some g⟩ := by
  rintro _ ⟨⟩
  exact .inl h

theorem TagKept.rewritten {s : State} {i : FlowIx} {f g : FlowRecord} (hf : s.flowAt i = some f) (h : g.tag = f.tag)
    (gen : BitVec 4) : TagKept s i ⟨gen, some g⟩ := by
  rintro _ ⟨⟩
  exact .inr (by rw [hf, Option.map_some, h])

section
variable {n : Nat}

theorem learnArrival_tag (f : FlowRecord) (ctx : LearningContext) (t : Tick) (q : BitVec 16) :
    (learnArrival f ctx t q).1.tag = f.tag := by
  unfold learnArrival
  split
  · rfl
  · dsimp only
    split_ifs <;> rfl

theorem accountCycles_tag (k p : Nat) (pend : Option Nat) (e : Tick) (f : FlowRecord) :
    (accountCycles n k p pend e f).1.tag = f.tag := by
  unfold accountCycles
  dsimp only
  split <;> rfl

theorem classifyArrival_tag (p : Nat) (pend : Option Nat) (e t : Tick) (f : FlowRecord) : (classifyArrival p pend e t f).tag = f.tag := by
  unfold classifyArrival
  dsimp only
  cases phaseClass f.params p (tickDiffSigned t e) <;> rfl

theorem trackArrival_tag (p : Nat) (pend : Option Nat) (e t : Tick) (f : FlowRecord) : (trackArrival n p pend e t f).1.tag = f.tag := by
  have h := accountCycles_tag (n := n) (elapsedCycles p e t).toNat p pend e f
  unfold trackArrival
  dsimp only
  split
  · rfl
  · split
    · exact classifyArrival_tag p pend e t f
    · split
      · exact (classifyArrival_tag _ _ _ _ _).trans h
      · exact h
      · exact h

theorem flowArrival_tag (t : Tick) (q : BitVec 16) (f : FlowRecord) : (flowArrival n t q f).1.tag = f.tag := by
  unfold flowArrival
  dsimp only
  split
  · exact learnArrival_tag (countArrival f) _ _ _
  · rfl
  · exact trackArrival_tag _ _ _ _ (countArrival f)
  · rfl
  · rfl

theorem visitFlow_tag (now : Tick) (f : FlowRecord) : (visitFlow n now f).1.tag = f.tag := by
  unfold visitFlow
  split
  · rfl
  · dsimp only
    split
    · exact accountCycles_tag _ _ _ _ _
    · rfl
  · dsimp only
    split <;> rfl
  · rfl
  · rfl

theorem judgeSequence_tag (resync : Nat) (q : BitVec 16) (f : FlowRecord) : (judgeSequence resync q f).tag = f.tag := by
  unfold judgeSequence
  split
  · split
    · rfl
    · rfl
    · rfl
    · split <;> rfl
    · rfl
  · rfl

theorem flowDeparture_tag (resync : Nat) (q : BitVec 16) (r : Nat) (f : FlowRecord) : (flowDeparture resync q r f).tag = f.tag :=
  judgeSequence_tag resync q (countDeparture r f)

theorem changePeriod_tag (p : Nat) (f : FlowRecord) : (changePeriod p f).tag = f.tag := by
  unfold changePeriod
  split
  · split <;> rfl
  · split
    · split <;> rfl
    · split <;> rfl
    · rfl
    · rfl
    · rfl

end

/-! ## Predicates that the named updates keep -/

/-- The pass check makes a CLOSING summary FINAL, and no other (06 R105 step 3, R116). -/
theorem passCheck_isOpen (i : FlowIx) (q : Summary) : (passCheck i q).isOpen = q.isOpen := by
  unfold passCheck
  split
  · next hc =>
    rw [Summary.isOpen, Summary.isOpen, hc]
    rfl
  · rfl

/-- A predicate kept by every write of a ring record, by every write of a flow entry that keeps to the tags, by a change of summaries that
leaves each OPEN or not as it was, and by a raising. -/
structure KeptByUpdates (P : State → Prop) : Prop where
  ring    : ∀ r x s, P s → P (s.setRing r x)
  entry   : ∀ i e s, TagKept s i e → P s → P (s.setEntry i e)
  history : ∀ (g : Summary → Summary) s, (∀ q, (g q).isOpen = q.isOpen) → P s → P (s.setHistory (s.tally.history.map g))
  raise   : ∀ k x v s, P s → P (raise k x v s)

namespace KeptByUpdates

variable {P : State → Prop} (h : KeptByUpdates P) {s : State}
include h

theorem raiseAll (l : List (IncidentKind × Subject × BitVec 32)) (hs : P s) : P (raiseAll l s) :=
  List.foldlRecOn l _ hs (fun _ hu p _ => h.raise p.1 p.2.1 p.2.2 _ hu)

theorem modRing (r : RingIx) (f : RingRecord → RingRecord) (hs : P s) : P (s.modRing r f) := h.ring r _ s hs

/-- A change, phase left alone, of the summaries that meet a test. -/
theorem mapHistory (p : Summary → Bool) {f : Summary → Summary} (hf : ∀ q, (f q).phase = q.phase) (hs : P s) :
    P (s.setHistory (s.tally.history.map (fun q => if p q then f q else q))) := by
  refine h.history _ s (fun q => ?_) hs
  split
  · exact Summary.isOpen_congr (hf q)
  · rfl

theorem modOpen {f : Summary → Summary} (hf : ∀ q, (f q).phase = q.phase) (hs : P s) : P (s.modOpen f) :=
  h.mapHistory Summary.isOpen hf hs

theorem modClosing {f : Summary → Summary} (hf : ∀ q, (f q).phase = q.phase) (hs : P s) : P (s.modClosing f) :=
  h.mapHistory Summary.isClosing hf hs

/-- A flow written under the current tag. -/
theorem enter {g : FlowRecord} (ht : g.tag = s.tally.periodNumber) (i : FlowIx) (hs : P s) : P (s.setFlow i g) :=
  h.entry i _ s (.current ht i _) hs

/-- A flow's record rewritten under its tag. -/
theorem rewrite {i : FlowIx} {f g : FlowRecord} (hf : s.flowAt i = some f) (ht : g.tag = f.tag) (hs : P s) : P (s.setFlow i g) :=
  h.entry i _ s (.rewritten hf ht _) hs

theorem vacate (i : FlowIx) (hs : P s) : P (s.vacate i) := h.entry i _ s (.vacant s i _) hs

/-! ## Rolls, lookups and the crediting test (03 R49 to R53, R59; 06 R113) -/

theorem rollFlow (i : FlowIx) (f : FlowRecord) (hs : P s) : P (rollFlow i f s) := by
  have h1 : P (s.modClosing (foldInto f i)) := h.modClosing (fun _ => rfl) hs
  have h2 := h.raiseAll (flowRaisings i (limitIncidents f.params f.period)) h1
  unfold Machine.rollFlow
  dsimp only
  split
  · exact h.vacate i (h.raise _ _ _ _ h2)
  · exact h.enter rfl i h2

theorem rollIfLagging (i : FlowIx) (hs : P s) : P (rollIfLagging i s) := by
  unfold Machine.rollIfLagging
  split
  · exact hs
  · split
    · exact hs
    · exact h.rollFlow i _ hs

theorem enrolOrRefuse (r : RingIx) (key : Half) (hs : P s) : P (enrolOrRefuse r key s).1 := by
  unfold Machine.enrolOrRefuse
  split
  · split
    · exact h.enter rfl _ hs
    · exact h.raise _ _ _ s hs
  · exact hs

theorem lookup (r : RingIx) (key : Half) (hs : P s) : P (lookup r key s).1 := by
  unfold Machine.lookup
  split
  · next i _ =>
    have h1 := h.rollIfLagging i hs
    dsimp only
    split
    · exact h1
    · exact h.enrolOrRefuse r key h1
  · exact h.enrolOrRefuse r key hs

theorem creditAndRoll (p : PendingRecord) (hs : P s) : P (creditAndRoll p s).1 := by
  unfold Machine.creditAndRoll
  split
  · exact hs
  · exact h.rollIfLagging _ hs

/-! ## Notices (01 R16; 04 R61; 05 R85, R86) -/

theorem countUntrackedArrival (r : RingIx) (hs : P s) : P (countUntrackedArrival r s) :=
  h.modOpen (fun _ => rfl) (h.modRing r _ hs)

theorem countUntrackedDeparture (r : RingIx) (hs : P s) : P (countUntrackedDeparture r s) :=
  h.modOpen (fun _ => rfl) (h.modRing r _ hs)

theorem notePeak (hs : P s) : P (notePeak s) := h.modOpen (fun _ => rfl) hs

theorem dropNotice (r : RingIx) (p : PendingRecord) (hs : P s) : P (dropNotice r p s) := by
  have h1 := h.creditAndRoll p hs
  unfold Machine.dropNotice
  split
  · next e =>
    rw [e] at h1
    exact h.rewrite (creditAndRoll_flowAt e) rfl h1
  · next e =>
    rw [e] at h1
    exact h.countUntrackedDeparture r h1

theorem departureNotice (r : RingIx) (p : PendingRecord) (t : Tick) (hs : P s) : P (departureNotice r p t s) := by
  have h1 := h.creditAndRoll p (h.modRing r (countBin (residence p t)) hs)
  unfold Machine.departureNotice
  dsimp only
  split
  · next e =>
    rw [e] at h1
    exact h.rewrite (creditAndRoll_flowAt e) (flowDeparture_tag _ _ _ _) h1
  · next e =>
    rw [e] at h1
    exact h.countUntrackedDeparture r h1

theorem applyFlowOutcome {i : FlowIx} {f : FlowRecord} (hf : s.flowAt i = some f) {out : FlowOutcome} (ht : out.1.tag = f.tag)
    (hs : P s) : P (applyFlowOutcome i out s) :=
  h.raiseAll _ (h.rewrite hf ht hs)

theorem arrivalNotice (i : FlowIx) (t : Tick) (q : BitVec 16) (hs : P s) : P (arrivalNotice i t q s) := by
  unfold Machine.arrivalNotice
  split
  · exact hs
  · next hf => exact h.applyFlowOutcome hf (flowArrival_tag t q _) hs

theorem finishArrival (r : RingIx) (ref : Option FlowRef) (t : Tick) (q : BitVec 16) (hs : P s) : P (finishArrival r ref t q s) := by
  unfold Machine.finishArrival
  split
  · exact h.countUntrackedArrival r hs
  · exact h.arrivalNotice _ t q hs

/-! ## Descriptor transfers (01 R9 to R20) -/

theorem takeArrival (r : RingIx) (i : Nat) (key : Half) (q : BitVec 16) (hs : P s) : P (takeArrival r i key q s) :=
  h.finishArrival r _ _ q (h.notePeak (h.modRing r _ (h.lookup r key hs)))

theorem overwriteOld (r : RingIx) (i : Nat) (p : PendingRecord) (hs : P s) : P (overwriteOld r i p s) :=
  h.modRing r _ (h.dropNotice r p (h.modRing r _ hs))

theorem takeOverwrite (r : RingIx) (i : Nat) (p : PendingRecord) (key : Half) (q : BitVec 16) (hs : P s) :
    P (takeOverwrite r i p key q s) :=
  h.finishArrival r _ _ q (h.modRing r _ (h.lookup r key (h.overwriteOld r i p hs)))

theorem takeWithdrawal (r : RingIx) (i : Nat) (p : PendingRecord) (hs : P s) : P (takeWithdrawal r i p s) :=
  h.modRing r _ (h.dropNotice r p (h.modRing r _ hs))

theorem countParityFault (r : RingIx) (i : Nat) (hs : P s) : P (countParityFault r i s) := h.raise _ _ _ _ (h.modRing r _ hs)

theorem takeFaultedWrite (r : RingIx) (i : Nat) (key : Half) (q : BitVec 16) (hs : P s) : P (takeFaultedWrite r i key q s) := by
  have h1 := h.countParityFault r i hs
  unfold Machine.takeFaultedWrite
  dsimp only
  split
  · exact h.countUntrackedArrival r (h.notePeak (h.modRing r _ h1))
  · exact h.countUntrackedArrival r (h.modRing r _ (h.overwriteOld r i _ h1))

theorem countStray (r : RingIx) (hs : P s) : P (countStray r s) := h.modRing r _ hs

theorem descriptorWrite (r : RingIx) (i : Nat) (data : List BusWord) (hs : P s) : P (descriptorWrite r i data s) := by
  have h1 : P (resetSilence r s) := h.modRing r _ hs
  unfold Machine.descriptorWrite
  dsimp only
  split
  · exact h.takeFaultedWrite r i _ _ h1
  · exact h.takeArrival r i _ _ h1
  · exact h.countStray r h1
  · exact h1
  · exact h.takeOverwrite r i _ _ _ h1
  · exact h.takeWithdrawal r i _ h1

theorem descriptorRead (r : RingIx) (i : Nat) (hs : P s) : P (descriptorRead r i s) := by
  unfold Machine.descriptorRead
  split
  · exact h.departureNotice r _ _ (h.modRing r _ hs)
  · exact h.modRing r _ hs

theorem takeTransfer (t : Transfer) (hs : P s) : P (takeTransfer t s) := by
  unfold Machine.takeTransfer
  split
  · split
    · exact h.descriptorWrite _ _ _ hs
    · exact h.descriptorRead _ _ hs
  · refine List.foldlRecOn ringOrder _ hs (fun u hu r _ => ?_)
    split
    · exact h.countStray r hu
    · exact hu
  · exact hs

theorem checkReadData (c : ReadCheck) (data : List BusWord) (hs : P s) : P (checkReadData c data s) := by
  unfold Machine.checkReadData
  split
  · split
    · split
      · exact h.raise _ _ _ _ (h.modRing _ _ hs)
      · exact hs
    · exact hs
  · exact h.countParityFault _ _ hs

/-! ## Flushes, silence steps and sweep visits (01 R24, R25; 06 R105) -/

theorem flushRing (r : RingIx) (hs : P s) : P (flushRing s r) := by
  unfold Machine.flushRing
  split
  · have h1 := List.foldlRecOn (s.ring r).slots (fun u p => Machine.dropNotice r p.2 u)
      (h.modRing r (fun x => { x with slots := [] }) hs) (fun _ hu p _ => h.dropNotice r p.2 hu)
    have h2 := h.modRing r (fun x => { x with flushed := x.flushed + BitVec.ofNat 32 x.held, held := 0 }) h1
    dsimp only
    split
    · exact h2
    · exact h.raise _ _ _ _ h2
  · exact hs

theorem stepSilence (r : RingIx) (hs : P s) : P (stepSilence s r) := by
  unfold Machine.stepSilence
  dsimp only
  split
  · split
    · exact h.ring r _ s hs
    · split
      · exact h.raise _ _ _ _ (h.ring r _ s hs)
      · exact hs
  · exact hs

theorem sweepVisit (i : FlowIx) (hs : P s) : P (sweepVisit i s) := by
  have h1 := h.rollIfLagging i hs
  unfold Machine.sweepVisit visitCycle
  dsimp only
  split
  · exact h.history _ _ (passCheck_isOpen i) h1
  · next hf => exact h.history _ _ (passCheck_isOpen i) (h.applyFlowOutcome hf (visitFlow_tag _ _) h1)

/-! ## Requests on flows (03 R54 to R57; 04 R82) -/

theorem createFlow (r : RingIx) (key : Half) (p : Nat) (params : FlowParams) (hs : P s) : P (createFlow r key p params s).1 := by
  unfold Machine.createFlow
  split
  · exact hs
  · exact h.enter rfl _ hs

theorem defineFlow (ring : Nat) (key : Half) (a : FlowArgs) (hs : P s) : P (defineFlow ring key a s).1 := by
  unfold Machine.defineFlow
  split
  · unfold defineFlowAt
    split
    · exact h.createFlow _ _ _ _ hs
    · next i _ =>
      have h1 := h.rollIfLagging i hs
      dsimp only
      split
      · exact h.createFlow _ _ _ _ h1
      · next hf => exact h.rewrite hf (changePeriod_tag _ _) h1
  · exact hs

theorem removeFlow (i : FlowIx) (hs : P s) : P (removeFlow i s).1 := by
  have h1 := h.rollIfLagging i hs
  unfold Machine.removeFlow
  split
  · exact hs
  · dsimp only
    split
    · exact h1
    · exact h.vacate i h1

theorem setPeriod (i : FlowIx) (p : Nat) (hs : P s) : P (setPeriod i p s).1 := by
  unfold Machine.setPeriod
  split
  · exact hs
  · next hf => exact h.rewrite hf (changePeriod_tag _ _) hs

end KeptByUpdates

end Sys2Proof.Machine
end

