-- ==== Sys2Proof/Proofs/HistoryInvariant.lean ====
section
/-! The one OPEN summary in MONITORING, and nothing of the history outside it, are kept by every step (06 R106 to R120). -/

namespace Sys2Proof.Machine

/-! ## The OPEN summary (06 R116) -/

/-- The newest summary of a history is OPEN, and no other is. -/
def NewestOpen (h : List Summary) : Prop :=
  ∃ (older : List Summary) (newest : Summary), h = older ++ [newest] ∧ newest.phase = .opened ∧ ∀ q ∈ older, q.phase ≠ .opened

theorem Summary.isOpen_iff (q : Summary) : q.isOpen = true ↔ q.phase = .opened := beq_iff_eq

theorem newestOpen_append {older : List Summary} (h : ∀ q ∈ older, q.phase ≠ .opened) {newest : Summary}
    (hn : newest.phase = .opened) : NewestOpen (older ++ [newest]) := ⟨older, newest, rfl, hn, h⟩

theorem NewestOpen.map {h : List Summary} (hh : NewestOpen h) {g : Summary → Summary} (hg : ∀ q, (g q).isOpen = q.isOpen) :
    NewestOpen (h.map g) := by
  have hphase : ∀ q, (g q).phase = .opened ↔ q.phase = .opened := fun q => by
    rw [← Summary.isOpen_iff, ← Summary.isOpen_iff, hg]
  obtain ⟨older, newest, rfl, hn, ho⟩ := hh
  rw [List.map_append]
  exact newestOpen_append (List.forall_mem_map.mpr fun q hq => (hphase q).not.mpr (ho q hq)) ((hphase newest).mpr hn)

/-! ## Boundaries (06 R110) -/

/-- A summary closed at its boundary is OPEN no longer (06 R110 step 1). -/
theorem closeSummary_phase (now : Tick) (marker : FlowIx) (q : Summary) : (closeSummary now marker q).phase ≠ .opened := by
  unfold closeSummary
  split
  · exact nofun
  · next hq => exact (Summary.isOpen_iff q).not.mp hq

theorem discardOldestFinal_sublist (h : List Summary) : (discardOldestFinal h).Sublist h := by
  induction h with
  | nil => exact .refl _
  | cons q rest ih =>
    unfold discardOldestFinal
    split
    · exact List.sublist_cons_self q rest
    · exact ih.cons_cons q

theorem makeRoom_sublist (h : List Summary) : (makeRoom h).Sublist h := by
  unfold makeRoom
  split
  · exact discardOldestFinal_sublist h
  · exact .refl h

/-! ## The history with the timer, the number, the codes and the tags -/

namespace HistoryOk

variable {s : State} (h : HistoryOk s)
include h

/-- An event that leaves the device state, the tally side and the flows. -/
theorem still {t : State} (hd : t.device = s.device) (ht : t.tally = s.tally) (hf : t.flows = s.flows) : HistoryOk t where
  monitoring hm := by rw [ht]; exact h.monitoring (hd.symm.trans hm)
  outside hn := by rw [ht]; exact h.outside (hd ▸ hn)
  tags hn i f hi := h.tags (hd ▸ hn) i f ((State.flowAt_eq_of_flows hf i).symm.trans hi)
  code := by rw [ht]; exact h.code
  pendingCode := by rw [ht]; exact h.pendingCode
  timer := by rw [ht]; exact h.timer

theorem setEntry {i : FlowIx} {e : FlowEntry} (he : TagKept s i e) : HistoryOk (s.setEntry i e) where
  monitoring := h.monitoring
  outside := h.outside
  tags hn j f hj := by
    rw [State.flowAt, State.setEntry_entry] at hj
    split at hj
    · obtain ⟨-, -, hnumber⟩ := h.outside hn
      rcases he f hj with hcurrent | hkept
      · exact hcurrent.trans hnumber
      · obtain ⟨g, hg, hsame⟩ := Option.map_eq_some_iff.mp hkept
        exact hsame.symm.trans (h.tags hn i g hg)
    · exact h.tags hn j f hj
  code := h.code
  pendingCode := h.pendingCode
  timer := h.timer

theorem mapHistory {g : Summary → Summary} (hg : ∀ q, (g q).isOpen = q.isOpen) : HistoryOk (s.setHistory (s.tally.history.map g)) where
  monitoring hm := NewestOpen.map (h.monitoring hm) hg
  outside hn := by
    obtain ⟨hnone, htimer, hnumber⟩ := h.outside hn
    exact ⟨List.map_eq_nil_iff.mpr hnone, htimer, hnumber⟩
  tags := h.tags
  code := h.code
  pendingCode := h.pendingCode
  timer := h.timer

/-- The code in force at the next start of a period (06 R108). -/
theorem nextCode : s.tally.pendingCode.getD s.tally.code ≤ 5 := by
  cases hp : s.tally.pendingCode with
  | none => exact h.code
  | some c => exact h.pendingCode c hp

end HistoryOk

theorem historyOk_updates : KeptByUpdates HistoryOk where
  ring _ _ _ h := h.still rfl rfl rfl
  entry _ _ _ he h := h.setEntry he
  history _ _ hg h := h.mapHistory hg
  raise _ _ _ _ h := h.still rfl rfl rfl

/-- In MONITORING the tags are free, and timer and number stand at any value of theirs. -/
theorem HistoryOk.ofMonitoring {s : State} (hd : s.device = .monitoring) (hopen : NewestOpen s.tally.history)
    (hcode : s.tally.code ≤ 5) (hpending : ∀ c, s.tally.pendingCode = some c → c ≤ 5)
    (htimer : s.tally.timer ≤ periodLength s.tally.code) : HistoryOk s where
  monitoring _ := hopen
  outside hn := absurd hd hn
  tags hn := absurd hd hn
  code := hcode
  pendingCode := hpending
  timer := htimer

/-- The tally side and the directory at power-on and at RESTART (03 R60; 06 R120). -/
theorem HistoryOk.init {s : State} (hd : s.device = .loading) (ht : s.tally = TallyState.init)
    (hf : s.flows = Vector.replicate 256 FlowEntry.init) : HistoryOk s where
  monitoring hm := by
    rw [hd] at hm
    cases hm
  outside _ := by rw [ht]; exact ⟨rfl, rfl, rfl⟩
  tags _ i f hi := by
    rw [State.flowAt, State.entry, hf, Fin.getElem_fin, Vector.getElem_replicate] at hi
    cases hi
  code := by rw [ht]; decide
  pendingCode := by rw [ht]; exact nofun
  timer := by rw [ht]; exact Nat.zero_le _

namespace HistoryOk

variable {s : State} (h : HistoryOk s)
include h

/-! ## Starts of a period (06 R106, R107, R110, R118, R120) -/

theorem startPeriod (hd : s.device = .monitoring) {kept : List Summary} (hkept : ∀ q ∈ kept, q.phase ≠ .opened) :
    HistoryOk (startPeriod kept s) :=
  .ofMonitoring hd (newestOpen_append hkept rfl) h.nextCode nofun (Nat.zero_le _)

theorem boundary : HistoryOk (boundary s) := by
  unfold Machine.boundary
  split
  · next hdue =>
    simp only [State.boundaryDue, Bool.and_eq_true, beq_iff_eq] at hdue
    obtain ⟨hd, -⟩ := hdue
    refine h.startPeriod hd (fun q hq => ?_)
    obtain ⟨p, -, rfl⟩ := List.mem_map.mp ((makeRoom_sublist _).mem hq)
    exact closeSummary_phase _ _ p
  · exact h

/-- The tags are set to the period number, which is 0 outside MONITORING (06 R118 step 6, R120). -/
theorem clearCounts : HistoryOk (clearCounts s) where
  monitoring := h.monitoring
  outside := h.outside
  tags hn i f hi := by
    obtain ⟨-, -, hnumber⟩ := h.outside hn
    have hat : (Machine.clearCounts s).flowAt i = (s.flowAt i).map (clearFlow s.tally.periodNumber) := by
      simp [State.flowAt, State.entry, Machine.clearCounts, clearEntry]
    rw [hat] at hi
    obtain ⟨g, -, rfl⟩ := Option.map_eq_some_iff.mp hi
    exact hnumber
  code := h.code
  pendingCode := h.pendingCode
  timer := h.timer

theorem clearTallies : HistoryOk (clearTallies s) := by
  unfold Machine.clearTallies
  split
  · next hd => exact (h.startPeriod hd (kept := []) nofun).clearCounts
  · exact h.clearCounts
  · exact h

theorem enterMonitoring : HistoryOk (enterMonitoring s) :=
  .ofMonitoring rfl (newestOpen_append (older := []) nofun rfl) h.nextCode nofun (Nat.zero_le _)

theorem startPart : HistoryOk (startPart s).1 := by
  unfold Machine.startPart
  split
  · exact h.enterMonitoring
  · exact h

/-! ## The end of a load (06 R108, R120; 10 R166) -/

theorem refuseImage (hl : s.device = .loading) (r : ConfigResult) : HistoryOk (refuseImage r s) := by
  have hn : s.device ≠ .monitoring := by rw [hl]; decide
  obtain ⟨hnone, htimer, hnumber⟩ := h.outside hn
  have hdevice : (Machine.refuseImage r s).device = .unconfigured := rfl
  have htally : (Machine.refuseImage r s).tally = ⟨s.tally.periodNumber, s.tally.timer, 1, none, s.tally.history⟩ := rfl
  have hflows := (refuseImage_flowsFrame r s).flows
  generalize Machine.refuseImage r s = t at hdevice htally hflows ⊢
  refine ⟨fun hm => ?_, fun _ => ?_, fun _ i f hi => ?_, ?_, ?_, ?_⟩
  · rw [hdevice] at hm
    cases hm
  · rw [htally]
    exact ⟨hnone, htimer, hnumber⟩
  · exact h.tags hn i f ((State.flowAt_eq_of_flows hflows i).symm.trans hi)
  · rw [htally]
    exact show 1 ≤ 5 by decide
  · rw [htally]
    exact nofun
  · rw [htally]
    exact htimer.trans_le (Nat.zero_le _)

theorem loadEnd (image : List Byte) : HistoryOk (loadEnd image s) := by
  unfold Machine.loadEnd endLoad
  split
  · next hl =>
    split
    · have hcode : imageTallyCode (s.load.bytes ++ image) ≤ 5 := Nat.min_le_left _ _
      unfold applyImage
      generalize applyTables (s.load.bytes ++ image) s = out
      exact .ofMonitoring rfl (newestOpen_append (older := []) nofun rfl) hcode nofun (Nat.zero_le _)
    · exact h.refuseImage hl _
  · exact h

/-! ## Strobes, ticks and measurements -/

/-- The tally timer runs in MONITORING alone, and stops at the period length (06 R107). -/
theorem millisecondStrobe : HistoryOk (millisecondStrobe s) := by
  by_cases hdue : s.due.msStrobe = true
  · rw [millisecondStrobe_due hdue]
    exact {
      monitoring := h.monitoring
      outside := fun hn => by
        obtain ⟨hnone, htimer, hnumber⟩ := h.outside hn
        exact ⟨hnone, (if_neg hn).trans htimer, hnumber⟩
      tags := h.tags
      code := h.code
      pendingCode := h.pendingCode
      timer := by
        dsimp only
        split
        · exact Nat.min_le_left _ _
        · exact h.timer }
  · rw [Machine.millisecondStrobe, if_neg hdue]
    exact h

theorem secondsStrobe : HistoryOk (secondsStrobe s) := by
  have h1 : HistoryOk { s with due := { s.due with secondsStrobe := false } } := h.still rfl rfl rfl
  unfold Machine.secondsStrobe
  split
  · unfold chordStrobe
    split
    · split
      · exact h1.still rfl rfl rfl
      · unfold authoriseChord
        dsimp only
        split
        · exact clearTallies (h1.still rfl rfl rfl)
        · exact h1.still rfl rfl rfl
    · exact h1
  · exact h

theorem enterHoldover (v : BitVec 32) : HistoryOk (enterHoldover v s) :=
  historyOk_updates.raise _ _ _ _ (historyOk_updates.modOpen (fun _ => rfl) (h.still rfl rfl rfl))

theorem measurementCompletion : HistoryOk (measurementCompletion s) := by
  unfold Machine.measurementCompletion
  split
  · have h1 : HistoryOk { s with due := { s.due with measurement := none } } := h.still rfl rfl rfl
    unfold takeMeasurement
    dsimp only
    split
    · split <;> exact h1.still rfl rfl rfl
    · split
      · exact h1.enterHoldover _
      · exact h1
      · exact h1
  · exact h

theorem refLoss : HistoryOk (refLoss s) := by
  have h1 : HistoryOk { s with due := { s.due with refLoss := false }, time := { s.time with meter := .waiting } } :=
    h.still rfl rfl rfl
  unfold Machine.refLoss
  split
  · dsimp only
    split
    · exact h1.enterHoldover 0
    · exact h1
    · exact h1
  · exact h

theorem seenRisingEdge : HistoryOk (seenRisingEdge s) := by
  unfold Machine.seenRisingEdge
  split
  · exact h.still rfl rfl rfl
  · exact h

theorem tick (pins : Pins) : HistoryOk (tick pins s) := by
  unfold Machine.tick
  split
  · exact h.still rfl rfl rfl
  · exact h

theorem debouncedStateChange (i : PanelInput) : HistoryOk (debouncedStateChange i s) := by
  unfold Machine.debouncedStateChange
  dsimp only
  split
  · cases i with
    | clrA => exact h.still rfl rfl rfl
    | clrB => exact h.still rfl rfl rfl
    | ack =>
      dsimp only
      split <;> exact h.still rfl rfl rfl
  · exact h

/-! ## Sweep, silence and bus -/

theorem sweepPace : HistoryOk (sweepPace s) := by
  have h1 : HistoryOk { s with due := { s.due with sweepPace := false } } := h.still rfl rfl rfl
  unfold Machine.sweepPace
  split
  · dsimp only
    split
    · exact (historyOk_updates.sweepVisit s.sweepNext h1).still rfl rfl rfl
    · exact h1
  · exact h

theorem silenceTick : HistoryOk (silenceTick s) := by
  have h1 : HistoryOk { s with due := { s.due with silenceTick := false } } := h.still rfl rfl rfl
  unfold Machine.silenceTick
  split
  · dsimp only
    split
    · exact List.foldlRecOn ringOrder _ h1 (fun _ hu r _ => historyOk_updates.stepSilence r hu)
    · exact h1
  · exact h

theorem busTransfer (t : Transfer) : HistoryOk (busTransfer t s) := by
  refine (historyOk_updates.takeTransfer t h).still ?_ ?_ ?_ <;>
  · unfold Machine.busTransfer carryOut awaitData
    split <;> rfl

theorem readDataCheck (data : List BusWord) : HistoryOk (readDataCheck data s) := by
  unfold Machine.readDataCheck
  split
  · exact h.still rfl rfl rfl
  · exact h.still rfl rfl rfl
  · next c rest _ =>
    have h1 : HistoryOk { s with reads := rest } := h.still rfl rfl rfl
    exact (historyOk_updates.checkReadData c data h1).still rfl rfl rfl

theorem busReset : HistoryOk (busReset s) := by
  have h1 := List.foldlRecOn ringOrder flushRing h (fun _ hu r _ => historyOk_updates.flushRing r hu)
  unfold Machine.busReset
  split
  · exact h
  · generalize ringOrder.foldl flushRing s = u at h1 ⊢
    exact h1.still rfl rfl rfl

/-! ## Requests -/

theorem defineRing (ring : Nat) (b : BitVec 22) (n : Nat) (stamp enrol : Bool) : HistoryOk (defineRing ring b n stamp enrol s).1 := by
  unfold Machine.defineRing
  split
  · dsimp only
    split
    · exact h.still rfl rfl rfl
    · exact h
  · exact h

theorem ringOff (ring : Nat) : HistoryOk (ringOff ring s).1 := by
  unfold Machine.ringOff
  split
  · dsimp only
    split
    · exact h.still rfl rfl rfl
    · exact h
  · exact h

theorem takeIncidents (n : Byte) : HistoryOk (takeIncidents n s).1 := by
  unfold Machine.takeIncidents removeOldest
  dsimp only
  split
  · exact h
  · exact h.still rfl rfl rfl

theorem setAlarmMap (c : Vector Byte 14) (m p d : Byte) : HistoryOk (setAlarmMap c m p d s).1 := by
  unfold Machine.setAlarmMap
  split
  · exact h
  · exact h.still rfl rfl rfl

/-- Codes 6 and 7 are taken as 5 (06 R108). -/
theorem setTallyPeriod (code : Byte) : HistoryOk (setTallyPeriod code s).1 := by
  unfold Machine.setTallyPeriod
  split
  · exact h
  · refine { h with pendingCode := ?_ }
    rintro _ ⟨⟩
    exact Nat.min_le_left _ _

theorem perform (req : Request) : HistoryOk (perform req s).1 := by
  cases req with
  | status => exact h
  | readFlow i p => exact (readFlow_state i p s).symm ▸ h
  | findFlow r k => exact h
  | defineFlow r k a => exact historyOk_updates.defineFlow _ _ _ h
  | removeFlow i => exact historyOk_updates.removeFlow _ h
  | setPeriod i p => exact historyOk_updates.setPeriod _ _ h
  | readRing r p => exact (readRing_state r p s).symm ▸ h
  | defineRing r b n o => exact h.defineRing _ _ _ _ _
  | ringOff r => exact h.ringOff _
  | readSummary n p => exact (readSummary_state n p s).symm ▸ h
  | takeIncidents n => exact h.takeIncidents n
  | acknowledge c => exact h.still rfl rfl rfl
  | setAlarmMap c m p d => exact h.setAlarmMap c m p d
  | setTallyPeriod c => exact h.setTallyPeriod c
  | clearTallies => exact h.clearTallies
  | restart => exact h
  | start => exact h.startPart

end HistoryOk

theorem historyOk_kept : KeptByCommands HistoryOk where
  seenRisingEdge _ h := h.seenRisingEdge
  measurementCompletion _ h := h.measurementCompletion
  refLoss _ h := h.refLoss
  tick pins _ h := h.tick pins
  loadEnd image _ h := h.loadEnd image
  debouncedStateChange i _ h := h.debouncedStateChange i
  sweepPace _ h := h.sweepPace
  millisecondStrobe _ h := h.millisecondStrobe
  secondsStrobe _ h := h.secondsStrobe
  silenceTick _ h := h.silenceTick
  boundary _ h := h.boundary
  line _ _ h := h.still rfl rfl rfl
  restart _ _ := .init rfl rfl rfl
  perform req _ _ h := h.perform req
  pending _ _ h := h.still rfl rfl rfl
  powerOn _ _ _ := .init rfl rfl rfl
  busTransfer t _ h := h.busTransfer t
  readDataCheck data _ h := h.readDataCheck data
  busReset _ h := h.busReset
  releaseReset _ h := h.still rfl rfl rfl
  clock _ _ h := h.still rfl rfl rfl

/-- Settles O58: a start of a period appends the one OPEN summary, every other event leaves each summary OPEN or not as it was, and outside
MONITORING no period starts and flows are written under the tag 0. -/
theorem stepKeepsHistory : Obligations.StepKeepsHistory := by
  unfold Obligations.StepKeepsHistory
  exact fun _ _ h ht => historyOk_kept.step h ht

end Sys2Proof.Machine
end

