-- ==== Sys2Proof/Proofs/BoundariesAndRolls.lean ====
section
/-! A boundary closes the OPEN summary and opens the next period (06 R106 to R112); the roll of a lagging flow into the CLOSING summary
(06 R113 to R115; 03 R52, R59). -/

namespace Sys2Proof.Machine

/-! ## Closing a summary and making room (06 R110) -/

/-- The OPEN summary closed, in the words of the statement. -/
theorem map_closeSummary (now : Tick) (marker : FlowIx) (l : List Summary) :
    l.map (closeSummary now marker) = openHistory (fun q => { q with endTime := some now, phase := .closing marker }) l :=
  List.map_congr_left fun q _ => by simp only [closeSummary, Summary.isOpen_iff]

theorem Summary.isFinal_iff (q : Summary) : q.isFinal = true ↔ q.phase = .final := beq_iff_eq

/-- Closing makes no summary FINAL, and leaves one that is. -/
theorem closeSummary_isFinal (now : Tick) (marker : FlowIx) (q : Summary) : (closeSummary now marker q).isFinal = q.isFinal := by
  unfold closeSummary
  split
  · next ho =>
    rw [Summary.isFinal, Summary.isFinal, (Summary.isOpen_iff q).mp ho]
    rfl
  · rfl

theorem makeRoom_short {l : List Summary} (h : l.length < 16) : makeRoom l = l := if_neg (Nat.not_le.mpr h)

theorem makeRoom_full {l : List Summary} (h : 16 ≤ l.length) : makeRoom l = discardOldestFinal l := if_pos h

/-- The first FINAL summary is the one that is discarded. -/
theorem discardOldestFinal_append {old : List Summary} (hold : ∀ p ∈ old, p.isFinal = false) {q : Summary} (hq : q.isFinal = true)
    (rest : List Summary) : discardOldestFinal (old ++ q :: rest) = old ++ rest := by
  induction old with
  | nil => exact if_pos hq
  | cons p old ih =>
    obtain ⟨hp, hold⟩ := List.forall_mem_cons.mp hold
    rw [List.cons_append, discardOldestFinal, hp, ih hold]
    rfl

/-! ## Boundaries (06 R107, R110) -/

theorem boundary_due {s : State} (hd : s.device = .monitoring) (ht : periodLength s.tally.code ≤ s.tally.timer) :
    boundary s = startPeriod (makeRoom (s.tally.history.map (closeSummary s.time.tickCount (s.sweepNext - 1)))) s :=
  if_pos (by simp [State.boundaryDue, hd, ht])

theorem startPeriod_eq (kept : List Summary) (s : State) : startPeriod kept s = { s with tally :=
    { periodNumber := s.tally.periodNumber + 1
      timer := 0
      code := s.tally.pendingCode.getD s.tally.code
      pendingCode := none
      history := kept ++ [s.fresh (s.tally.periodNumber + 1) (s.tally.pendingCode.getD s.tally.code)] } } := by
  simp only [startPeriod, newSummary_eq]

/-- Settles O29: the closed history, with room made when 16 summaries are held, and the new OPEN summary after it. -/
theorem boundaryOpensPeriod : Obligations.BoundaryOpensPeriod := by
  unfold Obligations.BoundaryOpensPeriod
  intro s hd ht
  have hopens := (boundary_due hd ht).trans (startPeriod_eq _ s)
  refine ⟨_, congrArg Host.Outcome.next hopens, ?room, ?full⟩
  case room =>
    intro hshort
    rw [makeRoom_short (by rwa [List.length_map]), map_closeSummary]
  case full =>
    intro old q rest hfull hhistory hq hold
    have hclosed : ∀ p ∈ old.map (closeSummary s.time.tickCount (s.sweepNext - 1)), p.isFinal = false :=
      List.forall_mem_map.mpr fun p hp => by
        rw [closeSummary_isFinal, ← Bool.not_eq_true, Summary.isFinal_iff]
        exact hold p hp
    have hfinal := (closeSummary_isFinal s.time.tickCount (s.sweepNext - 1) q).trans ((Summary.isFinal_iff q).mpr hq)
    rw [makeRoom_full (by rwa [List.length_map]), hhistory, List.map_append, List.map_cons, discardOldestFinal_append hclosed hfinal,
      ← List.map_append, map_closeSummary]

/-! ## The limit check of a roll (06 R115) -/

/-- The four limits of a flow: the incident of each, the limit, and the period's value it is held against. -/
def FlowRecord.limits (f : FlowRecord) : List (IncidentKind × Nat × Nat) :=
  [(.flowMiss, f.params.missLimit, f.period.missed),
    (.flowLate, f.params.lateLimit, f.period.lateArrivals + f.period.lateDepartures),
    (.flowLoss, f.params.lossLimit, f.period.lost + f.period.switchDrops),
    (.flowDisorder, f.params.disorderLimit, f.period.reordered + f.period.stragglers + f.period.duplicates)]

/-- The limits of a flow that its period crosses, in order. -/
def FlowRecord.crossings (f : FlowRecord) : List (IncidentKind × Nat × Nat) := f.limits.filter (fun c => crosses c.2.1 c.2.2)

theorem limitIncidents_eq (f : FlowRecord) : limitIncidents f.params f.period = f.crossings.map (fun c => (c.1, c.2.2)) := by
  have hcons : ∀ (c : IncidentKind × Nat × Nat) l, ((c :: l).filter (fun c => crosses c.2.1 c.2.2)).map (fun c => (c.1, c.2.2)) =
      (if crosses c.2.1 c.2.2 then [(c.1, c.2.2)] else []) ++
        (l.filter (fun c => crosses c.2.1 c.2.2)).map (fun c => (c.1, c.2.2)) := by
    intro c l
    rw [List.filter_cons]
    split <;> rfl
  simp only [limitIncidents, FlowRecord.crossings, FlowRecord.limits, hcons, List.filter_nil, List.map_nil, List.append_nil,
    List.append_assoc]

/-- The raisings of a roll's limit check, in order. -/
theorem flowRaisings_limits (i : FlowIx) (f : FlowRecord) : flowRaisings i (limitIncidents f.params f.period) =
    f.crossings.map (fun c => (c.1, Subject.flow i, BitVec.ofNat 32 c.2.2)) := by
  rw [limitIncidents_eq, flowRaisings, List.map_map]
  rfl

theorem limitIncidents_isEmpty (f : FlowRecord) : (limitIncidents f.params f.period).isEmpty = true ↔ f.crossings = [] := by
  rw [limitIncidents_eq, List.isEmpty_iff, List.map_eq_nil_iff]

/-! ## The roll of a lagging flow (06 R113, R114; 03 R52, R59) -/

/-- A history with a flow folded into its CLOSING summary. -/
def foldHistory (i : FlowIx) (f : FlowRecord) (l : List Summary) : List Summary :=
  l.map (fun q => if q.isClosing then foldInto f i q else q)

theorem retires_iff (f : FlowRecord) : retires f = true ↔ f.origin = .learned ∧ idleAfter f = 16 := by simp [retires, Config.idleLimit]

/-- A roll in one piece: the entry, the history, and the log and the alarm state after the raisings. -/
theorem rollFlow_written (i : FlowIx) (f : FlowRecord) (s : State) : rollFlow i f s = { s with
    flows := s.flows.set i (rolledEntry f (s.entry i).gen s.tally.periodNumber)
    tally := { s.tally with history := foldHistory i f s.tally.history }
    log := (raiseAll (rollRaisings i f) s).log
    alarm := (raiseAll (rollRaisings i f) s).alarm } := by
  obtain ⟨hlog, halarm⟩ := raiseAll_congr (rollRaisings i f) (s := s) (t := s.modClosing (foldInto f i)) rfl rfl rfl
  rw [rollFlow_eq, raiseAll_eq, hlog, halarm]
  rfl

theorem rolledEntry_retired {f : FlowRecord} (h : retires f = true) (gen : BitVec 4) (number : BitVec 16) :
    rolledEntry f gen number = ⟨gen + 1, none⟩ := if_pos h

theorem rolledEntry_kept {f : FlowRecord} (h : retires f ≠ true) (gen : BitVec 4) (number : BitVec 16) : rolledEntry f gen number =
    ⟨gen, some { f with period := Tallies.zero, periodWorst := none, tag := number, idle := idleAfter f }⟩ := if_neg h

theorem rollRaisings_retired (i : FlowIx) {f : FlowRecord} (h : retires f = true) : rollRaisings i f =
    flowRaisings i (limitIncidents f.params f.period) ++ [(.flowRetired, .flow i, f.key.setWidth 32)] := by
  rw [rollRaisings, if_pos h]

theorem rollRaisings_kept (i : FlowIx) {f : FlowRecord} (h : retires f ≠ true) :
    rollRaisings i f = flowRaisings i (limitIncidents f.params f.period) := by
  rw [rollRaisings, if_neg h, List.append_nil]

/-- Settles O35: the fold, the raisings of the crossed limits, and the entry by whether the roll retires the flow. -/
theorem rollFoldsFlow : Obligations.RollFoldsFlow := by
  unfold Obligations.RollFoldsFlow
  intro i f s hf ht p idle crossings raisings add fold history
  have hraisings : flowRaisings i (limitIncidents f.params f.period) = raisings := flowRaisings_limits i f
  have hfold : ∀ q, foldInto f i q = fold q := by
    intro q
    have hworst : foldWorst q.worst f.periodWorst i = (fold q).worst := by
      simp only [fold, foldWorst]
      cases f.periodWorst with
      | none => rfl
      | some x => cases q.worst <;> rfl
    have hover : (if (limitIncidents f.params f.period).isEmpty then q.flowsOver else bump32 q.flowsOver) = (fold q).flowsOver :=
      if_congr (limitIncidents_isEmpty f) rfl rfl
    rw [foldInto, hworst, hover]
    rfl
  have hhistory : foldHistory i f s.tally.history = history := by
    refine List.map_congr_left fun q _ => ?_
    rw [Summary.isClosing, hfold]
    cases q.phase <;> rfl
  rw [rollIfLagging_lagging hf ht, rollFlow_written, hhistory]
  constructor
  · intro horigin hidle
    have hretires : retires f = true := (retires_iff f).mpr ⟨horigin, hidle⟩
    rw [rolledEntry_retired hretires, rollRaisings_retired i hretires, hraisings]
  · intro hkept
    have hretires : retires f ≠ true := by
      rw [ne_eq, retires_iff]
      rintro ⟨horigin, hidle⟩
      rcases hkept with hstatic | hbelow
      · rw [hstatic] at horigin
        cases horigin
      · exact hbelow hidle
    rw [rolledEntry_kept hretires, rollRaisings_kept i hretires, hraisings]
    rfl

end Sys2Proof.Machine
end

