-- ==== Sys2Proof/Proofs/AlarmUpdates.lean ====
section
/-! SUPPORT. The alarm state after classes are added to the pending set or leave it, class by class (07 R126, R127; 08 R135 to R140). -/

namespace Sys2Proof.Machine

/-- The alarm state with the pending classes that meet a test alone, the outputs not yet found afresh: what every event that ends pending
classes makes of it (08 R138 to R140). -/
def AlarmState.keeping (a : AlarmState) (p : AlarmClass → Bool) : AlarmState := { a with pendingSet := a.pendingSet.keep p }

@[simp] theorem AlarmState.resolve_pendingSet (a : AlarmState) : a.resolve.pendingSet = a.pendingSet := rfl
@[simp] theorem AlarmState.resolve_settings (a : AlarmState) : a.resolve.settings = a.settings := rfl
@[simp] theorem AlarmState.keeping_settings (a : AlarmState) (p : AlarmClass → Bool) : (a.keeping p).settings = a.settings := rfl

theorem AlarmState.reevaluate_eq (a : AlarmState) (records : List Incident) :
    a.reevaluate records = a.keeping (fun c => a.settings.modes.has c || records.any (fun r => r.cls == c)) := rfl

theorem AlarmState.keeping_pending {a : AlarmState} {p : AlarmClass → Bool} {c : AlarmClass}
    (h : (a.keeping p).pendingSet.has c = true) : a.pendingSet.has c = true ∧ p c = true := by
  rw [AlarmState.keeping, ClassSet.has_keep, Bool.and_eq_true, Bool.and_eq_true] at h
  exact h.2

theorem AlarmState.keeping_reserved (a : AlarmState) (p : AlarmClass → Bool) : (a.keeping p).pendingSet &&& 0b10000001#8 = 0 := by
  simp only [AlarmState.keeping, ClassSet.keep, ClassSet.ofPred_reserved]

/-- The outputs found afresh for a pending set given class by class. -/
theorem resolved_resolve {a : AlarmState} {p : AlarmClass → Bool} (hpending : ∀ c, c ≠ 0 → a.pendingSet.has c = p c)
    (hreserved : a.pendingSet &&& 0b10000001#8 = 0) : Resolved a.settings p a.resolve := ⟨rfl, hpending, hreserved, rfl, rfl⟩

theorem resolved_keeping (a : AlarmState) (p : AlarmClass → Bool) :
    Resolved a.settings (fun c => a.pendingSet.has c && p c) (a.keeping p).resolve :=
  resolved_resolve (a := a.keeping p) (fun c hc => by simp [AlarmState.keeping, ClassSet.has_keep, hc])
    (a.keeping_reserved p)

theorem resolved_setPending (a : AlarmState) (c : AlarmClass) :
    Resolved a.settings (fun d => a.pendingSet.has d || c == d) (a.setPending c).resolve :=
  resolved_resolve (a := a.setPending c)
    (fun d hd => by simp [AlarmState.setPending, ClassSet.has_add, hd, BEq.comm (a := d)]) (AlarmState.setPending_reserved a c)

/-- The pending set given by another test that agrees on the classes 1 to 6. -/
theorem Resolved.congr {settings : AlarmSettings} {p q : AlarmClass → Bool} {a : AlarmState}
    (h : Resolved settings p a) (hpq : ∀ c, c ≠ 0 → p c = q c) : Resolved settings q a := by
  obtain ⟨hsettings, hpending, hrest⟩ := h
  exact ⟨hsettings, fun c hc => (hpending c hc).trans (hpq c hc), hrest⟩

theorem Resolved.alarmOk {settings : AlarmSettings} {p : AlarmClass → Bool} {a : AlarmState} (h : Resolved settings p a) :
    AlarmOk a := by
  obtain ⟨rfl, -, hclasses, hstack, halert⟩ := h
  exact ⟨hstack, halert, hclasses⟩

end Sys2Proof.Machine
end

