-- ==== Sys2Proof/Proofs/IncidentInvariant.lean ====
section
/-! The size of the log and its distinct records, the outputs and the AUTO classes are kept by every step (07 R122, R124; 08 R133, R135,
R137). -/

namespace Sys2Proof.Machine

/-- The invariants of the log and the alarm state together (07 R124; 08 R135, R137). -/
structure IncidentsOk (s : State) : Prop where
  log   : LogOk s.log
  alarm : AlarmOk s.alarm
  auto  : AutoOk s

/-! ## What changes the log or the alarm state -/

theorem LogOk.init : LogOk IncidentLog.init := ⟨Nat.zero_le _, List.nodup_nil, nofun, Nat.zero_le _⟩

/-- Records that leave the log leave the others in their order (07 R128). -/
theorem LogOk.drop {l : IncidentLog} (h : LogOk l) (n : Nat) : LogOk { l with records := l.records.drop n } where
  size := (List.drop_sublist n l.records).length_le.trans h.size
  distinct := ((List.drop_sublist n l.records).map _).nodup h.distinct
  repeats r hr := h.repeats r (List.mem_of_mem_drop hr)
  overflow := h.overflow

/-- The log empty and no class pending: power-on, RESTART and the clearing of tallies (07 R122, R131; 08 R133, R142). -/
theorem IncidentsOk.cleared {s : State} {settings : AlarmSettings} (hlog : s.log = IncidentLog.init)
    (halarm : s.alarm = ⟨settings, 0, 0, false⟩) : IncidentsOk s where
  log := hlog ▸ LogOk.init
  alarm := halarm ▸ ⟨(stackCode_empty settings).symm, rfl, (by decide : 0#8 &&& 0b10000001#8 = 0)⟩
  auto c hc := by
    rw [halarm] at hc
    simp [ClassSet.has] at hc

/-- AUTO classes re-evaluated against the records of the log, whatever was pending before (07 R127; 08 R140). -/
theorem IncidentsOk.reevaluated {s : State} (hlog : LogOk s.log) {a : AlarmState}
    (halarm : s.alarm = (a.reevaluate s.log.records).resolve) : IncidentsOk s where
  log := hlog
  alarm := by rw [halarm, AlarmState.reevaluate_eq]; exact (resolved_keeping a _).alarmOk
  auto c hc hauto := by
    rw [halarm, AlarmState.reevaluate_eq] at hc hauto
    rw [AlarmState.resolve_pendingSet] at hc
    rw [AlarmState.resolve_settings, AlarmState.keeping_settings] at hauto
    obtain ⟨-, hkept⟩ := AlarmState.keeping_pending hc
    rw [hauto, Bool.false_or] at hkept
    obtain ⟨r, hr, hcls⟩ := List.any_eq_true.mp hkept
    exact ⟨r, hr, eq_of_beq hcls⟩

namespace IncidentsOk

variable {s : State} (h : IncidentsOk s)
include h

/-- An event that leaves the log and the alarm state. -/
theorem still {t : State} (hlog : t.log = s.log) (halarm : t.alarm = s.alarm) : IncidentsOk t where
  log := hlog ▸ h.log
  alarm := halarm ▸ h.alarm
  auto c hc hm := by
    rw [halarm] at hc hm
    rw [hlog]
    exact h.auto c hc hm

theorem raise (k : IncidentKind) (x : Subject) (v : BitVec 32) : IncidentsOk (raise k x v s) where
  log := raiseInto_log h.log _ k x v _
  alarm := (raiseInto_alarm _ k x v _ _).1
  auto := raise_auto k x v h.auto

/-- Pending classes ended by a press of the ACK button or by ACKNOWLEDGE (08 R138, R139). -/
theorem ended (p : AlarmClass → Bool) : IncidentsOk { s with alarm := (s.alarm.keeping p).resolve } where
  log := h.log
  alarm := (resolved_keeping s.alarm p).alarmOk
  auto c hc hauto := by
    rw [AlarmState.resolve_pendingSet] at hc
    obtain ⟨hpending, -⟩ := AlarmState.keeping_pending hc
    exact h.auto c hpending hauto

theorem installSettings (new : AlarmSettings) : IncidentsOk (installSettings new s) :=
  .reevaluated h.log (a := { s.alarm with settings := new }) rfl

theorem removeOldest (n : Nat) : IncidentsOk (removeOldest n s) := by
  unfold Machine.removeOldest
  split
  · exact h
  · exact .reevaluated (h.log.drop n) (a := s.alarm) rfl

theorem clearTallies : IncidentsOk (clearTallies s) := by
  unfold Machine.clearTallies
  split
  · exact .cleared rfl (clearPending_eq _)
  · exact .cleared rfl (clearPending_eq _)
  · exact h

end IncidentsOk

/-- Writes of rings, flow entries and history leave the log and the alarm state. -/
theorem incidentsOk_updates : KeptByUpdates IncidentsOk where
  ring _ _ _ h := h.still rfl rfl
  entry _ _ _ _ h := h.still rfl rfl
  history _ _ _ h := h.still rfl rfl
  raise k x v _ h := h.raise k x v

namespace IncidentsOk

variable {s : State} (h : IncidentsOk s)
include h

/-! ## The end of a load (10 R166, R167) -/

theorem applyRingEntry (image : List Byte) (refused : Bool) (pos : Nat) :
    IncidentsOk (applyRingEntry image (s, refused) pos).1 := by
  unfold Machine.applyRingEntry
  dsimp only
  split
  · split
    · split
      · exact h.raise _ _ _
      · exact h.still rfl rfl
    · exact h.raise _ _ _
  · exact h.raise _ _ _

theorem applyFlowEntry (image : List Byte) (refused : Bool) (pos : Nat) :
    IncidentsOk (applyFlowEntry image (s, refused) pos).1 := by
  unfold Machine.applyFlowEntry
  dsimp only
  split
  · split
    · exact h.raise _ _ _
    · split
      · next hc => exact congrArg Prod.fst hc ▸ incidentsOk_updates.createFlow _ _ _ _ h
      · next hc => exact congrArg Prod.fst hc ▸ incidentsOk_updates.createFlow _ _ _ _ h
  · exact h.raise _ _ _

theorem applyTables (image : List Byte) : IncidentsOk (applyTables image s).1 := by
  have hvalues : IncidentsOk { s with values := imageValues image } := h.still rfl rfl
  have hrings := List.foldlRecOn (motive := fun acc : State × Bool => IncidentsOk acc.1) (List.range (imageRings image))
    (Machine.applyRingEntry image) (b := (_, false)) hvalues (fun acc hacc pos _ => hacc.applyRingEntry image acc.2 pos)
  exact List.foldlRecOn (motive := fun acc : State × Bool => IncidentsOk acc.1) (List.range (imageFlows image))
    (Machine.applyFlowEntry image) hrings (fun acc hacc pos _ => hacc.applyFlowEntry image acc.2 pos)

theorem applyImage (image : List Byte) : IncidentsOk (applyImage image s) := by
  have htables := h.applyTables image
  unfold Machine.applyImage
  generalize Machine.applyTables image s = out at htables ⊢
  exact ((htables.still rfl rfl : IncidentsOk (setCodes _ _ out.1)).installSettings (imageSettings image)).still rfl rfl

theorem refuseImage (r : ConfigResult) : IncidentsOk (refuseImage r s) := by
  have hcodes : IncidentsOk (setCodes 1 1 (configFault .device r.code s)) := (h.raise .configFault .device _).still rfl rfl
  exact (hcodes.installSettings AlarmSettings.default).still rfl rfl

theorem loadEnd (image : List Byte) : IncidentsOk (loadEnd image s) := by
  unfold Machine.loadEnd endLoad
  split
  · split
    · exact h.applyImage _
    · exact h.refuseImage _
  · exact h

/-! ## Strobes, measurements and the panel -/

theorem secondsStrobe : IncidentsOk (secondsStrobe s) := by
  unfold Machine.secondsStrobe chordStrobe authoriseChord
  split
  · split
    · split
      · exact h.still rfl rfl
      · dsimp only
        split
        · exact clearTallies (h.still rfl rfl)
        · exact h.still rfl rfl
    · exact h.still rfl rfl
  · exact h

theorem millisecondStrobe : IncidentsOk (millisecondStrobe s) := by
  unfold Machine.millisecondStrobe
  split
  · exact h.still rfl rfl
  · exact h

theorem boundary : IncidentsOk (boundary s) := by
  unfold Machine.boundary
  split
  · exact h.still rfl rfl
  · exact h

theorem enterHoldover (v : BitVec 32) : IncidentsOk (enterHoldover v s) := by
  have hheld : IncidentsOk (degradeOpen { s with time := { s.time with source := .holdover, acc := 0 } }) := h.still rfl rfl
  exact hheld.raise .timeHoldover .device v

theorem measurementCompletion : IncidentsOk (measurementCompletion s) := by
  unfold Machine.measurementCompletion
  split
  · have htaken : IncidentsOk { s with due := { s.due with measurement := none } } := h.still rfl rfl
    unfold takeMeasurement
    dsimp only
    split
    · split <;> exact htaken.still rfl rfl
    · split
      · exact htaken.enterHoldover _
      · exact htaken
      · exact htaken
  · exact h

theorem refLoss : IncidentsOk (refLoss s) := by
  have htaken : IncidentsOk { s with due := { s.due with refLoss := false }, time := { s.time with meter := .waiting } } :=
    h.still rfl rfl
  unfold Machine.refLoss
  split
  · dsimp only
    split
    · exact htaken.enterHoldover 0
    · exact htaken
    · exact htaken
  · exact h

theorem seenRisingEdge : IncidentsOk (seenRisingEdge s) := by
  unfold Machine.seenRisingEdge
  split
  · exact h.still rfl rfl
  · exact h

theorem tick (pins : Pins) : IncidentsOk (tick pins s) := by
  unfold Machine.tick
  split
  · exact h.still rfl rfl
  · exact h

theorem debouncedStateChange (i : PanelInput) : IncidentsOk (debouncedStateChange i s) := by
  unfold Machine.debouncedStateChange
  dsimp only
  split
  · cases i with
    | clrA => exact h.still rfl rfl
    | clrB => exact h.still rfl rfl
    | ack =>
      have hpanel : IncidentsOk { s with panel := s.panel.setInput .ack ⟨!(s.panel.input .ack).pressed, 0⟩ } := h.still rfl rfl
      dsimp only
      split
      · exact hpanel
      · exact hpanel.ended _
  · exact h

/-! ## Sweep, silence and bus -/

theorem sweepPace : IncidentsOk (sweepPace s) := by
  have htaken : IncidentsOk { s with due := { s.due with sweepPace := false } } := h.still rfl rfl
  unfold Machine.sweepPace
  split
  · dsimp only
    split
    · exact (incidentsOk_updates.sweepVisit s.sweepNext htaken).still rfl rfl
    · exact htaken
  · exact h

theorem silenceTick : IncidentsOk (silenceTick s) := by
  have htaken : IncidentsOk { s with due := { s.due with silenceTick := false } } := h.still rfl rfl
  unfold Machine.silenceTick
  split
  · dsimp only
    split
    · exact List.foldlRecOn ringOrder _ htaken (fun _ hu r _ => incidentsOk_updates.stepSilence r hu)
    · exact htaken
  · exact h

theorem busTransfer (t : Transfer) : IncidentsOk (busTransfer t s) := by
  have htaken := incidentsOk_updates.takeTransfer t h
  unfold Machine.busTransfer carryOut awaitData
  split <;> exact htaken.still rfl rfl

theorem readDataCheck (data : List BusWord) : IncidentsOk (readDataCheck data s) := by
  unfold Machine.readDataCheck
  split
  · exact h.still rfl rfl
  · exact h.still rfl rfl
  · next c rest _ =>
    have hpassed : IncidentsOk { s with reads := rest } := h.still rfl rfl
    exact (incidentsOk_updates.checkReadData c data hpassed).still rfl rfl

theorem busReset : IncidentsOk (busReset s) := by
  have hflushed := List.foldlRecOn ringOrder flushRing h (fun _ hu r _ => incidentsOk_updates.flushRing r hu)
  unfold Machine.busReset
  split
  · exact h
  · generalize ringOrder.foldl flushRing s = u at hflushed ⊢
    exact hflushed.still rfl rfl

/-! ## Requests -/

theorem defineRing (ring : Nat) (b : BitVec 22) (n : Nat) (stamp enrol : Bool) :
    IncidentsOk (defineRing ring b n stamp enrol s).1 := by
  unfold Machine.defineRing
  split
  · dsimp only
    split
    · exact h.still rfl rfl
    · exact h
  · exact h

theorem ringOff (ring : Nat) : IncidentsOk (ringOff ring s).1 := by
  unfold Machine.ringOff
  split
  · dsimp only
    split
    · exact h.still rfl rfl
    · exact h
  · exact h

theorem setAlarmMap (c : Vector Byte 14) (m p d : Byte) : IncidentsOk (setAlarmMap c m p d s).1 := by
  unfold Machine.setAlarmMap
  split
  · exact h
  · exact h.installSettings _

theorem setTallyPeriod (code : Byte) : IncidentsOk (setTallyPeriod code s).1 := by
  unfold Machine.setTallyPeriod
  split
  · exact h
  · exact h.still rfl rfl

theorem startPart : IncidentsOk (startPart s).1 := by
  unfold Machine.startPart
  split
  · exact h.still rfl rfl
  · exact h

theorem perform (req : Request) : IncidentsOk (perform req s).1 := by
  cases req with
  | status => exact h
  | readFlow i p => exact (readFlow_state i p s).symm ▸ h
  | findFlow r k => exact h
  | defineFlow r k a => exact incidentsOk_updates.defineFlow _ _ _ h
  | removeFlow i => exact incidentsOk_updates.removeFlow _ h
  | setPeriod i p => exact incidentsOk_updates.setPeriod _ _ h
  | readRing r p => exact (readRing_state r p s).symm ▸ h
  | defineRing r b n o => exact h.defineRing _ _ _ _ _
  | ringOff r => exact h.ringOff _
  | readSummary n p => exact (readSummary_state n p s).symm ▸ h
  | takeIncidents n => exact h.removeOldest _
  | acknowledge c => exact h.ended _
  | setAlarmMap c m p d => exact h.setAlarmMap c m p d
  | setTallyPeriod c => exact h.setTallyPeriod c
  | clearTallies => exact h.clearTallies
  | restart => exact h
  | start => exact h.startPart

end IncidentsOk

theorem incidentsOk_kept : KeptByCommands IncidentsOk where
  seenRisingEdge _ h := h.seenRisingEdge
  measurementCompletion _ h := h.measurementCompletion
  refLoss _ h := h.refLoss
  tick pins _ h := h.tick pins
  loadEnd image _ h := h.loadEnd image
  debouncedStateChange i _ h := h.debouncedStateChange i
  sweepPace _ h := h.sweepPace
  millisecondStrobe _ h := h.millisecondStrobe
  secondsStrobe _ h := h.secondsStrobe
  silenceTick _ h := h.silenceTick
  boundary _ h := h.boundary
  line _ _ h := h.still rfl rfl
  restart _ _ := .cleared rfl rfl
  perform req _ _ h := h.perform req
  pending _ _ h := h.still rfl rfl
  powerOn _ _ _ := .cleared rfl rfl
  busTransfer t _ h := h.busTransfer t
  readDataCheck data _ h := h.readDataCheck data
  busReset _ h := h.busReset
  releaseReset _ h := h.still rfl rfl
  clock _ _ h := h.still rfl rfl

/-- Settles O59: the log and the alarm state change by raisings, by records and classes that leave, by settings installed with AUTO
classes re-evaluated, and by clearings; every event is made of these and of updates that leave both. -/
theorem stepKeepsLogAndAlarms : Obligations.StepKeepsLogAndAlarms := by
  unfold Obligations.StepKeepsLogAndAlarms
  intro s t hlog halarm hauto ht
  obtain ⟨hlog', halarm', hauto'⟩ := incidentsOk_kept.step ⟨hlog, halarm, hauto⟩ ht
  exact ⟨hlog', halarm', hauto'⟩

end Sys2Proof.Machine
end

