-- ==== Sys2Proof/Proofs/RaisingsAndAlarmRequests.lean ====
section
/-! A raising coalesced, appended, or evicting the oldest record (07 R123 to R127), and the requests that act on log and alarms: TAKE
INCIDENTS, ACKNOWLEDGE and SET ALARM MAP (07 R127, R128; 08 R139, R140; 09 R161, R162). -/

namespace Sys2Proof.Machine

/-! ## Raisings, by the record they find (07 R123 to R127) -/

theorem Incident.matchesRaising_iff (r : Incident) (k : IncidentKind) (x : Subject) :
    r.matchesRaising k x = true ↔ r.kind = k ∧ r.subject = x := by simp [Incident.matchesRaising]

/-- A raising folded into the records before and after its own leaves them (07 R123). -/
theorem map_coalesced_of_unmatched {k : IncidentKind} {x : Subject} {l : List Incident}
    (h : ∀ q ∈ l, ¬ (q.kind = k ∧ q.subject = x)) (now : Tick) (v : BitVec 32) :
    l.map (fun q => if q.matchesRaising k x then q.coalesced now v else q) = l := by
  refine (List.map_congr_left fun q hq => ?_).trans (List.map_id' l)
  rw [if_neg ((q.matchesRaising_iff k x).not.mpr (h q hq))]

theorem find?_raising_none {k : IncidentKind} {x : Subject} {l : List Incident} (h : ∀ q ∈ l, ¬ (q.kind = k ∧ q.subject = x)) :
    l.find? (fun q => q.matchesRaising k x) = none :=
  List.find?_eq_none.mpr fun q hq => (q.matchesRaising_iff k x).not.mpr (h q hq)

section
variable {k : IncidentKind} {x : Subject} {log : IncidentLog}

/-- A record of the kind and subject takes the raising in its place. -/
theorem raiseInto_coalesced {before after : List Incident} {r : Incident} (hlog : log.records = before ++ r :: after)
    (hr : r.kind = k ∧ r.subject = x) (hothers : ∀ q ∈ before ++ after, ¬ (q.kind = k ∧ q.subject = x))
    (now : Tick) (v : BitVec 32) (alarm : AlarmState) :
    raiseInto now k x v log alarm =
      ({ log with records := before ++ r.coalesced now v :: after }, (alarm.setPending r.cls).resolve) := by
  have hmatch := (r.matchesRaising_iff k x).mpr hr
  have hbefore : ∀ q ∈ before, ¬ (q.kind = k ∧ q.subject = x) := fun q hq => hothers q (List.mem_append_left _ hq)
  have hafter : ∀ q ∈ after, ¬ (q.kind = k ∧ q.subject = x) := fun q hq => hothers q (List.mem_append_right _ hq)
  have hfind : log.records.find? (fun q => q.matchesRaising k x) = some r := by
    rw [hlog, List.find?_append, find?_raising_none hbefore, Option.none_or,
      List.find?_cons_of_pos (p := fun q : Incident => q.matchesRaising k x) hmatch]
  have hmap : log.records.map (fun q => if q.matchesRaising k x then q.coalesced now v else q) =
      before ++ r.coalesced now v :: after := by
    rw [hlog, List.map_append, List.map_cons, map_coalesced_of_unmatched hbefore, map_coalesced_of_unmatched hafter, if_pos hmatch]
  unfold raiseInto
  rw [hfind, ← hmap]

/-- With room in the log, a new record goes to its end (07 R124). -/
theorem raiseInto_appended (hnone : ∀ q ∈ log.records, ¬ (q.kind = k ∧ q.subject = x)) (hroom : log.records.length < 64)
    (now : Tick) (v : BitVec 32) (alarm : AlarmState) :
    raiseInto now k x v log alarm =
      ({ log with records := log.records ++ [⟨k, x, alarm.settings.classOf k, now, now, 1, v⟩] },
        (alarm.setPending (alarm.settings.classOf k)).resolve) := by
  unfold raiseInto
  rw [find?_raising_none hnone]
  exact if_pos hroom

/-- In a full log the new record makes the oldest leave, and AUTO classes are re-evaluated (07 R125, R127). -/
theorem raiseInto_evicting (hnone : ∀ q ∈ log.records, ¬ (q.kind = k ∧ q.subject = x)) (hfull : 64 ≤ log.records.length)
    {oldest : Incident} {rest : List Incident} (hlog : log.records = oldest :: rest)
    (now : Tick) (v : BitVec 32) (alarm : AlarmState) :
    let records := rest ++ [⟨k, x, alarm.settings.classOf k, now, now, 1, v⟩]
    raiseInto now k x v log alarm =
      (⟨records, bump16 log.overflow⟩, ((alarm.setPending (alarm.settings.classOf k)).reevaluate records).resolve) := by
  unfold raiseInto
  rw [find?_raising_none hnone]
  dsimp only
  rw [if_neg (Nat.not_lt.mpr hfull : ¬ log.records.length < Config.logSize), hlog, List.tail_cons]

end

/-- The class of a new record set pending, and AUTO classes re-evaluated after it (07 R126, R127). -/
theorem resolved_setPending_reevaluate (a : AlarmState) (c : AlarmClass) (records : List Incident) :
    Resolved a.settings (fun d => (a.pendingSet.has d || c == d) &&
      (a.settings.modes.has d || records.any (fun r => r.cls == d))) ((a.setPending c).reevaluate records).resolve := by
  obtain ⟨-, hset, -⟩ := resolved_setPending a c
  refine (resolved_keeping (a.setPending c) _).congr fun d hd => ?_
  rw [AlarmState.resolve_pendingSet] at hset
  rw [hset d hd]
  rfl

/-- Settles O52: the record that the raising finds, or the room that the log has, decides among the three. -/
theorem raisingIsTakenWhole : Obligations.RaisingIsTakenWhole := by
  unfold Obligations.RaisingIsTakenWhole
  intro k x v s now new
  refine ⟨?coalesced, ?appended, ?evicting⟩
  case coalesced =>
    intro r before after hlog hkind hsubject hothers
    refine ⟨_, ?_, resolved_setPending s.alarm r.cls⟩
    rw [raise, raiseInto_coalesced hlog ⟨hkind, hsubject⟩ hothers]
    rfl
  case appended =>
    intro hnone hroom
    refine ⟨_, ?_, resolved_setPending s.alarm (s.alarm.settings.classOf k)⟩
    rw [raise, raiseInto_appended hnone hroom]
    rfl
  case evicting =>
    intro oldest rest hnone hfull hlog
    refine ⟨_, ?_, resolved_setPending_reevaluate s.alarm (s.alarm.settings.classOf k) _⟩
    rw [raise, raiseInto_evicting hnone hfull hlog]
    rfl

/-! ## TAKE INCIDENTS (07 R127, R128; 09 R162) -/

theorem Incident.toBytes_eq (r : Incident) : r.toBytes = layout r.shownFields := by
  have hkind : r.kind.code.val = [IncidentKind.flowMiss, .flowLate, .flowLoss, .flowDisorder, .flowSilent, .flowAcyclic, .flowRetired,
      .directoryFull, .ringSilent, .ringParity, .ringStamp, .ringFlush, .timeHoldover, .configFault].idxOf r.kind := by
    cases r.kind <;> rfl
  unfold Incident.toBytes Incident.shownFields
  rw [hkind]
  cases r.subject <;>
    simp only [Subject.toBytes, layout_one, layout_four, layout_nil, List.append_assoc, List.append_nil]

theorem layout_incidents (l : List Incident) : layout (l.flatMap Incident.shownFields) = l.flatMap Incident.toBytes := by
  induction l with
  | nil => rfl
  | cons r rest ih => rw [List.flatMap_cons, List.flatMap_cons, layout_append, ih, r.toBytes_eq]

theorem removeOldest_zero (s : State) : removeOldest 0 s = s := rfl

theorem removeOldest_pos {n : Nat} (hn : 0 < n) (s : State) : removeOldest n s = { s with
    log := { s.log with records := s.log.records.drop n }
    alarm := (s.alarm.reevaluate (s.log.records.drop n)).resolve } := if_neg (Nat.ne_of_gt hn)

theorem removeOldest_count (n : Nat) (s : State) : (removeOldest n s).log.records.length = s.log.records.length - n := by
  unfold removeOldest
  split
  · next hn => rw [hn, Nat.sub_zero]
  · exact List.length_drop

/-- The answer of TAKE INCIDENTS with its payload laid out field by field. -/
theorem takeIncidents_eq (m : Byte) (s : State) :
    let n := min (min m.toNat 3) s.log.records.length
    takeIncidents m s = (removeOldest n s, .ok,
      layout ((1, n) :: (s.log.records.take n).flatMap Incident.shownFields ++ [(1, s.log.records.length - n)])) := by
  simp only [takeIncidents, removeOldest_count, List.cons_append, layout_one, layout_append, layout_incidents, layout_nil,
    List.append_assoc, List.append_nil]

/-! ## ACKNOWLEDGE and SET ALARM MAP (08 R139, R140) -/

theorem ClassSet.has_ofByte (b : Byte) {c : AlarmClass} (hc : c ≠ 0) : (ClassSet.ofByte b).has c = b.getLsbD c.val := by
  simp [ClassSet.ofByte, ClassSet.has_ofPred, hc]

/-- ACKNOWLEDGE ends the pending classes that its byte names (08 R139). -/
theorem resolved_acknowledge (a : AlarmState) (classes : Byte) :
    Resolved a.settings (fun c => a.pendingSet.has c && !classes.getLsbD c.val)
      (a.keeping (fun c => !(ClassSet.ofByte classes).has c)).resolve :=
  (resolved_keeping a _).congr fun c hc => by rw [ClassSet.has_ofByte classes hc]

theorem resolved_install (a : AlarmState) (new : AlarmSettings) (records : List Incident) :
    Resolved new (fun c => a.pendingSet.has c && (new.modes.has c || records.any (fun r => r.cls == c)))
      (a.install new records) := resolved_keeping { a with settings := new } _

/-- A class above 6 among those of SET ALARM MAP (08 R140). -/
theorem any_class_above_iff (classes : Vector Byte 14) :
    classes.toList.any (fun b => decide (6 < b.toNat)) = true ↔ ∃ i : Fin 14, 6 < classes[i].toNat := by
  rw [List.any_eq_true]
  constructor
  · rintro ⟨b, hb, habove⟩
    obtain ⟨i, hi, rfl⟩ := Vector.mem_iff_getElem.mp (Vector.mem_toList_iff.mp hb)
    exact ⟨⟨i, hi⟩, of_decide_eq_true habove⟩
  · rintro ⟨i, habove⟩
    exact ⟨classes[i], Vector.mem_toList_iff.mpr (Vector.getElem_mem i.isLt), decide_eq_true habove⟩

theorem setAlarmMap_refused {classes : Vector Byte 14} (h : ∃ i : Fin 14, 6 < classes[i].toNat) (mask priority modes : Byte)
    (s : State) : setAlarmMap classes mask priority modes s = (s, .badArgument, []) :=
  if_pos ((any_class_above_iff classes).mpr h)

theorem setAlarmMap_accepted {classes : Vector Byte 14} (h : ∀ i : Fin 14, classes[i].toNat ≤ 6) (mask priority modes : Byte)
    (s : State) : setAlarmMap classes mask priority modes s = (installSettings (settingsOf classes mask priority modes) s, .ok, []) :=
  if_neg ((any_class_above_iff classes).not.mpr (by push Not; exact h))

/-- A class up to 6 is taken as it is (08 R140). -/
theorem settingsOf_classMap {classes : Vector Byte 14} (h : ∀ i : Fin 14, classes[i].toNat ≤ 6) (mask priority modes : Byte)
    (i : Fin 14) : ((settingsOf classes mask priority modes).classMap[i]).val = classes[i].toNat := by
  simpa [settingsOf] using h i

/-- Settles O48: each request as its answer in the state it is handled in. -/
theorem alarmRequests : Obligations.AlarmRequests := by
  unfold Obligations.AlarmRequests
  intro addr s hdirect hloading
  refine ⟨?take, ?acknowledge, ?map⟩
  case take =>
    intro m n payload
    have hp : perform (.takeIncidents m) s.requested = (removeOldest n s.requested, .ok, payload) := takeIncidents_eq m s.requested
    have hanswer := lineRequest_answered hdirect hloading (by simp) hp
    constructor
    · intro hn
      rw [hn, removeOldest_zero] at hanswer
      exact congrArg Host.Outcome.next hanswer
    · intro hn
      rw [removeOldest_pos hn] at hanswer
      exact ⟨_, congrArg Host.Outcome.next hanswer, resolved_keeping s.alarm _⟩
  case acknowledge =>
    intro classes
    have hp : perform (.acknowledge classes) s.requested = ({ s.requested with
        alarm := (s.alarm.keeping (fun c => !(ClassSet.ofByte classes).has c)).resolve }, .ok, []) := rfl
    have hanswer := lineRequest_answered hdirect hloading (by simp) hp
    exact ⟨_, congrArg Host.Outcome.next hanswer, resolved_acknowledge s.alarm classes⟩
  case map =>
    intro classes mask priority modes
    constructor
    · intro habove
      have hp := setAlarmMap_refused habove mask priority modes s.requested
      exact congrArg Host.Outcome.next
        (lineRequest_answered (req := .setAlarmMap classes mask priority modes) hdirect hloading (by simp) hp)
    · intro hclasses
      have hp := setAlarmMap_accepted hclasses mask priority modes s.requested
      have hanswer := lineRequest_answered (req := .setAlarmMap classes mask priority modes) hdirect hloading (by simp) hp
      refine ⟨settingsOf classes mask priority modes, _, congrArg Host.Outcome.next hanswer,
        settingsOf_classMap hclasses mask priority modes,
        fun c hc => ⟨ClassSet.has_ofByte mask hc, ClassSet.has_ofByte modes hc⟩, rfl, ?_⟩
      refine (resolved_install s.alarm _ s.log.records).congr fun c hc => ?_
      have hmodes : (settingsOf classes mask priority modes).modes.has c = modes.getLsbD c.val := ClassSet.has_ofByte modes hc
      rw [hmodes]

end Sys2Proof.Machine
end

