-- ==== Sys2Proof/Proofs/PanelAndLineFrames.lean ====
section
/-! SUPPORT. The events that leave the straps, the panel and the tally line, said once for each (07, 08, 09): what else happens in the part
does not touch them, and in MONITORING leaves the device state. -/

namespace Sys2Proof.Machine

/-- t has the straps and the tally line of s. -/
structure LineFrame (s t : State) : Prop where
  straps : t.straps = s.straps
  line   : t.line = s.line

/-- t has the straps, the panel and the tally line of s, and is in MONITORING if s is. -/
structure PanelFrame (s t : State) : Prop extends LineFrame s t where
  panel      : t.panel = s.panel
  monitoring : s.device = .monitoring → t.device = .monitoring

theorem LineFrame.refl (s : State) : LineFrame s s := ⟨rfl, rfl⟩

theorem LineFrame.trans {s t u : State} (h : LineFrame s t) (k : LineFrame t u) : LineFrame s u :=
  ⟨k.straps.trans h.straps, k.line.trans h.line⟩

theorem PanelFrame.refl (s : State) : PanelFrame s s := ⟨.refl s, rfl, id⟩

theorem PanelFrame.trans {s t u : State} (h : PanelFrame s t) (k : PanelFrame t u) : PanelFrame s u :=
  ⟨h.toLineFrame.trans k.toLineFrame, k.panel.trans h.panel, k.monitoring ∘ h.monitoring⟩

theorem TransferFrame.panelFrame {s t : State} (h : TransferFrame s t) : PanelFrame s t :=
  ⟨⟨h.straps, h.line⟩, h.panel, h.device.trans⟩

theorem DirectoryFrame.panelFrame {s t : State} (h : DirectoryFrame s t) : PanelFrame s t := h.transfer.panelFrame

/-! ## Measurements, strobes and the bus -/

theorem measurementCompletion_panelFrame (s : State) : PanelFrame s (measurementCompletion s) := by
  unfold measurementCompletion
  split
  · unfold takeMeasurement
    dsimp only
    split
    · split <;> exact ⟨⟨rfl, rfl⟩, rfl, id⟩
    · split <;> exact ⟨⟨rfl, rfl⟩, rfl, id⟩
  · exact .refl s

theorem refLoss_panelFrame (s : State) : PanelFrame s (refLoss s) := by
  unfold refLoss
  split
  · dsimp only
    split <;> exact ⟨⟨rfl, rfl⟩, rfl, id⟩
  · exact .refl s

theorem seenRisingEdge_panelFrame (s : State) : PanelFrame s (seenRisingEdge s) := by
  unfold seenRisingEdge
  split <;> exact ⟨⟨rfl, rfl⟩, rfl, id⟩

theorem millisecondStrobe_panelFrame (s : State) : PanelFrame s (millisecondStrobe s) := by
  unfold millisecondStrobe
  split <;> exact ⟨⟨rfl, rfl⟩, rfl, id⟩

theorem sweepPace_panelFrame (s : State) : PanelFrame s (sweepPace s) := by
  obtain ⟨⟨hstraps, hline⟩, hpanel, hmonitoring⟩ :=
    (sweepVisit_frame s.sweepNext { s with due := { s.due with sweepPace := false } }).panelFrame
  unfold sweepPace
  split
  · dsimp only
    split
    · exact ⟨⟨hstraps, hline⟩, hpanel, hmonitoring⟩
    · exact ⟨⟨rfl, rfl⟩, rfl, id⟩
  · exact .refl s

theorem silenceTick_panelFrame (s : State) : PanelFrame s (silenceTick s) := by
  obtain ⟨⟨hstraps, hline⟩, hpanel, hmonitoring⟩ := (foldl_transferFrame ringOrder stepSilence stepSilence_frame
    { s with due := { s.due with silenceTick := false } }).panelFrame
  unfold silenceTick
  split
  · dsimp only
    split
    · exact ⟨⟨hstraps, hline⟩, hpanel, hmonitoring⟩
    · exact ⟨⟨rfl, rfl⟩, rfl, id⟩
  · exact .refl s

theorem boundary_panelFrame (s : State) : PanelFrame s (boundary s) := by
  unfold boundary
  split <;> exact ⟨⟨rfl, rfl⟩, rfl, id⟩

theorem busTransfer_panelFrame (t : Transfer) (s : State) : PanelFrame s (busTransfer t s) := by
  obtain ⟨⟨hstraps, hline⟩, hpanel, hmonitoring⟩ := (busTransfer_frame t s).panelFrame
  exact ⟨⟨hstraps, hline⟩, hpanel, hmonitoring⟩

theorem readDataCheck_panelFrame (data : List BusWord) (s : State) : PanelFrame s (readDataCheck data s) := by
  obtain ⟨⟨hstraps, hline⟩, hpanel, hmonitoring⟩ := (readDataCheck_frame data s).panelFrame
  exact ⟨⟨hstraps, hline⟩, hpanel, hmonitoring⟩

theorem busReset_panelFrame (s : State) : PanelFrame s (busReset s) := by
  have hflushed := (foldl_transferFrame ringOrder flushRing flushRing_frame s).panelFrame
  unfold busReset
  split
  · exact .refl s
  · generalize ringOrder.foldl flushRing s = u at hflushed ⊢
    exact hflushed.trans ⟨⟨rfl, rfl⟩, rfl, id⟩

/-! ## Requests -/

theorem clearTallies_panelFrame (s : State) : PanelFrame s (clearTallies s) := by
  unfold clearTallies
  split <;> exact ⟨⟨rfl, rfl⟩, rfl, id⟩

theorem defineRing_panelFrame (ring : Nat) (b : BitVec 22) (n : Nat) (stamp enrol : Bool) (s : State) :
    PanelFrame s (defineRing ring b n stamp enrol s).1 := by
  unfold defineRing
  split
  · dsimp only
    split <;> exact ⟨⟨rfl, rfl⟩, rfl, id⟩
  · exact .refl s

theorem ringOff_panelFrame (ring : Nat) (s : State) : PanelFrame s (ringOff ring s).1 := by
  unfold ringOff
  split
  · dsimp only
    split <;> exact ⟨⟨rfl, rfl⟩, rfl, id⟩
  · exact .refl s

theorem takeIncidents_panelFrame (n : Byte) (s : State) : PanelFrame s (takeIncidents n s).1 := by
  unfold takeIncidents removeOldest
  dsimp only
  split <;> exact ⟨⟨rfl, rfl⟩, rfl, id⟩

theorem setAlarmMap_panelFrame (c : Vector Byte 14) (m p d : Byte) (s : State) : PanelFrame s (setAlarmMap c m p d s).1 := by
  unfold setAlarmMap
  split <;> exact ⟨⟨rfl, rfl⟩, rfl, id⟩

theorem setTallyPeriod_panelFrame (c : Byte) (s : State) : PanelFrame s (setTallyPeriod c s).1 := by
  unfold setTallyPeriod
  split <;> exact ⟨⟨rfl, rfl⟩, rfl, id⟩

theorem startPart_panelFrame (s : State) : PanelFrame s (startPart s).1 := by
  unfold startPart
  split
  · exact ⟨⟨rfl, rfl⟩, rfl, fun _ => rfl⟩
  · exact .refl s

/-- No request touches the straps, the panel or the line while it is performed; START alone changes the device state (09 R162). -/
theorem perform_panelFrame (req : Request) (s : State) : PanelFrame s (perform req s).1 := by
  cases req with
  | status => exact .refl s
  | readFlow i p => exact (readFlow_state i p s).symm ▸ .refl s
  | findFlow r k => exact .refl s
  | defineFlow r k a => exact (defineFlow_frame _ _ _ s).panelFrame
  | removeFlow i => exact (removeFlow_frame _ s).panelFrame
  | setPeriod i p => exact (setPeriod_frame _ _ s).panelFrame
  | readRing r p => exact (readRing_state r p s).symm ▸ .refl s
  | defineRing r b n o => exact defineRing_panelFrame _ _ _ _ _ s
  | ringOff r => exact ringOff_panelFrame _ s
  | readSummary n p => exact (readSummary_state n p s).symm ▸ .refl s
  | takeIncidents n => exact takeIncidents_panelFrame _ s
  | acknowledge c => exact ⟨⟨rfl, rfl⟩, rfl, id⟩
  | setAlarmMap c m p d => exact setAlarmMap_panelFrame _ _ _ _ s
  | setTallyPeriod c => exact setTallyPeriod_panelFrame _ s
  | clearTallies => exact clearTallies_panelFrame s
  | restart => exact .refl s
  | start => exact startPart_panelFrame s

theorem answer_panelFrame (req : Request) (s : State) : PanelFrame s (answer req s).1 := by
  unfold answer
  split
  · exact .refl s
  · exact perform_panelFrame req s

/-! ## The end of a load (10 R166, R167) -/

theorem applyRingEntry_panelFrame (image : List Byte) (acc : State × Bool) (pos : Nat) :
    PanelFrame acc.1 (applyRingEntry image acc pos).1 := by
  unfold applyRingEntry
  dsimp only
  split
  · split
    · split <;> exact ⟨⟨rfl, rfl⟩, rfl, id⟩
    · exact ⟨⟨rfl, rfl⟩, rfl, id⟩
  · exact ⟨⟨rfl, rfl⟩, rfl, id⟩

theorem foldl_entries_panelFrame {f : State × Bool → Nat → State × Bool} (hf : ∀ acc pos, PanelFrame acc.1 (f acc pos).1)
    (l : List Nat) (acc : State × Bool) : PanelFrame acc.1 (l.foldl f acc).1 := by
  induction l generalizing acc with
  | nil => exact .refl _
  | cons pos rest ih => exact (hf acc pos).trans (ih _)

theorem applyTables_panelFrame (image : List Byte) (s : State) : PanelFrame s (applyTables image s).1 := by
  refine .trans ?_ (foldl_entries_panelFrame (fun acc pos => (applyFlowEntry_frame image acc pos).panelFrame) _ _)
  refine .trans ?_ (foldl_entries_panelFrame (applyRingEntry_panelFrame image) _ _)
  exact ⟨⟨rfl, rfl⟩, rfl, id⟩

/-- A load ends in LOADING alone, and so never leaves MONITORING. -/
theorem loadEnd_panelFrame (image : List Byte) (s : State) : PanelFrame s (loadEnd image s) := by
  unfold loadEnd
  split
  · next hl =>
    have hloading : s.device ≠ .monitoring := by rw [hl]; decide
    unfold endLoad
    split
    · have htables := applyTables_panelFrame (s.load.bytes ++ image) s
      unfold applyImage
      generalize applyTables (s.load.bytes ++ image) s = out at htables ⊢
      exact htables.trans ⟨⟨rfl, rfl⟩, rfl, fun _ => rfl⟩
    · exact ⟨⟨rfl, rfl⟩, rfl, fun hm => absurd hm hloading⟩
  · exact .refl s

theorem finishLoad_panelFrame (s : State) : PanelFrame s (finishLoad s) := by
  unfold finishLoad
  split
  · exact loadEnd_panelFrame [] s
  · exact .refl s

/-! ## Events of the panel, which leave the line -/

theorem debouncedStateChange_lineFrame (i : PanelInput) (s : State) : LineFrame s (debouncedStateChange i s) := by
  unfold debouncedStateChange
  dsimp only
  split
  · cases i with
    | clrA => exact ⟨rfl, rfl⟩
    | clrB => exact ⟨rfl, rfl⟩
    | ack =>
      dsimp only
      split <;> exact ⟨rfl, rfl⟩
  · exact .refl s

theorem chordStrobe_lineFrame (s : State) : LineFrame s (chordStrobe s) := by
  unfold chordStrobe
  split
  · split
    · exact ⟨rfl, rfl⟩
    · unfold authoriseChord
      dsimp only
      split
      · have hspent : LineFrame s { s with panel := { s.panel with chord := .spent } } := ⟨rfl, rfl⟩
        exact hspent.trans (clearTallies_panelFrame _).toLineFrame
      · exact ⟨rfl, rfl⟩
  · exact .refl s

theorem secondsStrobe_lineFrame (s : State) : LineFrame s (secondsStrobe s) := by
  unfold secondsStrobe
  split
  · have htaken : LineFrame s { s with due := { s.due with secondsStrobe := false } } := ⟨rfl, rfl⟩
    exact htaken.trans (chordStrobe_lineFrame _)
  · exact .refl s

end Sys2Proof.Machine
end

