-- ==== Sys2Proof/Proofs/ChordChanges.lean ====
section
/-! DEBOUNCED_STATE_CHANGE input by input, and what it makes of the chord and of the pending classes (08 R138, R143 to R147). -/

namespace Sys2Proof.Machine

/-! ## The chord after a change of a CLR input (08 R145, R147; log entry 24) -/

/-- A change begins TIMING of an enabled IDLE chord or leaves TIMING be, and then both inputs are pressed. -/
theorem chordAfter_timing {enabled monitoring both : Bool} {c : Chord} {n : Nat}
    (h : chordAfter enabled monitoring both c = .timing n) :
    both = true ∧ (c = .idle ∧ monitoring = true ∧ n = 0 ∨ c = .timing n) := by
  cases c with
  | idle =>
    dsimp only [chordAfter] at h
    split_ifs at h with hbegun hm
    cases h
    exact ⟨Bool.and_elim_left hbegun, .inl ⟨rfl, hm, rfl⟩⟩
  | timing m =>
    dsimp only [chordAfter] at h
    split_ifs at h with hboth
    exact ⟨hboth, .inr h⟩
  | spent => cases h

theorem chordAfter_begun (monitoring : Bool) :
    chordAfter true monitoring true .idle = if monitoring then .timing 0 else .spent := rfl

/-- An IDLE chord that is disabled, or with an input not pressed, stays IDLE. -/
theorem chordAfter_idle {enabled both : Bool} (h : both = false ∨ enabled = false) (monitoring : Bool) :
    chordAfter enabled monitoring both .idle = .idle := by
  rcases h with rfl | rfl
  · rfl
  · cases both <;> rfl

theorem chordAfter_spent (enabled monitoring both : Bool) : chordAfter enabled monitoring both .spent = .spent := rfl

theorem chordIdle_of_pressed {p : Panel} (h : p.clrA.pressed = true ∨ p.clrB.pressed = true) : chordIdle p = p := by
  refine if_neg ?_
  rintro ⟨-, hA, hB⟩
  rw [hA, hB] at h
  exact h.elim nofun nofun

/-- The chord after a release of one CLR input, by the other one: TIMING is abandoned, and SPENT ends when the other is released with its
count at 0. -/
def Chord.released (other : InputState) : Chord → Chord
  | .idle => .idle
  | .timing _ => if other = ⟨false, 0⟩ then .idle else .spent
  | .spent => if other = ⟨false, 0⟩ then .idle else .spent

section
variable (p : Panel) (enabled monitoring : Bool)

theorem chordIdle_released_clrA : chordIdle { p with clrA := ⟨false, 0⟩, chord := chordAfter enabled monitoring false p.chord } =
    { p with clrA := ⟨false, 0⟩, chord := p.chord.released p.clrB } := by
  rw [chordIdle_eq]
  cases p.chord <;> simp [chordAfter, Chord.released]

theorem chordIdle_released_clrB : chordIdle { p with clrB := ⟨false, 0⟩, chord := chordAfter enabled monitoring false p.chord } =
    { p with clrB := ⟨false, 0⟩, chord := p.chord.released p.clrA } := by
  rw [chordIdle_eq]
  cases p.chord <;> simp [chordAfter, Chord.released]

end

theorem Chord.released_timing {other : InputState} (h : other.pressed = true) (n : Nat) : (Chord.timing n).released other = .spent := by
  refine if_neg fun hc => ?_
  rw [hc] at h
  cases h

/-! ## The change of each input (08 R143) -/

section
variable {s : State}

theorem debouncedStateChange_counting {i : PanelInput} (h : (s.panel.input i).count ≠ Config.debounceTicks) :
    debouncedStateChange i s = s := if_neg h

theorem debouncedStateChange_ack_press (h : s.panel.ack = ⟨false, 40000⟩) :
    debouncedStateChange .ack s = ackPress { s with panel := { s.panel with ack := ⟨true, 0⟩ } } := by
  simp only [debouncedStateChange, Panel.input, Panel.setInput, h]
  rfl

theorem debouncedStateChange_ack_release (h : s.panel.ack = ⟨true, 40000⟩) :
    debouncedStateChange .ack s = { s with panel := { s.panel with ack := ⟨false, 0⟩ } } := by
  simp only [debouncedStateChange, Panel.input, Panel.setInput, h]
  rfl

theorem debouncedStateChange_clrA {pressed : Bool} (h : s.panel.clrA = ⟨pressed, 40000⟩) :
    debouncedStateChange .clrA s = { s with panel := chordIdle { s.panel with
      clrA := ⟨!pressed, 0⟩
      chord := chordAfter s.straps.chord (s.device == .monitoring) (!pressed && s.panel.clrB.pressed) s.panel.chord } } := by
  simp only [debouncedStateChange, Panel.input, Panel.setInput, h]
  rfl

theorem debouncedStateChange_clrB {pressed : Bool} (h : s.panel.clrB = ⟨pressed, 40000⟩) :
    debouncedStateChange .clrB s = { s with panel := chordIdle { s.panel with
      clrB := ⟨!pressed, 0⟩
      chord := chordAfter s.straps.chord (s.device == .monitoring) (s.panel.clrA.pressed && !pressed) s.panel.chord } } := by
  simp only [debouncedStateChange, Panel.input, Panel.setInput, h]
  rfl

/-! ## Presses and releases of the CLR inputs (08 R145, R147) -/

/-- A press leaves its input pressed, so that SPENT does not end at it. -/
theorem clrA_press (h : s.panel.clrA = ⟨false, 40000⟩) {c : Chord}
    (hc : chordAfter s.straps.chord (s.device == .monitoring) s.panel.clrB.pressed s.panel.chord = c) :
    debouncedStateChange .clrA s = { s with panel := { s.panel with clrA := ⟨true, 0⟩, chord := c } } := by
  rw [debouncedStateChange_clrA h, Bool.not_false, Bool.true_and, hc, chordIdle_of_pressed (.inl rfl)]

theorem clrB_press (h : s.panel.clrB = ⟨false, 40000⟩) {c : Chord}
    (hc : chordAfter s.straps.chord (s.device == .monitoring) s.panel.clrA.pressed s.panel.chord = c) :
    debouncedStateChange .clrB s = { s with panel := { s.panel with clrB := ⟨true, 0⟩, chord := c } } := by
  rw [debouncedStateChange_clrB h, Bool.not_false, Bool.and_true, hc, chordIdle_of_pressed (.inr rfl)]

/-- After a release not both inputs are pressed. -/
theorem clrA_release (h : s.panel.clrA = ⟨true, 40000⟩) {c : Chord} (hc : s.panel.chord.released s.panel.clrB = c) :
    debouncedStateChange .clrA s = { s with panel := { s.panel with clrA := ⟨false, 0⟩, chord := c } } := by
  rw [debouncedStateChange_clrA h, Bool.not_true, Bool.false_and, chordIdle_released_clrA, hc]

theorem clrB_release (h : s.panel.clrB = ⟨true, 40000⟩) {c : Chord} (hc : s.panel.chord.released s.panel.clrA = c) :
    debouncedStateChange .clrB s = { s with panel := { s.panel with clrB := ⟨false, 0⟩, chord := c } } := by
  rw [debouncedStateChange_clrB h, Bool.not_true, Bool.and_false, chordIdle_released_clrB, hc]

end

/-- The chord of a press: begun when it makes both inputs pressed. -/
theorem chordAfter_press_begins {s : State} {pressed : Bool} (hp : pressed = true) (he : s.straps.chord = true)
    (hc : s.panel.chord = .idle) : chordAfter s.straps.chord (s.device == .monitoring) pressed s.panel.chord =
      if s.device = .monitoring then .timing 0 else .spent := by
  rw [hp, he, hc, chordAfter_begun]
  simp only [beq_iff_eq]

/-- The chord of a press that neither begins nor finds TIMING: as it was. -/
theorem chordAfter_press_alone {s : State} {pressed : Bool}
    (h : s.panel.chord = .spent ∨ s.panel.chord = .idle ∧ (pressed = false ∨ s.straps.chord = false)) :
    chordAfter s.straps.chord (s.device == .monitoring) pressed s.panel.chord = s.panel.chord := by
  rcases h with hspent | ⟨hidle, hnone⟩
  · rw [hspent, chordAfter_spent]
  · rw [hidle, chordAfter_idle hnone]

/-- Settles O30: the turning of each input, then the chord of that press or release. -/
theorem debouncedChangeActs : Obligations.DebouncedChangeActs := by
  unfold Obligations.DebouncedChangeActs
  refine ⟨?ackPress, ?ackRelease, ?beginB, ?beginA, ?abandonA, ?abandonB, ?pressA, ?pressB, ?idleA, ?idleB, ?spentA, ?spentB⟩
  case ackPress =>
    intro s h
    obtain ⟨-, hpending, -⟩ := resolved_keeping s.alarm (fun c => !s.alarm.settings.modes.has c)
    exact ⟨_, congrArg Host.Outcome.next (debouncedStateChange_ack_press h), hpending⟩
  case ackRelease => exact fun s h => congrArg Host.Outcome.next (debouncedStateChange_ack_release h)
  case beginB => exact fun s h hp he hc => congrArg Host.Outcome.next (clrB_press h (chordAfter_press_begins hp he hc))
  case beginA => exact fun s h hp he hc => congrArg Host.Outcome.next (clrA_press h (chordAfter_press_begins hp he hc))
  case abandonA => exact fun s n h hc hp => congrArg Host.Outcome.next (clrA_release h (by rw [hc, Chord.released_timing hp]))
  case abandonB => exact fun s n h hc hp => congrArg Host.Outcome.next (clrB_release h (by rw [hc, Chord.released_timing hp]))
  case pressA => exact fun s h hc => congrArg Host.Outcome.next (clrA_press h (chordAfter_press_alone hc))
  case pressB => exact fun s h hc => congrArg Host.Outcome.next (clrB_press h (chordAfter_press_alone hc))
  case idleA => exact fun s h hc => congrArg Host.Outcome.next (clrA_release h (by rw [hc, Chord.released]))
  case idleB => exact fun s h hc => congrArg Host.Outcome.next (clrB_release h (by rw [hc, Chord.released]))
  case spentA => exact fun s h hc => congrArg Host.Outcome.next (clrA_release h (by rw [hc, Chord.released]))
  case spentB => exact fun s h hc => congrArg Host.Outcome.next (clrB_release h (by rw [hc, Chord.released]))

end Sys2Proof.Machine
end

