-- ==== Sys2Proof/Proofs/PriorityOrder.lean ====
section
/-! The priority order of the alarm classes, and the class that STACK shows (08 R136, R137). -/

namespace Sys2Proof.Machine

/-! ## The order (08 R136) -/

/-- The order is by rank: the groups one after the other, each rotated by its code. -/
theorem Priority.order_pairwise (p : Priority) : p.order.Pairwise (fun c d => p.rank c ≤ p.rank d) := by
  have hall : ∀ (lowerFirst : Bool) (upper lower : BitVec 2), (Priority.order ⟨lowerFirst, upper, lower⟩).Pairwise
      (fun c d => Priority.rank ⟨lowerFirst, upper, lower⟩ c ≤ Priority.rank ⟨lowerFirst, upper, lower⟩ d) := by decide
  exact hall p.lowerFirst p.upper p.lower

theorem mem_rotated {code : BitVec 2} {a b c x : AlarmClass} : x ∈ rotated code a b c ↔ x = a ∨ x = b ∨ x = c := by
  unfold rotated
  split_ifs <;> simp <;> tauto

/-- The order holds the classes 1 to 6, and not class 0. -/
theorem Priority.mem_order {p : Priority} {c : AlarmClass} : c ∈ p.order ↔ c ≠ 0 := by
  have hgroups : c ∈ p.order ↔ c ∈ rotated p.upper 1 2 3 ∨ c ∈ rotated p.lower 4 5 6 := by
    unfold Priority.order
    dsimp only
    split
    · rw [List.mem_append, or_comm]
    · rw [List.mem_append]
  rw [hgroups, mem_rotated, mem_rotated]
  clear hgroups
  revert c
  decide

/-! ## STACK (08 R137) -/

/-- What STACK looks for in a class: pending and not masked. -/
def showable (settings : AlarmSettings) (pend : ClassSet) (c : AlarmClass) : Bool := pend.has c && !settings.mask.has c

theorem stackCode_eq (settings : AlarmSettings) (pend : ClassSet) :
    stackCode settings pend = (settings.priority.order.find? (showable settings pend)).getD 0 := by
  unfold stackCode
  show _ = (settings.priority.order.find? (fun c => pend.has c && !settings.mask.has c)).getD 0
  cases settings.priority.order.find? (fun c => pend.has c && !settings.mask.has c) <;> rfl

theorem showable_iff {settings : AlarmSettings} {pend : ClassSet} {c : AlarmClass} :
    showable settings pend c = true ↔ pend.has c = true ∧ settings.mask.has c = false := by
  rw [showable, Bool.and_eq_true, Bool.not_eq_true']

/-- The first element that meets a test, of a list in the order of a relation that is reflexive, comes before all others that meet it. -/
theorem find?_pairwise {α : Type} {r : α → α → Prop} (hrefl : ∀ a, r a a) {l : List α} (hl : l.Pairwise r) {test : α → Bool} {a : α}
    (h : l.find? test = some a) {b : α} (hb : b ∈ l) (htest : test b = true) : r a b := by
  obtain ⟨-, before, after, rfl, hbefore⟩ := List.find?_eq_some_iff_append.mp h
  obtain ⟨-, hafter, -⟩ := List.pairwise_append.mp hl
  rcases List.mem_append.mp hb with hmem | hmem
  · have hnot := hbefore b hmem
    rw [htest] at hnot
    cases hnot
  · rcases List.mem_cons.mp hmem with rfl | hmem
    · exact hrefl b
    · exact List.rel_of_pairwise_cons hafter hmem

/-- Settles O53: the classes 1 to 6 stand in the priority order by rank, and STACK takes the first of them that it looks for. -/
theorem stackShowsFirstClass : Obligations.StackShowsFirstClass := by
  unfold Obligations.StackShowsFirstClass
  intro settings pend shown
  have hshown : ∀ c, shown c ↔ c ∈ settings.priority.order ∧ showable settings pend c = true := fun c => by
    rw [Priority.mem_order, showable_iff]
  rw [stackCode_eq]
  cases hfind : settings.priority.order.find? (showable settings pend) with
  | none =>
    have hnone : ∀ c, ¬ shown c := fun c hc =>
      List.find?_eq_none.mp hfind c ((hshown c).mp hc).1 ((hshown c).mp hc).2
    exact ⟨iff_of_true rfl hnone, fun hne => absurd rfl hne⟩
  | some c =>
    have hc : shown c := (hshown c).mpr ⟨List.mem_of_find?_eq_some hfind, List.find?_some hfind⟩
    refine ⟨iff_of_false hc.1 fun hnone => hnone c hc, fun _ => ⟨hc, fun d hd => ?_⟩⟩
    obtain ⟨hmem, htest⟩ := (hshown d).mp hd
    exact find?_pairwise (r := fun a b => settings.priority.rank a ≤ settings.priority.rank b) (fun _ => Nat.le_refl _)
      settings.priority.order_pairwise hfind hmem htest

end Sys2Proof.Machine
end

