-- ==== Sys2Proof/Proofs/PanelInvariant.lean ====
section
/-! The ranges of the panel inputs and the chord are kept by every step (08 R143, R145, R147). -/

namespace Sys2Proof.Machine

/-! ## One input sampled (08 R143) -/

theorem sampleInput_pressed (level : Bool) (x : InputState) : (sampleInput level x).pressed = x.pressed := by
  unfold sampleInput
  split <;> rfl

theorem sampleInput_count (level : Bool) (x : InputState) : (sampleInput level x).count ≤ Config.debounceTicks := by
  unfold sampleInput
  split
  · exact Nat.zero_le _
  · exact Nat.min_le_left _ _

/-- The panel at power-on and at RESTART: released inputs, and a chord that is SPENT or disabled. -/
theorem PanelOk.init {s : State} (h : s.panel = Panel.init s.straps.chord) : PanelOk s where
  counts := by
    rw [h]
    exact ⟨Nat.zero_le _, Nat.zero_le _, Nat.zero_le _⟩
  disabled hd := by
    rw [h, hd]
    rfl
  timing n hn := by
    rw [h] at hn
    unfold Panel.init at hn
    split at hn <;> cases hn

namespace PanelOk

variable {s : State} (h : PanelOk s)
include h

/-- An event that leaves the CHORD strap and the panel, and does not leave MONITORING. -/
theorem still {t : State} (hstrap : t.straps.chord = s.straps.chord) (hpanel : t.panel = s.panel)
    (hmonitoring : s.device = .monitoring → t.device = .monitoring) : PanelOk t where
  counts := by
    rw [hpanel]
    exact h.counts
  disabled hd := by
    rw [hpanel]
    exact h.disabled (hstrap.symm.trans hd)
  timing n hn := by
    rw [hpanel] at hn ⊢
    obtain ⟨hle, hm, hpressed⟩ := h.timing n hn
    exact ⟨hle, hmonitoring hm, hpressed⟩

theorem frame {t : State} (k : PanelFrame s t) : PanelOk t := h.still (congrArg Straps.chord k.straps) k.panel k.monitoring

/-! ## Inputs and chord -/

/-- A chord that is no longer TIMING. -/
theorem untimed {c : Chord} (hdisabled : s.straps.chord = false → c = .idle) (htiming : ∀ n, c ≠ .timing n) :
    PanelOk { s with panel := { s.panel with chord := c } } where
  counts := h.counts
  disabled := hdisabled
  timing n hn := absurd hn (htiming n)

theorem chordIdle : PanelOk { s with panel := chordIdle s.panel } := by
  unfold Machine.chordIdle
  split
  · exact h.untimed (fun _ => rfl) nofun
  · exact h

theorem panelTick (pins : Pins) : PanelOk { s with panel := panelTick pins s.panel } := by
  have hsampled : PanelOk { s with panel := { s.panel with
      clrA := sampleInput pins.clrA s.panel.clrA
      clrB := sampleInput pins.clrB s.panel.clrB
      ack := sampleInput pins.ack s.panel.ack } } := {
    counts := ⟨sampleInput_count _ _, sampleInput_count _ _, sampleInput_count _ _⟩
    disabled := h.disabled
    timing := fun n hn => by
      obtain ⟨hle, hm, hA, hB⟩ := h.timing n hn
      exact ⟨hle, hm, (sampleInput_pressed _ _).trans hA, (sampleInput_pressed _ _).trans hB⟩ }
  exact hsampled.chordIdle

theorem tick (pins : Pins) : PanelOk (tick pins s) := by
  unfold Machine.tick
  split
  · exact (h.panelTick pins).still rfl rfl id
  · exact h

/-- The inputs after a change of a CLR input, with the chord that it gives and the end of SPENT at it (08 R145, R147; log entry 24). -/
theorem clrTurned {p : Panel} (hcounts : p.clrA.count ≤ Config.debounceTicks ∧ p.clrB.count ≤ Config.debounceTicks ∧
      p.ack.count ≤ Config.debounceTicks)
    (hchord : p.chord = chordAfter s.straps.chord (s.device == .monitoring) (p.clrA.pressed && p.clrB.pressed) s.panel.chord) :
    PanelOk { s with panel := Machine.chordIdle p } := by
  have hturned : PanelOk { s with panel := p } := {
    counts := hcounts
    disabled := fun hd => by
      rw [h.disabled hd, chordAfter_idle (.inr hd)] at hchord
      exact hchord
    timing := fun n hn => by
      obtain ⟨hboth, hfrom⟩ := chordAfter_timing (hchord.symm.trans hn)
      have hpressed : p.clrA.pressed = true ∧ p.clrB.pressed = true := by rwa [Bool.and_eq_true] at hboth
      rcases hfrom with ⟨-, hm, rfl⟩ | hkept
      · exact ⟨Nat.zero_le 1, eq_of_beq hm, hpressed⟩
      · obtain ⟨hle, hm, -⟩ := h.timing n hkept
        exact ⟨hle, hm, hpressed⟩ }
  exact hturned.chordIdle

theorem debouncedStateChange (i : PanelInput) : PanelOk (debouncedStateChange i s) := by
  obtain ⟨hA, hB, hack⟩ := h.counts
  by_cases hdue : (s.panel.input i).count = Config.debounceTicks
  · cases i with
    | clrA =>
      have hinput : s.panel.clrA = ⟨s.panel.clrA.pressed, 40000⟩ := congrArg (InputState.mk _) hdue
      rw [debouncedStateChange_clrA hinput]
      exact h.clrTurned ⟨Nat.zero_le _, hB, hack⟩ rfl
    | clrB =>
      have hinput : s.panel.clrB = ⟨s.panel.clrB.pressed, 40000⟩ := congrArg (InputState.mk _) hdue
      rw [debouncedStateChange_clrB hinput]
      exact h.clrTurned ⟨hA, Nat.zero_le _, hack⟩ rfl
    | ack =>
      have hinput : s.panel.ack = ⟨s.panel.ack.pressed, 40000⟩ := congrArg (InputState.mk _) hdue
      cases hp : s.panel.ack.pressed with
      | false =>
        rw [debouncedStateChange_ack_press (hp ▸ hinput)]
        exact ⟨⟨hA, hB, Nat.zero_le _⟩, h.disabled, h.timing⟩
      | true =>
        rw [debouncedStateChange_ack_release (hp ▸ hinput)]
        exact ⟨⟨hA, hB, Nat.zero_le _⟩, h.disabled, h.timing⟩
  · rw [debouncedStateChange_counting hdue]
    exact h

/-! ## The seconds strobe (08 R145) -/

theorem chordStrobe : PanelOk (chordStrobe s) := by
  unfold Machine.chordStrobe
  split
  · next n hn =>
    have henabled : s.straps.chord ≠ false := fun hd => by
      rw [h.disabled hd] at hn
      cases hn
    split
    · obtain ⟨-, htiming⟩ := h.timing n hn
      refine ⟨h.counts, fun hd => absurd hd henabled, fun m hm => ?_⟩
      cases hm
      exact ⟨Nat.le_refl 1, htiming⟩
    · have hspent : PanelOk { s with panel := { s.panel with chord := .spent } } :=
        h.untimed (fun hd => absurd hd henabled) nofun
      unfold authoriseChord
      dsimp only
      split
      · exact hspent.frame (clearTallies_panelFrame _)
      · exact hspent
  · exact h

theorem secondsStrobe : PanelOk (secondsStrobe s) := by
  unfold Machine.secondsStrobe
  split
  · have htaken : PanelOk { s with due := { s.due with secondsStrobe := false } } := h.still rfl rfl id
    exact htaken.chordStrobe
  · exact h

end PanelOk

theorem panelOk_kept : KeptByCommands PanelOk where
  seenRisingEdge s h := h.frame (seenRisingEdge_panelFrame s)
  measurementCompletion s h := h.frame (measurementCompletion_panelFrame s)
  refLoss s h := h.frame (refLoss_panelFrame s)
  tick pins _ h := h.tick pins
  loadEnd image s h := h.frame (loadEnd_panelFrame image s)
  debouncedStateChange i _ h := h.debouncedStateChange i
  sweepPace s h := h.frame (sweepPace_panelFrame s)
  millisecondStrobe s h := h.frame (millisecondStrobe_panelFrame s)
  secondsStrobe _ h := h.secondsStrobe
  silenceTick s h := h.frame (silenceTick_panelFrame s)
  boundary s h := h.frame (boundary_panelFrame s)
  line _ _ h := h.still rfl rfl id
  restart _ _ := .init rfl
  perform req s _ h := h.frame (perform_panelFrame req s)
  pending _ _ h := h.still rfl rfl id
  powerOn _ _ _ := .init rfl
  busTransfer t s h := h.frame (busTransfer_panelFrame t s)
  readDataCheck data s h := h.frame (readDataCheck_panelFrame data s)
  busReset s h := h.frame (busReset_panelFrame s)
  releaseReset _ h := h.still rfl rfl id
  clock _ _ h := h.still rfl rfl id

end Sys2Proof.Machine
end

