-- ==== Sys2Proof/Proofs/ReplyLengths.lean ====
section
/-! SUPPORT. No reply payload is longer than 60 bytes (09 R155; 10 R169). -/

namespace Sys2Proof.Machine

section
variable (s : State)

theorem statusPayload_length : (statusPayload s).length = 28 := by rw [statusPayload_eq, statusFields_length]

theorem readFlow_length (index part : Byte) : (readFlow index part s).2.2.length ≤ 60 := by
  unfold readFlow
  split
  · exact Nat.zero_le _
  · next hpart =>
    split
    · exact Nat.zero_le _
    · next f _ =>
      dsimp only
      rw [flowPart_eq f _ _ (Nat.not_lt.mp hpart), flowFields_length f _ _ (Nat.not_lt.mp hpart)]
      split_ifs <;> decide

theorem readRing_length (ring part : Byte) : (readRing ring part s).2.2.length ≤ 60 := by
  unfold readRing
  split
  · next hring =>
    split
    · exact Nat.zero_le _
    · next hpart =>
      have hshown := ringPart_eq (s.ring ⟨ring.toNat, hring⟩) ⟨ring.toNat, hring⟩ (Nat.not_lt.mp hpart)
      dsimp only at hshown ⊢
      rw [hshown, ringFields_length _ _ (Nat.not_lt.mp hpart)]
      split_ifs <;> decide
  · exact Nat.zero_le _

theorem readSummary_length (number : Half) (part : Byte) : (readSummary number part s).2.2.length ≤ 60 := by
  unfold readSummary
  split
  · exact Nat.zero_le _
  · next hpart =>
    split
    · exact Nat.zero_le _
    · next q _ =>
      dsimp only
      rw [summaryPart_eq q (Nat.not_lt.mp hpart), summaryFields_length q (Nat.not_lt.mp hpart)]
      split_ifs <;> decide

theorem findFlow_length (ring : Nat) (key : Half) : (findFlow ring key s).2.length ≤ 4 := by
  unfold findFlow
  split
  · split
    · exact Nat.zero_le _
    · split
      · exact Nat.zero_le _
      · dsimp only
        rw [findPayload_eq, layout_length]
        exact Nat.le_refl 4
  · exact Nat.zero_le _

theorem createFlow_length (r : RingIx) (key : Half) (p : Nat) (params : FlowParams) :
    (createFlow r key p params s).2.2.length ≤ 1 := by
  unfold createFlow
  split
  · exact Nat.zero_le _
  · exact Nat.le_refl 1

theorem defineFlow_length (ring : Nat) (key : Half) (a : FlowArgs) : (defineFlow ring key a s).2.2.length ≤ 1 := by
  unfold defineFlow
  split
  · unfold defineFlowAt
    split
    · exact createFlow_length s _ _ _ _
    · dsimp only
      split
      · exact createFlow_length _ _ _ _ _
      · exact Nat.le_refl 1
  · exact Nat.zero_le _

theorem Incident.toBytes_length (r : Incident) : r.toBytes.length = 17 := by
  rw [r.toBytes_eq, layout_length]
  rfl

/-- At most three records of 17 bytes, and two counts (09 R162). -/
theorem takeIncidents_length (m : Byte) : (takeIncidents m s).2.2.length ≤ 53 := by
  have hrecords : ∀ l : List Incident, (l.flatMap Incident.toBytes).length = l.length * 17 := fun l => by
    simp [List.length_flatMap, Incident.toBytes_length]
  have htaken : (s.log.records.take (min (min m.toNat 3) s.log.records.length)).length ≤ 3 := by
    rw [List.length_take]
    omega
  simp only [takeIncidents, List.length_append, hrecords]
  have hone : ∀ n, (bytes1 n).length = 1 := fun _ => rfl
  rw [hone, hone]
  omega

theorem setAlarmMap_payload (c : Vector Byte 14) (m p d : Byte) : (setAlarmMap c m p d s).2.2 = [] := by
  unfold setAlarmMap
  split <;> rfl

theorem setTallyPeriod_payload (code : Byte) : (setTallyPeriod code s).2.2 = [] := by
  unfold setTallyPeriod
  split <;> rfl

theorem startPart_payload : (startPart s).2.2 = [] := by
  unfold startPart
  split <;> rfl

theorem perform_length (req : Request) : (perform req s).2.2.length ≤ 60 := by
  cases req with
  | status => exact (statusPayload_length s).trans_le (by decide)
  | readFlow i p => exact readFlow_length s i p
  | findFlow r k => exact (findFlow_length s _ k).trans (by decide)
  | defineFlow r k a => exact (defineFlow_length s _ k a).trans (by decide)
  | removeFlow i => exact Nat.zero_le _
  | setPeriod i p => exact Nat.zero_le _
  | readRing r p => exact readRing_length s r p
  | defineRing r b n o => exact Nat.zero_le _
  | ringOff r => exact Nat.zero_le _
  | readSummary n p => exact readSummary_length s n p
  | takeIncidents m => exact (takeIncidents_length s m).trans (by decide)
  | acknowledge c => exact Nat.zero_le _
  | setAlarmMap c m p d => exact (congrArg List.length (setAlarmMap_payload s c m p d)).trans_le (Nat.zero_le _)
  | setTallyPeriod c => exact (congrArg List.length (setTallyPeriod_payload s c)).trans_le (Nat.zero_le _)
  | clearTallies => exact Nat.zero_le _
  | restart => exact Nat.zero_le _
  | start => exact (congrArg List.length (startPart_payload s)).trans_le (Nat.zero_le _)

theorem answer_length (req : Request) : (answer req s).2.2.length ≤ 60 := by
  unfold answer
  split
  · exact Nat.zero_le _
  · exact perform_length s req

end

end Sys2Proof.Machine
end

