-- ==== Sys2Proof/Proofs/LineInvariant.lean ====
section
/-! The lengths of a collection and of a reply, and the silence of a station with address 0, are kept by every step (09 R150, R151, R155). -/

namespace Sys2Proof.Machine

/-! ## Receive states and replies -/

theorem addressed_length {station : BitVec 4} {d : Byte} {direct : Bool} {chars : List Byte}
    (h : addressed station d = .collecting direct chars) : chars = [] := by
  unfold addressed at h
  split_ifs at h <;> cases h <;> rfl

/-- Address 0 is that of broadcast requests (09 R150). -/
theorem addressed_broadcast (d : Byte) : (addressed 0 d).direct = false := by
  unfold addressed
  split_ifs with hzero hstation
  · rfl
  · exact absurd hstation hzero
  · rfl

theorem replyChars_length (station : BitVec 4) (st : Status) (payload : List Byte) :
    (replyChars station st payload).length = payload.length + 3 := rfl

theorem newReply_ok (station : BitVec 4) (st : Status) {payload : List Byte} (h : payload.length ≤ 60) (restart : Bool) :
    ReplyOk (newReply station st payload restart) where
  least := Nat.le_add_left 3 _
  most := Nat.add_le_add_right h 3
  stop := Nat.le_refl _

/-! ## The line between its events -/

/-- The line at power-on and after a RESTART: WAITING, with no reply. -/
theorem LineOk.init {s : State} (hrx : s.line.rx = .waiting) (hreply : s.line.reply = none) (herrors : s.line.lineErrors ≤ max16) :
    LineOk s where
  collected direct chars hc := by
    rw [hrx] at hc
    cases hc
  station _ := by
    rw [hrx, hreply]
    exact ⟨rfl, rfl⟩
  reply r hr := by
    rw [hreply] at hr
    cases hr
  errors := herrors

namespace LineOk

variable {s : State} (h : LineOk s)
include h

/-- An event that leaves the address, the receive state, the reply and the line error count. -/
theorem still {t : State} (haddr : t.straps.addr = s.straps.addr) (hrx : t.line.rx = s.line.rx)
    (hreply : t.line.reply = s.line.reply) (herrors : t.line.lineErrors = s.line.lineErrors) : LineOk t where
  collected direct chars hc := h.collected direct chars (hrx.symm.trans hc)
  station ha := by
    rw [hrx, hreply]
    exact h.station (haddr.symm.trans ha)
  reply r hr := h.reply r (hreply.symm.trans hr)
  errors := by
    rw [herrors]
    exact h.errors

theorem frame {t : State} (k : LineFrame s t) : LineOk t :=
  h.still (congrArg Straps.addr k.straps) (congrArg TallyLine.rx k.line) (congrArg TallyLine.reply k.line)
    (congrArg TallyLine.lineErrors k.line)

theorem addr_of_direct (hd : s.line.rx.direct = true) : s.straps.addr ≠ 0 := fun ha => by
  rw [(h.station ha).1] at hd
  cases hd

theorem addr_of_reply {r : Reply} (hr : s.line.reply = some r) : s.straps.addr ≠ 0 := fun ha => by
  rw [(h.station ha).2] at hr
  cases hr

theorem noReply : LineOk (s.setReply none) where
  collected := h.collected
  station ha := ⟨(h.station ha).1, rfl⟩
  reply := nofun
  errors := h.errors

theorem setReply (ha : s.straps.addr ≠ 0) {r : Reply} (hr : ReplyOk r) : LineOk (s.setReply (some r)) where
  collected := h.collected
  station hz := absurd hz ha
  reply := by
    rintro _ ⟨⟩
    exact hr
  errors := h.errors

theorem setRx {x : RxState} (hlen : ∀ direct chars, x = .collecting direct chars → chars.length ≤ 61)
    (hdirect : x.direct = true → s.straps.addr ≠ 0) : LineOk (s.setRx x) where
  collected := hlen
  station ha := ⟨Bool.eq_false_iff.mpr fun hd => hdirect hd ha, (h.station ha).2⟩
  reply := h.reply
  errors := h.errors

theorem waiting : LineOk (s.setRx .waiting) := h.setRx nofun nofun

theorem restart : LineOk (restartPart s) := .init rfl rfl h.errors

theorem discardCollection : LineOk (discardCollection s) where
  collected := nofun
  station ha := ⟨rfl, (h.station ha).2⟩
  reply := h.reply
  errors := Nat.min_le_left _ _

/-! ## The end of a request's handling (09 R153 to R155, R163) -/

theorem concludeRequest {direct : Bool} (hd : direct = true → s.straps.addr ≠ 0) (restarts : Bool) (st : Status) {payload : List Byte}
    (hlen : payload.length ≤ 60) : LineOk (concludeRequest direct restarts (s, st, payload)) := by
  unfold Machine.concludeRequest
  split
  · next hdirect => exact h.setReply (hd hdirect) (newReply_ok _ _ hlen _)
  · split
    · exact h.restart
    · exact h

theorem handleRequest {direct : Bool} (hd : direct = true → s.straps.addr ≠ 0) (req : Request) :
    LineOk (handleRequest direct req s) := by
  have hframe := answer_panelFrame req s
  have hlen := answer_length s req
  unfold Machine.handleRequest
  generalize answer req s = out at hframe hlen ⊢
  exact (h.frame hframe.toLineFrame).concludeRequest (by rw [hframe.straps]; exact hd) _ _ hlen

theorem refuseRequest {direct : Bool} (hd : direct = true → s.straps.addr ≠ 0) (st : Status) : LineOk (refuseRequest direct st s) :=
  h.concludeRequest hd false st (Nat.zero_le _)

theorem completeRequest {direct : Bool} (hd : direct = true → s.straps.addr ≠ 0) (command : Byte) (payload : List Byte) :
    LineOk (completeRequest direct command payload s) := by
  unfold Machine.completeRequest
  split
  · exact h.handleRequest hd _
  · exact h.refuseRequest hd _

/-- A request handled after the reply that was still going on has ended. -/
theorem beforeHandling {k : State → State} (hk : ∀ u, LineOk u → u.straps = s.straps → LineOk (k u)) : LineOk (beforeHandling s k) := by
  unfold Machine.beforeHandling
  split
  · split
    · exact h.restart
    · exact hk _ h.noReply rfl
  · exact hk s h rfl

/-! ## Replies (09 R155, R156, R163) -/

theorem finishReply : LineOk (finishReply s) := by
  unfold Machine.finishReply
  split
  · exact h
  · split
    · exact h.restart
    · exact h.noReply

theorem replyStart : LineOk (replyStart s) := by
  unfold Machine.replyStart
  split
  · exact h
  · next r hr =>
    obtain ⟨hleast, hmost, hstop⟩ := h.reply r hr
    split
    · exact h.setReply (h.addr_of_reply hr) ⟨hleast, hmost, hstop⟩
    · exact h

theorem replyEnd : LineOk (replyEnd s) := by
  unfold Machine.replyEnd
  split
  · exact h
  · split
    · exact h.finishReply
    · exact h

theorem abandonReply : LineOk (abandonReply s) := by
  unfold Machine.abandonReply
  split
  · exact h
  · next r hr =>
    obtain ⟨hleast, hmost, hstop⟩ := h.reply r hr
    split
    · exact h.setReply (h.addr_of_reply hr) ⟨hleast, hmost, (Nat.min_le_left _ _).trans hstop⟩
    · exact h.finishReply

/-! ## Characters and limits (09 R150 to R152) -/

theorem setAddressed (d : Byte) : LineOk (s.setRx (addressed s.straps.addr d)) := by
  refine h.setRx (fun direct chars hc => ?_) (fun hd ha => ?_)
  · rw [addressed_length hc]
    exact Nat.zero_le _
  · rw [ha, addressed_broadcast] at hd
    cases hd

theorem takeAddress (d : Byte) : LineOk (takeAddress d s) := by
  unfold Machine.takeAddress
  split
  · next r hr =>
    split
    · exact h.restart
    · next hkeeps =>
      have hstraps : (Machine.abandonReply s).straps = s.straps := by
        unfold Machine.abandonReply Machine.finishReply
        rw [hr]
        dsimp only
        split_ifs with hsending hrestart
        · rfl
        · exact absurd ⟨Bool.eq_false_iff.mpr hsending, hrestart⟩ hkeeps
        · rfl
      rw [← hstraps]
      exact h.abandonReply.setAddressed d
  · exact h.setAddressed d

theorem takeFaulty : LineOk (takeFaulty s) := by
  unfold Machine.takeFaulty
  split
  · exact h.discardCollection
  · exact h

/-- A length of at most 60 keeps what is still COLLECTING within the command, the length and 59 characters (09 R151). -/
theorem collect {direct : Bool} (hd : direct = true → s.straps.addr ≠ 0) (chars : List Byte) : LineOk (collect direct chars s) := by
  unfold Machine.collect
  split
  · next command n payload =>
    split
    · exact h.setRx nofun hd
    · split
      · exact h.waiting.beforeHandling fun u hu hstraps => hu.completeRequest (by rw [hstraps]; exact hd) _ _
      · refine h.setRx ?_ hd
        rintro _ _ ⟨⟩
        simp only [List.length_cons]
        omega
  · next hshort =>
    refine h.setRx ?_ hd
    rintro _ _ ⟨⟩
    match chars, hshort with
    | [], _ => exact Nat.zero_le _
    | [_], _ => exact (by decide : 1 ≤ 61)
    | c :: n :: payload, hshort => exact absurd rfl (hshort c n payload)

theorem takeData (d : Byte) : LineOk (takeData d s) := by
  unfold Machine.takeData
  split
  · next hrx => exact h.collect (fun hd => h.addr_of_direct (by rw [hrx]; exact hd)) _
  · exact h

theorem noteReception (c : RxChar) : LineOk (noteReception c s) := h.still rfl rfl rfl rfl

theorem addressCharacter (d : Byte) (error : Bool) : LineOk (addressCharacter d error s) := by
  unfold Machine.addressCharacter
  dsimp only
  split
  · exact (h.noteReception _).takeFaulty
  · exact (h.noteReception _).takeAddress d

theorem dataCharacter (d : Byte) (error : Bool) : LineOk (dataCharacter d error s) := by
  unfold Machine.dataCharacter
  dsimp only
  split
  · exact (h.noteReception _).takeFaulty
  · exact (h.noteReception _).takeData d

theorem gapLimitExpiry : LineOk (gapLimitExpiry s) := by
  unfold Machine.gapLimitExpiry
  split
  · split
    · exact h.discardCollection
    · exact h
  · exact h

theorem quietLimitExpiry : LineOk (quietLimitExpiry s) := by
  unfold Machine.quietLimitExpiry
  split
  · next hrx =>
    split
    · refine h.waiting.beforeHandling fun u hu hstraps => hu.refuseRequest (fun hd => ?_) _
      rw [hstraps]
      exact h.addr_of_direct (by rw [hrx]; exact hd)
    · exact h
  · exact h

theorem takeReceived : LineOk (takeReceived s) := by
  unfold Machine.takeReceived
  split
  · exact h
  · split
    · exact h.addressCharacter _ _
    · exact h.dataCharacter _ _

/-- A whole request on the line (log entry 13). -/
theorem lineRequest (addr : Byte) (req : Request) : LineOk (lineRequest addr req s) := by
  have hstarted : LineOk { s with line := { s.line with gapTicks := 0 } } := h.still rfl rfl rfl rfl
  have haddressed := hstarted.takeAddress addr
  unfold Machine.lineRequest
  generalize Machine.takeAddress addr _ = u at haddressed ⊢
  dsimp only
  split
  · next hrx =>
    refine haddressed.waiting.beforeHandling fun v hv hstraps => hv.handleRequest (fun hd => ?_) req
    rw [hstraps]
    exact haddressed.addr_of_direct (by rw [hrx]; exact hd)
  · exact haddressed

/-! ## Ticks and bus clocks -/

theorem tick (pins : Pins) : LineOk (tick pins s) := by
  unfold Machine.tick
  split
  · exact {
      collected := h.collected
      station := fun ha => by
        obtain ⟨hrx, hreply⟩ := h.station ha
        exact ⟨hrx, congrArg (Option.map (replyTick s.straps)) hreply⟩
      reply := fun r hr => by
        obtain ⟨q, hq, rfl⟩ := Option.map_eq_some_iff.mp hr
        obtain ⟨hleast, hmost, hstop⟩ := h.reply q hq
        exact ⟨hleast, hmost, hstop⟩
      errors := h.errors }
  · exact h

/-- The events that a bus clock takes when no command has taken them. -/
theorem settle : LineOk (settle s) := by
  have hsource := ((seenRisingEdge_panelFrame s).trans (measurementCompletion_panelFrame _)).trans (refLoss_panelFrame _)
  have hticked := (h.frame hsource.toLineFrame).tick (Machine.refLoss (Machine.measurementCompletion (Machine.seenRisingEdge s))).pins
  have hloaded := hticked.frame (finishLoad_panelFrame _).toLineFrame
  have hpanel := hloaded.frame (((debouncedStateChange_lineFrame .clrA _).trans (debouncedStateChange_lineFrame .clrB _)).trans
    (debouncedStateChange_lineFrame .ack _))
  have hstrobes := hpanel.frame (((sweepPace_panelFrame _).trans (millisecondStrobe_panelFrame _)).toLineFrame.trans
    (secondsStrobe_lineFrame _))
  have hboundary := hstrobes.frame ((silenceTick_panelFrame _).trans (boundary_panelFrame _)).toLineFrame
  exact hboundary.takeReceived.gapLimitExpiry.quietLimitExpiry.replyEnd.replyStart

theorem busClock (ref : Bool) : LineOk (busClock ref s) := by
  have hsettled := h.settle
  unfold Machine.busClock
  generalize Machine.settle s = u at hsettled ⊢
  exact hsettled.still rfl rfl rfl rfl

/-! ## Commands -/

/-- Every command answers a state whose line is in its ranges again. -/
theorem exec (c : Instr) : ∃ t, exec c s = .next t ∧ LineOk t := by
  have request := fun addr req => h.lineRequest addr req
  cases c with
  | powerOn x => exact ⟨_, rfl, .init rfl rfl (Nat.zero_le _)⟩
  | busTransfer write addr slen data => exact ⟨_, rfl, h.frame (busTransfer_panelFrame _ s).toLineFrame⟩
  | readDataCheck data => exact ⟨_, rfl, h.frame (readDataCheck_panelFrame _ s).toLineFrame⟩
  | busReset => exact ⟨_, rfl, h.frame (busReset_panelFrame s).toLineFrame⟩
  | tick pins => exact ⟨_, rfl, h.tick pins⟩
  | refLoss => exact ⟨_, rfl, h.frame (refLoss_panelFrame s).toLineFrame⟩
  | measurementCompletion => exact ⟨_, rfl, h.frame (measurementCompletion_panelFrame s).toLineFrame⟩
  | millisecondStrobe => exact ⟨_, rfl, h.frame (millisecondStrobe_panelFrame s).toLineFrame⟩
  | secondsStrobe => exact ⟨_, rfl, h.frame (secondsStrobe_lineFrame s)⟩
  | sweepPace => exact ⟨_, rfl, h.frame (sweepPace_panelFrame s).toLineFrame⟩
  | silenceTick => exact ⟨_, rfl, h.frame (silenceTick_panelFrame s).toLineFrame⟩
  | boundary => exact ⟨_, rfl, h.frame (boundary_panelFrame s).toLineFrame⟩
  | debouncedStateChange i => exact ⟨_, rfl, h.frame (debouncedStateChange_lineFrame i s)⟩
  | addressCharacter d e => exact ⟨_, rfl, h.addressCharacter d e⟩
  | dataCharacter d e => exact ⟨_, rfl, h.dataCharacter d e⟩
  | gapLimitExpiry => exact ⟨_, rfl, h.gapLimitExpiry⟩
  | quietLimitExpiry => exact ⟨_, rfl, h.quietLimitExpiry⟩
  | replyStart => exact ⟨_, rfl, h.replyStart⟩
  | replyEnd => exact ⟨_, rfl, h.replyEnd⟩
  | loadEnd image => exact ⟨_, rfl, h.frame (loadEnd_panelFrame image s).toLineFrame⟩
  | status addr => exact ⟨_, rfl, request _ _⟩
  | readFlow addr i p => exact ⟨_, rfl, request _ _⟩
  | findFlow addr r k => exact ⟨_, rfl, request _ _⟩
  | defineFlow addr r k a => exact ⟨_, rfl, request _ _⟩
  | removeFlow addr i => exact ⟨_, rfl, request _ _⟩
  | setPeriod addr i p => exact ⟨_, rfl, request _ _⟩
  | readRing addr r p => exact ⟨_, rfl, request _ _⟩
  | defineRing addr r b n o => exact ⟨_, rfl, request _ _⟩
  | ringOff addr r => exact ⟨_, rfl, request _ _⟩
  | readSummary addr n p => exact ⟨_, rfl, request _ _⟩
  | takeIncidents addr n => exact ⟨_, rfl, request _ _⟩
  | acknowledge addr c => exact ⟨_, rfl, request _ _⟩
  | setAlarmMap addr c m p d => exact ⟨_, rfl, request _ _⟩
  | setTallyPeriod addr c => exact ⟨_, rfl, request _ _⟩
  | clearTallies addr => exact ⟨_, rfl, request _ _⟩
  | restart addr => exact ⟨_, rfl, request _ _⟩
  | start addr => exact ⟨_, rfl, request _ _⟩
  | seenRisingEdge => exact ⟨_, rfl, h.frame (seenRisingEdge_panelFrame s).toLineFrame⟩
  | busClock ref => exact ⟨_, rfl, h.busClock ref⟩
  | swRstNRelease => exact ⟨_, rfl, h.still rfl rfl rfl rfl⟩

theorem step {t : State} (ht : step s = .next t) : LineOk t := by
  unfold Machine.step at ht
  split at ht
  · cases ht
    exact h
  · next c rest _ =>
    have htaken : LineOk { s with pending := rest } := h.still rfl rfl rfl rfl
    obtain ⟨u, hu, hline⟩ := htaken.exec c
    rw [hu] at ht
    cases ht
    exact hline

end LineOk

/-- Settles O60: the panel as an invariant that the part's own events keep, and the line by its own events, which the others leave. -/
theorem stepKeepsPanelAndLine : Obligations.StepKeepsPanelAndLine := by
  unfold Obligations.StepKeepsPanelAndLine
  exact fun s t hpanel hline ht => ⟨panelOk_kept.step hpanel ht, hline.step ht⟩

end Sys2Proof.Machine
end

