-- ==== Sys2Proof/Proofs/RequestBytes.lean ====
section
/-! The request layouts lose nothing: each payload field is read back from its place, and the table of lengths in one form (09 R153;
10 section 10.5, R169). -/

namespace Sys2Proof.Machine

/-! ## Numbers as bytes, most significant first (10 section 10.5) -/

theorem ofBytes_bytes2 (n : Nat) : ofBytes (bytes2 n) = n % 65536 := by
  simp only [ofBytes, bytes2, List.foldl_cons, List.foldl_nil, BitVec.toNat_ofNat]
  omega

theorem ofBytes_bytes3 (n : Nat) : ofBytes (bytes3 n) = n % 16777216 := by
  simp only [ofBytes, bytes3, bytes2, List.foldl_cons, List.foldl_nil, BitVec.toNat_ofNat]
  omega

theorem ofBytes_bytes4 (n : Nat) : ofBytes (bytes4 n) = n % 4294967296 := by
  simp only [ofBytes, bytes4, bytes3, bytes2, List.foldl_cons, List.foldl_nil, BitVec.toNat_ofNat]
  omega

section
variable {p : List Byte} {i : Nat}

/-- A 2-byte field read back from its place in a payload. -/
theorem fieldAt_half {x : Half} (h : (p.drop i).take 2 = bytes2 x.toNat) : BitVec.ofNat 16 (fieldAt p i 2) = x := by
  rw [fieldAt, h, ofBytes_bytes2, Nat.mod_eq_of_lt x.isLt, BitVec.ofNat_toNat, BitVec.setWidth_eq]

/-- A 3-byte field read back from its place in a payload. -/
theorem fieldAt_base {x : BitVec 24} (h : (p.drop i).take 3 = bytes3 x.toNat) : BitVec.ofNat 24 (fieldAt p i 3) = x := by
  rw [fieldAt, h, ofBytes_bytes3, Nat.mod_eq_of_lt x.isLt, BitVec.ofNat_toNat, BitVec.setWidth_eq]

/-- A 4-byte field read back from its place in a payload. -/
theorem fieldAt_word {x : BitVec 32} (h : (p.drop i).take 4 = bytes4 x.toNat) : wordField p i = x := by
  rw [wordField, fieldAt, h, ofBytes_bytes4, Nat.mod_eq_of_lt x.isLt, BitVec.ofNat_toNat, BitVec.setWidth_eq]

end

/-! ## Each request's bytes (09 R153; 10 R169) -/

/-- DEFINE FLOW's eight words stand one after another from byte 3 on. -/
theorem requestOf_defineFlow (r : Byte) (k : Half) (a : FlowArgs) :
    requestOf (Request.defineFlow r k a).code (Request.defineFlow r k a).payload = some (.defineFlow r k a) := by
  have hkey : BitVec.ofNat 16 (fieldAt (Request.defineFlow r k a).payload 1 2) = k := fieldAt_half rfl
  have hargs : FlowArgs.mk (wordField (Request.defineFlow r k a).payload 3) (wordField (Request.defineFlow r k a).payload 7)
      (wordField (Request.defineFlow r k a).payload 11) (wordField (Request.defineFlow r k a).payload 15)
      (wordField (Request.defineFlow r k a).payload 19) (wordField (Request.defineFlow r k a).payload 23)
      (wordField (Request.defineFlow r k a).payload 27) (wordField (Request.defineFlow r k a).payload 31) = a := by
    rw [fieldAt_word (x := a.period) rfl, fieldAt_word (x := a.early) rfl, fieldAt_word (x := a.late) rfl,
      fieldAt_word (x := a.budget) rfl, fieldAt_word (x := a.missLimit) rfl, fieldAt_word (x := a.lateLimit) rfl,
      fieldAt_word (x := a.lossLimit) rfl, fieldAt_word (x := a.disorderLimit) rfl]
  exact congrArg some (congrArg₂ (Request.defineFlow r) hkey hargs)

/-- SET ALARM MAP's 14 classes come first, and after them its mask, priority and modes. -/
theorem requestOf_setAlarmMap (classes : Vector Byte 14) (m p d : Byte) :
    requestOf (Request.setAlarmMap classes m p d).code (Request.setAlarmMap classes m p d).payload =
      some (.setAlarmMap classes m p d) := by
  have hclasses : Vector.ofFn (fun i : Fin 14 => byteAt (classes.toList ++ [m, p, d]) i.val) = classes := by
    ext i hi
    simp [byteAt, List.getElem?_append_left]
  have hrest : ∀ k, byteAt (classes.toList ++ [m, p, d]) (14 + k) = byteAt [m, p, d] k := fun k => by
    simp [byteAt, List.getElem?_append_right]
  show some (Request.setAlarmMap (Vector.ofFn (fun i : Fin 14 => byteAt (classes.toList ++ [m, p, d]) i.val))
    (byteAt (classes.toList ++ [m, p, d]) (14 + 0)) (byteAt (classes.toList ++ [m, p, d]) (14 + 1))
    (byteAt (classes.toList ++ [m, p, d]) (14 + 2))) = _
  rw [hclasses, hrest, hrest, hrest]
  rfl

/-- Every request is read back from its command byte and payload. -/
theorem requestOf_payload (req : Request) : requestOf req.code req.payload = some req := by
  cases req with
  | status => rfl
  | readFlow i p => rfl
  | findFlow r k => exact congrArg some (congrArg (Request.findFlow r) (fieldAt_half rfl))
  | defineFlow r k a => exact requestOf_defineFlow r k a
  | removeFlow i => rfl
  | setPeriod i p => exact congrArg some (congrArg (Request.setPeriod i) (fieldAt_word rfl))
  | readRing r p => rfl
  | defineRing r b n o =>
    exact congrArg some (congrArg₂ (fun b n => Request.defineRing r b n o) (fieldAt_base rfl) (fieldAt_half rfl))
  | ringOff r => rfl
  | readSummary n p => exact congrArg some (congrArg (fun n => Request.readSummary n p) (fieldAt_half rfl))
  | takeIncidents m => rfl
  | acknowledge c => rfl
  | setAlarmMap c m p d => exact requestOf_setAlarmMap c m p d
  | setTallyPeriod c => rfl
  | clearTallies => rfl
  | restart => rfl
  | start => rfl

/-- Every request has the payload length that the table gives its command. -/
theorem payloadLength_code (req : Request) : payloadLength req.code = some req.payload.length := by
  cases req with
  | setAlarmMap c m p d =>
    have hlen : (c.toList ++ [m, p, d]).length = 17 := by rw [List.length_append, Vector.length_toList]; rfl
    exact congrArg some hlen.symm
  | _ => rfl

/-- The table of payload lengths in one form: the codes run from 1 to 17 (09 R153). -/
theorem payloadLength_eq (c : Byte) : payloadLength c = if c.toNat = 0 ∨ 17 < c.toNat then none
    else #[0, 2, 3, 35, 1, 5, 2, 7, 1, 3, 1, 1, 17, 1, 0, 0, 0][c.toNat - 1]? := by
  unfold payloadLength
  generalize c.toNat = n
  by_cases hn : n ≤ 17
  · interval_cases n <;> rfl
  · rw [if_pos (by omega)]
    split
    case h_18 => rfl
    all_goals omega

theorem payloadLength_le {c : Byte} {n : Nat} (h : payloadLength c = some n) : n ≤ 60 := by
  unfold payloadLength at h
  split at h <;> cases h <;> decide

/-- Settles O42: the fields of each payload read back from their places, and its length by the table. -/
theorem requestLayoutsRoundTrip : Obligations.RequestLayoutsRoundTrip := by
  unfold Obligations.RequestLayoutsRoundTrip
  exact fun req => ⟨requestOf_payload req, payloadLength_code req, payloadLength_le (payloadLength_code req)⟩

end Sys2Proof.Machine
end

