-- ==== Sys2Proof/Proofs/LineCharacters.lean ====
section
/-! The characters of the tally line: what an address character does to the reply and the receive state, and how data characters are
collected, complete a request or spoil it (09 R150 to R156, R163). -/

namespace Sys2Proof.Machine

/-! ## Commands of characters -/

theorem exec_addressCharacter (d : Byte) (error : Bool) (s : State) :
    exec (.addressCharacter d error) s = .next (addressCharacter d error s) := rfl

theorem exec_dataCharacter (d : Byte) (error : Bool) (s : State) :
    exec (.dataCharacter d error) s = .next (dataCharacter d error s) := rfl

section
variable (d : Byte) (s : State)

/-- The state in which a character just received is taken (log entry 14). -/
def State.hearing (s : State) (c : RxChar) : State := { s with line := s.line.heard c }

theorem addressCharacter_good : addressCharacter d false s = takeAddress d (s.hearing ⟨d, true, false⟩) := rfl

theorem addressCharacter_faulty : addressCharacter d true s = takeFaulty (s.hearing ⟨d, true, true⟩) := rfl

theorem dataCharacter_good : dataCharacter d false s = takeData d (s.hearing ⟨d, false, false⟩) := rfl

theorem dataCharacter_faulty : dataCharacter d true s = takeFaulty (s.hearing ⟨d, false, true⟩) := rfl

theorem takeFaulty_eq : takeFaulty s = { s with line := s.line.spoiled } := by
  unfold takeFaulty TallyLine.spoiled
  cases s.line.rx <;> rfl

end

/-! ## Address characters (09 R150, R156, R163) -/

theorem addressed_eq (s : State) (d : Byte) : addressed s.straps.addr d = s.addressedBy d := by
  have hzero : d.toNat = 0 ↔ d = 0 := ⟨fun h => BitVec.eq_of_toNat_eq h, fun h => h ▸ rfl⟩
  simp only [addressed, State.addressedBy, hzero]

/-- A reply that is to end with its character in progress (09 R156; log entry 33). -/
def Reply.abandoned (r : Reply) (x : Straps) : Reply := { r with stopAfter := min r.stopAfter (r.ticks / charTime x + 1) }

section
variable {s : State} {r : Reply} (hr : s.line.reply = some r)
include hr

/-- A reply being sent ends with the character in progress. -/
theorem takeAddress_sending (hs : r.sending = true) (d : Byte) : takeAddress d s =
    (s.setReply (some (r.abandoned s.straps))).setRx (addressed s.straps.addr d) := by
  simp [takeAddress, abandonReply, Reply.abandoned, hr, hs]

/-- A reply in its delay is dropped. -/
theorem takeAddress_delayed (hs : r.sending = false) (hrestart : r.restart = false) (d : Byte) :
    takeAddress d s = (s.setReply none).setRx (addressed s.straps.addr d) := by
  simp [takeAddress, abandonReply, finishReply, hr, hs, hrestart]

/-- A reply in its delay that carries a restart is dropped, and the restart made. -/
theorem takeAddress_restart (hs : r.sending = false) (hrestart : r.restart = true) (d : Byte) :
    takeAddress d s = restartPart s := by
  simp [takeAddress, hr, hs, hrestart]

end

/-- What an address character leaves: the part restarted, or the reply dropped, cut short or as it was, and its receive state. -/
theorem takeAddress_cases (d : Byte) (s : State) : takeAddress d s = restartPart s ∨
    ∃ x, takeAddress d s = (s.setReply x).setRx (addressed s.straps.addr d) := by
  cases hr : s.line.reply with
  | none =>
    have hsame : s.setReply none = s := congrArg (fun x => { s with line := { s.line with reply := x } }) hr.symm
    exact .inr ⟨none, by rw [takeAddress_idle hr, hsame]⟩
  | some r =>
    cases hs : r.sending with
    | true => exact .inr ⟨_, takeAddress_sending hr hs d⟩
    | false =>
      cases hrestart : r.restart with
      | true => exact .inl (takeAddress_restart hr hs hrestart d)
      | false => exact .inr ⟨none, takeAddress_delayed hr hs hrestart d⟩

/-- Settles O37: an address character by the reply it finds. -/
theorem addressCharacterBeginsCollection : Obligations.AddressCharacterBeginsCollection := by
  unfold Obligations.AddressCharacterBeginsCollection
  refine ⟨?idle, ?sending, ?delayed, ?faulty⟩
  case idle =>
    intro d s hr
    rw [exec_addressCharacter, addressCharacter_good, takeAddress_idle (s := s.hearing ⟨d, true, false⟩) hr,
      addressed_eq]
    rfl
  case sending =>
    intro d s r hr hs
    rw [exec_addressCharacter, addressCharacter_good, takeAddress_sending (s := s.hearing ⟨d, true, false⟩) hr hs,
      addressed_eq]
    rfl
  case delayed =>
    intro d s r hr hs hrestart
    rw [exec_addressCharacter, addressCharacter_good, takeAddress_delayed (s := s.hearing ⟨d, true, false⟩) hr hs hrestart,
      addressed_eq]
    rfl
  case faulty =>
    intro d s
    rw [exec_addressCharacter, addressCharacter_faulty, takeFaulty_eq]
    rfl

/-! ## Data characters (09 R150 to R152) -/

section
variable {s : State}

theorem takeData_collecting {direct : Bool} {chars : List Byte} (h : s.line.rx = .collecting direct chars) (d : Byte) :
    takeData d s = collect direct (chars ++ [d]) s := by
  simp [takeData, h]

/-- Outside COLLECTING a data character is ignored or let pass. -/
theorem takeData_ignored (h : s.line.rx = .waiting ∨ ∃ direct c, s.line.rx = .overlong direct c) (d : Byte) :
    takeData d s = s := by
  obtain h | ⟨direct, c, h⟩ := h <;> simp [takeData, h]

end

section
variable (direct : Bool) (c n : Byte) (p : List Byte) (s : State)

theorem collect_command : collect direct [c] s = s.setRx (.collecting direct [c]) := rfl

theorem collect_overlong (h : 60 < n.toNat) : collect direct (c :: n :: p) s = s.setRx (.overlong direct c) := if_pos h

theorem collect_incomplete (hn : n.toNat ≤ 60) (hp : p.length < n.toNat) :
    collect direct (c :: n :: p) s = s.setRx (.collecting direct (c :: n :: p)) := by
  simp [collect, Nat.not_lt.mpr hn, Nat.not_le.mpr hp]

theorem collect_complete (hn : n.toNat ≤ 60) (hp : n.toNat = p.length) : collect direct (c :: n :: p) s =
    beforeHandling (s.setRx .waiting) (completeRequest direct c p) := by
  simp [collect, Nat.not_lt.mpr hn, hp.le]

end

/-! ## Refused requests (09 R153 checks 1 and 2, R155) -/

/-- The checks of the command and the length in the words of R153. -/
theorem lengthStatus_eq (c : Byte) (n : Nat) : lengthStatus c n = lengthFault c n := by
  rw [lengthStatus, payloadLength_eq, lengthFault]
  by_cases h : c.toNat = 0 ∨ 17 < c.toNat
  · simp [h]
  · have hlt : c.toNat - 1 < 17 := by omega
    rw [if_neg h, if_neg h, Array.getElem?_eq_getElem hlt]
    simp [eq_comm]

theorem overlongStatus_eq (c : Byte) : overlongStatus c = if c.toNat = 0 ∨ 17 < c.toNat then .unknown else .badLength := by
  rw [overlongStatus, payloadLength_eq]
  by_cases h : c.toNat = 0 ∨ 17 < c.toNat
  · simp [h]
  · have hlt : c.toNat - 1 < 17 := by omega
    rw [if_neg h, if_neg h, Array.getElem?_eq_getElem hlt]
    rfl

/-- A refused request changes nothing but the reply, which a direct one alone gets. -/
theorem refuseRequest_idle {s : State} (h : s.line.reply = none) (direct : Bool) (st : Status) : refuseRequest direct st s =
    s.setReply (if direct then some ⟨replyChars s.straps.addr st [], false, 0, 3, false⟩ else none) := by
  cases direct with
  | true => rfl
  | false => exact congrArg (fun r => { s with line := { s.line with reply := r } }) h

theorem completeRequest_refused {c : Byte} {p : List Byte} (h : lengthStatus c p.length ≠ .ok) (direct : Bool) (s : State) :
    completeRequest direct c p s = refuseRequest direct (lengthStatus c p.length) s := by
  unfold completeRequest
  split
  · next hok _ => exact absurd hok h
  · rfl

/-- A complete collection that fails check 1 or 2, with no reply going on. -/
theorem collect_refused {direct : Bool} {c n : Byte} {p : List Byte} {s : State} (hn : n.toNat ≤ 60) (hp : n.toNat = p.length)
    (hst : lengthFault c n.toNat ≠ .ok) (hr : s.line.reply = none) : collect direct (c :: n :: p) s =
      (s.setRx .waiting).setReply
        (if direct then some ⟨replyChars s.straps.addr (lengthFault c n.toNat) [], false, 0, 3, false⟩ else none) := by
  rw [← lengthStatus_eq, hp] at hst ⊢
  rw [collect_complete direct c n p s hn hp, beforeHandling_idle (by exact hr), completeRequest_refused hst,
    refuseRequest_idle (by exact hr)]
  rfl

/-- Settles O38: a data character by the receive state and the characters collected before it. -/
theorem dataCharacterIsCollected : Obligations.DataCharacterIsCollected := by
  unfold Obligations.DataCharacterIsCollected
  have hcollect : ∀ {d : Byte} {s : State} {direct : Bool} {chars : List Byte}, s.line.rx = .collecting direct chars →
      exec (.dataCharacter d false) s = .next (collect direct (chars ++ [d]) (s.hearing ⟨d, false, false⟩)) :=
    fun {d s _ _} h => by
      rw [exec_dataCharacter, dataCharacter_good, takeData_collecting (s := s.hearing ⟨d, false, false⟩) h]
  refine ⟨?ignored, ?command, ?length, ?payload, ?refused, ?refusedEmpty, ?faulty⟩
  case ignored =>
    intro d s h
    rw [exec_dataCharacter, dataCharacter_good, takeData_ignored (s := s.hearing ⟨d, false, false⟩) h]
    rfl
  case command => exact fun d s direct h => hcollect h
  case length =>
    refine fun d c s direct h => ⟨fun hlong => ?_, fun hpos hle => ?_⟩
    · exact (hcollect h).trans (congrArg Host.Outcome.next (collect_overlong direct c d [] _ hlong))
    · exact (hcollect h).trans (congrArg Host.Outcome.next (collect_incomplete direct c d [] _ hle hpos))
  case payload =>
    intro d c n p s direct h hn hp
    have hlt : (p ++ [d]).length < n.toNat := by simpa using hp
    exact (hcollect h).trans (congrArg Host.Outcome.next (collect_incomplete direct c n (p ++ [d]) _ hn hlt))
  case refused =>
    intro d c n p s direct h hn hp hst hr
    have heq : n.toNat = (p ++ [d]).length := by simpa using hp.symm
    exact (hcollect h).trans (congrArg Host.Outcome.next (collect_refused hn heq hst hr))
  case refusedEmpty =>
    intro c s direct h hst hr
    exact (hcollect h).trans (congrArg Host.Outcome.next (collect_refused (n := 0) (p := []) (by decide) rfl hst hr))
  case faulty =>
    intro d s
    rw [exec_dataCharacter, dataCharacter_faulty, takeFaulty_eq]
    rfl

end Sys2Proof.Machine
end

