-- ==== Sys2Proof/Proofs/LimitsAndReplies.lean ====
section
/-! The gap and quiet limits, the start and the end of a reply, and the bits of its characters on TL_TX (09 R148, R151, R152, R155,
R156). -/

namespace Sys2Proof.Machine

/-! ## The limits (09 R151, R152) -/

theorem gapLimitExpiry_due {s : State} {direct : Bool} {chars : List Byte} (h : s.line.rx = .collecting direct chars)
    (hgap : 4 * charTime s.straps ≤ s.line.gapTicks) : gapLimitExpiry s = discardCollection s := by
  simp [gapLimitExpiry, h, hgap]

theorem quietLimitExpiry_due {s : State} {direct : Bool} {c : Byte} (h : s.line.rx = .overlong direct c)
    (hgap : 4 * charTime s.straps ≤ s.line.gapTicks) : quietLimitExpiry s =
      beforeHandling (s.setRx .waiting) (refuseRequest direct (overlongStatus c)) := by
  simp [quietLimitExpiry, h, hgap]

/-! ## The phases of a reply (09 R155) -/

section
variable {s : State} {r : Reply} (hr : s.line.reply = some r)
include hr

theorem replyStart_due (hs : r.sending = false) (hd : 2 * charTime s.straps ≤ r.ticks) :
    replyStart s = s.setReply (some { r with sending := true, ticks := 0 }) := by
  simp [replyStart, hr, hs, hd]

theorem replyEnd_due (hs : r.sending = true) (hd : r.stopAfter * charTime s.straps ≤ r.ticks) : replyEnd s = finishReply s := by
  simp [replyEnd, hr, hs, hd]

theorem finishReply_plain (hrestart : r.restart = false) : finishReply s = s.setReply none := by
  simp [finishReply, hr, hrestart]

theorem finishReply_restart (hrestart : r.restart = true) : finishReply s = restartPart s := by
  simp [finishReply, hr, hrestart]

end

/-! ## The bits of a reply (09 R148, R155) -/

/-- Tick k of bit n of character c, read off the ticks of the reply: its character and its bit in that. -/
theorem charTime_split {x : Straps} {c n k : Nat} (hn : n < charBits x.par) (hk : k < bitTime x.baud) :
    ((c * charBits x.par + n) * bitTime x.baud + k) / charTime x = c ∧
      ((c * charBits x.par + n) * bitTime x.baud + k) % charTime x / bitTime x.baud = n := by
  have hticks : (c * charBits x.par + n) * bitTime x.baud + k = n * bitTime x.baud + k + charTime x * c := by
    rw [charTime]
    ring
  have hlt : n * bitTime x.baud + k < charTime x :=
    calc n * bitTime x.baud + k < (n + 1) * bitTime x.baud := by rw [Nat.succ_mul]; omega
      _ ≤ charTime x := Nat.mul_le_mul_right _ hn
  have hpos : 0 < charTime x := Nat.zero_lt_of_lt hlt
  rw [hticks, Nat.add_mul_div_left _ _ hpos, Nat.add_mul_mod_self_left, Nat.div_eq_of_lt hlt, Nat.mod_eq_of_lt hlt, Nat.mul_comm n,
    Nat.mul_add_div (Nat.zero_lt_of_lt hk), Nat.div_eq_of_lt hk]
  exact ⟨Nat.zero_add c, Nat.add_zero n⟩

/-- TL_TX while character c of a reply is sent. -/
theorem tlTx_sending {s : State} {r : Reply} {c n k : Nat} {b : Byte} (hr : s.line.reply = some r) (hs : r.sending = true)
    (hc : c < r.stopAfter) (hb : r.chars[c]? = some b) (hn : n < charBits s.straps.par) (hk : k < bitTime s.straps.baud)
    (ht : r.ticks = (c * charBits s.straps.par + n) * bitTime s.straps.baud + k) :
    s.tlTx = charBit s.straps.par (c == 0) b n := by
  obtain ⟨hchar, hbit⟩ := charTime_split (c := c) hn hk
  rw [← ht] at hchar hbit
  simp [State.tlTx, hr, hs, hchar, hbit, hc, hb]

/-- The parity bit makes the number of ones among the data, the mark and itself even. -/
theorem charBit_parity (mark : Bool) (b : Byte) : ((List.range 8).countP (fun j => b.getLsbD j) + (if mark then 1 else 0) +
    if charBit true mark b 10 then 1 else 0) % 2 = 0 := by
  have hbit : charBit true mark b 10 = xor mark (decide ((List.range 8).countP (fun j => b.getLsbD j) % 2 = 1)) := by
    rw [← oddOnes_eq]
    rfl
  rw [hbit]
  rcases Nat.mod_two_eq_zero_or_one ((List.range 8).countP (fun j => b.getLsbD j)) with h | h <;>
    cases mark <;> simp [Nat.add_mod, h]

theorem charBit_stop (par mark : Bool) (b : Byte) {n : Nat} (h : n + 1 = charBits par) : charBit par mark b n = true := by
  cases par with
  | false =>
    obtain rfl : n = 10 := by simpa [charBits] using h
    rfl
  | true =>
    obtain rfl : n = 11 := by simpa [charBits] using h
    rfl

theorem charBit_data (par mark : Bool) (b : Byte) {n : Nat} (h1 : 1 ≤ n) (h8 : n ≤ 8) :
    charBit par mark b n = b.getLsbD (n - 1) := by
  rw [charBit, if_neg (Nat.ne_of_gt h1), if_pos h8]

/-- Settles O39: the limits and the phases of a reply when they fall due, and TL_TX by the bits of the character in progress. -/
theorem lineLimitsAndReplies : Obligations.LineLimitsAndReplies := by
  unfold Obligations.LineLimitsAndReplies
  refine ⟨?gap, ?quiet, ?start, ?bits, ?finish⟩
  case gap => exact fun s direct chars h hgap => congrArg Host.Outcome.next (gapLimitExpiry_due h hgap)
  case quiet =>
    intro s direct c h hgap hr
    refine congrArg Host.Outcome.next ((quietLimitExpiry_due h hgap).trans ?_)
    rw [beforeHandling_idle (by exact hr), refuseRequest_idle (by exact hr), overlongStatus_eq]
    rfl
  case start => exact fun s r hr hs hd => ⟨_, congrArg Host.Outcome.next (replyStart_due hr hs hd), rfl, rfl⟩
  case bits =>
    intro s r c n k b hr hs hc hb hn hk ht
    have htx := tlTx_sending hr hs hc hb hn hk ht
    refine ⟨?_, fun h1 h8 => htx.trans (charBit_data _ _ b h1 h8), ?_, ?_, fun h => htx.trans (charBit_stop _ _ b h)⟩
    · rintro rfl
      exact htx
    · rintro rfl
      exact htx
    · rintro rfl hpar
      rw [htx, hpar]
      simpa using charBit_parity (c == 0) b
  case finish =>
    intro s r hr hs hrestart hd
    exact ⟨_, congrArg Host.Outcome.next ((replyEnd_due hr hs hd).trans (finishReply_plain hr hrestart)), rfl, rfl⟩

end Sys2Proof.Machine
end

