-- ==== Sys2Proof/Proofs/RestartsAndConditions.lean ====
section
/-! The restart and what makes it; requests in LOADING, to all stations, to another station, and during a reply (09 R150, R153, R154, R156,
R163; log entries 13 and 16). -/

namespace Sys2Proof.Machine

/-! ## The restart (09 R163; 10 R164, R168) -/

theorem restartPart_eq (s : State) : restartPart s = s.afterRestart := rfl

/-- Of the line, a restart sees the line error count and the TL_RX level alone. -/
theorem restartPart_line {s : State} {l : TallyLine} (herrors : l.lineErrors = s.line.lineErrors) (hlast : l.rxLast = s.line.rxLast) :
    restartPart { s with line := l } = restartPart s := by
  have hline : l.restarted = s.line.restarted := by rw [TallyLine.restarted, TallyLine.restarted, herrors, hlast]
  exact congrArg (fun l => { restartPart s with line := l }) hline

/-! ## The handling of a request (09 R153, R154) -/

/-- In LOADING every request but STATUS is answered NOT_READY (09 R153 check 3). -/
theorem answer_loading {req : Request} (hreq : req ≠ .status) {s : State} (hd : s.device = .loading) :
    answer req s = (s, .notReady, []) :=
  if_pos ⟨hd, by simpa [answeredInLoading] using hreq⟩

theorem answer_restart {s : State} (hd : s.device ≠ .loading) : answer .restart s = (s, .ok, []) :=
  if_neg (fun h => hd h.1)

theorem handleRequest_loading (direct : Bool) {req : Request} (hreq : req ≠ .status) {s : State} (hd : s.device = .loading) :
    handleRequest direct req s = refuseRequest direct .notReady s := by
  have hrestart : restartsAfter req (s, .notReady, []) = false := Bool.and_false _
  rw [handleRequest]
  simp only [answer_loading hreq hd, hrestart]
  rfl

theorem handleRequest_restart (direct : Bool) {s : State} (hd : s.device ≠ .loading) : handleRequest direct .restart s =
    if direct then s.setReply (some (newReply s.straps.addr .ok [] true)) else restartPart s := by
  rw [handleRequest, answer_restart hd]
  rfl

/-- A request other than RESTART has the same effects direct and broadcast; the broadcast one captures no reply (09 R154, R155). -/
theorem handleRequest_broadcast {req : Request} (hreq : req ≠ .restart) {s : State} (hr : s.line.reply = none) :
    handleRequest false req s = (handleRequest true req s).setReply none := by
  have hrestart : restartsAfter req (answer req s) = false := by simp [restartsAfter, hreq]
  have hline : (answer req s).1.line.reply = none := (congrArg TallyLine.reply (answer_panelFrame req s).line).trans hr
  have hout : handleRequest false req s = (answer req s).1 := by
    rw [handleRequest]
    simp only [hrestart]
    rfl
  rw [hout]
  exact (congrArg (fun r => { (answer req s).1 with line := { (answer req s).1.line with reply := r } }) hline)

/-! ## Requests with no reply going on (09 R150) -/

/-- The addresses that a station answers to begin a collection (09 R150). -/
theorem addressed_own {station : BitVec 4} {addr : Byte} (h : addr = 0 ∨ addr.toNat = station.toNat) :
    ∃ direct, addressed station addr = .collecting direct [] := by
  unfold addressed
  split_ifs with hzero hstation
  · exact ⟨false, rfl⟩
  · exact ⟨true, rfl⟩
  · rcases h with rfl | h
    · exact absurd rfl hzero
    · exact absurd h hstation

/-- The state in which the address character of a request is taken: the limits begun again (09 R151, R152). -/
def State.limitsBegun (s : State) : State := { s with line := { s.line with gapTicks := 0 } }

theorem State.limitsBegun_waiting (s : State) : s.limitsBegun.setRx .waiting = s.requested := rfl

theorem lineRequest_waiting {addr : Byte} {s : State} (h : (takeAddress addr s.limitsBegun).line.rx = .waiting) (req : Request) :
    lineRequest addr req s = takeAddress addr s.limitsBegun := by
  unfold lineRequest
  rw [show { s with line := { s.line with gapTicks := 0 } } = s.limitsBegun from rfl]
  simp only [h]

theorem lineRequest_collecting {addr : Byte} {s : State} {direct : Bool} {chars : List Byte}
    (h : (takeAddress addr s.limitsBegun).line.rx = .collecting direct chars) (req : Request) : lineRequest addr req s =
      beforeHandling ((takeAddress addr s.limitsBegun).setRx .waiting) (handleRequest direct req) := by
  unfold lineRequest
  rw [show { s with line := { s.line with gapTicks := 0 } } = s.limitsBegun from rfl]
  simp only [h]

/-- A request whose address character begins a collection is handled after what that character leaves. -/
theorem lineRequest_of_takeAddress {addr : Byte} {s u : State} {direct : Bool}
    (h : takeAddress addr s.limitsBegun = u.setRx (.collecting direct [])) (req : Request) :
    lineRequest addr req s = beforeHandling (u.setRx .waiting) (handleRequest direct req) := by
  rw [lineRequest_collecting (by rw [h]; rfl), h]
  rfl

section
variable {s : State} (hr : s.line.reply = none)
include hr

theorem takeAddress_limitsBegun (addr : Byte) :
    takeAddress addr s.limitsBegun = s.limitsBegun.setRx (addressed s.straps.addr addr) := takeAddress_idle (by exact hr) addr

/-- With no reply going on, a request that a station collects is handled in the state its address character leaves. -/
theorem lineRequest_collected {addr : Byte} {direct : Bool} (ha : addressed s.straps.addr addr = .collecting direct [])
    (req : Request) : lineRequest addr req s = handleRequest direct req s.requested := by
  have ht := takeAddress_limitsBegun hr addr
  rw [ha] at ht
  rw [lineRequest_of_takeAddress ht, State.limitsBegun_waiting, beforeHandling_idle (by exact hr)]

theorem lineRequest_broadcast (req : Request) : lineRequest 0 req s = handleRequest false req s.requested :=
  lineRequest_collected hr rfl req

/-- A request for another station ends any reception. -/
theorem lineRequest_other {addr : Byte} (hzero : addr ≠ 0) (hother : addr.toNat ≠ s.straps.addr.toNat) (req : Request) :
    lineRequest addr req s = s.requested := by
  have hzero' : addr.toNat ≠ 0 := fun h => hzero (BitVec.eq_of_toNat_eq h)
  have hwaiting : addressed s.straps.addr addr = .waiting := by rw [addressed, if_neg hzero', if_neg hother]
  have ht := takeAddress_limitsBegun hr addr
  rw [hwaiting] at ht
  rw [lineRequest_waiting (by rw [ht]; rfl), ht, State.limitsBegun_waiting]

end

/-! ## Requests that find a reply going on (09 R156, R163; log entry 16) -/

section
variable {s : State} {r : Reply} (hr : s.line.reply = some r)
include hr

theorem beforeHandling_plain (hrestart : r.restart = false) (k : State → State) : beforeHandling s k = k (s.setReply none) := by
  simp [beforeHandling, hr, hrestart]

theorem beforeHandling_restart (hrestart : r.restart = true) (k : State → State) : beforeHandling s k = restartPart s := by
  simp [beforeHandling, hr, hrestart]

end

section
variable {s : State} {r : Reply} (hr : s.line.reply = some r) {addr : Byte}
  (haddr : addr = 0 ∨ addr.toNat = s.straps.addr.toNat) (req : Request)
include hr haddr

/-- A reply that carries no restart is abandoned, and the request handled as without it. -/
theorem lineRequest_abandons (hrestart : r.restart = false) : lineRequest addr req s = lineRequest addr req (s.setReply none) := by
  obtain ⟨direct, ha⟩ := addressed_own haddr
  rw [lineRequest_collected (s := s.setReply none) rfl ha]
  cases hs : r.sending with
  | false =>
    have ht := takeAddress_delayed (s := s.limitsBegun) hr hs hrestart addr
    rw [show addressed s.limitsBegun.straps.addr addr = _ from ha] at ht
    rw [lineRequest_of_takeAddress ht]
    rfl
  | true =>
    have ht := takeAddress_sending (s := s.limitsBegun) hr hs addr
    rw [show addressed s.limitsBegun.straps.addr addr = _ from ha] at ht
    rw [lineRequest_of_takeAddress ht, beforeHandling_plain (r := r.abandoned s.straps) rfl hrestart]
    rfl

/-- A reply that carries a restart makes it, and drops the request. -/
theorem lineRequest_restarts (hrestart : r.restart = true) : lineRequest addr req s = restartPart s := by
  obtain ⟨direct, ha⟩ := addressed_own haddr
  cases hs : r.sending with
  | false =>
    have ht := takeAddress_restart (s := s.limitsBegun) hr hs hrestart addr
    rw [lineRequest_waiting (by rw [ht]; rfl), ht]
    exact restartPart_line rfl rfl
  | true =>
    have ht := takeAddress_sending (s := s.limitsBegun) hr hs addr
    rw [show addressed s.limitsBegun.straps.addr addr = _ from ha] at ht
    rw [lineRequest_of_takeAddress ht, beforeHandling_restart (r := r.abandoned s.straps) rfl hrestart]
    exact restartPart_line rfl rfl

end

/-- Settles O40: the four ways to a restart, each as the restart of one state. -/
theorem restartIsMadeAfterReply : Obligations.RestartIsMadeAfterReply := by
  unfold Obligations.RestartIsMadeAfterReply
  refine ⟨?answered, ?replyEnd, ?abandoned, ?broadcast⟩
  case answered =>
    intro addr s h hd
    have hhandled := handleRequest_restart true (s := s.requested) hd
    exact ⟨_, congrArg Host.Outcome.next ((lineRequest_direct h .restart).trans hhandled), rfl⟩
  case replyEnd =>
    exact fun s r hr hs hrestart hd =>
      congrArg Host.Outcome.next ((replyEnd_due hr hs hd).trans (finishReply_restart hr hrestart))
  case abandoned =>
    intro d s r hr hs hrestart
    rw [exec_addressCharacter, addressCharacter_good,
      takeAddress_restart (s := s.hearing ⟨d, true, false⟩) hr hs hrestart]
    exact congrArg Host.Outcome.next (restartPart_line rfl rfl)
  case broadcast =>
    intro s hd hr
    have hhandled := handleRequest_restart false (s := s.requested) hd
    exact congrArg Host.Outcome.next ((lineRequest_broadcast hr .restart).trans (hhandled.trans (restartPart_line rfl rfl)))

/-- Settles O50: each condition by what it makes of the handling of the request. -/
theorem requestsInOtherConditions : Obligations.RequestsInOtherConditions := by
  unfold Obligations.RequestsInOtherConditions
  refine ⟨?loading, ?broadcast, ?other, ?replying⟩
  case loading =>
    intro addr req s h hd hreq
    rw [exec_request, lineRequest_direct h, handleRequest_loading true hreq (s := s.requested) hd]
    rfl
  case broadcast =>
    intro addr req s h hreq
    obtain ⟨-, -, hr⟩ := id h
    refine ⟨_, exec_request addr req s, ?_⟩
    rw [exec_request, lineRequest_broadcast hr, handleRequest_broadcast hreq (s := s.requested) hr, lineRequest_direct h]
    rfl
  case other =>
    intro addr req s hr hzero hother
    rw [exec_request, lineRequest_other hr hzero hother]
    rfl
  case replying =>
    intro addr req s r hr haddr
    refine ⟨fun hrestart => ?_, fun hrestart => ?_⟩
    · rw [exec_request, exec_request, lineRequest_abandons hr haddr req hrestart]
      rfl
    · rw [exec_request, lineRequest_restarts hr haddr req hrestart, restartPart_eq]

end Sys2Proof.Machine
end

