-- ==== Sys2Proof/Proofs/RequestCharacters.lean ====
section
/-! The characters of a request, received one after another, do what the request's own command does (09 R150, R151, R153, R154; log
entries 13 and 16). -/

namespace Sys2Proof.Machine

/-! ## Data characters one after another -/

/-- Data characters without error, taken one after another. -/
def takeDataCharacters (l : List Byte) (s : State) : State := l.foldl (fun s d => dataCharacter d false s) s

theorem takeDataCharacters_cons (d : Byte) (l : List Byte) (s : State) :
    takeDataCharacters (d :: l) s = takeDataCharacters l (dataCharacter d false s) := rfl

theorem runCommands_dataCharacters (l : List Byte) (s : State) :
    runCommands (l.map (fun b => .dataCharacter b false)) s = .next (takeDataCharacters l s) := by
  induction l generalizing s with
  | nil => rfl
  | cons d l ih => exact ih (dataCharacter d false s)

/-- A request's characters as its address character and the data characters after it. -/
theorem runCommands_characters (addr : Byte) (req : Request) (s : State) : runCommands (req.characters addr) s =
    .next (takeDataCharacters (req.code :: BitVec.ofNat 8 req.payload.length :: req.payload) (addressCharacter addr false s)) :=
  runCommands_dataCharacters _ _

/-! ## A line that a further character leaves but for its taking -/

theorem TallyLine.heard_quiet {l : TallyLine} (hgap : l.gapTicks = 0) (hreceived : l.received = none) (c : RxChar) :
    l.heard c = l := by
  obtain ⟨rx, gapTicks, receiver, rxLast, received, reply, lineErrors⟩ := l
  obtain rfl : gapTicks = 0 := hgap
  obtain rfl : received = none := hreceived
  rfl

/-- The limits have just begun again, and no character waits in the receiver. -/
structure LineQuiet (s : State) : Prop where
  gapTicks : s.line.gapTicks = 0
  received : s.line.received = none

namespace LineQuiet

variable {s : State}

theorem hearing (h : LineQuiet s) (c : RxChar) : s.hearing c = s := by
  rw [State.hearing, TallyLine.heard_quiet h.gapTicks h.received]

theorem dataCharacter (h : LineQuiet s) (d : Byte) : dataCharacter d false s = takeData d s := by
  rw [dataCharacter_good, h.hearing]

theorem setRx (h : LineQuiet s) (x : RxState) : LineQuiet (s.setRx x) := ⟨h.gapTicks, h.received⟩

theorem takeAddress (h : LineQuiet s) (d : Byte) : LineQuiet (takeAddress d s) := by
  obtain ht | ⟨x, ht⟩ := takeAddress_cases d s
  · rw [ht]
    exact ⟨rfl, rfl⟩
  · rw [ht]
    exact ⟨h.gapTicks, h.received⟩

/-- A station that is not addressed ignores the rest of the request. -/
theorem takeDataCharacters_waiting (h : LineQuiet s) (hrx : s.line.rx = .waiting) (l : List Byte) : takeDataCharacters l s = s := by
  induction l with
  | nil => rfl
  | cons d l ih => rw [takeDataCharacters_cons, h.dataCharacter, takeData_ignored (.inl hrx), ih]

/-! ## A request collected (09 R151) -/

theorem dataCharacter_setRx (h : LineQuiet s) (direct : Bool) (chars : List Byte) (d : Byte) :
    Machine.dataCharacter d false (s.setRx (.collecting direct chars)) =
      collect direct (chars ++ [d]) (s.setRx (.collecting direct chars)) := by
  rw [(h.setRx _).dataCharacter, takeData_collecting rfl]

/-- The payload's characters from some place on: the last of them completes the request. -/
theorem takeDataCharacters_payload (h : LineQuiet s) (direct : Bool) {c n : Byte} (hn : n.toNat ≤ 60) (l : List Byte) (d : Byte)
    (p : List Byte) (hlen : n.toNat = (p ++ d :: l).length) :
    takeDataCharacters (d :: l) (s.setRx (.collecting direct (c :: n :: p))) =
      beforeHandling (s.setRx .waiting) (completeRequest direct c (p ++ d :: l)) := by
  induction l generalizing d p with
  | nil =>
    rw [takeDataCharacters_cons, h.dataCharacter_setRx]
    exact collect_complete direct c n (p ++ [d]) _ hn hlen
  | cons e l ih =>
    have hlt : (p ++ [d]).length < n.toNat := by
      rw [hlen]
      simp
    have hstep : collect direct (c :: n :: (p ++ [d])) (s.setRx (.collecting direct (c :: n :: p))) =
        s.setRx (.collecting direct (c :: n :: (p ++ [d]))) := collect_incomplete direct c n (p ++ [d]) _ hn hlt
    rw [takeDataCharacters_cons, h.dataCharacter_setRx]
    refine (congrArg (takeDataCharacters (e :: l)) hstep).trans ?_
    rw [ih e (p ++ [d]) (by simpa using hlen), List.append_assoc]
    rfl

/-- The command, the length and the payload complete the request. -/
theorem takeDataCharacters_request (h : LineQuiet s) {direct : Bool} (hrx : s.line.rx = .collecting direct []) {c n : Byte}
    {p : List Byte} (hn : n.toNat ≤ 60) (hlen : n.toNat = p.length) : takeDataCharacters (c :: n :: p) s =
      beforeHandling (s.setRx .waiting) (completeRequest direct c p) := by
  have hcommand : Machine.dataCharacter c false s = s.setRx (.collecting direct [c]) := by
    rw [h.dataCharacter, takeData_collecting hrx]
    exact collect_command direct c s
  rw [takeDataCharacters_cons, hcommand, takeDataCharacters_cons, h.dataCharacter_setRx]
  cases p with
  | nil => exact collect_complete direct c n [] _ hn hlen
  | cons d l =>
    refine (congrArg (takeDataCharacters (d :: l)) (collect_incomplete direct c n [] _ hn ?_)).trans
      (h.takeDataCharacters_payload direct hn l d [] hlen)
    rw [hlen]
    exact Nat.succ_pos _

end LineQuiet

/-- After an address character a station collects from the start or waits. -/
theorem takeAddress_rx (d : Byte) (s : State) :
    (takeAddress d s).line.rx = .waiting ∨ ∃ direct, (takeAddress d s).line.rx = .collecting direct [] := by
  obtain ht | ⟨x, ht⟩ := takeAddress_cases d s
  · rw [ht]
    exact .inl rfl
  · rw [ht, State.setRx_line_rx, addressed]
    split_ifs
    · exact .inr ⟨false, rfl⟩
    · exact .inr ⟨true, rfl⟩
    · exact .inl rfl

/-- A collection of a request's own bytes is that request. -/
theorem completeRequest_payload (direct : Bool) (req : Request) :
    completeRequest direct req.code req.payload = handleRequest direct req := by
  have hst : lengthStatus req.code req.payload.length = .ok := by
    rw [lengthStatus, payloadLength_code]
    exact if_pos rfl
  funext s
  rw [completeRequest, hst, requestOf_payload]

/-- With no character waiting, an address character is taken as the one of a whole request. -/
theorem addressCharacter_unreceived {s : State} (h : s.line.received = none) (addr : Byte) :
    addressCharacter addr false s = takeAddress addr s.limitsBegun := by
  have hline : s.line.heard ⟨addr, true, false⟩ = s.limitsBegun.line := by simp [TallyLine.heard, State.limitsBegun, h]
  rw [addressCharacter_good, State.hearing, hline]
  rfl

/-- Settles O41: the address character leaves a station that waits, or one that collects the rest of the request. -/
theorem charactersMakeRequest : Obligations.CharactersMakeRequest := by
  unfold Obligations.CharactersMakeRequest
  intro addr req s hreceived
  have hquiet : LineQuiet (takeAddress addr s.limitsBegun) := LineQuiet.takeAddress (s := s.limitsBegun) ⟨rfl, hreceived⟩ addr
  have hmost : req.payload.length ≤ 60 := payloadLength_le (payloadLength_code req)
  have hlen : (BitVec.ofNat 8 req.payload.length).toNat = req.payload.length := by
    rw [BitVec.toNat_ofNat, Nat.mod_eq_of_lt (by omega)]
  rw [runCommands_characters, addressCharacter_unreceived hreceived, exec_request]
  refine congrArg Host.Outcome.next ?_
  obtain hrx | ⟨direct, hrx⟩ := takeAddress_rx addr s.limitsBegun
  · rw [hquiet.takeDataCharacters_waiting hrx, lineRequest_waiting hrx]
  · rw [hquiet.takeDataCharacters_request hrx (hlen.trans_le hmost) hlen, completeRequest_payload, lineRequest_collecting hrx]

end Sys2Proof.Machine
end

