-- ==== Sys2Proof/Proofs/ConfigurationLoad.lean ====
section
/-! The end of a configuration load: what the words of an image say of its device section, its settings and its entries, and what LOAD_END
makes of a good image and of one that is refused (10 R165 to R168; 01 R26; 02 R40; 03 R54, R56, R60; 06 R108, R120; 08 R141). -/

namespace Sys2Proof.Machine

/-! ## The words of an image (10 R165) -/

theorem imageWord_eq_ofNat (img : List Byte) (i : Nat) : imageWord img i =
    BitVec.ofNat 16 ((img.getD (2 * i) 0xFF).toNat * 256 + (img.getD (2 * i + 1) 0xFF).toNat) := by
  have h : (imageWord img i).toNat = (img.getD (2 * i) 0xFF).toNat * 256 + (img.getD (2 * i + 1) 0xFF).toNat := imageWord_toNat img i
  rw [← h, BitVec.ofNat_toNat, BitVec.setWidth_eq]

/-- A field of a word as a number. -/
theorem extractLsb'_toNat_div (w : Half) (start len : Nat) : (w.extractLsb' start len).toNat = w.toNat / 2 ^ start % 2 ^ len := by
  rw [BitVec.extractLsb'_toNat, Nat.shiftRight_eq_div_pow]

/-- A field that ends at bit 0. -/
theorem extractLsb'_zero_toNat (w : Half) (len : Nat) : (w.extractLsb' 0 len).toNat = w.toNat % 2 ^ len := by
  rw [extractLsb'_toNat_div, Nat.pow_zero, Nat.div_one]

/-- A value of two words, the upper one first. -/
theorem ofHalves_pair (a b : Half) : ofHalves [a, b] = a.toNat * 65536 + b.toNat := by simp [ofHalves]

/-- Of the values of a flow that come from an image only the budget can need a clamp: the others are one word each (03 R54). -/
theorem clampParams_words (early late miss lateLimit loss disorder : Half) (budget : Nat) :
    clampParams early.toNat late.toNat budget miss.toNat lateLimit.toNat loss.toNat disorder.toNat =
      ⟨early.toNat, late.toNat, min 16777215 budget, miss.toNat, lateLimit.toNat, loss.toNat, disorder.toNat⟩ := by
  have hword : ∀ w : Half, min w.toNat 65535 = w.toNat := fun w => Nat.min_eq_left (by omega)
  simp only [clampParams, hword, Nat.min_comm budget]

/-! ## The device section (10 R166 step 1) -/

/-- A stamp word field above 3 stands for no stamp word. -/
theorem imageProfile_stampWord (w5 w6 : Half) : (imageProfile w5 w6).stampWord.map Fin.val =
    if w6.toNat % 8 < 4 then some (w6.toNat % 8) else none := by
  have hbit : w6.getLsbD 2 = decide (¬ w6.toNat % 8 < 4) := by
    rw [BitVec.getLsbD, Nat.testBit_eq_decide_div_mod_eq]
    exact decide_eq_decide.mpr (by omega)
  have hlow := extractLsb'_zero_toNat w6 2
  by_cases h : w6.toNat % 8 < 4
  · simp only [imageProfile, hbit, h, not_true_eq_false, decide_false, Bool.false_eq_true, if_false, if_true, Option.map_some,
      BitVec.val_toFin, hlow]
    exact congrArg some (by omega)
  · simp [imageProfile, hbit, h]

theorem imageValues_ofWords (img : List Byte) : (imageValues img).ofWords (imageWord img) := by
  refine ⟨?keyWord, rfl, ?seqWord, rfl, ?dispWord, ?dispNibble, ?voidCode, imageProfile_stampWord _ _, rfl, ?silence, rfl, ?params⟩
  case keyWord => exact extractLsb'_zero_toNat _ 2
  case seqWord => exact extractLsb'_toNat_div _ 3 2
  case dispWord => exact extractLsb'_toNat_div _ 6 2
  case dispNibble => exact extractLsb'_toNat_div _ 8 3
  case voidCode => exact (extractLsb'_toNat_div _ 12 4).trans (Nat.mod_eq_of_lt (by omega))
  case silence =>
    have h := extractLsb'_toNat_div (imageWord img 7) 8 8
    exact congrArg (max 1) (h.trans (Nat.mod_eq_of_lt (by omega)))
  case params => exact (clampParams_words _ _ _ _ _ _ _).trans (by rw [ofHalves_pair])

/-- The class of a kind is its nibble, the first of four the highest, at most 6. -/
theorem imageClass_val (img : List Byte) (k : Nat) :
    (imageClass img k).val = min 6 ((imageWord img (17 + k / 4)).toNat / 16 ^ (3 - k % 4) % 16) := by
  have hplace : 2 ^ (12 - 4 * (k % 4)) = 16 ^ (3 - k % 4) := by
    rw [show 12 - 4 * (k % 4) = 4 * (3 - k % 4) by omega, Nat.pow_mul]
  rw [← hplace, Nat.min_comm]
  exact congrArg (min · 6) (extractLsb'_toNat_div _ _ 4)

/-- A set of classes in the low byte of a word. -/
theorem ClassSet.has_ofByte_lowByte (w : Half) {c : AlarmClass} (hc : c ≠ 0) :
    (ClassSet.ofByte (w.extractLsb' 0 8)).has c = w.getLsbD c.val := by
  rw [ClassSet.has_ofByte _ hc, BitVec.getLsbD_extractLsb', decide_eq_true (by omega : c.val < 8), Bool.true_and, Nat.zero_add]

theorem imageSettings_ofWords (img : List Byte) : (imageSettings img).ofWords (imageWord img) := by
  refine ⟨fun k => ?classMap, fun c hc => ⟨?mask, ?modes⟩, rfl⟩
  case classMap => simp [imageSettings, imageClass_val]
  case mask => exact ClassSet.has_ofByte_lowByte _ hc
  case modes => exact ClassSet.has_ofByte_lowByte _ hc

theorem imageTallyCode_eq (img : List Byte) : imageTallyCode img = min 5 ((imageWord img 7).toNat % 8) :=
  congrArg (min 5) (extractLsb'_zero_toNat _ 3)

theorem imageSilenceCode_eq (img : List Byte) : imageSilenceCode img = BitVec.ofNat 2 ((imageWord img 7).toNat / 16) :=
  BitVec.eq_of_toNat_eq ((extractLsb'_toNat_div _ 4 2).trans (BitVec.toNat_ofNat _ 2).symm)

/-! ## The entries (10 R167) -/

/-- The ring field of an entry, the low byte of its first word. -/
theorem entryRing_toNat (w : Half) : (w.extractLsb' 0 8).toNat = w.toNat % 256 := extractLsb'_zero_toNat w 8

theorem applyRing_eq (r : RingIx) (b : BitVec 22) (n : Nat) (stamp enrol : Bool) (s : State) :
    applyRing r b n stamp enrol s = s.ringDefined r b.toNat n stamp enrol := by
  rw [applyRing, cancelReads_eq, State.ringDefined, BitVec.ofNat_toNat, BitVec.setWidth_eq]
  rfl

/-- A ring entry is taken by the checks of R26 and its own (log entry 18). -/
theorem applyRingEntry_eq (img : List Byte) (acc : State × Bool) (pos : Nat) :
    applyRingEntry img acc pos = loadRing (imageWord img) acc pos := by
  unfold applyRingEntry loadRing
  simp only [entryRing_toNat, ofHalves_pair, ringStatus_eq, applyRing_eq, BitVec.toNat_ofNat, Nat.add_zero]
  split
  · split
    · next hok =>
      rw [hok]
      split
      · next he =>
        rw [if_neg (fun h => Bool.false_ne_true (h.2.symm.trans he))]
        rfl
      · next he => rw [if_pos ⟨rfl, Bool.eq_false_of_not_eq_true he⟩]
    · next hne =>
      rw [if_neg (fun h => hne h.1), if_neg hne]
      rfl
  · rfl

theorem createFlow_noVacant {s : State} (h : s.lowestVacant = none) (r : RingIx) (key : Half) (p : Nat) (params : FlowParams) :
    createFlow r key p params s = (s, .full, []) := by rw [createFlow, h]

theorem createFlow_lowestVacant {s : State} {j : FlowIx} (h : s.lowestVacant = some j) (r : RingIx) (key : Half) (p : Nat)
    (params : FlowParams) : createFlow r key p params s =
      (s.setFlow j (newFlow .static r key (definedCycle p) params s.tally.periodNumber), .ok, bytes1 j.val) := by rw [createFlow, h]

/-- A flow entry takes the lowest VACANT entry unless its key pair is held (03 R56, R60). -/
theorem applyFlowEntry_eq (img : List Byte) (acc : State × Bool) (pos : Nat) :
    applyFlowEntry img acc pos = loadFlow (imageWord img) (imageRings img) acc pos := by
  unfold applyFlowEntry loadFlow
  simp only [entryRing_toNat, ofHalves_pair, clampParams_words]
  generalize 23 + 4 * imageRings img + 12 * pos = first
  split
  · next hring =>
    cases hk : acc.1.findKey ⟨_, hring⟩ _ with
    | some i => rfl
    | none =>
      cases hv : acc.1.lowestVacant with
      | none => rw [createFlow_noVacant hv]
      | some j =>
        rw [createFlow_lowestVacant hv]
        rfl
  · rfl

/-- The tables of an image, entry by entry in image order. -/
theorem applyTables_eq (img : List Byte) (s : State) : applyTables img s =
    (List.range (imageWord img 3).toNat).foldl (loadFlow (imageWord img) (imageWord img 2).toNat)
      ((List.range (imageWord img 2).toNat).foldl (loadRing (imageWord img)) ({ s with values := imageValues img }, false)) := by
  have hring : applyRingEntry img = loadRing (imageWord img) := funext₂ (applyRingEntry_eq img)
  have hflow : applyFlowEntry img = loadFlow (imageWord img) (imageRings img) := funext₂ (applyFlowEntry_eq img)
  rw [applyTables, hring, hflow]
  rfl

/-! ## What the entries leave unchanged -/

/-- t has the start record and the period number of s, which the end of a load reads after the entries (06 R120; 10 R168). -/
structure LoadFrame (s t : State) : Prop where
  startRec     : t.startRec = s.startRec
  periodNumber : t.tally.periodNumber = s.tally.periodNumber

theorem LoadFrame.trans {s t u : State} (h : LoadFrame s t) (k : LoadFrame t u) : LoadFrame s u :=
  ⟨k.startRec.trans h.startRec, k.periodNumber.trans h.periodNumber⟩

theorem applyRingEntry_loadFrame (img : List Byte) (acc : State × Bool) (pos : Nat) :
    LoadFrame acc.1 (applyRingEntry img acc pos).1 := by
  unfold applyRingEntry
  dsimp only
  split
  · split
    · split <;> exact ⟨rfl, rfl⟩
    · exact ⟨rfl, rfl⟩
  · exact ⟨rfl, rfl⟩

theorem applyFlowEntry_loadFrame (img : List Byte) (acc : State × Bool) (pos : Nat) :
    LoadFrame acc.1 (applyFlowEntry img acc pos).1 :=
  have h := applyFlowEntry_frame img acc pos
  ⟨h.startRec, h.periodNumber⟩

theorem applyTables_loadFrame (img : List Byte) (s : State) : LoadFrame s (applyTables img s).1 := by
  have hrings := List.foldlRecOn (motive := fun acc : State × Bool => LoadFrame s acc.1) (List.range (imageRings img))
    (applyRingEntry img) (b := ({ s with values := imageValues img }, false)) ⟨rfl, rfl⟩
    (fun acc hacc pos _ => hacc.trans (applyRingEntry_loadFrame img acc pos))
  exact List.foldlRecOn (motive := fun acc : State × Bool => LoadFrame s acc.1) (List.range (imageFlows img)) (applyFlowEntry img)
    hrings (fun acc hacc pos _ => hacc.trans (applyFlowEntry_loadFrame img acc pos))

/-! ## The result of the read (10 R165) -/

section
variable {img : List Byte}

theorem readResult_absent (h : imageWord img 0 = 0xFFFF) : readResult img = .absent := if_pos h

theorem readResult_badMark (ha : imageWord img 0 ≠ 0xFFFF) (h : imageWord img 0 ≠ 0x444B ∨ imageWord img 1 ≠ 1) :
    readResult img = .badMark := by rw [readResult, if_neg ha, if_pos h]

section
variable (ha : imageWord img 0 ≠ 0xFFFF) (hm : ¬ (imageWord img 0 ≠ 0x444B ∨ imageWord img 1 ≠ 1))
include ha hm

theorem readResult_badContent (h : 16 < (imageWord img 2).toNat ∨ 256 < (imageWord img 3).toNat) : readResult img = .badContent := by
  rw [readResult, if_neg ha, if_neg hm]
  exact if_pos h

/-- An image whose header is good is judged by its sum. -/
theorem readResult_sum (hc : ¬ (16 < (imageWord img 2).toNat ∨ 256 < (imageWord img 3).toNat)) :
    readResult img = if imageSum img (imageWords img) ≠ 0 then .badSum else .good := by
  rw [readResult, if_neg ha, if_neg hm]
  exact if_neg hc

end

theorem imageSum_eq (n : Nat) : imageSum img n = ((List.range n).map (imageWord img)).foldl (fun a b => a + b) 0 := by
  rw [List.foldl_map]
  rfl

theorem imageWords_eq : imageWords img = 24 + 4 * (imageWord img 2).toNat + 12 * (imageWord img 3).toNat := by
  simp only [imageWords, imageRings, imageFlows]
  omega

end

/-! ## LOAD_END (10 R166) -/

/-- The image in use: its tables, then its codes and settings, then the entry to MONITORING. -/
theorem applyImage_eq (img : List Byte) (s : State) :
    let out := applyTables img s
    applyImage img s = { out.1 with
      device := .monitoring
      startRec := { s.startRec with result := if out.2 then .partly else .good }
      sweepNext := 0
      time := { s.time with silenceCode := imageSilenceCode img, silenceCounter := 0 }
      tally := ⟨s.tally.periodNumber, 0, imageTallyCode img, none, [out.1.fresh s.tally.periodNumber (imageTallyCode img)]⟩
      alarm := out.1.alarm.install (imageSettings img) out.1.log.records } := by
  obtain ⟨hstart, hnumber⟩ := applyTables_loadFrame img s
  have htime := (applyTables_timeFrame img s).time
  unfold applyImage
  dsimp only
  rw [← hstart, ← hnumber, ← htime]
  generalize applyTables img s = out
  rw [enterMonitoring_eq]
  rfl

section
variable {rest : List Byte} {s : State} (hl : s.device = .loading)
include hl

theorem exec_loadEnd : exec (.loadEnd rest) s = .next (endLoad (s.load.bytes ++ rest) s) :=
  congrArg Host.Outcome.next (if_pos hl)

/-- An image with any other result than GOOD is refused, and nothing of it used. -/
theorem loadEnd_refused {r : ConfigResult} (hr : readResult (s.load.bytes ++ rest) = r) (hgood : r ≠ .good) :
    ∃ l a0 a, (l, a0) = raiseInto s.time.tickCount .configFault .device (BitVec.ofNat 32 r.code) s.log s.alarm ∧
      exec (.loadEnd rest) s = .next { s with
        device := .unconfigured
        startRec := { s.startRec with result := r }
        tally := { s.tally with code := 1, pendingCode := none }
        time := { s.time with silenceCode := 1, silenceCounter := 0 }
        log := l
        alarm := a } ∧
      Resolved AlarmSettings.default (fun c => a0.pendingSet.has c &&
        (AlarmSettings.default.modes.has c || l.records.any (fun r => r.cls == c))) a := by
  rcases hraised : raiseInto s.time.tickCount .configFault .device (BitVec.ofNat 32 r.code) s.log s.alarm with ⟨l, a0⟩
  refine ⟨l, a0, _, rfl, ?_, resolved_install _ _ _⟩
  have hend : endLoad (s.load.bytes ++ rest) s = refuseImage r s := by
    unfold endLoad
    rw [hr]
    split
    · exact absurd rfl hgood
    · rfl
  rw [exec_loadEnd hl, hend, refuseImage, configFault, raise, hraised]
  rfl

/-- A good image is used. -/
theorem loadEnd_good (hr : readResult (s.load.bytes ++ rest) = .good) :
    exec (.loadEnd rest) s = .next (applyImage (s.load.bytes ++ rest) s) := by
  rw [exec_loadEnd hl, endLoad, hr]

end

/-- Settles O51: the words of the image decide its result, and a good image is taken entry by entry. -/
theorem loadEndUsesOrRefusesImage : Obligations.LoadEndUsesOrRefusesImage := by
  unfold Obligations.LoadEndUsesOrRefusesImage
  intro rest s hl b w
  let img := s.load.bytes ++ rest
  have hw : w = imageWord img := funext fun i => (imageWord_eq_ofNat _ i).symm
  clear_value w
  subst hw
  intro words absent badMark badContent sum badSum
  have hsum : imageSum img (imageWords img) = sum := by rw [imageWords_eq, imageSum_eq]
  have hmark : ¬ absent → ¬ badMark → ¬ (imageWord img 0 ≠ 0x444B ∨ imageWord img 1 ≠ 1) := fun ha hm h => hm ⟨ha, h⟩
  have hcontent : ¬ absent → ¬ badMark → ¬ badContent → ¬ (16 < (imageWord img 2).toNat ∨ 256 < (imageWord img 3).toNat) :=
    fun ha hm hc h => hc ⟨ha, hm, h⟩
  refine ⟨?refused, ?used⟩
  case refused =>
    rintro result code
      (⟨ha, rfl, rfl⟩ | ⟨⟨ha, hm⟩, rfl, rfl⟩ | ⟨⟨ha, hm, hc, hs⟩, rfl, rfl⟩ | ⟨⟨ha, hm, hc⟩, rfl, rfl⟩)
    · exact loadEnd_refused hl (readResult_absent ha) nofun
    · exact loadEnd_refused hl (readResult_badMark ha hm) nofun
    · refine loadEnd_refused hl ((readResult_sum ha (hmark ha hm) (hcontent ha hm hc)).trans (if_pos ?_)) nofun
      rwa [hsum]
    · exact loadEnd_refused hl (readResult_badContent ha (hmark ha hm) hc) nofun
  case used =>
    intro ha hm hc hs
    have hgood := (readResult_sum ha (hmark ha hm) (hcontent ha hm hc)).trans (if_neg (not_not.mpr (hsum.trans hs)))
    have hused := applyImage_eq img s
    rw [applyTables_eq, imageTallyCode_eq, imageSilenceCode_eq] at hused
    exact ⟨imageValues _, imageSettings _, _, imageValues_ofWords _, imageSettings_ofWords _,
      (loadEnd_good hl hgood).trans (congrArg Host.Outcome.next hused), resolved_install _ _ _⟩

end Sys2Proof.Machine
end

