-- ==== Sys2Proof/Proofs/CommandQueue.lean ====
section
/-! The queue of commands: a step takes the command at its front, no command touches it, every command has a next state, and a command
whose event has not fallen due answers the state as it is (09 R153, R154; log entries 1 and 3). -/

namespace Sys2Proof.Machine

/-! ## One step -/

theorem step_of_pending_cons {s : State} {c : Instr} {rest : List Instr} (h : s.pending = c :: rest) :
    step s = exec c { s with pending := rest } := by
  rw [step, h]

theorem step_of_pending_nil {s : State} (h : s.pending = []) : step s = .next s := by
  rw [step, h]

/-- Settles O1: the two cases of the queue. -/
theorem stepRunsFrontCommand : Obligations.StepRunsFrontCommand := by
  unfold Obligations.StepRunsFrontCommand
  exact ⟨fun _ _ _ h => step_of_pending_cons h, fun _ h => step_of_pending_nil h⟩

/-! ## Commands whose event has not fallen due -/

/-- Outside MONITORING, and before the tally timer has reached the period length, no boundary is due (06 R107). -/
theorem boundaryDue_eq_false {s : State} (h : s.device ≠ .monitoring ∨ s.tally.timer < periodLength s.tally.code) :
    s.boundaryDue = false := by
  rw [State.boundaryDue, Bool.and_eq_false_iff, beq_eq_false_iff_ne, decide_eq_false_iff_not, Nat.not_le]
  exact h

/-- Settles O3: one case for each command that waits for its event. -/
theorem eventNotDueChangesNothing : Obligations.EventNotDueChangesNothing := by
  unfold Obligations.EventNotDueChangesNothing
  intro c s h
  cases c with
  | tick pins => exact congrArg Host.Outcome.next (tick_notDue pins h)
  | refLoss => exact congrArg Host.Outcome.next (refLoss_notDue h)
  | measurementCompletion => exact congrArg Host.Outcome.next (measurementCompletion_notDue h)
  | millisecondStrobe => exact congrArg Host.Outcome.next (millisecondStrobe_notDue h)
  | secondsStrobe => exact congrArg Host.Outcome.next (secondsStrobe_notDue h)
  | sweepPace => exact congrArg Host.Outcome.next (sweepPace_notDue h)
  | silenceTick => exact congrArg Host.Outcome.next (silenceTick_notDue h)
  | boundary => exact congrArg Host.Outcome.next (boundary_notDue (boundaryDue_eq_false h))
  | debouncedStateChange i => exact congrArg Host.Outcome.next (debouncedStateChange_notDue i h)
  | gapLimitExpiry => exact congrArg Host.Outcome.next (gapLimitExpiry_notDue h)
  | quietLimitExpiry => exact congrArg Host.Outcome.next (quietLimitExpiry_notDue h)
  | replyStart => exact congrArg Host.Outcome.next (replyStart_notDue h)
  | replyEnd => exact congrArg Host.Outcome.next (replyEnd_notDue h)
  | loadEnd image => exact congrArg Host.Outcome.next (loadEnd_notLoading image h)
  | seenRisingEdge => exact congrArg Host.Outcome.next (seenRisingEdge_notDue h)
  | _ => exact False.elim h

/-! ## The time base and the panel leave the queue -/

section
variable (s : State)

@[simp] theorem seenRisingEdge_pending : (seenRisingEdge s).pending = s.pending := by
  unfold seenRisingEdge
  split <;> rfl

@[simp] theorem measurementCompletion_pending : (measurementCompletion s).pending = s.pending := by
  unfold measurementCompletion
  split
  · unfold takeMeasurement
    dsimp only
    split
    · split <;> rfl
    · split <;> rfl
  · rfl

@[simp] theorem refLoss_pending : (refLoss s).pending = s.pending := by
  unfold refLoss
  split
  · dsimp only
    split <;> rfl
  · rfl

@[simp] theorem tick_pending (pins : Pins) : (tick pins s).pending = s.pending := by
  unfold tick
  split <;> rfl

@[simp] theorem debouncedStateChange_pending (i : PanelInput) : (debouncedStateChange i s).pending = s.pending := by
  unfold debouncedStateChange
  dsimp only
  split
  · cases i with
    | clrA | clrB => rfl
    | ack =>
      dsimp only
      split <;> rfl
  · rfl

@[simp] theorem clockCore_pending (ref : Bool) : (clockCore ref s).pending = s.pending := rfl

@[simp] theorem millisecondStrobe_pending : (millisecondStrobe s).pending = s.pending := by
  unfold millisecondStrobe
  split <;> rfl

@[simp] theorem clearTallies_pending : (clearTallies s).pending = s.pending := by
  unfold clearTallies
  split <;> rfl

@[simp] theorem chordStrobe_pending : (chordStrobe s).pending = s.pending := by
  unfold chordStrobe
  split
  · split
    · rfl
    · unfold authoriseChord
      dsimp only
      split
      · exact clearTallies_pending _
      · rfl
  · rfl

@[simp] theorem secondsStrobe_pending : (secondsStrobe s).pending = s.pending := by
  unfold secondsStrobe
  split
  · exact chordStrobe_pending _
  · rfl

/-! ## The sweep, the tally timer and the descriptor path leave the queue -/

@[simp] theorem sweepPace_pending : (sweepPace s).pending = s.pending := by
  unfold sweepPace
  split
  · dsimp only
    split
    · exact (sweepVisit_frame s.sweepNext { s with due := { s.due with sweepPace := false } }).pending
    · rfl
  · rfl

@[simp] theorem silenceTick_pending : (silenceTick s).pending = s.pending := by
  unfold silenceTick
  split
  · dsimp only
    split
    · exact (foldl_transferFrame ringOrder stepSilence stepSilence_frame { s with due := { s.due with silenceTick := false } }).pending
    · rfl
  · rfl

@[simp] theorem boundary_pending : (boundary s).pending = s.pending := by
  unfold boundary
  split <;> rfl

@[simp] theorem busReset_pending : (busReset s).pending = s.pending := by
  unfold busReset
  split
  · rfl
  · have hflushed := (foldl_flushRing_frame ringOrder s).pending
    generalize ringOrder.foldl flushRing s = u at hflushed ⊢
    exact hflushed

/-! ## Requests leave the queue -/

@[simp] theorem defineRing_pending (ring : Nat) (b : BitVec 22) (n : Nat) (stamp enrol : Bool) :
    (defineRing ring b n stamp enrol s).1.pending = s.pending := by
  unfold defineRing
  split
  · dsimp only
    split <;> rfl
  · rfl

@[simp] theorem ringOff_pending (ring : Nat) : (ringOff ring s).1.pending = s.pending := by
  unfold ringOff
  split
  · dsimp only
    split <;> rfl
  · rfl

@[simp] theorem takeIncidents_pending (n : Byte) : (takeIncidents n s).1.pending = s.pending := by
  unfold takeIncidents removeOldest
  dsimp only
  split <;> rfl

@[simp] theorem setAlarmMap_pending (c : Vector Byte 14) (m p d : Byte) : (setAlarmMap c m p d s).1.pending = s.pending := by
  unfold setAlarmMap
  split <;> rfl

@[simp] theorem setTallyPeriod_pending (c : Byte) : (setTallyPeriod c s).1.pending = s.pending := by
  unfold setTallyPeriod
  split <;> rfl

@[simp] theorem startPart_pending : (startPart s).1.pending = s.pending := by
  unfold startPart
  split <;> rfl

@[simp] theorem perform_pending (req : Request) : (perform req s).1.pending = s.pending := by
  cases req with
  | status | findFlow r k | acknowledge c | restart => rfl
  | readFlow i p => exact congrArg State.pending (readFlow_state i p s)
  | readRing r p => exact congrArg State.pending (readRing_state r p s)
  | readSummary n p => exact congrArg State.pending (readSummary_state n p s)
  | defineFlow r k a => exact (defineFlow_frame _ _ _ s).pending
  | removeFlow i => exact (removeFlow_frame _ s).pending
  | setPeriod i p => exact (setPeriod_frame _ _ s).pending
  | defineRing r b n o => exact defineRing_pending s _ _ _ _ _
  | ringOff r => exact ringOff_pending s _
  | takeIncidents n => exact takeIncidents_pending s n
  | setAlarmMap c m p d => exact setAlarmMap_pending s c m p d
  | setTallyPeriod c => exact setTallyPeriod_pending s c
  | clearTallies => exact clearTallies_pending s
  | start => exact startPart_pending s

/-! ## The end of a load leaves the queue -/

@[simp] theorem applyRingEntry_pending (img : List Byte) (acc : State × Bool) (pos : Nat) :
    (applyRingEntry img acc pos).1.pending = acc.1.pending := by
  unfold applyRingEntry
  dsimp only
  split
  · split
    · split <;> rfl
    · rfl
  · rfl

@[simp] theorem applyTables_pending (img : List Byte) : (applyTables img s).1.pending = s.pending := by
  have hrings := List.foldlRecOn (motive := fun acc : State × Bool => acc.1.pending = s.pending) (List.range (imageRings img))
    (applyRingEntry img) (b := ({ s with values := imageValues img }, false)) rfl
    (fun acc hacc pos _ => (applyRingEntry_pending img acc pos).trans hacc)
  exact List.foldlRecOn (motive := fun acc : State × Bool => acc.1.pending = s.pending) (List.range (imageFlows img))
    (applyFlowEntry img) hrings (fun acc hacc pos _ => (applyFlowEntry_frame img acc pos).pending.trans hacc)

@[simp] theorem loadEnd_pending (image : List Byte) : (loadEnd image s).pending = s.pending := by
  unfold loadEnd endLoad
  split
  · split
    · exact applyTables_pending s (s.load.bytes ++ image)
    · rfl
  · rfl

end

/-! ## Every command -/

/-- A queue that stands is kept by every event of the part itself, and so by whatever the tally line receives and by settling. -/
theorem pending_keptByEvents (q : List Instr) : KeptByEvents (fun t => t.pending = q) where
  seenRisingEdge s := (seenRisingEdge_pending s).trans
  measurementCompletion s := (measurementCompletion_pending s).trans
  refLoss s := (refLoss_pending s).trans
  tick pins s := (tick_pending s pins).trans
  loadEnd image s := (loadEnd_pending s image).trans
  debouncedStateChange i s := (debouncedStateChange_pending s i).trans
  sweepPace s := (sweepPace_pending s).trans
  millisecondStrobe s := (millisecondStrobe_pending s).trans
  secondsStrobe s := (secondsStrobe_pending s).trans
  silenceTick s := (silenceTick_pending s).trans
  boundary s := (boundary_pending s).trans
  line _ _ h := h
  restart _ h := h
  perform req s _ := (perform_pending s req).trans

/-- Every command has a next state, with the queue as it was. -/
theorem exec_next_pending (c : Instr) (s : State) : ∃ t, exec c s = .next t ∧ t.pending = s.pending := by
  have events := pending_keptByEvents s.pending
  have line : ∀ addr req, (lineRequest addr req s).pending = s.pending := fun addr req => events.lineRequest addr req rfl
  cases c with
  | powerOn x => exact ⟨_, rfl, rfl⟩
  | busTransfer write addr slen data => exact ⟨_, rfl, (busTransfer_frame _ s).pending⟩
  | readDataCheck data => exact ⟨_, rfl, (readDataCheck_frame data s).pending⟩
  | busReset => exact ⟨_, rfl, busReset_pending s⟩
  | swRstNRelease => exact ⟨_, rfl, rfl⟩
  | busClock ref => exact ⟨_, rfl, (clockCore_pending _ ref).trans (events.settle rfl)⟩
  | seenRisingEdge => exact ⟨_, rfl, seenRisingEdge_pending s⟩
  | measurementCompletion => exact ⟨_, rfl, measurementCompletion_pending s⟩
  | refLoss => exact ⟨_, rfl, refLoss_pending s⟩
  | tick pins => exact ⟨_, rfl, tick_pending s pins⟩
  | millisecondStrobe => exact ⟨_, rfl, millisecondStrobe_pending s⟩
  | secondsStrobe => exact ⟨_, rfl, secondsStrobe_pending s⟩
  | sweepPace => exact ⟨_, rfl, sweepPace_pending s⟩
  | silenceTick => exact ⟨_, rfl, silenceTick_pending s⟩
  | boundary => exact ⟨_, rfl, boundary_pending s⟩
  | debouncedStateChange i => exact ⟨_, rfl, debouncedStateChange_pending s i⟩
  | loadEnd image => exact ⟨_, rfl, loadEnd_pending s image⟩
  | addressCharacter d e => exact ⟨_, rfl, events.addressCharacter d e rfl⟩
  | dataCharacter d e => exact ⟨_, rfl, events.dataCharacter d e rfl⟩
  | gapLimitExpiry => exact ⟨_, rfl, events.gapLimitExpiry rfl⟩
  | quietLimitExpiry => exact ⟨_, rfl, events.quietLimitExpiry rfl⟩
  | replyStart => exact ⟨_, rfl, events.replyStart rfl⟩
  | replyEnd => exact ⟨_, rfl, events.replyEnd rfl⟩
  | status addr | readFlow addr i p | findFlow addr r k | defineFlow addr r k a | removeFlow addr i | setPeriod addr i p
  | readRing addr r p | defineRing addr r b n o | ringOff addr r | readSummary addr n p | takeIncidents addr n
  | acknowledge addr c | setAlarmMap addr c m p d | setTallyPeriod addr c | clearTallies addr | restart addr | start addr =>
    exact ⟨_, rfl, line addr _⟩

/-- Settles O2: each event of the part leaves the queue, so receiving, settling and the dispatch do. -/
theorem everyCommandCompletes : Obligations.EveryCommandCompletes := by
  unfold Obligations.EveryCommandCompletes
  exact exec_next_pending

end Sys2Proof.Machine
end
